-- ==== Sys2Proof/Word.lean ====
section
/-! DEFINITION. The words of the Ufiva K24: bytes, 16-bit counters, uptimes, pad sets, the ids of keys and
groups, and a saturating count (spec/00_scope.md section 0.7). -/

namespace Sys2Proof

/-- One byte of the serial link. -/
abbrev Byte := BitVec 8

/-- A 16-bit number that wraps: a config version (R26), a sequence number (R100), a CRC (R118). -/
abbrev Word := BitVec 16

/-- An uptime in milliseconds, wrapping after 4 294 967 295. -/
abbrev Time := BitVec 32

/-- A set of pads: bit n set means that Pn is a member (R2). -/
abbrev PadSet := BitVec 24

/-- A key id, 0 to 31 (R21). -/
abbrev KeyId := Fin 32

/-- A group id, 0 to 7 (R86). -/
abbrev GroupId := Fin 8

/-- Every key id in ascending order. -/
def allKeys : List KeyId := List.finRange 32

/-- Every group id in ascending order. -/
def allGroups : List GroupId := List.finRange 8

/-- A count one higher, stopping at its maximum (section 0.7, SATURATING). -/
def satSucc (max n : Nat) : Nat := if n < max then n + 1 else n

/-- The vector whose entry for each index is given by a function of that index. -/
def vecOf {α : Type} {n : Nat} (f : Fin n → α) : Vector α n :=
  ⟨⟨(List.finRange n).map f⟩, by simp⟩

/-- A vector with a function applied to each entry. -/
def vecMap {α β : Type} {n : Nat} (f : α → β) (v : Vector α n) : Vector β n :=
  vecOf fun i => f v[i]

/-- A vector with one entry replaced. -/
def vecSet {α : Type} {n : Nat} (v : Vector α n) (i : Fin n) (x : α) : Vector α n :=
  v.set i.val x i.isLt

end Sys2Proof
end

