-- ==== Sys2Proof/Syntax.lean ====
section
/-! DEFINITION. The commands of the Ufiva K24, one constructor for each row of spec/opcode_table.json. The table
gives its rows no operands; those below are the model's (INVENTORY.md, Instructions; log entries 5 to 8). -/

namespace Sys2Proof

/-- A command to the part. The first 29 are checked REQUEST frames that carry one request code of Table 8-2 (or a
code outside it), with the tag and the payload the frame carried; the rest are the other events. -/
inductive Instr where
  | identify (tag : Byte) (payload : List Byte)
  | readStatus (tag : Byte) (payload : List Byte)
  | softReset (tag : Byte) (payload : List Byte)
  | setKey (tag : Byte) (payload : List Byte)
  | getKey (tag : Byte) (payload : List Byte)
  | setRef (tag : Byte) (payload : List Byte)
  | getRef (tag : Byte) (payload : List Byte)
  | setGroup (tag : Byte) (payload : List Byte)
  | getGroup (tag : Byte) (payload : List Byte)
  | setPlan (tag : Byte) (payload : List Byte)
  | getPlan (tag : Byte) (payload : List Byte)
  | startScan (tag : Byte) (payload : List Byte)
  | stopScan (tag : Byte) (payload : List Byte)
  | measure (tag : Byte) (payload : List Byte)
  | recalibrate (tag : Byte) (payload : List Byte)
  | readKeys (tag : Byte) (payload : List Byte)
  | flushReports (tag : Byte) (payload : List Byte)
  | resync (tag : Byte) (payload : List Byte)
  | setLink (tag : Byte) (payload : List Byte)
  | readLinkStats (tag : Byte) (payload : List Byte)
  | setOutputs (tag : Byte) (payload : List Byte)
  | getOutputs (tag : Byte) (payload : List Byte)
  | setDoze (tag : Byte) (payload : List Byte)
  | getDoze (tag : Byte) (payload : List Byte)
  | enterDoze (tag : Byte) (payload : List Byte)
  | profileSave (tag : Byte) (payload : List Byte)
  | profileLoad (tag : Byte) (payload : List Byte)
  | profileInfo (tag : Byte) (payload : List Byte)
  /-- A request whose code is not in Table 8-2 (R141). -/
  | unknownRequest (tag code : Byte) (payload : List Byte)
  /-- A checked REQUEST frame of any code (R121). -/
  | requestFrame (tag code : Byte) (payload : List Byte)
  /-- A complete FLOW frame of L = 5 whose CRC matched: its flags, ack and window fields (Table 7-2). -/
  | flowFrame (flags : Byte) (ack : Word) (window : Byte)
  /-- A complete frame as received, its body and its CRC field, to be checked by R120. -/
  | frameDiscard (body : List Byte) (crc : Word)
  /-- One byte taken by the receiver (R119). -/
  | strayByte (b : Byte)
  /-- More than 10 ms without a byte (R119). -/
  | gap
  /-- The end of the last stop bit of the frame on the line (R123). -/
  | frameBoundary
  | ackTimerExpiry
  | dischargeEnd
  | chargeEnd
  /-- The end of TRANSFER: the comparison at which the node is found below the trip level, if any (R8). -/
  | transferEnd (trip : Option Nat)
  | periodTimerExpiry
  | idleTimerExpiry
  | enteringEnd
  | intervalTimerExpiry
  | hwakeFall
  | hwakeRise
  | wakeComplete
  | erasingEnd
  | programmingEnd
  /-- The end of VERIFYING: whether the slot reads back as written (R173). -/
  | verifyingEnd (matched : Bool)
  /-- The end of COMMITTING: whether the commit mark reads back present (R173). -/
  | committingEnd (markPresent : Bool)
  | attnPulseEnd
  | bselEdge
  | powerOn
  | resetLow
  | boot
  deriving DecidableEq, Repr

end Sys2Proof
end

