-- ==== Sys2Proof/Config.lean ====
section
/-! DEFINITION. What the part fixes in silicon (Table 8-4), its capacities, and the one value the spec leaves open. -/

namespace Sys2Proof.Config

/-- The capacity of the report queue (R100). -/
def queueCapacity : Nat := 32

/-- The capacity of the inbox (R121, R139). -/
def inboxCapacity : Nat := 2

/-- The largest value of the 16-bit saturating counters (R39, R100, R122). -/
def countMax : Nat := 65535

/-- The largest fault streak (R62, R82). -/
def streakMax : Nat := 255

/-- The largest generation of a profile (R169). -/
def generationMax : Nat := 4294967295

/-- The vendor, family, part and revision codes and the capacities that IDENTIFY returns (R146, Table 8-4). -/
def identity : List Byte := [0x55, 0x4B, 0x18, 0x03, 24, 32, 8, 64, 32, 2]

/-- FREE VALUE (log entry 12). Whether the examination at boot finds a slot whose erase or programming was cut
EMPTY (true) or INVALID (false): R172 and R174 leave both open. Applied to the counter `State.free`. -/
opaque tornReadsEmpty : Nat → Bool

end Sys2Proof.Config
end

