-- ==== Sys2Proof/Machine/Types.lean ====
section
/-! DEFINITION. The pieces the state of the Ufiva K24 is made of, block by block. -/

namespace Sys2Proof.Machine

/-! ### Measurement parameters and configuration records -/

/-- Modulation clock choices (Table 1-1). -/
inductive Clock where
  | f2 | f4 | f8 | f16 | f32 | s1 | s4
  deriving DecidableEq, Repr

/-- The five measurement parameters (R3, Table 1-1). -/
structure MeasureParams where
  clock : Clock
  charge : Nat
  trim : Nat
  limit : Nat
  floor : Nat
  deriving DecidableEq, Repr

/-- A key configuration record, fields 2 to 21 of Table 2-1 (R22). -/
structure KeyRecord where
  enabled : Bool
  padSet : PadSet
  meas : MeasureParams
  filterDepth : Nat
  touchThreshold : Nat
  releaseThreshold : Nat
  debounceIn : Nat
  debounceOut : Nat
  calSamples : Nat
  driftInterval : Nat
  negThreshold : Nat
  negCount : Nat
  maxOn : Nat
  faultLimit : Nat
  refComp : Bool
  reports : Bool
  deriving DecidableEq, Repr

/-- The reference configuration record (R25, Table 2-3). -/
structure RefRecord where
  meas : MeasureParams
  calSamples : Nat
  deriving DecidableEq, Repr

/-- The key table: 32 key records, the reference record, and their config versions (R21, R26). -/
structure KeyTable where
  keys : Vector KeyRecord 32
  ref : RefRecord
  keyVersions : Vector Word 32
  refVersion : Word
  deriving DecidableEq, Repr

/-- A plan entry: a key id or REF (R38). -/
inductive PlanEntry where
  | key (k : KeyId)
  | ref
  deriving DecidableEq, Repr

/-- A plan: an ordered list of entries and a cycle period in ms (R38). -/
structure Plan where
  period : Nat
  entries : List PlanEntry
  deriving DecidableEq, Repr

/-- Group kinds (Table 5-1). -/
inductive GroupKind where
  | none | exclusive | slider
  deriving DecidableEq, Repr

/-- The configuration part of a group record (R86): the parameter is the margin of an exclusive set or the step of
a slider. -/
structure GroupConfig where
  kind : GroupKind
  param : Nat
  members : List KeyId
  deriving DecidableEq, Repr

/-- A line map entry (Table 9-1). -/
inductive LineEntry where
  | key (k : KeyId)
  | group (g : GroupId)
  | none
  deriving DecidableEq, Repr

/-- Polarity of KL0 to KL3 (R152). -/
inductive Polarity where
  | activeLow | activeHigh
  deriving DecidableEq, Repr

/-- ATTN modes (R152). -/
inductive AttnMode where
  | level | pulse | off
  deriving DecidableEq, Repr

/-- The output settings (R152, Table 9-2). -/
structure OutputSettings where
  bank0 : Vector LineEntry 4
  bank1 : Vector LineEntry 4
  polarity : Polarity
  attnMode : AttnMode
  deriving DecidableEq, Repr

/-- The doze settings (R159, Table 10-1). -/
structure DozeSettings where
  idleTime : Nat
  interval : Nat
  padSet : PadSet
  meas : MeasureParams
  threshold : Nat
  debounce : Nat
  calSamples : Nat
  deriving DecidableEq, Repr

/-- Baud rates (Table 7-1): 19200, 57600, 115200 and 230400. -/
inductive Baud where
  | b19200 | b57600 | b115200 | b230400
  deriving DecidableEq, Repr

/-- The link settings (R134, Table 7-5). -/
structure LinkSettings where
  baud : Baud
  ackTimeout : Nat
  retryLimit : Nat
  window : Nat
  deriving DecidableEq, Repr

/-- The content of a profile image (R170, Table 11-2), and so a configuration as boot writes it. -/
structure Image where
  keys : Vector KeyRecord 32
  ref : RefRecord
  groups : Vector GroupConfig 8
  plan : Plan
  outputs : OutputSettings
  doze : DozeSettings
  link : LinkSettings
  autostart : Bool
  deriving DecidableEq, Repr

/-! ### Requests, responses and reports -/

/-- A request as received: tag, code and payload (R139). -/
structure Request where
  tag : Byte
  code : Byte
  payload : List Byte
  deriving DecidableEq, Repr

/-- The modes of SOFT_RESET (R149). -/
inductive ResetMode where
  | restart | defaults
  deriving DecidableEq, Repr

/-- Result codes (Table 8-1). -/
inductive ResultCode where
  | ok | deferred | accepted | unknownRequest | badLength | badField | state | busy | noPlan | noProfile
  deriving DecidableEq, Repr

/-- What is done at the last stop bit of a response frame: a change of baud rate (R136) or a soft reset (R150). -/
inductive AfterSend where
  | nothing
  | baud (b : Baud)
  | reset (m : ResetMode)
  deriving DecidableEq, Repr

/-- A response (R142), with what follows its last stop bit. -/
structure Response where
  tag : Byte
  code : Byte
  result : ResultCode
  payload : List Byte
  after : AfterSend
  deriving DecidableEq, Repr

/-- Outcomes of a measurement (Table 1-3). -/
inductive MeasureOutcome where
  | valid | limit | short | aborted
  deriving DecidableEq, Repr

/-- Reset causes (R148, Table 6-3). -/
inductive ResetCause where
  | powerOn | line | softRestart | softDefaults
  deriving DecidableEq, Repr

/-- Causes that end a touch (Table 4-3). -/
inductive UpCause where
  | lifted | suppressed | stuck | fault | reconfigured | stopped | unplanned | recal
  deriving DecidableEq, Repr

/-- Causes of KEY_RECAL (Table 6-3). -/
inductive RecalCause where
  | negative | stuck | host
  deriving DecidableEq, Repr

/-- Wake causes (Table 6-3). -/
inductive WakeCause where
  | touch | line | fault
  deriving DecidableEq, Repr

/-- The two profile slots (R169). -/
inductive SlotId where
  | a | b
  deriving DecidableEq, Repr

/-- What a report says: its kind with its subject and its payload fields (R102, Table 6-2). In BOOT the source is
a slot, or absent for DEFAULTS. -/
inductive Report where
  | boot (cause : ResetCause) (source : Option SlotId) (generation : Nat)
  | keyDown (k : KeyId) (delta : Int)
  | keyUp (k : KeyId) (cause : UpCause)
  | keyFault (k : KeyId) (outcome : MeasureOutcome) (count : Nat)
  | keyRecovered (k : KeyId)
  | keyRecal (k : KeyId) (cause : RecalCause)
  | sliderDown (g : GroupId) (position : Nat)
  | sliderMove (g : GroupId) (position : Nat)
  | sliderUp (g : GroupId) (position : Nat)
  | refFault (outcome : MeasureOutcome) (count : Nat)
  | refRecovered
  | wake (cause : WakeCause)
  | profileDone (slot : SlotId) (ok : Bool) (generation : Nat)
  | reportsLost (number : Nat)
  deriving DecidableEq, Repr

/-- A report entry (R101, Table 6-1); `sent` is its delivery mark. -/
structure ReportEntry where
  seq : Word
  report : Report
  time : Time
  sent : Bool
  deriving DecidableEq, Repr

/-- A move hold (R106). -/
structure Hold where
  position : Nat
  time : Time
  deriving DecidableEq, Repr

/-- The report queue (R100). -/
structure ReportQueue where
  entries : List ReportEntry
  nextSeq : Word
  lost : Nat
  holds : Vector (Option Hold) 8
  deriving DecidableEq, Repr

/-! ### Measurement engine -/

/-- Engine phases (R5). -/
inductive EnginePhase where
  | idle | discharge | charge | transfer
  deriving DecidableEq, Repr

/-- Kinds of owner of a measurement (R5). -/
inductive OwnerKind where
  | none | plan | host | wake
  deriving DecidableEq, Repr

/-- What is joined to the sense node: a pad set or REF (R1, R2). -/
inductive Target where
  | pads (set : PadSet)
  | ref
  deriving DecidableEq, Repr

/-- The owner record of a measurement (R5). -/
inductive Owner where
  | plan (index : Nat) (subject : PlanEntry) (version : Word)
  | host (r : Request)
  | wake
  deriving DecidableEq, Repr

/-- The measurement in progress: owner record, target and parameters copied at the grant (R5), and whether its
DISCHARGE and CHARGE are timed from the slow oscillator (R12). -/
structure Job where
  owner : Owner
  target : Target
  meas : MeasureParams
  slowTimed : Bool
  deriving DecidableEq, Repr

/-- The measurement engine (R5). `cut` is the model's own: an abort request found TRANSFER in this same moment, so that the
trip or the limit that fell together with it may still be taken first (R11; log entry 17). -/
structure Engine where
  phase : EnginePhase
  job : Option Job
  abort : Bool
  cut : Bool
  lastOwner : OwnerKind
  count : Nat
  deriving DecidableEq, Repr

/-- The sequencer's claim: the entry it is for (R13, R41). -/
structure PlanClaim where
  index : Nat
  subject : PlanEntry
  deriving DecidableEq, Repr

/-- The request handler's claim (R13, R18). -/
structure HostClaim where
  request : Request
  target : Target
  meas : MeasureParams
  deriving DecidableEq, Repr

/-- The waiting claims, at most one for each claimant (R13). -/
structure Claims where
  plan : Option PlanClaim
  host : Option HostClaim
  wake : Bool
  deriving DecidableEq, Repr

/-! ### Scan sequencer and trackers -/

/-- Sequencer run states (Table 3-2). -/
inductive RunState where
  | stopped | scanning | cycleWait | stopping | dozing
  deriving DecidableEq, Repr

/-- The scan sequencer (R38, R39). -/
structure Sequencer where
  runState : RunState
  plan : Plan
  pendingPlan : Option Plan
  position : Nat
  cycleStart : Time
  timerOn : Bool
  elapsed : Bool
  overruns : Nat
  deriving DecidableEq, Repr

/-- Key states (Table 4-2). -/
inductive KeyState where
  | disabled | settling | released | pressing | held | touched | lifting | faulted
  deriving DecidableEq, Repr

/-- A key runtime record (R58, Table 4-1). Its signal and its delta are functions of the window and the baseline
(R59): `KeyRuntime.signal` and `KeyRuntime.delta`. -/
structure KeyRuntime where
  state : KeyState
  window : List Nat
  baseline : Option Nat
  calSum : Nat
  calCount : Nat
  debounce : Nat
  faultStreak : Nat
  validStreak : Nat
  driftCount : Nat
  negStreak : Nat
  touchStart : Time
  downReported : Bool
  deriving DecidableEq, Repr

/-- Reference states (Table 4-6). -/
inductive RefState where
  | uncalibrated | settling | ready | faulted
  deriving DecidableEq, Repr

/-- The reference runtime record (R80, Table 4-6); its signal is a function of the window. -/
structure RefRuntime where
  state : RefState
  window : List Nat
  baseline : Option Nat
  calSum : Nat
  calCount : Nat
  faultStreak : Nat
  validStreak : Nat
  drift : Int
  deriving DecidableEq, Repr

/-- The runtime records of the key tracker and the reference tracker (R58, R80). -/
structure Tracker where
  keys : Vector KeyRuntime 32
  ref : RefRuntime
  deriving DecidableEq, Repr

/-- A group record (R86, Table 5-1). -/
structure Group where
  config : GroupConfig
  holder : Option KeyId
  touched : Bool
  lastPos : Nat
  deriving DecidableEq, Repr

/-! ### Host link and request handler -/

/-- Receiver states (R119). -/
inductive RxState where
  | searching | length | body | crc | disabled
  deriving DecidableEq, Repr

/-- The receiver: its state, L, and the body and CRC bytes of the partial frame (R119). -/
structure Receiver where
  state : RxState
  len : Nat
  bytes : List Byte
  deriving DecidableEq, Repr

/-- The link error counters (R122, Table 7-3). -/
structure Counters where
  noise : Nat
  length : Nat
  gap : Nat
  crc : Nat
  class' : Nat
  inboxDrop : Nat
  ackRange : Nat
  windowRange : Nat
  deriving DecidableEq, Repr

/-- A frame of the transmitter: a response or a report (R117). -/
inductive Frame where
  | response (r : Response)
  | report (e : ReportEntry)
  deriving DecidableEq, Repr

/-- The frame on the line, its contents fixed at its start (R124), and the rate it is sent at (R136). -/
structure TxFrame where
  frame : Frame
  rate : Baud
  deriving DecidableEq, Repr

/-- The transmitter arbiter: IDLE (no frame) or SENDING, the response slot, and the overflow reply slot (R121, R123). -/
structure Tx where
  sending : Option TxFrame
  respSlot : Option Response
  overflow : Option Response
  deriving DecidableEq, Repr

/-- Link states (R125). -/
inductive LinkState where
  | active | stalled
  deriving DecidableEq, Repr

/-- A running ack timer: the uptime of its start or restart and the ack timeout then in force (R125, R127, R135). -/
structure AckTimer where
  start : Time
  span : Nat
  deriving DecidableEq, Repr

/-- The delivery state (R125). -/
structure Delivery where
  link : LinkState
  window : Nat
  ackTimer : Option AckTimer
  retries : Nat
  deriving DecidableEq, Repr

/-- The link settings and the baud rate in force (R134, R136). -/
structure LinkCfg where
  settings : LinkSettings
  rate : Baud
  deriving DecidableEq, Repr

/-- The request handler (R139). -/
structure Handler where
  inbox : List Request
  executing : Option Request
  pendingReset : Option ResetMode
  deriving DecidableEq, Repr

/-! ### Doze controller and profile store -/

/-- Doze states (Table 10-3). -/
inductive DozeState where
  | awake | requested | entering | dozing | waking
  deriving DecidableEq, Repr

/-- Sources of an entry request (R159). -/
inductive EntrySource where
  | auto | host
  deriving DecidableEq, Repr

/-- The run state doze returns to (R54). -/
inductive Recorded where
  | stopped | running
  deriving DecidableEq, Repr

/-- The wake set runtime record (R159, Table 10-2). -/
structure WakeRecord where
  baseline : Option Nat
  signal : Option Nat
  calSum : Nat
  calCount : Nat
  touchStreak : Nat
  faultStreak : Nat
  driftCount : Nat
  deriving DecidableEq, Repr

/-- The doze controller (R159). `interval` is the uptime of the interval timer's last expiry, absent when stopped. -/
structure Doze where
  settings : DozeSettings
  wake : WakeRecord
  state : DozeState
  request : Option EntrySource
  idle : Nat
  interval : Option Time
  recorded : Recorded
  cause : Option WakeCause
  deriving DecidableEq, Repr

/-- Slot states (Table 11-1). -/
inductive SlotState where
  | empty | valid | invalid
  deriving DecidableEq, Repr

/-- What a programmed slot stores: generation, image with its autostart flag, checksum and commit mark (R169). -/
structure Written where
  generation : Nat
  image : Image
  checksum : Word
  mark : Bool
  deriving DecidableEq, Repr

/-- What the cells of a slot hold: all erased; a programmed content; a cut erase or programming, which an
examination finds empty or invalid; or other content, which it finds invalid (R169, R172). -/
inductive Cells where
  | erased
  | written (w : Written)
  | torn
  | junk
  deriving DecidableEq, Repr

/-- A slot: the store's record of its state, and its cells (R169). -/
structure Slot where
  state : SlotState
  cells : Cells
  deriving DecidableEq, Repr

/-- Save states (Table 11-1). -/
inductive SaveState where
  | idle | erasing | programming | verifying | committing
  deriving DecidableEq, Repr

/-- A save in flight: staged image, target slot and save generation (R169). -/
structure Staged where
  image : Image
  target : SlotId
  generation : Nat
  deriving DecidableEq, Repr

/-- The profile store (R169). -/
structure Store where
  slotA : Slot
  slotB : Slot
  save : SaveState
  staged : Option Staged
  deriving DecidableEq, Repr

/-! ### The part -/

/-- Whether the part is held in reset by RESET low, is in a reset whose next event is boot, once the supply and the fast oscillator
are ready, or runs (R148, R178). -/
inductive PartPhase where
  | held | bootDue | running
  deriving DecidableEq, Repr

/-- The levels on the input pins RESET, HWAKE and BSEL; true is high. -/
structure Pins where
  resetHigh : Bool
  hwakeHigh : Bool
  bselHigh : Bool
  deriving DecidableEq, Repr

end Sys2Proof.Machine
end

