-- ==== Sys2Proof/Machine/Defaults.lean ====
section
/-! DEFINITION. The factory defaults and what each block holds after reset. -/

namespace Sys2Proof.Machine

/-! ### Factory defaults (R36, section 11.2) and the values after reset -/

/-- The measurement parameters that key records and the reference record default to (Tables 2-1 and 2-3). -/
def MeasureParams.default : MeasureParams :=
  { clock := .f8, charge := 30, trim := 0, limit := 2000, floor := 32 }

/-- The default key record of a key id: the default column of Table 2-1, the single pad P(id mod 24). -/
def KeyRecord.default (k : KeyId) : KeyRecord :=
  { enabled := false, padSet := BitVec.ofNat 24 (2 ^ (k.val % 24)), meas := .default, filterDepth := 4,
    touchThreshold := 60, releaseThreshold := 40, debounceIn := 3, debounceOut := 3, calSamples := 16,
    driftInterval := 16, negThreshold := 40, negCount := 4, maxOn := 0, faultLimit := 3, refComp := false,
    reports := true }

/-- The default reference record (Table 2-3). -/
def RefRecord.default : RefRecord := { meas := .default, calSamples := 16 }

/-- A group of kind NONE (R86). -/
def GroupConfig.default : GroupConfig := { kind := .none, param := 0, members := [] }

/-- The empty plan with a cycle period of 20 ms (R38). -/
def Plan.default : Plan := { period := 20, entries := [] }

/-- All line entries NONE, ACTIVE_LOW, LEVEL (R152). -/
def OutputSettings.default : OutputSettings :=
  { bank0 := vecOf fun _ => .none, bank1 := vecOf fun _ => .none, polarity := .activeLow, attnMode := .level }

/-- The default column of Table 10-1. -/
def DozeSettings.default : DozeSettings :=
  { idleTime := 0, interval := 100, padSet := 0xFFFFFF#24,
    meas := { clock := .s4, charge := 30, trim := 0, limit := 2000, floor := 32 },
    threshold := 40, debounce := 2, calSamples := 8 }

/-- The default column of Table 7-5. -/
def LinkSettings.default : LinkSettings := { baud := .b115200, ackTimeout := 100, retryLimit := 4, window := 4 }

/-- The factory defaults (section 11.2). -/
def Image.factory : Image :=
  { keys := vecOf KeyRecord.default, ref := .default, groups := vecOf fun _ => .default, plan := .default,
    outputs := .default, doze := .default, link := .default, autostart := false }

/-- The engine after reset (R20). -/
def Engine.afterReset : Engine :=
  { phase := .idle, job := none, abort := false, cut := false, lastOwner := .none, count := 0 }

/-- No claim waiting (R20). -/
def Claims.none : Claims := { plan := .none, host := .none, wake := false }

/-- A key's runtime record after reset: SETTLING if its record is enabled, DISABLED if not (R58). -/
def KeyRuntime.afterReset (enabled : Bool) : KeyRuntime :=
  { state := if enabled then .settling else .disabled, window := [], baseline := none, calSum := 0, calCount := 0,
    debounce := 0, faultStreak := 0, validStreak := 0, driftCount := 0, negStreak := 0, touchStart := 0,
    downReported := false }

/-- The reference runtime record after reset (R80). -/
def RefRuntime.afterReset : RefRuntime :=
  { state := .uncalibrated, window := [], baseline := none, calSum := 0, calCount := 0, faultStreak := 0,
    validStreak := 0, drift := 0 }

/-- A group record with a configuration and the runtime part of a reset (R86). -/
def Group.fresh (c : GroupConfig) : Group := { config := c, holder := none, touched := false, lastPos := 0 }

/-- The report queue after reset (R100). -/
def ReportQueue.afterReset : ReportQueue :=
  { entries := [], nextSeq := 0, lost := 0, holds := vecOf fun _ => none }

/-- The receiver SEARCHING, with no partial frame (R138). -/
def Receiver.searching : Receiver := { state := .searching, len := 0, bytes := [] }

/-- Every error counter 0 (R122). -/
def Counters.zero : Counters :=
  { noise := 0, length := 0, gap := 0, crc := 0, class' := 0, inboxDrop := 0, ackRange := 0, windowRange := 0 }

/-- The transmitter IDLE, both slots empty (R138). -/
def Tx.idle : Tx := { sending := none, respSlot := none, overflow := none }

/-- The delivery state after reset: ACTIVE, the initial window, timer stopped, no retries (R138). -/
def Delivery.afterReset (l : LinkSettings) : Delivery :=
  { link := .active, window := l.window, ackTimer := none, retries := 0 }

/-- The request handler after reset (R139). -/
def Handler.afterReset : Handler := { inbox := [], executing := none, pendingReset := none }

/-- The sequencer after reset, with the plan of the configuration source (R56). -/
def Sequencer.afterReset (p : Plan) : Sequencer :=
  { runState := .stopped, plan := p, pendingPlan := none, position := 0, cycleStart := 0, timerOn := false,
    elapsed := false, overruns := 0 }

/-- The wake set runtime record after reset (Table 10-2). -/
def WakeRecord.afterReset : WakeRecord :=
  { baseline := none, signal := none, calSum := 0, calCount := 0, touchStreak := 0, faultStreak := 0, driftCount := 0 }

/-- The doze controller after reset (R159). -/
def Doze.afterReset (d : DozeSettings) : Doze :=
  { settings := d, wake := .afterReset, state := .awake, request := none, idle := 0, interval := none,
    recorded := .stopped, cause := none }

/-- An erased slot, as the part leaves the factory (R169, Table 11-1 note 2). -/
def Slot.erased : Slot := { state := .empty, cells := .erased }

end Sys2Proof.Machine
end

