-- ==== Sys2Proof/Machine/State.lean ====
section
/-! DEFINITION. The state of the Ufiva K24 as plain data, the reasons a step can stop, and the state after reset.
INVENTORY.md lists every field with the rule of spec/ that names it. -/

namespace Sys2Proof.Machine

/-- The state of the part, and the queue of commands that wait. -/
structure State where
  phase : PartPhase
  resetCause : ResetCause
  uptime : Time
  pins : Pins
  engine : Engine
  claims : Claims
  table : KeyTable
  seq : Sequencer
  track : Tracker
  groups : Vector Group 8
  queue : ReportQueue
  rx : Receiver
  counters : Counters
  tx : Tx
  delivery : Delivery
  linkCfg : LinkCfg
  handler : Handler
  outputs : OutputSettings
  attnPulse : Bool
  doze : Doze
  store : Store
  free : Nat
  pending : List Instr
  deriving DecidableEq, Repr

/-- Faults: none. The spec gives every command of this part an effect, or says that its event then cannot arise, so
no command ends the part's run; what it calls a fault is a state the part goes on from. Nothing raises one. -/
inductive Fault where
  deriving DecidableEq, Repr

/-- Refusals. -/
inductive Refusal where
  /-- The command has no meaning in the model yet. Safe: a run stops there. No arm of `exec` raises it. -/
  | notModelled (mnemonic : String)
  deriving DecidableEq, Repr

/-- The part right after a POWER_ON reset of a part as it leaves the factory: every block at its after-reset values,
both slots EMPTY and so the factory defaults as configuration, boot as the next event (R148, R178; log entries 1, 14). -/
def State.reset : State :=
  { phase := .bootDue
    resetCause := .powerOn
    uptime := 0
    pins := { resetHigh := true, hwakeHigh := true, bselHigh := true }
    engine := .afterReset
    claims := .none
    table := { keys := Image.factory.keys, ref := Image.factory.ref, keyVersions := vecOf fun _ => 0, refVersion := 0 }
    seq := .afterReset Image.factory.plan
    track := { keys := vecOf fun k => .afterReset Image.factory.keys[k].enabled, ref := .afterReset }
    groups := vecOf fun g => .fresh Image.factory.groups[g]
    queue := .afterReset
    rx := .searching
    counters := .zero
    tx := .idle
    delivery := .afterReset Image.factory.link
    linkCfg := { settings := Image.factory.link, rate := Image.factory.link.baud }
    handler := .afterReset
    outputs := Image.factory.outputs
    attnPulse := false
    doze := .afterReset Image.factory.doze
    store := { slotA := .erased, slotB := .erased, save := .idle, staged := none }
    free := 0
    pending := [] }

end Sys2Proof.Machine
end

