-- ==== Sys2Proof/Machine/Operands.lean ====
section
/-! DEFINITION. The wire forms: bytes of fields, codes of enumerations, records as payload bytes, the checks of payload
fields, the CRC, frames, and the request codes. -/

namespace Sys2Proof.Machine

/-! ### Fields in payloads, least significant byte first (section 0.7, WIRE ORDER) -/

/-- The byte at an offset of a payload, as a number. -/
def byteAt (p : List Byte) (i : Nat) : Nat := (p.getD i 0).toNat

/-- The 2-byte field at an offset. -/
def le16At (p : List Byte) (i : Nat) : Nat := byteAt p i + 256 * byteAt p (i + 1)

/-- The 3-byte field at an offset. -/
def le24At (p : List Byte) (i : Nat) : Nat := le16At p i + 65536 * byteAt p (i + 2)

/-- The 4-byte field at an offset. -/
def le32At (p : List Byte) (i : Nat) : Nat := le16At p i + 65536 * le16At p (i + 2)

/-- A number as one byte. -/
def byte1 (n : Nat) : List Byte := [BitVec.ofNat 8 n]

/-- A number as two bytes. -/
def le16 (n : Nat) : List Byte := [BitVec.ofNat 8 n, BitVec.ofNat 8 (n / 256)]

/-- A number as three bytes. -/
def le24 (n : Nat) : List Byte := le16 n ++ byte1 (n / 65536)

/-- A number as four bytes. -/
def le32 (n : Nat) : List Byte := le16 n ++ le16 (n / 65536)

/-- A signed number as a two's-complement 16-bit field. -/
def leS16 (i : Int) : List Byte := le16 (i % 65536).toNat

/-- A yes-or-no field: 0x00 no, 0x01 yes (R22). -/
def boolByte (b : Bool) : List Byte := byte1 (if b then 1 else 0)

/-- An optional count: 0xFFFF when absent (Table 4-7, R161). -/
def optCount (o : Option Nat) : List Byte := le16 (o.getD 0xFFFF)

/-! ### Codes -/

/-- Clock choice codes (Table 1-1). -/
def Clock.code : Clock → Nat
  | .f2 => 0 | .f4 => 1 | .f8 => 2 | .f16 => 3 | .f32 => 4 | .s1 => 5 | .s4 => 6

/-- The clock choice of a code. -/
def Clock.ofCode : Nat → Option Clock
  | 0 => some .f2 | 1 => some .f4 | 2 => some .f8 | 3 => some .f16 | 4 => some .f32 | 5 => some .s1 | 6 => some .s4
  | _ => none

/-- Plan entry bytes (Table 3-1). -/
def PlanEntry.code : PlanEntry → Nat
  | .key k => k.val
  | .ref => 0x80

/-- The plan entry of a byte. -/
def PlanEntry.ofCode (n : Nat) : Option PlanEntry :=
  if h : n < 32 then some (.key ⟨n, h⟩) else if n = 0x80 then some .ref else none

/-- Group kind codes (Table 5-1). -/
def GroupKind.code : GroupKind → Nat
  | .none => 0 | .exclusive => 1 | .slider => 2

/-- The group kind of a code. -/
def GroupKind.ofCode : Nat → Option GroupKind
  | 0 => some .none | 1 => some .exclusive | 2 => some .slider | _ => Option.none

/-- Line map entry bytes (Table 9-1). -/
def LineEntry.code : LineEntry → Nat
  | .key k => k.val
  | .group g => 0x40 + g.val
  | .none => 0xFF

/-- The line map entry of a byte. -/
def LineEntry.ofCode (n : Nat) : Option LineEntry :=
  if h : n < 32 then some (.key ⟨n, h⟩)
  else if 0x40 ≤ n ∧ n < 0x48 then some (.group (Fin.ofNat 8 (n - 0x40)))
  else if n = 0xFF then some .none else Option.none

/-- Polarity codes (Table 9-2). -/
def Polarity.code : Polarity → Nat
  | .activeLow => 0 | .activeHigh => 1

/-- The polarity of a code. -/
def Polarity.ofCode : Nat → Option Polarity
  | 0 => some .activeLow | 1 => some .activeHigh | _ => none

/-- ATTN mode codes (Table 9-2). -/
def AttnMode.code : AttnMode → Nat
  | .level => 0 | .pulse => 1 | .off => 2

/-- The ATTN mode of a code. -/
def AttnMode.ofCode : Nat → Option AttnMode
  | 0 => some .level | 1 => some .pulse | 2 => some .off | _ => none

/-- Baud rate codes (Table 7-1). -/
def Baud.code : Baud → Nat
  | .b19200 => 0 | .b57600 => 1 | .b115200 => 2 | .b230400 => 3

/-- The baud rate of a code. -/
def Baud.ofCode : Nat → Option Baud
  | 0 => some .b19200 | 1 => some .b57600 | 2 => some .b115200 | 3 => some .b230400 | _ => none

/-- Outcome codes (Table 1-3). -/
def MeasureOutcome.code : MeasureOutcome → Nat
  | .valid => 0 | .limit => 1 | .short => 2 | .aborted => 3

/-- Run state codes (Table 3-2). -/
def RunState.code : RunState → Nat
  | .stopped => 0 | .scanning => 1 | .cycleWait => 2 | .stopping => 3 | .dozing => 4

/-- Key state codes (Table 4-2). -/
def KeyState.code : KeyState → Nat
  | .disabled => 0 | .settling => 1 | .released => 2 | .pressing => 3 | .held => 4 | .touched => 5 | .lifting => 6
  | .faulted => 7

/-- Reference state codes (Table 4-6). -/
def RefState.code : RefState → Nat
  | .uncalibrated => 0 | .settling => 1 | .ready => 2 | .faulted => 3

/-- Link state codes (Table 7-6). -/
def LinkState.code : LinkState → Nat
  | .active => 0 | .stalled => 1

/-- Reset cause codes (Table 6-3). -/
def ResetCause.code : ResetCause → Nat
  | .powerOn => 0 | .line => 1 | .softRestart => 2 | .softDefaults => 3

/-- KEY_UP cause codes (Table 6-3). -/
def UpCause.code : UpCause → Nat
  | .lifted => 0 | .suppressed => 1 | .stuck => 2 | .fault => 3 | .reconfigured => 4 | .stopped => 5
  | .unplanned => 6 | .recal => 7

/-- KEY_RECAL cause codes (Table 6-3). -/
def RecalCause.code : RecalCause → Nat
  | .negative => 0 | .stuck => 1 | .host => 2

/-- WAKE cause codes (Table 6-3). -/
def WakeCause.code : WakeCause → Nat
  | .touch => 0 | .line => 1 | .fault => 2

/-- Slot codes (Table 6-3). -/
def SlotId.code : SlotId → Nat
  | .a => 0 | .b => 1

/-- Slot state codes (Table 11-1). -/
def SlotState.code : SlotState → Nat
  | .empty => 0 | .valid => 1 | .invalid => 2

/-- Save state codes (Table 11-1). -/
def SaveState.code : SaveState → Nat
  | .idle => 0 | .erasing => 1 | .programming => 2 | .verifying => 3 | .committing => 4

/-- Doze state codes (Table 10-3). -/
def DozeState.code : DozeState → Nat
  | .awake => 0 | .requested => 1 | .entering => 2 | .dozing => 3 | .waking => 4

/-- Entry request codes (R161). -/
def entryRequestCode : Option EntrySource → Nat
  | none => 0 | some .auto => 1 | some .host => 2

/-- Result codes (Table 8-1). -/
def ResultCode.code : ResultCode → Nat
  | .ok => 0x00 | .deferred => 0x01 | .accepted => 0x02 | .unknownRequest => 0x10 | .badLength => 0x11
  | .badField => 0x12 | .state => 0x13 | .busy => 0x14 | .noPlan => 0x15 | .noProfile => 0x16

/-! ### Field checks (R141 step 4) -/

/-- Whether a number lies in a range, both ends included. -/
def inRange (lo hi n : Nat) : Bool := decide (lo ≤ n) && decide (n ≤ hi)

/-- The index of the first field that fails, in field order. -/
def firstBad : List (Nat × Bool) → Option Nat
  | [] => none
  | (i, ok) :: rest => if ok then firstBad rest else some i

/-- The number of bits set among the low 32 bits of a number. -/
def popCount32 (n : Nat) : Nat := (List.range 32).countP fun i => n.testBit i

/-- The five measurement parameters at an offset of a payload (Table 1-1). -/
def readMeas (p : List Byte) (off : Nat) : MeasureParams :=
  { clock := (Clock.ofCode (byteAt p off)).getD .f8, charge := byteAt p (off + 1), trim := byteAt p (off + 2),
    limit := le16At p (off + 3), floor := le16At p (off + 5) }

/-- The checks of the five parameters, fields i to i + 4 of a request; the floor is checked against the limit of the
same request (R3). -/
def measChecks (i : Nat) (p : List Byte) (off : Nat) : List (Nat × Bool) :=
  [(i, (Clock.ofCode (byteAt p off)).isSome), (i + 1, inRange 1 255 (byteAt p (off + 1))),
   (i + 2, inRange 0 63 (byteAt p (off + 2))), (i + 3, inRange 64 4095 (le16At p (off + 3))),
   (i + 4, decide (le16At p (off + 5) < le16At p (off + 3)))]

/-- The bytes of the five parameters. -/
def MeasureParams.bytes (m : MeasureParams) : List Byte :=
  byte1 m.clock.code ++ byte1 m.charge ++ byte1 m.trim ++ le16 m.limit ++ le16 m.floor

/-- A pad set field (R2). -/
def readPads (p : List Byte) (off : Nat) : PadSet := BitVec.ofNat 24 (le24At p off)

/-- A key record, fields 2 to 21 of Table 2-1, at an offset of a payload (R22). -/
def readKeyRecord (p : List Byte) (off : Nat) : KeyRecord :=
  { enabled := byteAt p off == 1
    padSet := readPads p (off + 1)
    meas := readMeas p (off + 4)
    filterDepth := byteAt p (off + 11)
    touchThreshold := le16At p (off + 12)
    releaseThreshold := le16At p (off + 14)
    debounceIn := byteAt p (off + 16)
    debounceOut := byteAt p (off + 17)
    calSamples := byteAt p (off + 18)
    driftInterval := byteAt p (off + 19)
    negThreshold := le16At p (off + 20)
    negCount := byteAt p (off + 22)
    maxOn := le16At p (off + 23)
    faultLimit := byteAt p (off + 25)
    refComp := byteAt p (off + 26) == 1
    reports := byteAt p (off + 27) == 1 }

/-- The checks of SET_KEY, fields 1 to 21 (R29, R30). -/
def setKeyChecks (p : List Byte) : List (Nat × Bool) :=
  [(1, inRange 0 31 (byteAt p 0)), (2, inRange 0 1 (byteAt p 1)), (3, le24At p 2 != 0)] ++ measChecks 4 p 5 ++
  [(9, [1, 2, 4, 8].contains (byteAt p 12)), (10, inRange 1 2047 (le16At p 13)),
   (11, decide (le16At p 15 < le16At p 13)), (12, inRange 1 15 (byteAt p 17)), (13, inRange 1 15 (byteAt p 18)),
   (14, inRange 4 32 (byteAt p 19)), (15, inRange 0 255 (byteAt p 20)), (16, inRange 0 2047 (le16At p 21)),
   (17, inRange 1 15 (byteAt p 23)), (18, inRange 0 600 (le16At p 24)), (19, inRange 1 15 (byteAt p 26)),
   (20, inRange 0 1 (byteAt p 27)), (21, inRange 0 1 (byteAt p 28))]

/-- The 28 bytes of a key record (Table 2-1). -/
def KeyRecord.bytes (r : KeyRecord) : List Byte :=
  boolByte r.enabled ++ le24 r.padSet.toNat ++ r.meas.bytes ++ byte1 r.filterDepth ++ le16 r.touchThreshold ++
  le16 r.releaseThreshold ++ byte1 r.debounceIn ++ byte1 r.debounceOut ++ byte1 r.calSamples ++
  byte1 r.driftInterval ++ le16 r.negThreshold ++ byte1 r.negCount ++ le16 r.maxOn ++ byte1 r.faultLimit ++
  boolByte r.refComp ++ boolByte r.reports

/-- The reference record in a payload (Table 2-3). -/
def readRefRecord (p : List Byte) : RefRecord := { meas := readMeas p 0, calSamples := byteAt p 7 }

/-- The checks of SET_REF (R33). -/
def setRefChecks (p : List Byte) : List (Nat × Bool) := measChecks 1 p 0 ++ [(6, inRange 4 32 (byteAt p 7))]

/-- The 8 bytes of the reference record (Table 2-3). -/
def RefRecord.bytes (r : RefRecord) : List Byte := r.meas.bytes ++ byte1 r.calSamples

/-- The member bytes of a SET_GROUP payload (Table 5-2). -/
def memberBytes (p : List Byte) : List Nat := (List.range (byteAt p 4)).map fun i => byteAt p (5 + i)

/-- The group configuration a SET_GROUP payload asks for: exclusive members in ascending order of key id, slider
members in the order of the request (R89). -/
def readGroup (p : List Byte) : GroupConfig :=
  let kind := (GroupKind.ofCode (byteAt p 1)).getD .none
  { kind := kind, param := le16At p 2,
    members := match kind with
      | .exclusive => allKeys.filter fun k => (memberBytes p).contains k.val
      | _ => (memberBytes p).map (Fin.ofNat 32) }

/-- The parameter range of each kind (R88). -/
def groupParamOk : GroupKind → Nat → Bool
  | .none, n => n == 0
  | .exclusive, n => inRange 0 2047 n
  | .slider, n => inRange 1 64 n

/-- The member count range of each kind (R88). -/
def groupCountOk : GroupKind → Nat → Bool
  | .none, n => n == 0
  | .exclusive, n => inRange 2 16 n
  | .slider, n => inRange 2 8 n

/-- Whether a key id is a member of a group other than the one named (R88). -/
def inOtherGroup (groups : Vector Group 8) (g k : Nat) : Bool :=
  allGroups.any fun j => decide (j.val ≠ g) && (groups[j].config.members.map Fin.val).contains k

/-- The checks of SET_GROUP's members, each with its index: a key id, not repeated, in no other group (R88). -/
def memberChecks (groups : Vector Group 8) (p : List Byte) : List (Nat × Bool) :=
  (List.range (byteAt p 4)).map fun i =>
    (i + 5, decide (byteAt p (5 + i) < 32) && !((memberBytes p).take i).contains (byteAt p (5 + i)) &&
      !inOtherGroup groups (byteAt p 0) (byteAt p (5 + i)))

/-- The checks of SET_GROUP (R88). -/
def setGroupChecks (groups : Vector Group 8) (p : List Byte) : List (Nat × Bool) :=
  [(1, inRange 0 7 (byteAt p 0)), (2, (GroupKind.ofCode (byteAt p 1)).isSome),
   (3, groupParamOk ((GroupKind.ofCode (byteAt p 1)).getD .none) (le16At p 2)),
   (4, groupCountOk ((GroupKind.ofCode (byteAt p 1)).getD .none) (byteAt p 4))] ++ memberChecks groups p

/-- A group's configuration as SET_GROUP and GET_GROUP carry it after the group id (Tables 5-2 and 5-3). -/
def GroupConfig.bytes (c : GroupConfig) : List Byte :=
  byte1 c.kind.code ++ le16 c.param ++ byte1 c.members.length ++ c.members.flatMap fun k => byte1 k.val

/-- The plan a SET_PLAN payload carries (Table 3-3). -/
def readPlan (p : List Byte) : Plan :=
  { period := le16At p 0, entries := (p.drop 3).filterMap fun b => PlanEntry.ofCode b.toNat }

/-- The checks of SET_PLAN: period, entry count, and each entry at its position in the list plus 3 (R47). -/
def setPlanChecks (p : List Byte) : List (Nat × Bool) :=
  [(1, inRange 1 1000 (le16At p 0)), (2, inRange 1 64 (byteAt p 2))] ++
  (List.range (byteAt p 2)).map fun i => (i + 3, (PlanEntry.ofCode (byteAt p (3 + i))).isSome)

/-- A plan as GET_PLAN carries it: period, entry count, entries (R49). -/
def Plan.bytes (pl : Plan) : List Byte :=
  le16 pl.period ++ byte1 pl.entries.length ++ pl.entries.flatMap fun e => byte1 e.code

/-- The output settings in a payload (Table 9-2). -/
def readOutputs (p : List Byte) : OutputSettings :=
  { bank0 := vecOf fun n => (LineEntry.ofCode (byteAt p n.val)).getD .none
    bank1 := vecOf fun n => (LineEntry.ofCode (byteAt p (4 + n.val))).getD .none
    polarity := (Polarity.ofCode (byteAt p 8)).getD .activeLow
    attnMode := (AttnMode.ofCode (byteAt p 9)).getD .level }

/-- The checks of SET_OUTPUTS (R157). -/
def setOutputsChecks (p : List Byte) : List (Nat × Bool) :=
  ((List.range 8).map fun i => (i + 1, (LineEntry.ofCode (byteAt p i)).isSome)) ++
  [(9, (Polarity.ofCode (byteAt p 8)).isSome), (10, (AttnMode.ofCode (byteAt p 9)).isSome)]

/-- The 10 bytes of the output settings (Table 9-2). -/
def OutputSettings.bytes (o : OutputSettings) : List Byte :=
  (List.finRange 4).flatMap (fun n => byte1 o.bank0[n].code) ++ (List.finRange 4).flatMap (fun n => byte1 o.bank1[n].code) ++
  byte1 o.polarity.code ++ byte1 o.attnMode.code

/-- The doze settings in a payload (Table 10-1). -/
def readDoze (p : List Byte) : DozeSettings :=
  { idleTime := byteAt p 0, interval := le16At p 1, padSet := readPads p 3, meas := readMeas p 6,
    threshold := le16At p 13, debounce := byteAt p 15, calSamples := byteAt p 16 }

/-- The checks of SET_DOZE; the wake clock must be S1 or S4 (R160, Table 10-1). -/
def setDozeChecks (p : List Byte) : List (Nat × Bool) :=
  [(1, inRange 0 255 (byteAt p 0)), (2, inRange 16 2000 (le16At p 1)), (3, le24At p 3 != 0),
   (4, inRange 5 6 (byteAt p 6)), (5, inRange 1 255 (byteAt p 7)), (6, inRange 0 63 (byteAt p 8)),
   (7, inRange 64 4095 (le16At p 9)), (8, decide (le16At p 11 < le16At p 9)), (9, inRange 1 2047 (le16At p 13)),
   (10, inRange 1 7 (byteAt p 15)), (11, inRange 4 32 (byteAt p 16))]

/-- The 17 bytes of the doze settings (Table 10-1). -/
def DozeSettings.bytes (d : DozeSettings) : List Byte :=
  byte1 d.idleTime ++ le16 d.interval ++ le24 d.padSet.toNat ++ d.meas.bytes ++ le16 d.threshold ++ byte1 d.debounce ++
  byte1 d.calSamples

/-- The link settings in a payload (Table 7-5). -/
def readLink (p : List Byte) : LinkSettings :=
  { baud := (Baud.ofCode (byteAt p 0)).getD .b115200, ackTimeout := le16At p 1, retryLimit := byteAt p 3,
    window := byteAt p 4 }

/-- The checks of SET_LINK (R135, Table 7-5). -/
def setLinkChecks (p : List Byte) : List (Nat × Bool) :=
  [(1, (Baud.ofCode (byteAt p 0)).isSome), (2, inRange 20 2000 (le16At p 1)), (3, inRange 1 15 (byteAt p 3)),
   (4, inRange 0 8 (byteAt p 4))]

/-- The 5 bytes of the link settings (Table 7-5). -/
def LinkSettings.bytes (l : LinkSettings) : List Byte :=
  byte1 l.baud.code ++ le16 l.ackTimeout ++ byte1 l.retryLimit ++ byte1 l.window

/-- The checks of MEASURE: target, the pad set when the target is PADS, and the parameters (R18, Table 1-6). -/
def measureChecks (p : List Byte) : List (Nat × Bool) :=
  [(1, inRange 0 1 (byteAt p 0)), (2, byteAt p 0 == 1 || le24At p 1 != 0)] ++ measChecks 3 p 4

/-- The target a MEASURE payload names. -/
def readTarget (p : List Byte) : Target := if byteAt p 0 = 1 then .ref else .pads (readPads p 1)

/-- The key selection of RECALIBRATE and READ_KEYS: bit n selects key n (R84, R85). -/
def selected (p : List Byte) : List KeyId := allKeys.filter fun k => (le32At p 0).testBit k.val

/-! ### The image (Table 11-2) -/

/-- A list of bytes filled with 0xFF up to a length: the unused bytes of Table 11-2. -/
def padTo (n : Nat) (bs : List Byte) : List Byte := bs ++ List.replicate (n - bs.length) 0xFF

/-- A group record of the image: kind, parameter, member count and 16 member bytes (Table 11-2). -/
def GroupConfig.imageBytes (c : GroupConfig) : List Byte := padTo 20 c.bytes

/-- The 1164 bytes of an image (Table 11-2). -/
def Image.bytes (im : Image) : List Byte :=
  allKeys.flatMap (fun k => im.keys[k].bytes) ++ im.ref.bytes ++ allGroups.flatMap (fun g => im.groups[g].imageBytes) ++
  padTo 67 im.plan.bytes ++ im.outputs.bytes ++ im.doze.bytes ++ im.link.bytes ++ boolByte im.autostart

/-! ### Bytes on a line (R116) -/

/-- The levels of a byte on a line, one for each bit time in the order sent, true for high: a low start bit, the 8 data bits with
the least significant first, a high stop bit, and no parity (R116). -/
def byteLevels (b : Byte) : List Bool := false :: (List.range 8).map b.getLsbD ++ [true]

/-- The byte the receiver takes from the levels of its start bit, its 8 data bits and what follows: the data bits as received,
whether the stop bit is high or low (section 7.1). -/
def byteOfLevels (levels : List Bool) : Byte :=
  BitVec.ofNat 8 ((List.range 8).map fun i => if levels.getD (i + 1) true then 2 ^ i else 0).sum

/-! ### CRC and frames (R117, R118) -/

/-- One shift of the CRC register (R118). -/
def crcShift (r : Word) : Word := if r.msb then (r <<< 1) ^^^ 0x1021#16 else r <<< 1

/-- One byte taken into the CRC register, most significant bit first (R118). -/
def crcByte (r : Word) (b : Byte) : Word :=
  let x := r ^^^ (b.setWidth 16 <<< 8)
  crcShift (crcShift (crcShift (crcShift (crcShift (crcShift (crcShift (crcShift x)))))))

/-- The CRC of a list of bytes, from 0xFFFF (R118). -/
def crc16 (bs : List Byte) : Word := bs.foldl crcByte 0xFFFF#16

/-- The CRC of a frame with a body: over the length byte and the body (R118). -/
def bodyCrc (body : List Byte) : Word := crc16 (byte1 body.length ++ body)

/-- The checksum of a slot: the CRC taken over the generation and the image (R169). DESIGN CHOICE (log entry 25): the generation
is taken first, in 4 bytes with the least significant first; the spec gives no byte order of a slot's cells. -/
def slotChecksum (generation : Nat) (im : Image) : Word := crc16 (le32 generation ++ im.bytes)

/-- A whole frame: start byte, length, body and CRC (R117). -/
def frameBytes (body : List Byte) : List Byte :=
  byte1 0x5A ++ byte1 body.length ++ body ++ le16 (bodyCrc body).toNat

/-- The code of a report kind (Table 6-2). -/
def Report.kind : Report → Nat
  | .boot .. => 0x01 | .keyDown .. => 0x10 | .keyUp .. => 0x11 | .keyFault .. => 0x12 | .keyRecovered .. => 0x13
  | .keyRecal .. => 0x14 | .sliderDown .. => 0x20 | .sliderMove .. => 0x21 | .sliderUp .. => 0x22 | .refFault .. => 0x30
  | .refRecovered => 0x31 | .wake .. => 0x38 | .profileDone .. => 0x40 | .reportsLost .. => 0x7F

/-- The subject byte of a report: a key id, a group id, or 0xFF when absent (R101). -/
def Report.subject : Report → Nat
  | .keyDown k _ => k.val | .keyUp k _ => k.val | .keyFault k _ _ => k.val | .keyRecovered k => k.val
  | .keyRecal k _ => k.val | .sliderDown g _ => g.val | .sliderMove g _ => g.val | .sliderUp g _ => g.val
  | _ => 0xFF

/-- The payload of a report (Table 6-2). -/
def Report.payload : Report → List Byte
  | .boot c src g => byte1 c.code ++ byte1 ((src.map SlotId.code).getD 2) ++ le32 g
  | .keyDown _ d => leS16 d
  | .keyUp _ c => byte1 c.code
  | .keyFault _ o n => byte1 o.code ++ le16 n
  | .keyRecovered _ => []
  | .keyRecal _ c => byte1 c.code
  | .sliderDown _ p => le16 p
  | .sliderMove _ p => le16 p
  | .sliderUp _ p => le16 p
  | .refFault o n => byte1 o.code ++ le16 n
  | .refRecovered => []
  | .wake c => byte1 c.code
  | .profileDone s ok g => byte1 s.code ++ byte1 (if ok then 0 else 1) ++ le32 g
  | .reportsLost n => le16 n

/-- The body of a frame of the transmitter (Table 7-2). -/
def Frame.body : Frame → List Byte
  | .response r => byte1 0x02 ++ [r.tag, r.code] ++ byte1 r.result.code ++ r.payload
  | .report e => byte1 0x03 ++ le16 e.seq.toNat ++ byte1 e.report.kind ++ byte1 e.report.subject ++ le32 e.time.toNat ++
      e.report.payload

/-- The bytes on TXD of the frame being sent; none when the transmitter is IDLE (R117, R123). -/
def Tx.bytesOnLine (t : Tx) : List Byte :=
  match t.sending with
  | none => []
  | some f => frameBytes f.frame.body

/-- The levels on TXD from the start of the frame being sent, one for each bit time, its bytes back to back (R116). -/
def Tx.levelsOnLine (t : Tx) : List Bool := t.bytesOnLine.flatMap byteLevels

/-- The level on TXD in a bit time counted from the start of the frame being sent, true for high: high after its last stop bit,
and while no frame is sent (R116, R123). -/
def Tx.levelAt (t : Tx) (bitTime : Nat) : Bool := t.levelsOnLine.getD bitTime true

/-! ### Request codes (Table 8-2) -/

/-- Whether a code is one of Table 8-2. -/
def knownCode (c : Byte) : Bool :=
  [0x01, 0x02, 0x03, 0x10, 0x11, 0x12, 0x13, 0x18, 0x19, 0x20, 0x21, 0x22, 0x23, 0x28, 0x30, 0x31, 0x38, 0x40, 0x41,
   0x42, 0x48, 0x49, 0x50, 0x51, 0x52, 0x58, 0x59, 0x5A].contains c.toNat

/-- The code of ENTER_DOZE, whose response entry condition 5 allows on the line (R162). -/
def enterDozeCode : Byte := 0x51

/-- The code of STOP_SCAN, answered when the stop completes (R144). -/
def stopScanCode : Byte := 0x23

/-- The code of MEASURE, answered when the host measurement ends (R144). -/
def measureCode : Byte := 0x28

end Sys2Proof.Machine
end

