-- ==== Sys2Proof/Machine/Flags.lean ====
section
/-! DEFINITION. What the rules compute from the state: signal and delta, touch and membership tests, the doze entry
conditions, readiness of a report, the levels of pads, lines, ATTN and oscillators. -/

namespace Sys2Proof.Machine

/-! ### Keys -/

/-- The floor of the mean of a window, absent while it is empty (R59). -/
def windowMean (w : List Nat) : Option Nat := if w.isEmpty then none else some (w.sum / w.length)

/-- A key's signal (R59). -/
def KeyRuntime.signal (r : KeyRuntime) : Option Nat := windowMean r.window

/-- A key's delta: signal minus baseline when both are present, and 0 when either is absent (R59). -/
def KeyRuntime.delta (r : KeyRuntime) : Int :=
  match r.signal, r.baseline with
  | some s, some b => (s : Int) - (b : Int)
  | _, _ => 0

/-- The reference signal (R80). -/
def RefRuntime.signal (r : RefRuntime) : Option Nat := windowMean r.window

/-- A count pushed into a window of a given depth: the oldest is removed first when the window is full (R59). -/
def pushCount (depth c : Nat) (w : List Nat) : List Nat := w.drop (w.length + 1 - depth) ++ [c]

/-- Whether a key state is TOUCHED or LIFTING. -/
def KeyState.isTouch : KeyState → Bool
  | .touched => true
  | .lifting => true
  | _ => false

/-- The runtime record of a key. -/
def State.rt (s : State) (k : KeyId) : KeyRuntime := s.track.keys[k]

/-- The configuration record of a key. -/
def State.keyCfg (s : State) (k : KeyId) : KeyRecord := s.table.keys[k]

/-- Whether a key is TOUCHED or LIFTING. -/
def State.touching (s : State) (k : KeyId) : Bool := (s.rt k).state.isTouch

/-- The group a key is a member of (R87: at most one). -/
def State.groupOf (s : State) (k : KeyId) : Option GroupId :=
  allGroups.find? fun g => s.groups[g].config.members.contains k

/-- The group of a key, if it is of a given kind. -/
def State.groupOfKind (s : State) (kind : GroupKind) (k : KeyId) : Option GroupId :=
  (s.groupOf k).filter fun g => s.groups[g].config.kind = kind

/-- Whether a key is a member of a slider. -/
def State.sliderMember (s : State) (k : KeyId) : Bool := (s.groupOfKind .slider k).isSome

/-- Whether a group has a member that is TOUCHED or LIFTING (R97, R153). -/
def State.groupTouched (s : State) (g : GroupId) : Bool := s.groups[g].config.members.any s.touching

/-! ### Slider position (R96) -/

/-- The index of the largest delta, the lowest among equals; `best` at index `k` is the largest before index `i`. -/
def peakFrom (best : Int) (k i : Nat) : List Int → Nat
  | [] => k
  | d :: ds => if best < d then peakFrom d i (i + 1) ds else peakFrom best k (i + 1) ds

/-- The peak member of a list of deltas. -/
def peakIndex : List Int → Nat
  | [] => 0
  | d :: ds => peakFrom d 0 1 ds

/-- The members used: those of the neighbourhood of the peak whose delta is greater than 0, with their indices. -/
def sliderUsed (ds : List Int) : List (Int × Nat) :=
  ds.zipIdx.filter fun p =>
    (decide (p.2 + 1 = peakIndex ds) || decide (p.2 = peakIndex ds) || decide (p.2 = peakIndex ds + 1)) &&
      decide (0 < p.1)

/-- The slider position of a list of deltas in member order (R96). -/
def sliderPosition (ds : List Int) : Nat :=
  let used := sliderUsed ds
  let den := (used.map fun p => p.1.toNat).sum
  if den = 0 then 64 * peakIndex ds else 64 * (used.map fun p => p.2 * p.1.toNat).sum / den

/-! ### Report queue and delivery -/

/-- Whether the queue holds an UNSENT entry. -/
def ReportQueue.hasUnsent (q : ReportQueue) : Bool := q.entries.any fun e => !e.sent

/-- The number of SENT entries. -/
def ReportQueue.sentCount (q : ReportQueue) : Nat := q.entries.countP fun e => e.sent

/-- Whether a report is ready for the arbiter (R125). -/
def State.reportReady (s : State) : Bool :=
  decide (s.delivery.link = .active) && s.queue.hasUnsent && decide (s.queue.sentCount < s.delivery.window)

/-- Whether the arbiter may start a reply: the transmitter is IDLE, and a response waits in the response slot or, with no reset
pending, in the overflow reply slot (R123, R149). -/
def State.canReply (s : State) : Bool :=
  s.tx.sending.isNone && (s.tx.respSlot.isSome || (s.handler.pendingReset.isNone && s.tx.overflow.isSome))

/-- Whether a report is ready at an IDLE transmitter with no reset pending (R123, R125, R149). -/
def State.canReport (s : State) : Bool := s.tx.sending.isNone && s.handler.pendingReset.isNone && s.reportReady

/-- Whether the arbiter may start a frame: a reply, or a report (R123, R149). -/
def State.canStart (s : State) : Bool := s.canReply || s.canReport

/-- Whether the handler takes a request: none in execution, no reset pending, the response slot empty (R140). -/
def State.canTake (s : State) : Bool :=
  s.handler.executing.isNone && s.handler.pendingReset.isNone && s.tx.respSlot.isNone && !s.handler.inbox.isEmpty

/-- The kind of claim the arbiter grants to an IDLE engine (R14, R15). -/
def State.nextGrant (s : State) : OwnerKind :=
  if s.claims.plan.isSome then
    if s.claims.host.isSome && decide (s.engine.lastOwner = .plan) then .host else .plan
  else if s.claims.host.isSome then .host
  else if s.claims.wake then .wake else .none

/-- Whether a claim waits at an IDLE engine (R14). -/
def State.canGrant (s : State) : Bool := decide (s.engine.phase = .idle) && decide (s.nextGrant ≠ .none)

/-! ### Doze entry conditions (R162) -/

/-- Condition 2: every enabled key RELEASED or FAULTED, and no slider touched flag set. -/
def State.keysQuiet (s : State) : Bool :=
  (allKeys.all fun k => !(s.keyCfg k).enabled || decide ((s.rt k).state = .released) ||
    decide ((s.rt k).state = .faulted)) && allGroups.all fun g => !s.groups[g].touched

/-- Condition 4: the inbox is empty, and no request other than ENTER_DOZE is in execution. -/
def State.requestsQuiet (s : State) : Bool :=
  s.handler.inbox.isEmpty && (match s.handler.executing with
    | none => true
    | some r => decide (r.code = enterDozeCode))

/-- Whether the transmitter is IDLE or is sending an ENTER_DOZE response. -/
def Tx.lineQuiet (t : Tx) : Bool :=
  match t.sending with
  | none => true
  | some f =>
    match f.frame with
    | .response r => decide (r.code = enterDozeCode)
    | .report _ => false

/-- Condition 5: both slots empty, and the transmitter IDLE or sending the ENTER_DOZE response. -/
def State.txQuiet (s : State) : Bool := s.tx.respSlot.isNone && s.tx.overflow.isNone && s.tx.lineQuiet

/-- Entry conditions 2 to 6 (R162); condition 1 is settled where the decision is taken. -/
def State.entryConditions (s : State) : Bool :=
  s.keysQuiet && s.queue.entries.isEmpty && s.requestsQuiet && s.txQuiet && decide (s.store.save = .idle) &&
    s.pins.hwakeHigh

/-- Whether the idle timer runs: AWAKE, the idle time not 0, conditions 2 to 6 holding (R162). -/
def State.idleRuns (s : State) : Bool :=
  decide (s.doze.state = .awake) && decide (s.doze.settings.idleTime ≠ 0) && s.entryConditions

/-- The idle time in ms, at which the idle timer raises the entry request (R162). -/
def State.idleTarget (s : State) : Nat := s.doze.settings.idleTime * 1000

/-! ### Oscillators, pads, lines, ATTN -/

/-- The fast oscillator: running, stopped or starting (Table 10-3). -/
inductive FastOscillator where
  | running | stopped | starting
  deriving DecidableEq, Repr

/-- The fast oscillator in each doze state (Table 10-3); a reset in the doze starts it (R167). -/
def State.fastOscillator (s : State) : FastOscillator :=
  match s.doze.state with
  | .dozing => .stopped
  | .waking => .starting
  | _ => .running

/-- The slow oscillator runs in every state but while RESET is low (R4). -/
def State.slowOscillatorRuns (s : State) : Bool := s.pins.resetHigh

/-- Whether pad Pn is joined to the sense node; every other pad is held at ground (R1, R5, R9). -/
def State.padJoined (s : State) (n : Fin 24) : Bool :=
  match s.engine.job with
  | some { target := .pads set, .. } => set.getLsbD n.val
  | _ => false

/-- Whether REF is connected to the sense node (R1). -/
def State.refJoined (s : State) : Bool :=
  match s.engine.job with
  | some { target := .ref, .. } => true
  | _ => false

/-- The load trim joined to the sense node, in units of 0.5 pF; none when disconnected (R3, R5, R9). -/
def State.trimJoined (s : State) : Option Nat := s.engine.job.map fun j => j.meas.trim

/-- The entry of the selected bank for line KLn: BSEL low selects bank 0, high bank 1 (R153). -/
def State.lineEntry (s : State) (n : Fin 4) : LineEntry :=
  if s.pins.bselHigh then s.outputs.bank1[n] else s.outputs.bank0[n]

/-- What an output pin shows: its level, and whether the part drives it or only a weak internal pull holds it (R154, R156). -/
structure PinOutput where
  driven : Bool
  high : Bool
  deriving DecidableEq, Repr

/-- Whether the part drives KL0 to KL3 and ATTN: while it runs. From the beginning of a reset until boot has loaded its configuration it
drives none of them (R154, R156; log entry 19). -/
def State.outputsDriven (s : State) : Bool := decide (s.phase = .running)

/-- Whether a direct key line is active (R153). -/
def State.lineActive (s : State) (n : Fin 4) : Bool :=
  match s.lineEntry n with
  | .key k => s.touching k
  | .group g => s.groupTouched g
  | .none => false

/-- The level of a direct key line, true for high: driven under the polarity while the part runs, pulled to the
inactive level while it is in reset (R154). -/
def State.lineHigh (s : State) (n : Fin 4) : Bool :=
  let active := s.outputsDriven && s.lineActive n
  match s.outputs.polarity with
  | .activeLow => !active
  | .activeHigh => active

/-- A direct key line: driven to its level while the part runs, and pulled to its inactive level in reset (R154). -/
def State.linePin (s : State) (n : Fin 4) : PinOutput := { driven := s.outputsDriven, high := s.lineHigh n }

/-- The active lines byte of GET_OUTPUTS: bit n set when KLn is active (R158). -/
def State.activeLines (s : State) : Nat :=
  ((List.finRange 4).map fun n => if s.lineActive n then 2 ^ n.val else 0).sum

/-- Whether ATTN is low (R155, R156): pulled high while the part is in reset. -/
def State.attnLow (s : State) : Bool :=
  s.outputsDriven && (match s.outputs.attnMode with
    | .level => s.queue.hasUnsent || decide (s.delivery.link = .stalled)
    | .pulse => s.attnPulse
    | .off => false)

/-- ATTN: driven to the level of its mode while the part runs, and pulled high in reset (R155, R156). -/
def State.attnPin (s : State) : PinOutput := { driven := s.outputsDriven, high := !s.attnLow }

end Sys2Proof.Machine
end

