-- ==== Sys2Proof/Machine/Reports.lean ====
section
/-! DEFINITION. The report queue: offering, appending, coalescing, holding, losing, marking, rewinding and removing
(spec/06_the_report_queue.md). -/

namespace Sys2Proof.Machine

/-- Whether a report is a SLIDER_MOVE of a group. -/
def Report.isMoveOf (g : GroupId) : Report → Bool
  | .sliderMove h _ => h == g
  | _ => false

/-- Whether a report is a SLIDER_UP or a SLIDER_DOWN of a group. -/
def Report.isEndOf (g : GroupId) : Report → Bool
  | .sliderUp h _ => h == g
  | .sliderDown h _ => h == g
  | _ => false

/-- Whether a list of entries, oldest first, holds a SLIDER_MOVE of a group. -/
def hasMove (g : GroupId) (es : List ReportEntry) : Bool := es.any fun e => e.report.isMoveOf g

/-- Whether an entry, with the entries newer than it, is an UNSENT SLIDER_MOVE of a group with no SLIDER_UP or
SLIDER_DOWN of the group newer than it (R103 case 3). -/
def openMove (g : GroupId) (e : ReportEntry) (newer : List ReportEntry) : Bool :=
  e.report.isMoveOf g && !e.sent && !newer.any fun n => n.report.isEndOf g

/-- Whether an offered SLIDER_MOVE can be coalesced (R103 case 3). -/
def canCoalesce (g : GroupId) : List ReportEntry → Bool
  | [] => false
  | e :: rest => openMove g e rest || canCoalesce g rest

/-- The entries with the position and time of the group's open SLIDER_MOVE replaced (R105). -/
def coalesceInto (g : GroupId) (position : Nat) (time : Time) : List ReportEntry → List ReportEntry
  | [] => []
  | e :: rest =>
    if openMove g e rest then { e with report := .sliderMove g position, time := time } :: rest
    else e :: coalesceInto g position time rest

/-- A report appended at the newest end (R104). -/
def ReportQueue.append (rep : Report) (time : Time) (q : ReportQueue) : ReportQueue :=
  { q with entries := q.entries ++ [{ seq := q.nextSeq, report := rep, time := time, sent := false }],
           nextSeq := q.nextSeq + 1 }

/-- A report appended when the queue has room, lost when it has none (R103 cases 5 and 6, R108). -/
def ReportQueue.appendOrLose (rep : Report) (time : Time) (q : ReportQueue) : ReportQueue :=
  if q.entries.length < Config.queueCapacity then q.append rep time
  else { q with lost := satSucc Config.countMax q.lost }

/-- The queue with a group's move hold replaced. -/
def ReportQueue.setHold (g : GroupId) (h : Option Hold) (q : ReportQueue) : ReportQueue :=
  { q with holds := vecSet q.holds g h }

/-- An offered SLIDER_MOVE: merged into a hold, coalesced, held, or appended or lost (R103 cases 2 to 6). -/
def ReportQueue.offerMove (g : GroupId) (position : Nat) (time : Time) (q : ReportQueue) : ReportQueue :=
  if q.holds[g].isSome then q.setHold g (some { position := position, time := time })
  else if canCoalesce g q.entries then { q with entries := coalesceInto g position time q.entries }
  else if hasMove g q.entries then q.setHold g (some { position := position, time := time })
  else q.appendOrLose (.sliderMove g position) time

/-- An offered report (R103). -/
def ReportQueue.offer (rep : Report) (time : Time) (q : ReportQueue) : ReportQueue :=
  match rep with
  | .sliderUp g p => (q.setHold g none).appendOrLose (.sliderUp g p) time
  | .sliderMove g p => q.offerMove g p time
  | r => q.appendOrLose r time

/-- The oldest UNSENT entry (R109). -/
def ReportQueue.oldestUnsent (q : ReportQueue) : Option ReportEntry := q.entries.find? fun e => !e.sent

/-- The entries with the oldest UNSENT one marked SENT (R109). -/
def markOldest : List ReportEntry → List ReportEntry
  | [] => []
  | e :: rest => if e.sent then e :: markOldest rest else { e with sent := true } :: rest

/-- The queue with its oldest UNSENT entry marked SENT (R109). -/
def ReportQueue.markSent (q : ReportQueue) : ReportQueue := { q with entries := markOldest q.entries }

/-- A rewind: every SENT entry becomes UNSENT (R110). -/
def ReportQueue.rewind (q : ReportQueue) : ReportQueue :=
  { q with entries := q.entries.map fun e => { e with sent := false } }

/-- Whether an acknowledgement names a SENT entry (R127). -/
def ReportQueue.ackInRange (n : Word) (q : ReportQueue) : Bool := q.entries.any fun e => e.sent && e.seq == n

/-- The entries left after removing from the oldest up to and including the one numbered n (R111 step 1). -/
def dropThrough (n : Word) : List ReportEntry → List ReportEntry
  | [] => []
  | e :: rest => if e.seq = n then rest else dropThrough n rest

/-- The loss announcement (R111 step 2). -/
def ReportQueue.announceLost (now : Time) (q : ReportQueue) : ReportQueue :=
  if q.lost = 0 then q else { q.append (.reportsLost q.lost) now with lost := 0 }

/-- A group's move hold taken as an offer once its SLIDER_MOVE entry has left the queue (R111 step 3). -/
def ReportQueue.releaseHold (q : ReportQueue) (g : GroupId) : ReportQueue :=
  match q.holds[g] with
  | none => q
  | some h =>
    if hasMove g q.entries then q else (q.setHold g none).appendOrLose (.sliderMove g h.position) h.time

/-- The removal that an acknowledgement in range asks for, with its consequences (R111). -/
def ReportQueue.remove (n : Word) (now : Time) (q : ReportQueue) : ReportQueue :=
  allGroups.foldl ReportQueue.releaseHold
    (({ q with entries := dropThrough n q.entries } : ReportQueue).announceLost now)

/-- The queue after FLUSH_REPORTS: no entry, no hold, nothing lost; the next sequence number kept (R113). -/
def ReportQueue.flush (q : ReportQueue) : ReportQueue :=
  { q with entries := [], lost := 0, holds := vecOf fun _ => none }

/-- The sequence number of the oldest entry, or the next sequence number when the queue is empty (R133). -/
def ReportQueue.oldestSeq (q : ReportQueue) : Word := (q.entries.head?.map fun e => e.seq).getD q.nextSeq

/-- The state with a new report queue. Each append moves the next sequence number, and in PULSE mode starts an ATTN
pulse (R156). -/
def State.withQueue (q : ReportQueue) (s : State) : State :=
  { s with queue := q,
           attnPulse := s.attnPulse || (decide (s.outputs.attnMode = .pulse) && decide (q.nextSeq ≠ s.queue.nextSeq)) }

/-- A block offers a report, at the current uptime (R103). -/
def offer (rep : Report) (s : State) : State := s.withQueue (s.queue.offer rep s.uptime)

end Sys2Proof.Machine
end

