-- ==== Sys2Proof/Machine/Ops.lean ====
section
/-! DEFINITION. Operations shared by the blocks: writing a key's runtime record or a group, handing over responses,
counting link errors, the idle timer, and the engine's claims, grants and aborts. -/

namespace Sys2Proof.Machine

/-! ### Records -/

/-- The state with a key's runtime record replaced. -/
def State.setRt (k : KeyId) (r : KeyRuntime) (s : State) : State :=
  { s with track := { s.track with keys := vecSet s.track.keys k r } }

/-- The state with a key's runtime record changed by a function. -/
def State.modRt (k : KeyId) (f : KeyRuntime → KeyRuntime) (s : State) : State := s.setRt k (f (s.rt k))

/-- The state with the reference runtime record replaced. -/
def State.setRef (r : RefRuntime) (s : State) : State := { s with track := { s.track with ref := r } }

/-- The state with a group record replaced. -/
def State.setGroup (g : GroupId) (x : Group) (s : State) : State := { s with groups := vecSet s.groups g x }

/-- The state with the link error counters changed by a function. -/
def State.count (f : Counters → Counters) (s : State) : State := { s with counters := f s.counters }

/-! ### Responses (R142 to R144) -/

/-- A response to a request is handed to the response slot, and the request in execution becomes absent (R143). -/
def respondThen (after : AfterSend) (r : Request) (result : ResultCode) (payload : List Byte) (s : State) : State :=
  { s with
    tx := { s.tx with respSlot := some { tag := r.tag, code := r.code, result := result, payload := payload, after := after } }
    handler := { s.handler with executing := none } }

/-- A response after which nothing further is due. -/
def respond (r : Request) (result : ResultCode) (payload : List Byte) (s : State) : State :=
  respondThen .nothing r result payload s

/-- The long request of a given code, if it is in execution, is answered (R144). -/
def answerLong (code : Byte) (result : ResultCode) (payload : List Byte) (s : State) : State :=
  match s.handler.executing with
  | some r => if r.code = code then respond r result payload s else s
  | none => s

/-- The checks common to all requests, from the length on, and the execution of an accepted request (R141): BAD_LENGTH
carries the length received, BAD_FIELD the index of the first field out of range (R142). -/
def checked (r : Request) (lengthOk stateOk : Bool) (fields : List (Nat × Bool)) (accept : State → State) (s : State) :
    State :=
  if !lengthOk then respond r .badLength (byte1 r.payload.length) s
  else if !stateOk then respond r .state [] s
  else match firstBad fields with
    | some i => respond r .badField (byte1 i) s
    | none => accept s

/-! ### Idle timer -/

/-- At the end of an event, and when a request joins the inbox: in the doze states other than AWAKE and REQUESTED, or
when the timer may not run, the idle timer is 0; REQUESTED keeps the value it stopped at until a condition breaks
(R162). -/
def State.settleIdle (s : State) : State :=
  if s.idleRuns || (decide (s.doze.state = .requested) && s.entryConditions) then s
  else { s with doze := { s.doze with idle := 0 } }

/-- The entry request is cleared and the doze state returns to AWAKE; the idle timer runs again from 0 (R162). -/
def clearEntryRequest (s : State) : State :=
  if s.doze.request.isSome then { s with doze := { s.doze with request := none, state := .awake, idle := 0 } } else s

/-! ### Engine and arbiter -/

/-- The kind of an owner record (R5). -/
def Owner.kind : Owner → OwnerKind
  | .plan .. => .plan
  | .host _ => .host
  | .wake => .wake

/-- A new measurement at its grant: abort flag clear, DISCHARGE entered, the last owner kind recorded (R5). DISCHARGE
and CHARGE are timed from the slow oscillator unless the fast one runs (R12). -/
def beginMeasurement (owner : Owner) (target : Target) (meas : MeasureParams) (s : State) : State :=
  { s with engine :=
    { s.engine with phase := .discharge, abort := false, cut := false, lastOwner := owner.kind,
                    job := some { owner := owner, target := target, meas := meas,
                                  slowTimed := decide (s.fastOscillator ≠ .running) } } }

/-- The grant of a plan claim: version, parameters and pad set are read from the key table now (R5, R25). -/
def grantPlan (c : PlanClaim) (s : State) : State :=
  match c.subject with
  | .key k => beginMeasurement (.plan c.index c.subject s.table.keyVersions[k]) (.pads (s.keyCfg k).padSet) (s.keyCfg k).meas s
  | .ref => beginMeasurement (.plan c.index c.subject s.table.refVersion) .ref s.table.ref.meas s

/-- The arbiter grants the claim R14 and R15 choose, and removes it from the waiting claims (R17). -/
def grant (s : State) : State :=
  match s.nextGrant with
  | .plan =>
    match s.claims.plan with
    | some c => grantPlan c { s with claims := { s.claims with plan := none } }
    | none => s
  | .host =>
    match s.claims.host with
    | some c => beginMeasurement (.host c.request) c.target c.meas { s with claims := { s.claims with host := none } }
    | none => s
  | .wake =>
    beginMeasurement .wake (.pads s.doze.settings.padSet) s.doze.settings.meas { s with claims := { s.claims with wake := false } }
  | .none => s

/-- The kind of the measurement in progress, NONE in IDLE. -/
def Engine.ownerKind (e : Engine) : OwnerKind := ((e.job.map fun j => j.owner.kind).getD .none)

/-- An abort request that finds its owner: in DISCHARGE with the flag clear the flag is set and DISCHARGE restarts, in
CHARGE and TRANSFER the flag is set and DISCHARGE is entered, keeping no count (R6, R7, R8). One that finds TRANSFER may have
fallen together with its end (R11). -/
def Engine.aborted (e : Engine) : Engine :=
  match e.phase with
  | .idle => e
  | .discharge => { e with abort := true }
  | .charge => { e with phase := .discharge, abort := true, cut := false, count := 0 }
  | .transfer => { e with phase := .discharge, abort := true, cut := true, count := 0 }

/-- An abort request naming a kind of measurement (R10). -/
def requestAbort (kind : OwnerKind) (s : State) : State :=
  if s.engine.phase ≠ .idle ∧ s.engine.ownerKind = kind then { s with engine := s.engine.aborted } else s

/-- The engine IDLE with no owner record and the abort flag clear (R9, R10). -/
def Engine.freed (e : Engine) : Engine := { e with phase := .idle, job := none, abort := false, cut := false }

/-- The outcome and count of a TRANSFER whose node is found below the trip level at a comparison, or never (R8). -/
def transferOutcome (m : MeasureParams) : Option Nat → MeasureOutcome × Nat
  | some c => if c < m.limit then (if m.floor ≤ c then .valid else .short, c) else (.limit, m.limit)
  | none => (.limit, m.limit)

end Sys2Proof.Machine
end

