-- ==== Sys2Proof/Machine/Groups.lean ====
section
/-! DEFINITION. Beginning and ending a touch (spec/04, section 4.5) and the group resolver: exclusive sets and sliders
(spec/05_exclusive_sets_and_sliders.md). -/

namespace Sys2Proof.Machine

/-- A key cleared as holder of its exclusive set, if it holds that place (R66, R91). -/
def clearHolder (k : KeyId) (s : State) : State :=
  { s with groups := vecMap (fun g => if g.holder = some k then { g with holder := none } else g) s.groups }

/-- A touch begins: TOUCHED, debounce count 0, touch start time now, and KEY_DOWN with the key's delta unless the
reports field is off or the key is a slider member (R65, R95). -/
def beginTouch (k : KeyId) (s : State) : State :=
  let s1 := s.modRt k fun r => { r with state := .touched, debounce := 0, touchStart := s.uptime }
  if (s.keyCfg k).reports && !s.sliderMember k then
    (offer (.keyDown k (s1.rt k).delta) s1).modRt k fun r => { r with downReported := true }
  else s1.modRt k fun r => { r with downReported := false }

/-- A touch ends with a cause: KEY_UP if down-reported, down-reported no, the holder place cleared (R66). The state
the key leaves to is set by the caller. -/
def endTouch (k : KeyId) (cause : UpCause) (s : State) : State :=
  clearHolder k
    (if (s.rt k).downReported then (offer (.keyUp k cause) s).modRt k fun r => { r with downReported := false } else s)

/-- A touch ends if the key is TOUCHED or LIFTING. -/
def endIfTouching (k : KeyId) (cause : UpCause) (s : State) : State :=
  if s.touching k then endTouch k cause s else s

/-- A key placed in HELD with debounce count 0 (R92, R93). -/
def placeHeld (k : KeyId) (s : State) : State := s.modRt k fun r => { r with state := .held, debounce := 0 }

/-- A key made the holder of a group. -/
def setHolder (g : GroupId) (k : KeyId) (s : State) : State := s.setGroup g { s.groups[g] with holder := some k }

/-- The decision of an exclusive set for a candidate (R92), with the handover (R93). -/
def decideExclusive (g : GroupId) (k : KeyId) (s : State) : State :=
  match s.groups[g].holder with
  | none => beginTouch k (setHolder g k s)
  | some h =>
    if (s.rt h).delta + (s.groups[g].config.param : Int) ≤ (s.rt k).delta then
      beginTouch k (setHolder g k (placeHeld h (endTouch h .suppressed s)))
    else placeHeld k s

/-- What follows a completed debounce, or a HELD sample at or above the touch threshold: the resolver decides for a
member of an exclusive set, and a touch begins for any other key (R70, R71). -/
def claimTouch (k : KeyId) (s : State) : State :=
  match s.groupOfKind .exclusive k with
  | some g => decideExclusive g k s
  | none => beginTouch k s

/-- The position of a slider from the deltas of its members (R96). -/
def State.position (s : State) (g : GroupId) : Nat :=
  sliderPosition (s.groups[g].config.members.map fun k => (s.rt k).delta)

/-- Whether a position differs from the last reported one by at least the step, in either direction (R97). -/
def movedBy (step last position : Nat) : Bool := decide (last + step ≤ position) || decide (position + step ≤ last)

/-- Full evaluation of a slider (R97). -/
def evaluateFull (g : GroupId) (s : State) : State :=
  let x := s.groups[g]
  if s.groupTouched g then
    if x.touched then
      if movedBy x.config.param x.lastPos (s.position g) then
        (offer (.sliderMove g (s.position g)) s).setGroup g { x with lastPos := s.position g }
      else s
    else (offer (.sliderDown g (s.position g)) s).setGroup g { x with touched := true, lastPos := s.position g }
  else if x.touched then (offer (.sliderUp g x.lastPos) s).setGroup g { x with touched := false }
  else s

/-- Touch-only evaluation of a group: a slider whose flag is set and that has no touched member left offers SLIDER_UP
(R98). -/
def evaluateTouchOnly (s : State) (g : GroupId) : State :=
  let x := s.groups[g]
  if x.config.kind = .slider ∧ x.touched ∧ !s.groupTouched g then
    (offer (.sliderUp g x.lastPos) s).setGroup g { x with touched := false }
  else s

/-- Every slider evaluated once, in ascending order of group id (R98). -/
def evaluateAll (s : State) : State := allGroups.foldl evaluateTouchOnly s

end Sys2Proof.Machine
end

