-- ==== Sys2Proof/Machine/Tracker.lean ====
section
/-! DEFINITION. The key tracker and the reference tracker: results (R60 to R74, R80 to R82) and the effects applied from
outside (R75 to R79, R83). -/

namespace Sys2Proof.Machine

/-! ### Faults and recovery (R62, R63) -/

/-- The key becomes FAULTED (R62). -/
def enterFaulted (k : KeyId) (outcome : MeasureOutcome) (count : Nat) (s : State) : State :=
  let s1 := endIfTouching k .fault s
  offer (.keyFault k outcome count) (clearHolder k (s1.modRt k fun r =>
    { r with state := .faulted, window := [], debounce := 0, negStreak := 0, calSum := 0, calCount := 0 }))

/-- A processed LIMIT or SHORT result (R62). -/
def faultResult (k : KeyId) (outcome : MeasureOutcome) (count : Nat) (s : State) : State :=
  let s1 := s.modRt k fun r => { r with faultStreak := satSucc Config.streakMax r.faultStreak, validStreak := 0 }
  if (s.rt k).state ≠ .faulted ∧ (s1.rt k).faultStreak = (s.keyCfg k).faultLimit then enterFaulted k outcome count s1
  else s1

/-- A VALID result of a FAULTED key (R63). -/
def sampleFaulted (k : KeyId) (s : State) : State :=
  let s1 := s.modRt k fun r => { r with validStreak := r.validStreak + 1 }
  if (s1.rt k).validStreak = (s.keyCfg k).faultLimit then
    (offer (.keyRecovered k) s1).modRt k fun r =>
      { r with state := .settling, baseline := none, window := [], calSum := 0, calCount := 0, validStreak := 0,
               debounce := 0, driftCount := 0, negStreak := 0 }
  else s1

/-! ### Calibration (R64) -/

/-- A VALID result of a SETTLING key (R64). -/
def sampleSettling (k : KeyId) (c : Nat) (s : State) : State :=
  s.modRt k fun r =>
    if r.calCount + 1 = (s.keyCfg k).calSamples then
      { r with baseline := some ((r.calSum + c) / (s.keyCfg k).calSamples), calSum := 0, calCount := 0, window := [],
               debounce := 0, negStreak := 0, driftCount := 0, state := .released }
    else { r with calSum := r.calSum + c, calCount := r.calCount + 1 }

/-! ### Touch states (R67 to R74); the count has been pushed into the window -/

/-- A baseline moved by 1 towards a signal (R69, R166). -/
def stepTowards (baseline signal : Nat) : Nat :=
  if baseline < signal then baseline + 1 else if signal < baseline then baseline - 1 else baseline

/-- Drift tracking of a runtime record (R69). -/
def KeyRuntime.drifted (interval : Nat) (r : KeyRuntime) : KeyRuntime :=
  if interval = 0 then r
  else if r.driftCount + 1 = interval then
    { r with driftCount := 0,
             baseline := match r.baseline, r.signal with
               | some b, some x => some (stepTowards b x)
               | b, _ => b }
  else { r with driftCount := r.driftCount + 1 }

/-- Negative recalibration, and drift tracking after it, for a sample that leaves the key RELEASED (R67 to R69). -/
def trackReleased (k : KeyId) (s : State) : State :=
  let cfg := s.keyCfg k
  if cfg.negThreshold ≠ 0 ∧ (s.rt k).delta ≤ -(cfg.negThreshold : Int) then
    if (s.rt k).negStreak + 1 = cfg.negCount then
      offer (.keyRecal k .negative) (s.modRt k fun r => { r with baseline := r.signal, negStreak := 0, driftCount := 0 })
    else s.modRt k fun r => ({ r with negStreak := r.negStreak + 1 } : KeyRuntime).drifted cfg.driftInterval
  else s.modRt k fun r => ({ r with negStreak := 0 } : KeyRuntime).drifted cfg.driftInterval

/-- A sample of a RELEASED key (R67). -/
def sampleReleased (k : KeyId) (s : State) : State :=
  let cfg := s.keyCfg k
  if (cfg.touchThreshold : Int) ≤ (s.rt k).delta then
    let s1 := s.modRt k fun r => { r with state := .pressing, debounce := 1, negStreak := 0 }
    if cfg.debounceIn = 1 then claimTouch k s1 else s1
  else trackReleased k s

/-- A sample of a PRESSING key (R70). -/
def samplePressing (k : KeyId) (s : State) : State :=
  let cfg := s.keyCfg k
  if (cfg.touchThreshold : Int) ≤ (s.rt k).delta then
    let s1 := s.modRt k fun r => { r with debounce := r.debounce + 1 }
    if (s1.rt k).debounce = cfg.debounceIn then claimTouch k s1 else s1
  else s.modRt k fun r => { r with state := .released, debounce := 0 }

/-- A sample of a HELD key (R71). -/
def sampleHeld (k : KeyId) (s : State) : State :=
  if ((s.keyCfg k).touchThreshold : Int) ≤ (s.rt k).delta then claimTouch k s
  else s.modRt k fun r => { r with state := .released, debounce := 0 }

/-- A release (R72). -/
def releaseKey (k : KeyId) (s : State) : State :=
  (endTouch k .lifted s).modRt k fun r => { r with state := .released, debounce := 0, negStreak := 0 }

/-- A sample of a LIFTING key (R72). -/
def sampleLifting (k : KeyId) (s : State) : State :=
  let cfg := s.keyCfg k
  if (cfg.releaseThreshold : Int) ≤ (s.rt k).delta then s.modRt k fun r => { r with state := .touched, debounce := 0 }
  else
    let s1 := s.modRt k fun r => { r with debounce := r.debounce + 1 }
    if (s1.rt k).debounce = cfg.debounceOut then releaseKey k s1 else s1

/-- A sample of a TOUCHED key (R73). -/
def sampleTouched (k : KeyId) (s : State) : State :=
  let cfg := s.keyCfg k
  if (cfg.releaseThreshold : Int) ≤ (s.rt k).delta then s
  else
    let s1 := s.modRt k fun r => { r with state := .lifting, debounce := 1 }
    if cfg.debounceOut = 1 then releaseKey k s1 else s1

/-- A compensated count pushed into a key's window (R59). -/
def pushSample (k : KeyId) (c : Nat) (s : State) : State :=
  s.modRt k fun r => { r with window := pushCount (s.keyCfg k).filterDepth c r.window }

/-- A VALID result under the rule of the state the key holds (R60 step 2). -/
def sampleByState (k : KeyId) (c : Nat) (s : State) : State :=
  match (s.rt k).state with
  | .faulted => sampleFaulted k s
  | .settling => sampleSettling k c s
  | .released => sampleReleased k (pushSample k c s)
  | .pressing => samplePressing k (pushSample k c s)
  | .held => sampleHeld k (pushSample k c s)
  | .touched => sampleTouched k (pushSample k c s)
  | .lifting => sampleLifting k (pushSample k c s)
  | .disabled => s

/-- A difference held within 0 to 4095 (R61). -/
def clampCount (i : Int) : Nat := min i.toNat 4095

/-- The compensated count (R61). -/
def State.compensated (s : State) (k : KeyId) (c : Nat) : Nat :=
  if (s.keyCfg k).refComp then clampCount ((c : Int) - s.track.ref.drift) else c

/-- The end of a touch that lasted too long (R74). -/
def stickKey (k : KeyId) (s : State) : State :=
  (offer (.keyRecal k .stuck) (endTouch k .stuck s)).modRt k fun r =>
    { r with state := .settling, baseline := none, window := [], calSum := 0, calCount := 0, debounce := 0,
             negStreak := 0, driftCount := 0 }

/-- The max-on check (R60 step 3, R74). -/
def maxOnCheck (k : KeyId) (s : State) : State :=
  if s.touching k ∧ (s.keyCfg k).maxOn ≠ 0 ∧ (s.keyCfg k).maxOn * 100 ≤ (s.uptime - (s.rt k).touchStart).toNat then
    stickKey k s
  else s

/-- The full evaluation of the key's slider, if it is a member of one (R60 step 4). -/
def sliderCheck (k : KeyId) (s : State) : State :=
  match s.groupOfKind .slider k with
  | some g => evaluateFull g s
  | none => s

/-- Steps 1 and 2 of R60. -/
def outcomeAndState (k : KeyId) (outcome : MeasureOutcome) (count : Nat) (s : State) : State :=
  match outcome with
  | .valid => sampleByState k (s.compensated k count) (s.modRt k fun r => { r with faultStreak := 0 })
  | o => faultResult k o count s

/-- A result that is processed (R60). -/
def processKey (k : KeyId) (outcome : MeasureOutcome) (count : Nat) (s : State) : State :=
  sliderCheck k (maxOnCheck k (outcomeAndState k outcome count s))

/-- A plan result for a key: discarded when ABORTED, stale or for a key that is not enabled (R60, R27, R24). -/
def keyResult (k : KeyId) (version : Word) (outcome : MeasureOutcome) (count : Nat) (s : State) : State :=
  if outcome = .aborted ∨ version ≠ s.table.keyVersions[k] ∨ (s.keyCfg k).enabled = false then s
  else processKey k outcome count s

/-! ### Reference tracker (R80 to R83) -/

/-- The depth of the reference window (R80). -/
def refDepth : Nat := 4

/-- The fault limit of the reference, in both directions (R80). -/
def refFaultLimit : Nat := 3

/-- The reference in SETTLING with everything cleared but its drift (R82, R83). -/
def RefRuntime.settled (drift : Int) : RefRuntime := { RefRuntime.afterReset with state := .settling, drift := drift }

/-- A processed result found in UNCALIBRATED first moves the reference to SETTLING (R81). -/
def RefRuntime.started (r : RefRuntime) : RefRuntime :=
  if r.state = .uncalibrated then { r with state := .settling, calSum := 0, calCount := 0, drift := 0 } else r

/-- A VALID result of a reference that is not UNCALIBRATED; the flag says whether REF_RECOVERED is offered (R81, R82). -/
def RefRuntime.sampled (calSamples c : Nat) (r : RefRuntime) : RefRuntime × Bool :=
  match r.state with
  | .ready =>
    let w := pushCount refDepth c r.window
    ({ r with faultStreak := 0, window := w,
              drift := match windowMean w, r.baseline with
                | some x, some b => (x : Int) - (b : Int)
                | _, _ => r.drift }, false)
  | .faulted =>
    if r.validStreak + 1 = refFaultLimit then (RefRuntime.settled r.drift, true)
    else ({ r with faultStreak := 0, validStreak := r.validStreak + 1 }, false)
  | _ =>
    if r.calCount + 1 = calSamples then
      ({ r with faultStreak := 0, baseline := some ((r.calSum + c) / calSamples), calSum := 0, calCount := 0, window := [],
                state := .ready }, false)
    else ({ r with faultStreak := 0, calSum := r.calSum + c, calCount := r.calCount + 1 }, false)

/-- A LIMIT or SHORT result of a reference that is not UNCALIBRATED; the flag says whether REF_FAULT is offered (R82). -/
def RefRuntime.failed (r : RefRuntime) : RefRuntime × Bool :=
  let r1 := { r with faultStreak := satSucc Config.streakMax r.faultStreak, validStreak := 0 }
  if r.state ≠ .faulted ∧ r1.faultStreak = refFaultLimit then
    ({ r1 with state := .faulted, window := [], calSum := 0, calCount := 0 }, true)
  else (r1, false)

/-- A plan result for REF: discarded when ABORTED or stale (R81, R27). -/
def refResult (version : Word) (outcome : MeasureOutcome) (count : Nat) (s : State) : State :=
  if outcome = .aborted ∨ version ≠ s.table.refVersion then s
  else match outcome with
    | .valid =>
      let x := s.track.ref.started.sampled s.table.ref.calSamples count
      let s1 := s.setRef x.1
      if x.2 then offer .refRecovered s1 else s1
    | o =>
      let x := s.track.ref.started.failed
      let s1 := s.setRef x.1
      if x.2 then offer (.refFault o count) s1 else s1

/-- A plan result passed to its tracker (R42 step 1). -/
def trackResult (subject : PlanEntry) (version : Word) (outcome : MeasureOutcome) (count : Nat) (s : State) : State :=
  match subject with
  | .key k => keyResult k version outcome count s
  | .ref => refResult version outcome count s

/-- The reference when the active plan is replaced by a plan: UNCALIBRATED with every field at its after-reset value when
that plan holds no REF entry (R83). -/
def refPlanChange (entries : List PlanEntry) (s : State) : State :=
  if entries.contains .ref then s else s.setRef .afterReset

/-! ### Effects applied from outside (R75 to R79) -/

/-- The reconfiguration effect on one key, its new record already stored (R75). -/
def reconfigure (k : KeyId) (s : State) : State :=
  clearHolder k ((endIfTouching k .reconfigured s).setRt k (.afterReset (s.keyCfg k).enabled))

/-- The stop effect, or with another cause the unplanned effect, on one key (R76, R77). -/
def quiesce (cause : UpCause) (s : State) (k : KeyId) : State :=
  match (s.rt k).state with
  | .disabled => s
  | .settling => s.modRt k fun r => { r with calSum := 0, calCount := 0, window := [], debounce := 0, negStreak := 0 }
  | .faulted => s.modRt k fun r => { r with window := [], debounce := 0, negStreak := 0 }
  | _ => clearHolder k ((endIfTouching k cause s).modRt k fun r =>
      { r with state := .released, window := [], debounce := 0, negStreak := 0 })

/-- The host recalibration effect on one key (R78). -/
def hostRecal (s : State) (k : KeyId) : State :=
  if (s.rt k).state = .disabled then s
  else offer (.keyRecal k .host)
    (clearHolder k ((endIfTouching k .recal s).setRt k { KeyRuntime.afterReset true with state := .settling }))

/-- The start effect: every key's window and the reference window cleared (R79). -/
def startEffect (s : State) : State :=
  { s with track := { keys := vecMap (fun r => { r with window := [] }) s.track.keys,
                      ref := { s.track.ref with window := [] } } }

end Sys2Proof.Machine
end

