-- ==== Sys2Proof/Machine/DozeControl.lean ====
section
/-! DEFINITION. The doze controller: entry decisions, the passing of time with the idle timer, wake results and the
beginning of a wake (spec/10_doze_and_wake.md). -/

namespace Sys2Proof.Machine

/-- Doze is entered: the sequencer enters DOZING and records the run state to return to (R54), the entry request and the
idle timer are cleared, the receiver is DISABLED, an ENTER_DOZE in execution is answered OK, and the doze state becomes
ENTERING (R164). -/
def enterDoze (recorded : Recorded) (s : State) : State :=
  answerLong enterDozeCode .ok []
    { s with
      seq := { s.seq with timerOn := false, elapsed := false, position := 0, runState := .dozing }
      doze := { s.doze with recorded := recorded, request := none, idle := 0, state := .entering }
      rx := { state := .disabled, len := 0, bytes := [] } }

/-- An entry request turned down: cleared, and an ENTER_DOZE in execution is answered STATE (R163). -/
def refuseDoze (s : State) : State := answerLong enterDozeCode .state [] (clearEntryRequest s)

/-- The entry decision in STOPPED (R162, R163). -/
def decideStopped (s : State) : State := if s.entryConditions then enterDoze .stopped s else refuseDoze s

/-- An entry request raised by a source: decided at once in STOPPED, and otherwise held as REQUESTED until the next
cycle boundary (R162, R163). -/
def raiseRequest (source : EntrySource) (s : State) : State :=
  if s.seq.runState = .stopped then decideStopped { s with doze := { s.doze with request := some source } }
  else { s with doze := { s.doze with request := some source, state := .requested } }

/-- One millisecond of uptime passes. A running idle timer counts it, up to the idle time (R162), and what could still have been
taken together with an abort is past (R11). -/
def passTime (s : State) : State :=
  { s with
    uptime := s.uptime + 1
    engine := { s.engine with cut := false }
    doze := if s.idleRuns then { s.doze with idle := min (s.doze.idle + 1) s.idleTarget } else s.doze }

/-- The milliseconds elapsed since a moment, modulo 4 294 967 296 (R44, R74, R125, R165). -/
def State.elapsedSince (s : State) (start : Time) : Nat := (s.uptime - start).toNat

/-- Whether the uptime has reached the expiry of a timer, a span after its start (log entry 3). -/
def State.expired (s : State) (start : Time) (span : Nat) : Bool := decide (span ≤ s.elapsedSince start)

/-- A wake begins: cause recorded, interval timer stopped, a waiting wake claim withdrawn, a wake measurement in flight
asked to abort, the fast oscillator started (R167). -/
def beginWake (cause : WakeCause) (s : State) : State :=
  requestAbort .wake
    { s with
      doze := { s.doze with cause := some cause, interval := none, state := .waking }
      claims := { s.claims with wake := false } }

/-- A VALID wake count taken into the wake set record; the flag says whether the wake debounce is complete (R166). -/
def WakeRecord.sampled (d : DozeSettings) (c : Nat) (w : WakeRecord) : WakeRecord × Bool :=
  let w1 := { w with faultStreak := 0, signal := some c }
  match w.baseline with
  | none =>
    if w.calCount + 1 = d.calSamples then
      ({ w1 with baseline := some ((w.calSum + c) / d.calSamples), calSum := 0, calCount := 0, touchStreak := 0,
                 driftCount := 0 }, false)
    else ({ w1 with calSum := w.calSum + c, calCount := w.calCount + 1 }, false)
  | some b =>
    if b + d.threshold ≤ c then
      ({ w1 with touchStreak := w.touchStreak + 1 }, decide (w.touchStreak + 1 = d.debounce))
    else if w.driftCount + 1 = 8 then
      ({ w1 with touchStreak := 0, driftCount := 0, baseline := some (stepTowards b c) }, false)
    else ({ w1 with touchStreak := 0, driftCount := w.driftCount + 1 }, false)

/-- A LIMIT or SHORT wake result; the flag says whether the fault streak has become 4 (R166). -/
def WakeRecord.failed (w : WakeRecord) : WakeRecord × Bool :=
  ({ w with faultStreak := w.faultStreak + 1, touchStreak := 0 }, decide (w.faultStreak + 1 = 4))

/-- The state with the wake set runtime record replaced. -/
def State.setWake (w : WakeRecord) (s : State) : State := { s with doze := { s.doze with wake := w } }

/-- A wake result (R166); one that finds another doze state than DOZING is discarded, and so is ABORTED. -/
def wakeResult (outcome : MeasureOutcome) (count : Nat) (s : State) : State :=
  if s.doze.state ≠ .dozing then s
  else match outcome with
    | .aborted => s
    | .valid =>
      let x := s.doze.wake.sampled s.doze.settings count
      if x.2 then beginWake .touch (s.setWake x.1) else s.setWake x.1
    | _ =>
      let x := s.doze.wake.failed
      if x.2 then beginWake .fault (s.setWake x.1) else s.setWake x.1

/-- The wake set record at the end of a wake: the baseline is kept after TOUCH and LINE and absent after FAULT (R167). -/
def WakeRecord.afterWake (cause : Option WakeCause) (w : WakeRecord) : WakeRecord :=
  { WakeRecord.afterReset with baseline := if cause = some .fault then none else w.baseline }

end Sys2Proof.Machine
end

