-- ==== Sys2Proof/Machine/Scan.lean ====
section
/-! DEFINITION. The scan sequencer: claims, cycles, boundaries, swaps and stops, and where a measurement's result goes
(spec/03_scan_plan_and_sequencer.md; R9, R19). -/

namespace Sys2Proof.Machine

/-- The first entry of a list that needs a measurement, with its index in the plan: REF, or a key whose enabled field is
yes; the others are skipped (R41). -/
def firstMeasured (keys : Vector KeyRecord 32) : List PlanEntry → Nat → Option PlanClaim
  | [], _ => none
  | .ref :: _, i => some { index := i, subject := .ref }
  | .key k :: rest, i =>
    if keys[k].enabled then some { index := i, subject := .key k } else firstMeasured keys rest (i + 1)

/-- The entry to claim from a position of the active plan on (R41). -/
def State.nextClaim (s : State) (position : Nat) : Option PlanClaim :=
  firstMeasured s.table.keys (s.seq.plan.entries.drop position) position

/-- The sequencer claims the engine for an entry (R13, R41). -/
def claimEntry (c : PlanClaim) (s : State) : State :=
  { s with seq := { s.seq with position := c.index }, claims := { s.claims with plan := some c } }

/-- The last entry is done with the period not run out: CYCLE_WAIT, the position one past the last entry (R43). -/
def enterCycleWait (s : State) : State :=
  { s with seq := { s.seq with position := s.seq.plan.entries.length, runState := .cycleWait } }

/-- A cycle start (R40). With every entry a disabled key the cycle is done in the same event (R41). -/
def cycleStart (s : State) : State :=
  let s1 := { s with seq :=
    { s.seq with cycleStart := s.uptime, elapsed := false, timerOn := true, position := 0, runState := .scanning } }
  match s1.nextClaim 0 with
  | some c => claimEntry c s1
  | none => enterCycleWait s1

/-- Scanning starts: the start effect, then a cycle start (R50, R55, R57). -/
def startScanning (s : State) : State := cycleStart (startEffect s)

/-- The keys of an old plan that a new one leaves out, in ascending order of key id (R46). -/
def leavingKeys (old new : List PlanEntry) : List KeyId :=
  allKeys.filter fun k => old.contains (.key k) && !new.contains (.key k)

/-- The plan swap: the pending plan becomes the active plan, and the keys that leave take the unplanned effect (R46). -/
def planSwap (s : State) : State :=
  match s.seq.pendingPlan with
  | none => s
  | some p =>
    refPlanChange p.entries (evaluateAll
      ((leavingKeys s.seq.plan.entries p.entries).foldl (quiesce .unplanned)
        { s with seq := { s.seq with plan := p, pendingPlan := none } }))

/-- The cycle boundary after the swap: doze entry if a request is raised and the conditions hold, and otherwise the next
cycle (R45 steps 2 and 3, R163). -/
def boundaryDecision (s : State) : State :=
  if s.doze.request.isSome then
    if s.entryConditions then enterDoze .running s else cycleStart (refuseDoze s)
  else cycleStart s

/-- The cycle boundary (R45). -/
def cycleBoundary (s : State) : State := boundaryDecision (planSwap s)

/-- The last entry of a cycle is done (R43). -/
def lastEntryDone (s : State) : State :=
  if s.seq.elapsed then
    cycleBoundary { s with seq :=
      { s.seq with position := s.seq.plan.entries.length, overruns := satSucc Config.countMax s.seq.overruns } }
  else enterCycleWait s

/-- The sequencer reaches the entry at a position (R41). -/
def reachEntry (position : Nat) (s : State) : State :=
  match s.nextClaim position with
  | some c => claimEntry c s
  | none => lastEntryDone s

/-- A pending plan promoted when a stop completes, with no unplanned effect (R52 step 3, R83). -/
def promotePlan (s : State) : State :=
  match s.seq.pendingPlan with
  | none => s
  | some p => refPlanChange p.entries { s with seq := { s.seq with plan := p, pendingPlan := none } }

/-- Steps 2 to 6 of a completed stop (R52). -/
def completeStop (s : State) : State :=
  let s1 := clearEntryRequest (promotePlan (evaluateAll (allKeys.foldl (quiesce .stopped) s)))
  answerLong stopScanCode .ok []
    { s1 with seq := { s1.seq with position := 0, elapsed := false, timerOn := false, runState := .stopped } }

/-- A plan result reaches the sequencer (R42, R52). In the other run states no plan measurement is in flight. -/
def planResult (index : Nat) (subject : PlanEntry) (version : Word) (outcome : MeasureOutcome) (count : Nat) (s : State) :
    State :=
  match s.seq.runState with
  | .scanning => reachEntry (index + 1) (trackResult subject version outcome count s)
  | .stopping => completeStop (trackResult subject version outcome count s)
  | _ => s

/-- A host result reaches the request handler, which answers the MEASURE (R19). -/
def hostResult (outcome : MeasureOutcome) (count : Nat) (s : State) : State :=
  answerLong measureCode .ok (byte1 outcome.code ++ le16 count) s

/-- A result is handed to the owner named in its owner record (R9, R10). -/
def deliver (owner : Owner) (outcome : MeasureOutcome) (count : Nat) (s : State) : State :=
  match owner with
  | .plan i subject version => planResult i subject version outcome count s
  | .host _ => hostResult outcome count s
  | .wake => wakeResult outcome count s

/-- The measurement in progress ends with an outcome and a count: the engine is IDLE, and its owner takes the result
(R9, R10). -/
def endMeasurement (outcome : MeasureOutcome) (count : Nat) (s : State) : State :=
  match s.engine.job with
  | some j => deliver j.owner outcome count { s with engine := s.engine.freed }
  | none => s

end Sys2Proof.Machine
end

