-- ==== Sys2Proof/Machine/HostLink.lean ====
section
/-! DEFINITION. The host link: the receiver, the inbox, flow frames, the transmitter arbiter and the ack timer
(spec/07_the_host_link.md). -/

namespace Sys2Proof.Machine

/-! ### Error counters (R122) -/

/-- One more in a link error counter. -/
def bump (n : Nat) : Nat := satSucc Config.countMax n

/-- NOISE counted. -/
def Counters.addNoise (c : Counters) : Counters := { c with noise := bump c.noise }

/-- LENGTH counted. -/
def Counters.addLength (c : Counters) : Counters := { c with length := bump c.length }

/-- GAP counted. -/
def Counters.addGap (c : Counters) : Counters := { c with gap := bump c.gap }

/-- CRC counted. -/
def Counters.addCrc (c : Counters) : Counters := { c with crc := bump c.crc }

/-- CLASS counted. -/
def Counters.addClass (c : Counters) : Counters := { c with class' := bump c.class' }

/-- INBOX_DROP counted. -/
def Counters.addInboxDrop (c : Counters) : Counters := { c with inboxDrop := bump c.inboxDrop }

/-- ACK_RANGE counted. -/
def Counters.addAckRange (c : Counters) : Counters := { c with ackRange := bump c.ackRange }

/-- WINDOW_RANGE counted. -/
def Counters.addWindowRange (c : Counters) : Counters := { c with windowRange := bump c.windowRange }

/-! ### Inbox (R121) -/

/-- A request joins the newest end of the inbox; that breaks entry condition 4 at once (R121, R162; log entry 11). -/
def joinInbox (r : Request) (s : State) : State :=
  { s with handler := { s.handler with inbox := s.handler.inbox ++ [r] } }.settleIdle

/-- The response of the overflow reply slot: the frame's tag and code, BUSY and no payload (R121). -/
def busyReply (r : Request) : Response :=
  { tag := r.tag, code := r.code, result := .busy, payload := [], after := .nothing }

/-- A REQUEST frame taken by the inbox: joined, answered BUSY from the overflow reply slot, or dropped (R121). -/
def takeRequestFrame (r : Request) (s : State) : State :=
  if s.handler.inbox.length < Config.inboxCapacity then joinInbox r s
  else if s.tx.overflow.isNone then
    { s with tx := { s.tx with overflow := some (busyReply r) } }
  else s.count Counters.addInboxDrop

/-! ### Flow frames (R126 to R128) -/

/-- The ack timer after an acknowledgement in range: restarted when SENT entries remain, and otherwise stopped
(R127 step 2). -/
def ackTimerAfter (q : ReportQueue) (l : LinkSettings) (now : Time) : Option AckTimer :=
  if q.sentCount = 0 then none else some { start := now, span := l.ackTimeout }

/-- An acknowledgement in range (R127). -/
def takeAckInRange (n : Word) (s : State) : State :=
  let s1 := s.withQueue (s.queue.remove n s.uptime)
  { s1 with delivery :=
    { s1.delivery with ackTimer := ackTimerAfter s1.queue s1.linkCfg.settings s1.uptime, retries := 0, link := .active } }

/-- An ack field (R127). -/
def takeAck (n : Word) (s : State) : State :=
  if s.queue.ackInRange n then takeAckInRange n s else s.count Counters.addAckRange

/-- A window field (R128). -/
def takeWindow (w : Byte) (s : State) : State :=
  if w.toNat ≤ 8 then { s with delivery := { s.delivery with window := w.toNat } } else s.count Counters.addWindowRange

/-- A flow frame of the correct shape: its ack when bit 0 of the flags is set, and then its window when bit 1 is (R126). -/
def takeFlow (flags : Byte) (ack : Word) (window : Byte) (s : State) : State :=
  let s1 := if flags.getLsbD 0 then takeAck ack s else s
  if flags.getLsbD 1 then takeWindow window s1 else s1

/-! ### Transmitter arbiter (R123, R125) -/

/-- A frame started at the rate in force, its contents fixed now (R123, R124, R136). -/
def sendFrame (f : Frame) (s : State) : State :=
  { s with tx := { s.tx with sending := some { frame := f, rate := s.linkCfg.rate } } }

/-- A report frame started: the entry SENT, and the ack timer started if it was stopped (R109, R125). -/
def startReport (e : ReportEntry) (s : State) : State :=
  let s1 := s.withQueue s.queue.markSent
  { sendFrame (.report e) s1 with delivery :=
    { s1.delivery with ackTimer :=
      s1.delivery.ackTimer.or (some { start := s1.uptime, span := s1.linkCfg.settings.ackTimeout }) } }

/-- The oldest UNSENT report is started (R125); nothing when there is none. -/
def startOldest (s : State) : State :=
  match s.queue.oldestUnsent with
  | some e => startReport { e with sent := true } s
  | none => s

/-- The first ready candidate starts its frame: the response slot, the overflow reply slot, a report; starting it
empties its source (R123). -/
def startFrame (s : State) : State :=
  match s.tx.respSlot with
  | some r => sendFrame (.response r) { s with tx := { s.tx with respSlot := none } }
  | none =>
    match s.tx.overflow with
    | some r => sendFrame (.response r) { s with tx := { s.tx with overflow := none } }
    | none => startOldest s

/-- A ready frame is started at an IDLE transmitter (R123): what FRAME_BOUNDARY and FLOW_FRAME end with, and what comes before every
thing that does not itself reach the report queue or the delivery state, so that a report an event has left ready is on the line by
then (log entry 26). -/
def startIfFree (s : State) : State := if s.canStart then startFrame s else s

/-- A response that a later event than that of a report hands over, the transmitter still IDLE, finds the frame of that report started,
and waits (R123): where a report was ready before the event, `waiting`, and a reply is ready after it, the report starts first. -/
def reportFirst (waiting : Bool) (s : State) : State := if waiting && s.canReply && s.canReport then startOldest s else s

/-! ### Receiver (R119, R120) -/

/-- A REQUEST frame passed on by the receiver, with a ready report on the line before it (log entry 26); while a reset is pending it
goes to no destination (R120, R149). -/
def passRequest (r : Request) (s : State) : State :=
  if s.handler.pendingReset.isSome then s else takeRequestFrame r (startIfFree s)

/-- A FLOW frame of L = 5: one with any of bits 2 to 7 of its flags set is counted as CLASS; the others reach the
delivery state unless a reset is pending (R120, R149). -/
def passFlow (flags : Byte) (ack : Word) (window : Byte) (s : State) : State :=
  if 4 ≤ flags.toNat then s.count Counters.addClass
  else if s.handler.pendingReset.isSome then s else takeFlow flags ack window s

/-- A complete frame whose CRC matched, by its class (R120 steps 2 and 3). -/
def passBody (body : List Byte) (s : State) : State :=
  match body with
  | 0x01#8 :: tag :: code :: payload => passRequest { tag := tag, code := code, payload := payload } s
  | [0x04#8, flags, a0, a1, w] => passFlow flags (BitVec.ofNat 16 (a0.toNat + 256 * a1.toNat)) w s
  | _ => s.count Counters.addClass

/-- A complete frame is checked: its CRC first (R120). -/
def checkFrame (body : List Byte) (crc : Word) (s : State) : State :=
  if bodyCrc body = crc then passBody body s else s.count Counters.addCrc

/-- The receiver back in SEARCHING, with no partial frame. -/
def searchAgain (s : State) : State := { s with rx := .searching }

/-- What happens to a frame or a byte on RXD while the receiver is enabled; a DISABLED one takes nothing (R119). -/
def receiving (f : State → State) (s : State) : State := if s.rx.state = .disabled then s else f s

/-- One byte taken by the receiver (R119). -/
def takeByte (b : Byte) (s : State) : State :=
  match s.rx.state with
  | .disabled => s
  | .searching =>
    if b = 0x5A#8 then { s with rx := { state := .length, len := 0, bytes := [] } } else s.count Counters.addNoise
  | .length =>
    if 3 ≤ b.toNat ∧ b.toNat ≤ 250 then { s with rx := { state := .body, len := b.toNat, bytes := [] } }
    else (searchAgain s).count Counters.addLength
  | .body =>
    { s with rx := { s.rx with bytes := s.rx.bytes ++ [b],
                               state := if s.rx.len ≤ s.rx.bytes.length + 1 then .crc else .body } }
  | .crc =>
    if s.rx.len + 2 ≤ s.rx.bytes.length + 1 then
      checkFrame (s.rx.bytes.take s.rx.len)
        (BitVec.ofNat 16 (le16At (s.rx.bytes ++ [b]) s.rx.len)) (searchAgain s)
    else { s with rx := { s.rx with bytes := s.rx.bytes ++ [b] } }

/-- More than 10 ms without a byte: a partial frame is discarded and GAP counted; in SEARCHING nothing (R119). -/
def takeGap (s : State) : State :=
  match s.rx.state with
  | .length => (searchAgain s).count Counters.addGap
  | .body => (searchAgain s).count Counters.addGap
  | .crc => (searchAgain s).count Counters.addGap
  | _ => s

/-! ### Rate and ack timer (R129, R135, R136) -/

/-- The rate that will be in force once every change already ordered has been made (R135, R136). -/
def State.orderedRate (s : State) : Baud :=
  match s.tx.respSlot with
  | some { after := .baud b, .. } => b
  | _ =>
    match s.tx.sending with
    | some { frame := .response { after := .baud b, .. }, .. } => b
    | _ => s.linkCfg.rate

/-- A change of rate ordered with a response, if the new rate differs (R135, R136). -/
def State.baudOrder (s : State) (b : Baud) : AfterSend := if b = s.orderedRate then .nothing else .baud b

/-- A baud change made: both directions at the new rate, a partial frame discarded without a count (R136). -/
def changeRate (b : Baud) (s : State) : State :=
  { s with linkCfg := { s.linkCfg with rate := b },
           rx := if s.rx.state = .disabled then s.rx else .searching }

/-- The expiry of the ack timer (R129): the timer stops and the retry count increases; below the retry limit the queue
is rewound, at or above it the link stalls. -/
def expireAck (s : State) : State :=
  let d := { s.delivery with ackTimer := none, retries := s.delivery.retries + 1 }
  if s.delivery.retries + 1 < s.linkCfg.settings.retryLimit then { s with delivery := d }.withQueue s.queue.rewind
  else { s with delivery := { d with link := .stalled } }

end Sys2Proof.Machine
end

