-- ==== Sys2Proof/Machine/ProfileStore.lean ====
section
/-! DEFINITION. The profile store: the image of the running configuration, choosing slots, the phases of a save, the check
at a load, and the examination at boot (spec/11_the_profile_store.md). -/

namespace Sys2Proof.Machine

/-- The configuration a save stages: every owning block as it stands, the plan in force (the pending plan when present),
the initial window, and an autostart flag (R170). -/
def State.image (s : State) (autostart : Bool) : Image :=
  { keys := s.table.keys, ref := s.table.ref, groups := vecMap Group.config s.groups,
    plan := s.seq.pendingPlan.getD s.seq.plan, outputs := s.outputs, doze := s.doze.settings,
    link := s.linkCfg.settings, autostart := autostart }

/-- A slot of the store. -/
def Store.slot (st : Store) : SlotId → Slot
  | .a => st.slotA
  | .b => st.slotB

/-- The store with a slot replaced. -/
def Store.setSlot (st : Store) (i : SlotId) (x : Slot) : Store :=
  match i with
  | .a => { st with slotA := x }
  | .b => { st with slotB := x }

/-- The other slot. -/
def SlotId.other : SlotId → SlotId
  | .a => .b
  | .b => .a

/-- What a VALID slot holds. -/
def Slot.content (x : Slot) : Option Written :=
  match x.state, x.cells with
  | .valid, .written w => some w
  | _, _ => none

/-- The generation of a VALID slot, and 0 otherwise (R177). -/
def Slot.generation (x : Slot) : Nat := (x.content.map Written.generation).getD 0

/-- The autostart flag of a VALID slot, and off otherwise (R177). -/
def Slot.autostart (x : Slot) : Bool := (x.content.map fun w => w.image.autostart).getD false

/-- The VALID slot with the higher generation (R171, R178). -/
def Store.newest (st : Store) : Option SlotId :=
  match st.slotA.content, st.slotB.content with
  | some a, some b => if a.generation < b.generation then some .b else some .a
  | some _, none => some .a
  | none, some _ => some .b
  | none, none => none

/-- The newest VALID generation, and 0 when neither slot is VALID. -/
def Store.newestGeneration (st : Store) : Nat := (st.newest.map fun i => (st.slot i).generation).getD 0

/-- The slot a save would write: not the newest VALID one, A when neither is VALID (R171). -/
def Store.saveTarget (st : Store) : SlotId := (st.newest.map SlotId.other).getD .a

/-- The target slot PROFILE_INFO shows (R177). -/
def Store.shownTarget (st : Store) : SlotId := (st.staged.map Staged.target).getD st.saveTarget

/-- A save accepted: image staged, target and generation chosen, ERASING begun, the target slot EMPTY in the store's
record and its erase in progress (R171, R172). -/
def Store.beginSave (st : Store) (im : Image) : Store :=
  let target := st.saveTarget
  { st.setSlot target { state := .empty, cells := .torn } with
    save := .erasing, staged := some { image := im, target := target, generation := st.newestGeneration + 1 } }

/-- The end of ERASING: PROGRAMMING begins, and makes the target slot INVALID (R172). -/
def Store.endErasing (st : Store) : Store :=
  match st.save, st.staged with
  | .erasing, some x => { st.setSlot x.target { state := .invalid, cells := .torn } with save := .programming }
  | _, _ => st

/-- The end of PROGRAMMING: generation, image and checksum stand in the slot, without the commit mark (R172). -/
def Store.endProgramming (st : Store) : Store :=
  match st.save, st.staged with
  | .programming, some x =>
    { st.setSlot x.target
        { state := .invalid,
          cells := .written { generation := x.generation, image := x.image,
                              checksum := slotChecksum x.generation x.image, mark := false } } with
      save := .verifying }
  | _, _ => st

/-- The store with no save in flight. -/
def Store.saveOver (st : Store) : Store := { st with save := .idle, staged := none }

/-- The end of VERIFYING with a match: COMMITTING begins (R173). -/
def Store.beginCommit (st : Store) : Store := { st with save := .committing }

/-- A save ended as FAILED at VERIFYING: the slot is INVALID and its cells do not hold what was written (R173). -/
def Store.failVerify (st : Store) (x : Staged) : Store :=
  (st.setSlot x.target { state := .invalid, cells := .torn }).saveOver

/-- A save ended at COMMITTING: VALID with the commit mark, or INVALID without it (R173). -/
def Store.endCommit (st : Store) (x : Staged) (markPresent : Bool) : Store :=
  (st.setSlot x.target
    { state := if markPresent then .valid else .invalid,
      cells := .written { generation := x.generation, image := x.image,
                          checksum := slotChecksum x.generation x.image, mark := markPresent } }).saveOver

/-- Whether a slot's checksum matches its generation and image (R169, R175). -/
def Written.sound (w : Written) : Bool := decide (w.checksum = slotChecksum w.generation w.image)

/-- A slot checked again for a load: its content when VALID and sound; one that fails becomes INVALID (R175). When the cells of a
VALID slot come to fail the check the spec does not say; DESIGN CHOICE (log entry 27): cells never change by themselves after the commit. -/
def Store.checkSlot (st : Store) (i : SlotId) : Store × Option (SlotId × Written) :=
  match (st.slot i).content with
  | none => (st, none)
  | some w => if w.sound then (st, some (i, w)) else (st.setSlot i { (st.slot i) with state := .invalid }, none)

/-- NEWEST: the newest VALID slot, and the other one when it fails the check (R175). -/
def Store.checkNewest (st : Store) : Store × Option (SlotId × Written) :=
  match st.newest with
  | none => (st, none)
  | some i =>
    match (st.checkSlot i).2 with
    | some x => ((st.checkSlot i).1, some x)
    | none => (st.checkSlot i).1.checkSlot i.other

/-- The slot a PROFILE_LOAD chooses: 0 A, 1 B, 2 NEWEST (R175). -/
def Store.chooseSlot (st : Store) : Nat → Store × Option (SlotId × Written)
  | 0 => st.checkSlot .a
  | 1 => st.checkSlot .b
  | _ => st.checkNewest

/-- The examination of one slot at boot: VALID when the commit mark is present and the checksum matches, EMPTY when
erased, INVALID otherwise; a cut erase or programming reads EMPTY or INVALID, which the spec leaves open (R169, R172). -/
def Slot.examine (free : Nat) (x : Slot) : Slot :=
  match x.cells with
  | .erased => { state := .empty, cells := .erased }
  | .written w => { state := if w.mark && w.sound then .valid else .invalid, cells := .written w }
  | .torn =>
    if Config.tornReadsEmpty free then { state := .empty, cells := .erased } else { state := .invalid, cells := .junk }
  | .junk => { state := .invalid, cells := .junk }

/-- Both slots examined (R178); each draws its own free value. -/
def examineStore (s : State) : State :=
  { s with store := { s.store with slotA := s.store.slotA.examine s.free, slotB := s.store.slotB.examine (s.free + 1) },
           free := s.free + 2 }

/-- A PROFILE_DONE offered at the end of a save (R173). -/
def offerDone (x : Staged) (ok : Bool) (s : State) : State := offer (.profileDone x.target ok x.generation) s

/-- The output settings replaced; a pulse in progress ends unless PULSE mode is kept (R156, R157). -/
def setOutputSettings (o : OutputSettings) (s : State) : State :=
  { s with outputs := o,
           attnPulse := s.attnPulse && decide (s.outputs.attnMode = .pulse) && decide (o.attnMode = .pulse) }

/-- The whole running configuration replaced from an image (R176 steps 1 to 6). -/
def loadImage (im : Image) (s : State) : State :=
  setOutputSettings im.outputs
    { s with
      table := { keys := im.keys, ref := im.ref, keyVersions := vecMap (fun v => v + 1) s.table.keyVersions,
                 refVersion := s.table.refVersion + 1 }
      track := { keys := vecMap (fun r => .afterReset r.enabled) im.keys, ref := .settled 0 }
      groups := vecMap Group.fresh im.groups
      seq := { s.seq with plan := im.plan, pendingPlan := none }
      doze := { s.doze with settings := im.doze, wake := .afterReset, idle := 0, request := none, state := .awake }
      linkCfg := { s.linkCfg with settings := im.link }
      delivery := { s.delivery with window := im.link.window } }

end Sys2Proof.Machine
end

