-- ==== Sys2Proof/Machine/KeyRequests.lean ====
section
/-! DEFINITION. The requests that reach the key table, the trackers and the groups: SET_KEY, GET_KEY, SET_REF, GET_REF
(spec/02), SET_GROUP, GET_GROUP (spec/05), RECALIBRATE, READ_KEYS (spec/04). Each is executed by the handler: the
checks of R141, then the effect and the response. -/

namespace Sys2Proof.Machine

/-- The key id a payload names, once it has been checked. -/
def keyOf (p : List Byte) : KeyId := Fin.ofNat 32 (byteAt p 0)

/-- The group id a payload names, once it has been checked. -/
def groupOfPayload (p : List Byte) : GroupId := Fin.ofNat 8 (byteAt p 0)

/-- The slider a key is a member of evaluated after an effect on that one key (R98, SET_KEY). -/
def evaluateSliderOf (k : KeyId) (s : State) : State :=
  match s.groupOf k with
  | some g => evaluateTouchOnly s g
  | none => s

/-- A key record stored and its config version advanced (R31 steps 1 and 2). -/
def storeKey (k : KeyId) (r : KeyRecord) (s : State) : State :=
  { s with table := { s.table with keys := vecSet s.table.keys k r,
                                   keyVersions := vecSet s.table.keyVersions k (s.table.keyVersions[k] + 1) } }

/-- An accepted SET_KEY (R31). -/
def acceptSetKey (r : Request) (s : State) : State :=
  let k := keyOf r.payload
  let s1 := evaluateSliderOf k (reconfigure k (storeKey k (readKeyRecord r.payload 1) s))
  respond r .ok (byte1 k.val ++ le16 s1.table.keyVersions[k].toNat) s1

/-- SET_KEY (R29 to R31). -/
def runSetKey (r : Request) (s : State) : State :=
  checked r (r.payload.length == 29) true (setKeyChecks r.payload) (acceptSetKey r) s

/-- GET_KEY (R32). -/
def runGetKey (r : Request) (s : State) : State :=
  checked r (r.payload.length == 1) true [(1, inRange 0 31 (byteAt r.payload 0))]
    (fun s => respond r .ok (byte1 (keyOf r.payload).val ++ (s.keyCfg (keyOf r.payload)).bytes ++
      le16 s.table.keyVersions[keyOf r.payload].toNat) s) s

/-- An accepted SET_REF (R33): drift 0 (R83). -/
def acceptSetRef (r : Request) (s : State) : State :=
  let s1 := { s with table := { s.table with ref := readRefRecord r.payload, refVersion := s.table.refVersion + 1 } }
  respond r .ok (le16 s1.table.refVersion.toNat) (s1.setRef (.settled 0))

/-- SET_REF (R33). -/
def runSetRef (r : Request) (s : State) : State :=
  checked r (r.payload.length == 8) true (setRefChecks r.payload) (acceptSetRef r) s

/-- GET_REF (R34). -/
def runGetRef (r : Request) (s : State) : State :=
  checked r (r.payload.length == 0) true [] (fun s => respond r .ok (s.table.ref.bytes ++ le16 s.table.refVersion.toNat) s) s

/-- SET_GROUP (R88, R89). -/
def runSetGroup (r : Request) (s : State) : State :=
  checked r (decide (5 ≤ r.payload.length) && r.payload.length == 5 + byteAt r.payload 4)
    (decide (s.seq.runState = .stopped)) (setGroupChecks s.groups r.payload)
    (fun s => respond r .ok [] (s.setGroup (groupOfPayload r.payload) (.fresh (readGroup r.payload)))) s

/-- GET_GROUP's payload (Table 5-3). -/
def groupReply (g : GroupId) (x : Group) : List Byte :=
  byte1 g.val ++ x.config.bytes ++ byte1 ((x.holder.map Fin.val).getD 0xFF) ++ boolByte x.touched ++ le16 x.lastPos

/-- GET_GROUP (R90). -/
def runGetGroup (r : Request) (s : State) : State :=
  checked r (r.payload.length == 1) true [(1, inRange 0 7 (byteAt r.payload 0))]
    (fun s => respond r .ok (groupReply (groupOfPayload r.payload) s.groups[groupOfPayload r.payload]) s) s

/-- The reference changed by RECALIBRATE with the reference flag: SETTLING, its drift kept (R83). -/
def recalibrateRef (s : State) : State := s.setRef (.settled s.track.ref.drift)

/-- An accepted RECALIBRATE: the selected keys in ascending order, every slider once, then the reference (R84, R98). -/
def acceptRecalibrate (r : Request) (s : State) : State :=
  let affected := (selected r.payload).countP fun k => decide ((s.rt k).state ≠ .disabled)
  let s1 := evaluateAll ((selected r.payload).foldl hostRecal s)
  respond r .ok (byte1 affected) (if byteAt r.payload 4 = 1 then recalibrateRef s1 else s1)

/-- RECALIBRATE (R84). -/
def runRecalibrate (r : Request) (s : State) : State :=
  checked r (r.payload.length == 5) true [(2, inRange 0 1 (byteAt r.payload 4))] (acceptRecalibrate r) s

/-- A READ_KEYS entry of a key (Table 4-7). -/
def keyEntry (k : KeyId) (x : KeyRuntime) : List Byte :=
  byte1 k.val ++ byte1 x.state.code ++ optCount x.signal ++ optCount x.baseline ++ leS16 x.delta ++ byte1 x.faultStreak

/-- The READ_KEYS entry of the reference (Table 4-7). -/
def refEntry (x : RefRuntime) : List Byte :=
  byte1 0x80 ++ byte1 x.state.code ++ optCount x.signal ++ optCount x.baseline ++ leS16 x.drift ++ byte1 x.faultStreak

/-- READ_KEYS' payload: the reference first when its flag is set, then the selected keys in ascending order (R85). -/
def readKeysReply (p : List Byte) (s : State) : List Byte :=
  (if byteAt p 4 = 1 then refEntry s.track.ref else []) ++ (selected p).flatMap fun k => keyEntry k (s.rt k)

/-- READ_KEYS (R85): at most 27 entries. -/
def runReadKeys (r : Request) (s : State) : State :=
  checked r (r.payload.length == 5) true
    [(1, decide ((selected r.payload).length ≤ 27)),
     (2, inRange 0 1 (byteAt r.payload 4) && !(byteAt r.payload 4 == 1 && (selected r.payload).length == 27))]
    (fun s => respond r .ok (readKeysReply r.payload s) s) s

end Sys2Proof.Machine
end

