-- ==== Sys2Proof/Machine/ScanRequests.lean ====
section
/-! DEFINITION. The requests that reach the sequencer and the engine: SET_PLAN, GET_PLAN, START_SCAN, STOP_SCAN
(spec/03) and MEASURE (spec/01, section 1.6). -/

namespace Sys2Proof.Machine

/-- An accepted SET_PLAN: the active plan in STOPPED, the pending plan otherwise (R48, R83). -/
def acceptSetPlan (r : Request) (s : State) : State :=
  if s.seq.runState = .stopped then
    respond r .ok [] (refPlanChange (readPlan r.payload).entries
      { s with seq := { s.seq with plan := readPlan r.payload, pendingPlan := none } })
  else respond r .deferred [] { s with seq := { s.seq with pendingPlan := some (readPlan r.payload) } }

/-- SET_PLAN (R47, R48). -/
def runSetPlan (r : Request) (s : State) : State :=
  checked r (decide (3 ≤ r.payload.length) && r.payload.length == 3 + byteAt r.payload 2) true
    (setPlanChecks r.payload) (acceptSetPlan r) s

/-- The pending plan as GET_PLAN carries it: period 0 and count 0 when absent (R49). -/
def pendingBytes (p : Option Plan) : List Byte := (p.getD { period := 0, entries := [] }).bytes

/-- GET_PLAN (R49). -/
def runGetPlan (r : Request) (s : State) : State :=
  checked r (r.payload.length == 0) true []
    (fun s => respond r .ok (s.seq.plan.bytes ++ pendingBytes s.seq.pendingPlan) s) s

/-- START_SCAN (R50). -/
def runStartScan (r : Request) (s : State) : State :=
  checked r (r.payload.length == 0) (decide (s.seq.runState = .stopped)) []
    (fun s => if s.seq.plan.entries.isEmpty then respond r .noPlan [] s else respond r .ok [] (startScanning s)) s

/-- An accepted STOP_SCAN in SCANNING: a waiting claim is withdrawn and the stop completes; a measurement in flight is
asked to abort and the run state becomes STOPPING (R51). -/
def stopScanning (s : State) : State :=
  if s.claims.plan.isNone ∧ s.engine.ownerKind = .plan then
    requestAbort .plan { s with seq := { s.seq with timerOn := false, runState := .stopping } }
  else completeStop { s with claims := { s.claims with plan := none } }

/-- An accepted STOP_SCAN, by the run state (R51). In STOPPING and DOZING none is executed (R53, R54). -/
def acceptStopScan (r : Request) (s : State) : State :=
  match s.seq.runState with
  | .scanning => stopScanning s
  | .cycleWait => completeStop s
  | _ => respond r .ok [] s

/-- STOP_SCAN (R51). -/
def runStopScan (r : Request) (s : State) : State := checked r (r.payload.length == 0) true [] (acceptStopScan r) s

/-- The claim an accepted MEASURE makes (R13, R18). -/
def measureClaim (r : Request) : HostClaim :=
  { request := r, target := readTarget r.payload, meas := readMeas r.payload 4 }

/-- MEASURE (R18): a claim for a host measurement; the request stays in execution until its result (R144). -/
def runMeasure (r : Request) (s : State) : State :=
  checked r (r.payload.length == 11) true (measureChecks r.payload)
    (fun s => { s with claims := { s.claims with host := some (measureClaim r) } }) s

end Sys2Proof.Machine
end

