-- ==== Sys2Proof/Machine/PartRequests.lean ====
section
/-! DEFINITION. The requests that reach the report queue and the link (spec/06, spec/07), the part as a whole (spec/08), the
output lines (spec/09), the doze controller (spec/10) and the profile store (spec/11). -/

namespace Sys2Proof.Machine

/-! ### Report queue and link -/

/-- FLUSH_REPORTS (R113, R132). -/
def runFlushReports (r : Request) (s : State) : State :=
  checked r (r.payload.length == 0) true []
    (fun s => respond r .ok (byte1 s.queue.entries.length ++ le16 s.queue.lost)
      { s.withQueue s.queue.flush with delivery := { s.delivery with ackTimer := none } }) s

/-- RESYNC (R133). -/
def runResync (r : Request) (s : State) : State :=
  checked r (r.payload.length == 0) true []
    (fun s => respond r .ok (le16 s.queue.oldestSeq.toNat ++ byte1 s.queue.entries.length)
      { s.withQueue s.queue.rewind with delivery := { s.delivery with ackTimer := none, retries := 0, link := .active } }) s

/-- An accepted SET_LINK (R135). -/
def acceptSetLink (r : Request) (s : State) : State :=
  respondThen (s.baudOrder (readLink r.payload).baud) r .ok []
    { s with linkCfg := { s.linkCfg with settings := readLink r.payload },
             delivery := { s.delivery with window := (readLink r.payload).window } }

/-- SET_LINK (R135). -/
def runSetLink (r : Request) (s : State) : State :=
  checked r (r.payload.length == 5) true (setLinkChecks r.payload) (acceptSetLink r) s

/-- READ_LINK_STATS' payload (Table 7-6). -/
def linkStats (s : State) : List Byte :=
  le16 s.counters.noise ++ le16 s.counters.length ++ le16 s.counters.gap ++ le16 s.counters.crc ++
  le16 s.counters.class' ++ le16 s.counters.inboxDrop ++ le16 s.counters.ackRange ++ le16 s.counters.windowRange ++
  byte1 s.delivery.retries ++ byte1 s.delivery.link.code ++ byte1 s.delivery.window

/-- READ_LINK_STATS (R137). -/
def runReadLinkStats (r : Request) (s : State) : State :=
  checked r (r.payload.length == 1) true [(1, inRange 0 1 (byteAt r.payload 0))]
    (fun s => respond r .ok (linkStats s) (if byteAt r.payload 0 = 1 then s.count fun _ => .zero else s)) s

/-! ### The part -/

/-- IDENTIFY (R146). -/
def runIdentify (r : Request) (s : State) : State :=
  checked r (r.payload.length == 0) true [] (fun s => respond r .ok Config.identity s) s

/-- READ_STATUS' payload (Table 8-5). -/
def statusReply (s : State) : List Byte :=
  byte1 s.seq.runState.code ++ byte1 s.delivery.link.code ++ byte1 s.queue.entries.length ++ byte1 s.queue.sentCount ++
  byte1 (s.queue.entries.length - s.queue.sentCount) ++ le16 s.queue.lost ++ byte1 s.delivery.window ++
  byte1 s.store.save.code ++ byte1 s.doze.state.code ++ byte1 s.track.ref.state.code ++ le16 s.seq.overruns ++
  byte1 s.resetCause.code ++ le32 s.uptime.toNat

/-- READ_STATUS (R147). -/
def runReadStatus (r : Request) (s : State) : State :=
  checked r (r.payload.length == 0) true [] (fun s => respond r .ok (statusReply s) s) s

/-- The mode of a SOFT_RESET payload (R149). -/
def readMode (p : List Byte) : ResetMode := if byteAt p 0 = 1 then .defaults else .restart

/-- SOFT_RESET (R149): the pending reset set, and the reset to follow the last stop bit of the response. -/
def runSoftReset (r : Request) (s : State) : State :=
  checked r (r.payload.length == 1) true [(1, inRange 0 1 (byteAt r.payload 0))]
    (fun s => respondThen (.reset (readMode r.payload)) r .ok []
      { s with handler := { s.handler with pendingReset := some (readMode r.payload) } }) s

/-- A request whose code is not in Table 8-2 (R141). -/
def refuseUnknown (r : Request) (s : State) : State := respond r .unknownRequest [] s

/-! ### Output lines -/

/-- SET_OUTPUTS (R157). -/
def runSetOutputs (r : Request) (s : State) : State :=
  checked r (r.payload.length == 10) true (setOutputsChecks r.payload)
    (fun s => respond r .ok [] (setOutputSettings (readOutputs r.payload) s)) s

/-- GET_OUTPUTS (R158). -/
def runGetOutputs (r : Request) (s : State) : State :=
  checked r (r.payload.length == 0) true []
    (fun s => respond r .ok (s.outputs.bytes ++ boolByte s.pins.bselHigh ++ byte1 s.activeLines ++ boolByte s.attnLow) s) s

/-! ### Doze controller -/

/-- An accepted SET_DOZE: settings replaced, the wake set record reset, an AUTO entry request cleared, the idle timer 0
(R160). -/
def acceptSetDoze (r : Request) (s : State) : State :=
  let s1 := if s.doze.request = some .auto then clearEntryRequest s else s
  respond r .ok []
    { s1 with doze := { s1.doze with settings := readDoze r.payload, wake := .afterReset, idle := 0 } }

/-- SET_DOZE (R160). -/
def runSetDoze (r : Request) (s : State) : State :=
  checked r (r.payload.length == 17) true (setDozeChecks r.payload) (acceptSetDoze r) s

/-- GET_DOZE's payload (R161). -/
def dozeReply (s : State) : List Byte :=
  s.doze.settings.bytes ++ byte1 s.doze.state.code ++ optCount s.doze.wake.baseline ++ optCount s.doze.wake.signal ++
  byte1 s.doze.wake.calCount ++ byte1 s.doze.wake.touchStreak ++ byte1 s.doze.wake.faultStreak ++ le32 s.doze.idle ++
  byte1 (entryRequestCode s.doze.request)

/-- GET_DOZE (R161). -/
def runGetDoze (r : Request) (s : State) : State :=
  checked r (r.payload.length == 0) true [] (fun s => respond r .ok (dozeReply s) s) s

/-- ENTER_DOZE (R163): refused with STATE when one of the conditions 2 to 6 fails, and otherwise an entry request of
source HOST. -/
def runEnterDoze (r : Request) (s : State) : State :=
  checked r (r.payload.length == 0) true []
    (fun s => if s.entryConditions then raiseRequest .host s else respond r .state [] s) s

/-! ### Profile store -/

/-- A PROFILE_SAVE whose conditions hold (R171). -/
def acceptSave (r : Request) (s : State) : State :=
  respond r .accepted (byte1 s.store.saveTarget.code ++ le32 (s.store.newestGeneration + 1))
    { s with store := s.store.beginSave (s.image (byteAt r.payload 0 == 1)) }

/-- PROFILE_SAVE (R171): BUSY while a save is in flight, STATE when no greater generation exists. -/
def runProfileSave (r : Request) (s : State) : State :=
  checked r (r.payload.length == 1) true [(1, inRange 0 1 (byteAt r.payload 0))]
    (fun s =>
      if s.store.save ≠ .idle then respond r .busy [] s
      else if s.store.newestGeneration = Config.generationMax then respond r .state [] s
      else acceptSave r s) s

/-- A PROFILE_LOAD from the slot chosen, NO_PROFILE when none passes its check (R175, R176). -/
def loadChosen (r : Request) (s : State) : State :=
  let c := s.store.chooseSlot (byteAt r.payload 0)
  match c.2 with
  | none => respond r .noProfile [] { s with store := c.1 }
  | some (i, w) =>
    respondThen (s.baudOrder w.image.link.baud) r .ok (byte1 i.code ++ le32 w.generation)
      (loadImage w.image { s with store := c.1 })

/-- PROFILE_LOAD (R175, R176). -/
def runProfileLoad (r : Request) (s : State) : State :=
  checked r (r.payload.length == 1) (decide (s.seq.runState = .stopped)) [(1, inRange 0 2 (byteAt r.payload 0))]
    (fun s => if s.store.save ≠ .idle then respond r .busy [] s else loadChosen r s) s

/-- PROFILE_INFO's payload (R177). -/
def profileInfo (st : Store) : List Byte :=
  byte1 st.slotA.state.code ++ le32 st.slotA.generation ++ boolByte st.slotA.autostart ++
  byte1 st.slotB.state.code ++ le32 st.slotB.generation ++ boolByte st.slotB.autostart ++
  byte1 st.save.code ++ byte1 st.shownTarget.code

/-- PROFILE_INFO (R177). -/
def runProfileInfo (r : Request) (s : State) : State :=
  checked r (r.payload.length == 0) true [] (fun s => respond r .ok (profileInfo s.store) s) s

end Sys2Proof.Machine
end

