-- ==== Sys2Proof/Machine/Handler.lean ====
section
/-! DEFINITION. The request handler (spec/08_requests_and_responses.md), and what follows every event: grants, requests taken
and replies started, until none is due. -/

namespace Sys2Proof.Machine

/-- A request in execution is checked and executed, by its code (R141, Table 8-2). -/
def executeRequest (r : Request) (s : State) : State :=
  match r.code.toNat with
  | 0x01 => runIdentify r s
  | 0x02 => runReadStatus r s
  | 0x03 => runSoftReset r s
  | 0x10 => runSetKey r s
  | 0x11 => runGetKey r s
  | 0x12 => runSetRef r s
  | 0x13 => runGetRef r s
  | 0x18 => runSetGroup r s
  | 0x19 => runGetGroup r s
  | 0x20 => runSetPlan r s
  | 0x21 => runGetPlan r s
  | 0x22 => runStartScan r s
  | 0x23 => runStopScan r s
  | 0x28 => runMeasure r s
  | 0x30 => runRecalibrate r s
  | 0x31 => runReadKeys r s
  | 0x38 => runFlushReports r s
  | 0x40 => runResync r s
  | 0x41 => runSetLink r s
  | 0x42 => runReadLinkStats r s
  | 0x48 => runSetOutputs r s
  | 0x49 => runGetOutputs r s
  | 0x50 => runSetDoze r s
  | 0x51 => runEnterDoze r s
  | 0x52 => runGetDoze r s
  | 0x58 => runProfileSave r s
  | 0x59 => runProfileLoad r s
  | 0x5A => runProfileInfo r s
  | _ => refuseUnknown r s

/-- The oldest request leaves the inbox, becomes the request in execution, and is executed (R140). -/
def takeRequest (s : State) : State :=
  match s.handler.inbox with
  | [] => s
  | r :: rest => executeRequest r { s with handler := { s.handler with inbox := rest, executing := some r } }

/-- One thing that is due at the end of an event: a waiting claim granted at an IDLE engine, a request taken by a free
handler, or a reply started by an IDLE transmitter (R14, R123, R140; log entry 9). Nothing when none is due. -/
def settleOnce (s : State) : State :=
  if s.canGrant then grant s else if s.canTake then takeRequest s else if s.canReply then startFrame s else s

/-- A number of such things, one after the other. -/
def settleMany : Nat → State → State
  | 0, s => s
  | n + 1, s => settleMany n (settleOnce s)

/-- The most that can be due at the end of one event: one grant, since it leaves the engine busy; one reply, since it leaves
the transmitter SENDING; and two requests, one before the reply and one after it, since the response slot holds one. -/
def settleSteps : Nat := 4

/-- The end of an event: everything that is due is done, and the idle timer is set to 0 when it may not run (R162). A report that
has become ready waits for the arbiter's next start (log entry 26). -/
def finish (s : State) : State := (settleMany settleSteps s).settleIdle

/-- A claim waiting at an IDLE engine is granted at once (R14). -/
def grantIfFree (s : State) : State := if s.canGrant then grant s else s

/-- Whether nothing is due: no grant, no request to take, no reply to start. -/
def State.settled (s : State) : Bool := !s.canGrant && !s.canTake && !s.canReply

end Sys2Proof.Machine
end

