-- ==== Sys2Proof/Machine/Reset.lean ====
section
/-! DEFINITION. Resets and boot (R148 to R151; R178, R179; and the state after reset that each chapter gives its block). -/

namespace Sys2Proof.Machine

/-- Every block at its state after reset, under a configuration (R20, R26, R36, R56, R58, R80, R86, R99, R100, R122, R138,
R139, R152, R159, R169). The slots, the pins, the phase of the part and the recorded cause are not touched. -/
def resetBlocks (im : Image) (s : State) : State :=
  { s with
    uptime := 0
    engine := .afterReset
    claims := .none
    table := { keys := im.keys, ref := im.ref, keyVersions := vecOf fun _ => 0, refVersion := 0 }
    seq := .afterReset im.plan
    track := { keys := vecMap (fun r => .afterReset r.enabled) im.keys, ref := .afterReset }
    groups := vecMap Group.fresh im.groups
    queue := .afterReset
    rx := .searching
    counters := .zero
    tx := .idle
    delivery := .afterReset im.link
    linkCfg := { settings := im.link, rate := im.link.baud }
    handler := .afterReset
    outputs := im.outputs
    attnPulse := false
    doze := .afterReset im.doze
    store := s.store.saveOver }

/-- Whether a cause is that of a soft reset. -/
def ResetCause.isSoft : ResetCause → Bool
  | .softRestart => true
  | .softDefaults => true
  | _ => false

/-- The cause recorded when a reset begins: its own, unless another reset is in progress, whose cause is kept. A soft reset has
taken effect, so a reset that begins before its boot records its own cause (R148, R151). -/
def State.causeOnReset (s : State) (cause : ResetCause) : ResetCause :=
  match s.phase with
  | .running => cause
  | _ => if s.resetCause.isSoft then cause else s.resetCause

/-- A reset begins, with the configuration that stands until boot writes one (log entry 19). The part is held while RESET is low,
and otherwise at the end of its reset, with boot next (R148). -/
def enterReset (cause : ResetCause) (im : Image) (s : State) : State :=
  { resetBlocks im s with
    resetCause := s.causeOnReset cause
    phase := if s.pins.resetHigh then .bootDue else .held }

/-- VDD rises into its operating range (R148). -/
def powerUp (s : State) : State := enterReset .powerOn .factory s

/-- RESET goes low (R148): a part not held in reset begins a LINE reset, and its running configuration stands until boot. -/
def lineReset (s : State) : State :=
  if s.phase = .held then s
  else enterReset .line (s.image false) { s with pins := { s.pins with resetHigh := false } }

/-- The cause of a soft reset (R150). -/
def ResetMode.cause : ResetMode → ResetCause
  | .restart => .softRestart
  | .defaults => .softDefaults

/-- A soft reset takes effect (R150). -/
def softReset (m : ResetMode) (s : State) : State := enterReset m.cause (s.image false) s

/-- The configuration source of a boot: the newest VALID slot with its content, or absent for DEFAULTS (R178). -/
def State.bootSource (s : State) : Option (SlotId × Written) :=
  if s.resetCause = .softDefaults then none
  else s.store.newest.bind fun i => (s.store.slot i).content.map fun w => (i, w)

/-- The image of a configuration source (R178). -/
def sourceImage (src : Option (SlotId × Written)) : Image := (src.map fun x => x.2.image).getD .factory

/-- The BOOT report of a configuration source (R114, R179). -/
def bootReport (cause : ResetCause) (src : Option (SlotId × Written)) : Report :=
  .boot cause (src.map Prod.fst) ((src.map fun x => x.2.generation).getD 0)

/-- Autostart (R57, R179). -/
def autostart (im : Image) (s : State) : State :=
  if im.autostart && !im.plan.entries.isEmpty then startScanning s else s

/-- The configuration of a source written to every block, at uptime 0, and the part runs (R178). -/
def writeConfiguration (im : Image) (s : State) : State := { resetBlocks im s with phase := .running }

/-- Boot from a chosen source, the slots examined: configuration, BOOT, autostart (R178, R179). -/
def bootFrom (src : Option (SlotId × Written)) (s : State) : State :=
  autostart (sourceImage src)
    (offer (bootReport s.resetCause src) (writeConfiguration (sourceImage src) s))

/-- Boot, in one event (R178, R179). -/
def bootPart (s : State) : State := bootFrom (examineStore s).bootSource (examineStore s)

/-- The end of reset: RESET is high, and the part boots (R148, R178). A claim of an autostart is granted at once (R14), and BOOT,
as every report, waits UNSENT for the arbiter's next start (R114, R156; log entry 26). A part that runs is not in reset. -/
def endReset (s : State) : State :=
  if s.phase = .running then s else grantIfFree (bootPart { s with pins := { s.pins with resetHigh := true } })

end Sys2Proof.Machine
end

