-- ==== Sys2Proof/Machine/Events.lean ====
section
/-! DEFINITION. The events that are no request: at the receiver and the transmitter, at the engine, of the timers, of the
doze, of a save and of the pins, each as one change of a part that runs; and the wrappers that give a command to the part. -/

namespace Sys2Proof.Machine

/-! ### A command and the part -/

/-- An event given to the part: a part in reset, or at its end with boot next, does nothing (R148, R178); one that runs has a ready
report on the line before the event (log entry 26), takes it, and does everything that is then due. -/
def onPart (f : State → State) (s : State) : Host.Outcome State Fault Refusal :=
  .next (if s.phase = .running then finish (f (startIfFree s)) else s)

/-- An event that may offer a report, or the expiry of the ack timer: a ready report does not start before it, so that the event may
come first where it races with that start, and starts in it only before a response that the event hands over (R112, R123, R131; log
entry 26). -/
def onQueue (f : State → State) (s : State) : Host.Outcome State Fault Refusal :=
  .next (if s.phase = .running then finish (reportFirst s.canReport (f s)) else s)

/-- The frame boundary, a flow frame, or bytes that may make one up: a ready report starts at its end and not before it, so that the
event may come first where it races with that start (R131; log entry 26). -/
def onLink (f : State → State) (s : State) : Host.Outcome State Fault Refusal :=
  .next (if s.phase = .running then startIfFree (finish (f s)) else s)

/-- An edge on a pin: the level changes even while the part is in reset. -/
def onPins (pins : Pins) (f : State → State) (s : State) : Host.Outcome State Fault Refusal :=
  onPart f { s with pins := pins }

/-! ### Receiver -/

/-- A checked REQUEST frame arrives whole, and the receiver is back in SEARCHING (R119 to R121; log entries 5 and 6). -/
def receiveRequest (r : Request) : State → State := receiving fun s => passRequest r (searchAgain s)

/-- A complete FLOW frame of L = 5 whose CRC matched arrives (R120, R126). -/
def receiveFlow (flags : Byte) (ack : Word) (window : Byte) : State → State :=
  receiving fun s => passFlow flags ack window (searchAgain s)

/-- A complete frame arrives, to be checked (R120). -/
def receiveFrame (body : List Byte) (crc : Word) : State → State := receiving fun s => checkFrame body crc (searchAgain s)

/-! ### Transmitter and ack timer -/

/-- What follows the last stop bit of a response frame (R136, R150). -/
def afterSend : AfterSend → State → State
  | .nothing, s => s
  | .baud b, s => changeRate b s
  | .reset m, s => softReset m s

/-- The frame on the line ends: the transmitter is IDLE, and a change of rate or a soft reset that waited for a response frame
is made (R123, R136, R150). With none on the line there is nothing to end. -/
def endFrame (s : State) : State :=
  match s.tx.sending with
  | none => s
  | some f =>
    let s1 := { s with tx := { s.tx with sending := none } }
    match f.frame with
    | .response r => afterSend r.after s1
    | .report _ => s1

/-- The ack timer runs out: it is still running, and its expiry time is reached (R125, R129). -/
def ackExpires (s : State) : State :=
  match s.delivery.ackTimer with
  | none => s
  | some t => if s.expired t.start t.span then expireAck s else s

/-! ### Engine -/

/-- The end of DISCHARGE (R6, R10). -/
def endDischarge (s : State) : State :=
  if s.engine.phase = .discharge then
    if s.engine.abort then endMeasurement .aborted 0 s else { s with engine := { s.engine with phase := .charge } }
  else s

/-- The end of CHARGE: TRANSFER begins with a count of 0 (R7). -/
def endCharge (s : State) : State :=
  if s.engine.phase = .charge then { s with engine := { s.engine with phase := .transfer, count := 0 } } else s

/-- The end of TRANSFER, at the comparison that finds the node below the trip level, or at the count limit (R8, R9). It is taken
first also when an abort request has found that TRANSFER in the same moment (R11). -/
def endTransfer (trip : Option Nat) (s : State) : State :=
  match s.engine.job with
  | some j =>
    if s.engine.phase = .transfer ∨ s.engine.cut = true then
      let x := transferOutcome j.meas trip
      endMeasurement x.1 x.2 { s with engine := { s.engine with count := x.2 } }
    else s
  | none => s

/-! ### Period timer -/

/-- The period timer runs out: the mark in SCANNING, the boundary in CYCLE_WAIT (R44). -/
def takePeriod (s : State) : State :=
  match s.seq.runState with
  | .scanning => { s with seq := { s.seq with elapsed := true } }
  | .cycleWait => cycleBoundary s
  | _ => s

/-- The expiry of a running period timer (R44). -/
def periodExpires (s : State) : State :=
  if s.seq.timerOn && s.expired s.seq.cycleStart s.seq.plan.period then takePeriod s else s

/-! ### Doze -/

/-- Whether the idle timer runs and stands at the idle time (R162). -/
def State.idleOver (s : State) : Bool := s.idleRuns && decide (s.idleTarget ≤ s.doze.idle)

/-- The idle timer reaches the idle time: it stops, and raises the AUTO entry request (R162). -/
def idleExpires (s : State) : State := if s.idleOver then raiseRequest .auto s else s

/-- Whether ENTERING ends: the transmitter is IDLE and the response slot is empty (R164). -/
def State.enteringOver (s : State) : Bool :=
  decide (s.doze.state = .entering) && s.tx.sending.isNone && s.tx.respSlot.isNone

/-- DOZING begins: the interval timer starts, and the doze controller claims the engine for the wake set (R164). -/
def beginDozing (s : State) : State :=
  { s with
    doze := { s.doze with state := .dozing, interval := some s.uptime }
    claims := { s.claims with wake := true } }

/-- The end of ENTERING; with HWAKE low the part wakes at once after it, with cause LINE (R164). The new wake claim is then granted
before that wake could withdraw it, so that a measurement starts and is aborted; R13 lets the withdrawal come first too. DESIGN CHOICE
(log entry 28). -/
def endEntering (s : State) : State :=
  if s.enteringOver then
    if s.pins.hwakeHigh then beginDozing s else beginWake .line (grantIfFree (beginDozing s))
  else s

/-- A wake claim, unless one waits or a wake measurement is in flight (R165). -/
def claimWake (s : State) : State :=
  if s.claims.wake || decide (s.engine.ownerKind = .wake) then s else { s with claims := { s.claims with wake := true } }

/-- The expiry of the interval timer: restarted for the next interval, and a wake claim (R165). -/
def intervalExpires (s : State) : State :=
  match s.doze.state, s.doze.interval with
  | .dozing, some t =>
    if s.expired t s.doze.settings.interval then
      claimWake { s with doze := { s.doze with interval := some (t + BitVec.ofNat 32 s.doze.settings.interval) } }
    else s
  | _, _ => s

/-- HWAKE falls: in DOZING a LINE wake begins (R167). -/
def wakeLineFalls (s : State) : State := if s.doze.state = .dozing then beginWake .line s else s

/-- The WAKE report of the recorded cause (R167 step 3). -/
def offerWake (s : State) : State :=
  match s.doze.cause with
  | some c => offer (.wake c) s
  | none => s

/-- The sequencer returns to the recorded run state (R55). -/
def resumeRunState (s : State) : State :=
  match s.doze.recorded with
  | .stopped => { s with seq := { s.seq with runState := .stopped } }
  | .running => startScanning s

/-- WAKING ends (R167). -/
def completeWake (s : State) : State :=
  if s.doze.state = .waking then
    let s1 := offerWake { s with rx := .searching }
    let s2 := resumeRunState (s1.setWake (s1.doze.wake.afterWake s1.doze.cause))
    { s2 with doze := { s2.doze with state := .awake, cause := none, idle := 0 } }
  else s

/-! ### Profile save -/

/-- The end of VERIFYING (R173). -/
def endVerifying (matched : Bool) (s : State) : State :=
  match s.store.save, s.store.staged with
  | .verifying, some x =>
    if matched then { s with store := s.store.beginCommit } else offerDone x false { s with store := s.store.failVerify x }
  | _, _ => s

/-- The end of COMMITTING (R173). -/
def endCommitting (markPresent : Bool) (s : State) : State :=
  match s.store.save, s.store.staged with
  | .committing, some x => offerDone x markPresent { s with store := s.store.endCommit x markPresent }
  | _, _ => s

/-! ### Time with nothing commanded -/

/-- The timers that have reached their expiry, as commands (log entry 2). -/
def State.dueTimers (s : State) : List Instr :=
  (if s.idleOver then [.idleTimerExpiry] else []) ++
  (match s.delivery.ackTimer with
    | some t => if s.expired t.start t.span then [.ackTimerExpiry] else []
    | none => []) ++
  (if s.seq.timerOn && s.expired s.seq.cycleStart s.seq.plan.period &&
      (decide (s.seq.runState = .cycleWait) || (decide (s.seq.runState = .scanning) && !s.seq.elapsed))
    then [.periodTimerExpiry] else []) ++
  (match s.doze.state, s.doze.interval with
    | .dozing, some t => if s.expired t s.doze.settings.interval then [.intervalTimerExpiry] else []
    | _, _ => [])

/-- What a step does when no command waits (log entry 2): a part held in reset does nothing; one whose boot or whose end of
ENTERING is due is given that event; and otherwise one millisecond passes, and the timers that reach their expiry post it. -/
def idleStep (s : State) : State :=
  match s.phase with
  | .held => s
  | .bootDue => { s with pending := [.boot] }
  | .running =>
    if s.enteringOver then { s with pending := [.enteringEnd] }
    else
      let t := finish (passTime (startIfFree s))
      { t with pending := t.dueTimers }

end Sys2Proof.Machine
end

