-- ==== Sys2Proof/Machine/EventCommands.lean ====
section
/-! DEFINITION. The meanings of the commands that are no request: frames and bytes at the receiver, the end of a frame, the
timers, the engine's phases, the doze, the phases of a save, the pins and the resets. -/

namespace Sys2Proof.Machine

/-! ### Host link -/

/-- REQUEST_FRAME: a checked REQUEST frame of any code (R121). -/
def execRequestFrame (tag code : Byte) (payload : List Byte) (s : State) : Host.Outcome State Fault Refusal :=
  onPart (receiveRequest { tag := tag, code := code, payload := payload }) s

/-- FLOW_FRAME (R126); what it leaves ready is sent at once by an IDLE transmitter (R128). -/
def execFlowFrame (flags : Byte) (ack : Word) (window : Byte) (s : State) : Host.Outcome State Fault Refusal :=
  onLink (receiveFlow flags ack window) s

/-- FRAME_DISCARD: a complete frame is checked (R120). -/
def execFrameDiscard (body : List Byte) (crc : Word) (s : State) : Host.Outcome State Fault Refusal :=
  onLink (receiveFrame body crc) s

/-- STRAY_BYTE: a byte is taken (R119). -/
def execStrayByte (b : Byte) (s : State) : Host.Outcome State Fault Refusal := onLink (takeByte b) s

/-- GAP (R119). -/
def execGap (s : State) : Host.Outcome State Fault Refusal := onPart takeGap s

/-- FRAME_BOUNDARY: the frame on the line ends, and the first ready candidate starts (R123). -/
def execFrameBoundary (s : State) : Host.Outcome State Fault Refusal := onLink endFrame s

/-- ACK_TIMER_EXPIRY (R129). -/
def execAckTimerExpiry (s : State) : Host.Outcome State Fault Refusal := onQueue ackExpires s

/-! ### Engine and sequencer -/

/-- DISCHARGE_END (R6). -/
def execDischargeEnd (s : State) : Host.Outcome State Fault Refusal := onQueue endDischarge s

/-- CHARGE_END (R7). -/
def execChargeEnd (s : State) : Host.Outcome State Fault Refusal := onPart endCharge s

/-- TRANSFER_END (R8). -/
def execTransferEnd (trip : Option Nat) (s : State) : Host.Outcome State Fault Refusal := onQueue (endTransfer trip) s

/-- PERIOD_TIMER_EXPIRY (R44). -/
def execPeriodTimerExpiry (s : State) : Host.Outcome State Fault Refusal := onQueue periodExpires s

/-! ### Doze -/

/-- IDLE_TIMER_EXPIRY (R162). -/
def execIdleTimerExpiry (s : State) : Host.Outcome State Fault Refusal := onPart idleExpires s

/-- ENTERING_END (R164). -/
def execEnteringEnd (s : State) : Host.Outcome State Fault Refusal := onPart endEntering s

/-- INTERVAL_TIMER_EXPIRY (R165). -/
def execIntervalTimerExpiry (s : State) : Host.Outcome State Fault Refusal := onPart intervalExpires s

/-- HWAKE_FALL (R162, R167); an input that is low does not fall (log entry 13). -/
def execHwakeFall (s : State) : Host.Outcome State Fault Refusal :=
  if s.pins.hwakeHigh then onPins { s.pins with hwakeHigh := false } wakeLineFalls s else onPart id s

/-- HWAKE_RISE: the level, and nothing else (R167); an input that is high does not rise. -/
def execHwakeRise (s : State) : Host.Outcome State Fault Refusal :=
  if s.pins.hwakeHigh then onPart id s else onPins { s.pins with hwakeHigh := true } id s

/-- WAKE_COMPLETE (R167). -/
def execWakeComplete (s : State) : Host.Outcome State Fault Refusal := onQueue completeWake s

/-! ### Profile save -/

/-- ERASING_END (R172). -/
def execErasingEnd (s : State) : Host.Outcome State Fault Refusal :=
  onPart (fun s => { s with store := s.store.endErasing }) s

/-- PROGRAMMING_END (R172). -/
def execProgrammingEnd (s : State) : Host.Outcome State Fault Refusal :=
  onPart (fun s => { s with store := s.store.endProgramming }) s

/-- VERIFYING_END (R173). -/
def execVerifyingEnd (matched : Bool) (s : State) : Host.Outcome State Fault Refusal := onQueue (endVerifying matched) s

/-- COMMITTING_END (R173). -/
def execCommittingEnd (markPresent : Bool) (s : State) : Host.Outcome State Fault Refusal :=
  onQueue (endCommitting markPresent) s

/-! ### Lines and resets -/

/-- ATTN_PULSE_END (R156). -/
def execAttnPulseEnd (s : State) : Host.Outcome State Fault Refusal := onPart (fun s => { s with attnPulse := false }) s

/-- BSEL_EDGE: the other bank is selected (R153). -/
def execBselEdge (s : State) : Host.Outcome State Fault Refusal := onPins { s.pins with bselHigh := !s.pins.bselHigh } id s

/-- POWER_ON (R148). -/
def execPowerOn (s : State) : Host.Outcome State Fault Refusal := .next (powerUp s)

/-- RESET_LOW (R148). -/
def execResetLow (s : State) : Host.Outcome State Fault Refusal := .next (lineReset s)

/-- BOOT: the end of reset (R178, R179). -/
def execBoot (s : State) : Host.Outcome State Fault Refusal := .next (endReset s)

end Sys2Proof.Machine
end

