-- ==== Sys2Proof/Machine/RequestCommands.lean ====
section
/-! DEFINITION. The meanings of the request commands: each is the arrival of one checked REQUEST frame that carries the
request's code (log entry 5). The handler takes it in the same event when it is free (R140) and executes it by its code. -/

namespace Sys2Proof.Machine

/-- IDENTIFY (R146). -/
def execIdentify (tag : Byte) (payload : List Byte) (s : State) : Host.Outcome State Fault Refusal :=
  onPart (receiveRequest { tag := tag, code := 0x01, payload := payload }) s

/-- READ_STATUS (R147). -/
def execReadStatus (tag : Byte) (payload : List Byte) (s : State) : Host.Outcome State Fault Refusal :=
  onPart (receiveRequest { tag := tag, code := 0x02, payload := payload }) s

/-- SOFT_RESET (R149). -/
def execSoftReset (tag : Byte) (payload : List Byte) (s : State) : Host.Outcome State Fault Refusal :=
  onPart (receiveRequest { tag := tag, code := 0x03, payload := payload }) s

/-- SET_KEY (R29 to R31). -/
def execSetKey (tag : Byte) (payload : List Byte) (s : State) : Host.Outcome State Fault Refusal :=
  onPart (receiveRequest { tag := tag, code := 0x10, payload := payload }) s

/-- GET_KEY (R32). -/
def execGetKey (tag : Byte) (payload : List Byte) (s : State) : Host.Outcome State Fault Refusal :=
  onPart (receiveRequest { tag := tag, code := 0x11, payload := payload }) s

/-- SET_REF (R33). -/
def execSetRef (tag : Byte) (payload : List Byte) (s : State) : Host.Outcome State Fault Refusal :=
  onPart (receiveRequest { tag := tag, code := 0x12, payload := payload }) s

/-- GET_REF (R34). -/
def execGetRef (tag : Byte) (payload : List Byte) (s : State) : Host.Outcome State Fault Refusal :=
  onPart (receiveRequest { tag := tag, code := 0x13, payload := payload }) s

/-- SET_GROUP (R88, R89). -/
def execSetGroup (tag : Byte) (payload : List Byte) (s : State) : Host.Outcome State Fault Refusal :=
  onPart (receiveRequest { tag := tag, code := 0x18, payload := payload }) s

/-- GET_GROUP (R90). -/
def execGetGroup (tag : Byte) (payload : List Byte) (s : State) : Host.Outcome State Fault Refusal :=
  onPart (receiveRequest { tag := tag, code := 0x19, payload := payload }) s

/-- SET_PLAN (R47, R48). -/
def execSetPlan (tag : Byte) (payload : List Byte) (s : State) : Host.Outcome State Fault Refusal :=
  onPart (receiveRequest { tag := tag, code := 0x20, payload := payload }) s

/-- GET_PLAN (R49). -/
def execGetPlan (tag : Byte) (payload : List Byte) (s : State) : Host.Outcome State Fault Refusal :=
  onPart (receiveRequest { tag := tag, code := 0x21, payload := payload }) s

/-- START_SCAN (R50). -/
def execStartScan (tag : Byte) (payload : List Byte) (s : State) : Host.Outcome State Fault Refusal :=
  onPart (receiveRequest { tag := tag, code := 0x22, payload := payload }) s

/-- STOP_SCAN (R51). -/
def execStopScan (tag : Byte) (payload : List Byte) (s : State) : Host.Outcome State Fault Refusal :=
  onPart (receiveRequest { tag := tag, code := 0x23, payload := payload }) s

/-- MEASURE (R18). -/
def execMeasure (tag : Byte) (payload : List Byte) (s : State) : Host.Outcome State Fault Refusal :=
  onPart (receiveRequest { tag := tag, code := 0x28, payload := payload }) s

/-- RECALIBRATE (R84). -/
def execRecalibrate (tag : Byte) (payload : List Byte) (s : State) : Host.Outcome State Fault Refusal :=
  onPart (receiveRequest { tag := tag, code := 0x30, payload := payload }) s

/-- READ_KEYS (R85). -/
def execReadKeys (tag : Byte) (payload : List Byte) (s : State) : Host.Outcome State Fault Refusal :=
  onPart (receiveRequest { tag := tag, code := 0x31, payload := payload }) s

/-- FLUSH_REPORTS (R113). -/
def execFlushReports (tag : Byte) (payload : List Byte) (s : State) : Host.Outcome State Fault Refusal :=
  onPart (receiveRequest { tag := tag, code := 0x38, payload := payload }) s

/-- RESYNC (R133). -/
def execResync (tag : Byte) (payload : List Byte) (s : State) : Host.Outcome State Fault Refusal :=
  onPart (receiveRequest { tag := tag, code := 0x40, payload := payload }) s

/-- SET_LINK (R135). -/
def execSetLink (tag : Byte) (payload : List Byte) (s : State) : Host.Outcome State Fault Refusal :=
  onPart (receiveRequest { tag := tag, code := 0x41, payload := payload }) s

/-- READ_LINK_STATS (R137). -/
def execReadLinkStats (tag : Byte) (payload : List Byte) (s : State) : Host.Outcome State Fault Refusal :=
  onPart (receiveRequest { tag := tag, code := 0x42, payload := payload }) s

/-- SET_OUTPUTS (R157). -/
def execSetOutputs (tag : Byte) (payload : List Byte) (s : State) : Host.Outcome State Fault Refusal :=
  onPart (receiveRequest { tag := tag, code := 0x48, payload := payload }) s

/-- GET_OUTPUTS (R158). -/
def execGetOutputs (tag : Byte) (payload : List Byte) (s : State) : Host.Outcome State Fault Refusal :=
  onPart (receiveRequest { tag := tag, code := 0x49, payload := payload }) s

/-- SET_DOZE (R160). -/
def execSetDoze (tag : Byte) (payload : List Byte) (s : State) : Host.Outcome State Fault Refusal :=
  onPart (receiveRequest { tag := tag, code := 0x50, payload := payload }) s

/-- GET_DOZE (R161). -/
def execGetDoze (tag : Byte) (payload : List Byte) (s : State) : Host.Outcome State Fault Refusal :=
  onPart (receiveRequest { tag := tag, code := 0x52, payload := payload }) s

/-- ENTER_DOZE (R163). -/
def execEnterDoze (tag : Byte) (payload : List Byte) (s : State) : Host.Outcome State Fault Refusal :=
  onPart (receiveRequest { tag := tag, code := 0x51, payload := payload }) s

/-- PROFILE_SAVE (R171). -/
def execProfileSave (tag : Byte) (payload : List Byte) (s : State) : Host.Outcome State Fault Refusal :=
  onPart (receiveRequest { tag := tag, code := 0x58, payload := payload }) s

/-- PROFILE_LOAD (R175, R176). -/
def execProfileLoad (tag : Byte) (payload : List Byte) (s : State) : Host.Outcome State Fault Refusal :=
  onPart (receiveRequest { tag := tag, code := 0x59, payload := payload }) s

/-- PROFILE_INFO (R177). -/
def execProfileInfo (tag : Byte) (payload : List Byte) (s : State) : Host.Outcome State Fault Refusal :=
  onPart (receiveRequest { tag := tag, code := 0x5A, payload := payload }) s

/-- A request whose code is not in Table 8-2 (R141). -/
def execUnknownRequest (tag code : Byte) (payload : List Byte) (s : State) : Host.Outcome State Fault Refusal :=
  onPart (receiveRequest { tag := tag, code := code, payload := payload }) s

end Sys2Proof.Machine
end

