-- ==== Sys2Proof/Machine/Dispatch.lean ====
section
/-! DEFINITION. The effect of each command on everything but the queue of waiting commands. -/

namespace Sys2Proof.Machine

def exec (i : Instr) (s : State) : Host.Outcome State Fault Refusal :=
  match i with
  | .identify tag payload => Sys2Proof.Machine.execIdentify tag payload s
  | .readStatus tag payload => Sys2Proof.Machine.execReadStatus tag payload s
  | .softReset tag payload => Sys2Proof.Machine.execSoftReset tag payload s
  | .setKey tag payload => Sys2Proof.Machine.execSetKey tag payload s
  | .getKey tag payload => Sys2Proof.Machine.execGetKey tag payload s
  | .setRef tag payload => Sys2Proof.Machine.execSetRef tag payload s
  | .getRef tag payload => Sys2Proof.Machine.execGetRef tag payload s
  | .setGroup tag payload => Sys2Proof.Machine.execSetGroup tag payload s
  | .getGroup tag payload => Sys2Proof.Machine.execGetGroup tag payload s
  | .setPlan tag payload => Sys2Proof.Machine.execSetPlan tag payload s
  | .getPlan tag payload => Sys2Proof.Machine.execGetPlan tag payload s
  | .startScan tag payload => Sys2Proof.Machine.execStartScan tag payload s
  | .stopScan tag payload => Sys2Proof.Machine.execStopScan tag payload s
  | .measure tag payload => Sys2Proof.Machine.execMeasure tag payload s
  | .recalibrate tag payload => Sys2Proof.Machine.execRecalibrate tag payload s
  | .readKeys tag payload => Sys2Proof.Machine.execReadKeys tag payload s
  | .flushReports tag payload => Sys2Proof.Machine.execFlushReports tag payload s
  | .resync tag payload => Sys2Proof.Machine.execResync tag payload s
  | .setLink tag payload => Sys2Proof.Machine.execSetLink tag payload s
  | .readLinkStats tag payload => Sys2Proof.Machine.execReadLinkStats tag payload s
  | .setOutputs tag payload => Sys2Proof.Machine.execSetOutputs tag payload s
  | .getOutputs tag payload => Sys2Proof.Machine.execGetOutputs tag payload s
  | .setDoze tag payload => Sys2Proof.Machine.execSetDoze tag payload s
  | .getDoze tag payload => Sys2Proof.Machine.execGetDoze tag payload s
  | .enterDoze tag payload => Sys2Proof.Machine.execEnterDoze tag payload s
  | .profileSave tag payload => Sys2Proof.Machine.execProfileSave tag payload s
  | .profileLoad tag payload => Sys2Proof.Machine.execProfileLoad tag payload s
  | .profileInfo tag payload => Sys2Proof.Machine.execProfileInfo tag payload s
  | .unknownRequest tag code payload => Sys2Proof.Machine.execUnknownRequest tag code payload s
  | .requestFrame tag code payload => Sys2Proof.Machine.execRequestFrame tag code payload s
  | .flowFrame flags ack window => Sys2Proof.Machine.execFlowFrame flags ack window s
  | .frameDiscard body crc => Sys2Proof.Machine.execFrameDiscard body crc s
  | .strayByte b => Sys2Proof.Machine.execStrayByte b s
  | .gap => Sys2Proof.Machine.execGap s
  | .frameBoundary => Sys2Proof.Machine.execFrameBoundary s
  | .ackTimerExpiry => Sys2Proof.Machine.execAckTimerExpiry s
  | .dischargeEnd => Sys2Proof.Machine.execDischargeEnd s
  | .chargeEnd => Sys2Proof.Machine.execChargeEnd s
  | .transferEnd trip => Sys2Proof.Machine.execTransferEnd trip s
  | .periodTimerExpiry => Sys2Proof.Machine.execPeriodTimerExpiry s
  | .idleTimerExpiry => Sys2Proof.Machine.execIdleTimerExpiry s
  | .enteringEnd => Sys2Proof.Machine.execEnteringEnd s
  | .intervalTimerExpiry => Sys2Proof.Machine.execIntervalTimerExpiry s
  | .hwakeFall => Sys2Proof.Machine.execHwakeFall s
  | .hwakeRise => Sys2Proof.Machine.execHwakeRise s
  | .wakeComplete => Sys2Proof.Machine.execWakeComplete s
  | .erasingEnd => Sys2Proof.Machine.execErasingEnd s
  | .programmingEnd => Sys2Proof.Machine.execProgrammingEnd s
  | .verifyingEnd matched => Sys2Proof.Machine.execVerifyingEnd matched s
  | .committingEnd markPresent => Sys2Proof.Machine.execCommittingEnd markPresent s
  | .attnPulseEnd => Sys2Proof.Machine.execAttnPulseEnd s
  | .bselEdge => Sys2Proof.Machine.execBselEdge s
  | .powerOn => Sys2Proof.Machine.execPowerOn s
  | .resetLow => Sys2Proof.Machine.execResetLow s
  | .boot => Sys2Proof.Machine.execBoot s

end Sys2Proof.Machine
end

