-- ==== Sys2Proof/WellFormed.lean ====
section
/-! DEFINITION. Which commands are well formed: their operands are ones the command's event can carry. `exec` gives a command
its effect whether or not it is. -/

namespace Sys2Proof

open Sys2Proof.Machine

/-- A REQUEST payload of 0 to 247 bytes (R117). -/
def payloadOk (payload : List Byte) : Bool := decide (payload.length ≤ 247)

/-- A complete frame that is discarded: 3 to 250 body bytes, and a CRC mismatch, a class that is not the host's, or a FLOW frame
of the wrong shape (R117, R120). -/
def frameDiscarded (body : List Byte) (crc : Word) : Bool :=
  decide (3 ≤ body.length) && decide (body.length ≤ 250) &&
    (decide (bodyCrc body ≠ crc) || match body with
      | 0x01#8 :: _ => false
      | [0x04#8, flags, _, _, _] => decide (4 ≤ flags.toNat)
      | _ => true)

/-- A count at which TRANSFER can end (R8). -/
def tripOk : Option Nat → Bool
  | none => true
  | some c => decide (c ≤ 4095)

/-- Whether a command is well formed. -/
def Instr.wellFormed : Instr → Bool
  | .identify _ p => payloadOk p
  | .readStatus _ p => payloadOk p
  | .softReset _ p => payloadOk p
  | .setKey _ p => payloadOk p
  | .getKey _ p => payloadOk p
  | .setRef _ p => payloadOk p
  | .getRef _ p => payloadOk p
  | .setGroup _ p => payloadOk p
  | .getGroup _ p => payloadOk p
  | .setPlan _ p => payloadOk p
  | .getPlan _ p => payloadOk p
  | .startScan _ p => payloadOk p
  | .stopScan _ p => payloadOk p
  | .measure _ p => payloadOk p
  | .recalibrate _ p => payloadOk p
  | .readKeys _ p => payloadOk p
  | .flushReports _ p => payloadOk p
  | .resync _ p => payloadOk p
  | .setLink _ p => payloadOk p
  | .readLinkStats _ p => payloadOk p
  | .setOutputs _ p => payloadOk p
  | .getOutputs _ p => payloadOk p
  | .setDoze _ p => payloadOk p
  | .getDoze _ p => payloadOk p
  | .enterDoze _ p => payloadOk p
  | .profileSave _ p => payloadOk p
  | .profileLoad _ p => payloadOk p
  | .profileInfo _ p => payloadOk p
  | .unknownRequest _ code p => payloadOk p && !knownCode code
  | .requestFrame _ _ p => payloadOk p
  | .flowFrame flags _ _ => decide (flags.toNat < 4)
  | .frameDiscard body crc => frameDiscarded body crc
  | .strayByte _ => true
  | .gap => true
  | .frameBoundary => true
  | .ackTimerExpiry => true
  | .dischargeEnd => true
  | .chargeEnd => true
  | .transferEnd trip => tripOk trip
  | .periodTimerExpiry => true
  | .idleTimerExpiry => true
  | .enteringEnd => true
  | .intervalTimerExpiry => true
  | .hwakeFall => true
  | .hwakeRise => true
  | .wakeComplete => true
  | .erasingEnd => true
  | .programmingEnd => true
  | .verifyingEnd _ => true
  | .committingEnd _ => true
  | .attnPulseEnd => true
  | .bselEdge => true
  | .powerOn => true
  | .resetLow => true
  | .boot => true

end Sys2Proof
end

