-- ==== Sys2Proof/Safety.lean ====
section
/-! DEFINITION. What statements about the part are made of: when a request is answered at once, what the answer leaves, and
the invariants the spec gives the whole part. -/

namespace Sys2Proof.Machine

/-! ### The end of an event -/

/-- The idle timer is 0 unless the part runs and the timer runs, or stands in REQUESTED with its conditions unbroken (R162). -/
def State.idleSettled (s : State) : Bool :=
  decide (s.doze.idle = 0) || (decide (s.phase = .running) &&
    (s.idleRuns || (decide (s.doze.state = .requested) && s.entryConditions)))

/-- What every event leaves: no claim to grant, no request to take, no reply to start, and the idle timer 0 when it may not run (R14,
R123, R140, R162). A report alone may be left ready at an IDLE transmitter (log entry 26). -/
def State.rested (s : State) : Bool := s.settled && s.idleSettled

/-- The part runs, and nothing is due, nor a report ready at an IDLE transmitter. -/
def State.runs (s : State) : Bool := decide (s.phase = .running) && s.settled && !s.canStart && s.idleSettled

/-! ### A request answered at once -/

/-- The part runs, its receiver is enabled, and its handler is free: no request in the inbox or in execution, no reset
pending, the response slot empty, nothing else due, and no report ready at an IDLE transmitter. A request that arrives is then taken at once (R119, R140). -/
def State.ready (s : State) : Bool :=
  decide (s.phase = .running) && decide (s.rx.state ≠ .disabled) && s.handler.inbox.isEmpty && s.handler.executing.isNone &&
    s.handler.pendingReset.isNone && s.tx.respSlot.isNone && s.settled && !s.canStart

/-- The state with a response handed over while the response slot was empty: on the line at once when the transmitter was IDLE,
and in the response slot when it was SENDING (R123). -/
def State.handedOver (resp : Response) (s : State) : State :=
  { s with
    tx := if s.tx.sending.isNone then
        { s.tx with sending := some { frame := .response resp, rate := s.linkCfg.rate } }
      else { s.tx with respSlot := some resp } }

/-- The state after an effect whose response has been handed over, and nothing else has become due: the receiver SEARCHING and
the idle timer 0. -/
def State.answered (resp : Response) (s : State) : State :=
  ({ s with rx := .searching, doze := { s.doze with idle := 0 } } : State).handedOver resp

/-- The state with a request taken and still in execution, and nothing else due: the receiver SEARCHING, the idle timer 0. -/
def State.inExecution (r : Request) (s : State) : State :=
  { s with
    rx := .searching
    doze := { s.doze with idle := 0 }
    handler := { s.handler with executing := some r } }

/-- The response to a request, with no rate change and no reset to follow. -/
def Request.reply (r : Request) (result : ResultCode) (payload : List Byte) : Response :=
  { tag := r.tag, code := r.code, result := result, payload := payload, after := .nothing }

/-- Whether a payload has a length that the request of a code allows (Table 8-2 and the rule of each request). -/
def lengthAllowed (code : Byte) (p : List Byte) : Bool :=
  match code.toNat with
  | 0x01 => p.length == 0
  | 0x02 => p.length == 0
  | 0x03 => p.length == 1
  | 0x10 => p.length == 29
  | 0x11 => p.length == 1
  | 0x12 => p.length == 8
  | 0x13 => p.length == 0
  | 0x18 => decide (5 ≤ p.length) && p.length == 5 + byteAt p 4
  | 0x19 => p.length == 1
  | 0x20 => decide (3 ≤ p.length) && p.length == 3 + byteAt p 2
  | 0x21 => p.length == 0
  | 0x22 => p.length == 0
  | 0x23 => p.length == 0
  | 0x28 => p.length == 11
  | 0x30 => p.length == 5
  | 0x31 => p.length == 5
  | 0x38 => p.length == 0
  | 0x40 => p.length == 0
  | 0x41 => p.length == 5
  | 0x42 => p.length == 1
  | 0x48 => p.length == 10
  | 0x49 => p.length == 0
  | 0x50 => p.length == 17
  | 0x51 => p.length == 0
  | 0x52 => p.length == 0
  | 0x58 => p.length == 1
  | 0x59 => p.length == 1
  | 0x5A => p.length == 0
  | _ => false

/-! ### Requests by their code (Table 8-2, R141) -/

/-- The command that a checked REQUEST frame of a code is. -/
def requestCommand (tag code : Byte) (p : List Byte) : Instr :=
  match code.toNat with
  | 0x01 => .identify tag p
  | 0x02 => .readStatus tag p
  | 0x03 => .softReset tag p
  | 0x10 => .setKey tag p
  | 0x11 => .getKey tag p
  | 0x12 => .setRef tag p
  | 0x13 => .getRef tag p
  | 0x18 => .setGroup tag p
  | 0x19 => .getGroup tag p
  | 0x20 => .setPlan tag p
  | 0x21 => .getPlan tag p
  | 0x22 => .startScan tag p
  | 0x23 => .stopScan tag p
  | 0x28 => .measure tag p
  | 0x30 => .recalibrate tag p
  | 0x31 => .readKeys tag p
  | 0x38 => .flushReports tag p
  | 0x40 => .resync tag p
  | 0x41 => .setLink tag p
  | 0x42 => .readLinkStats tag p
  | 0x48 => .setOutputs tag p
  | 0x49 => .getOutputs tag p
  | 0x50 => .setDoze tag p
  | 0x51 => .enterDoze tag p
  | 0x52 => .getDoze tag p
  | 0x58 => .profileSave tag p
  | 0x59 => .profileLoad tag p
  | 0x5A => .profileInfo tag p
  | _ => .unknownRequest tag code p

/-- Whether the state check of the request of a code passes: SET_GROUP, START_SCAN and PROFILE_LOAD ask for STOPPED. -/
def stateAllowed (code : Byte) (s : State) : Bool :=
  match code.toNat with
  | 0x18 => decide (s.seq.runState = .stopped)
  | 0x22 => decide (s.seq.runState = .stopped)
  | 0x59 => decide (s.seq.runState = .stopped)
  | _ => true

/-- The fields of the request of a code, in index order, each with whether it is in range. -/
def fieldChecks (code : Byte) (p : List Byte) (s : State) : List (Nat × Bool) :=
  match code.toNat with
  | 0x03 => [(1, inRange 0 1 (byteAt p 0))]
  | 0x10 => setKeyChecks p
  | 0x11 => [(1, inRange 0 31 (byteAt p 0))]
  | 0x12 => setRefChecks p
  | 0x18 => setGroupChecks s.groups p
  | 0x19 => [(1, inRange 0 7 (byteAt p 0))]
  | 0x20 => setPlanChecks p
  | 0x28 => measureChecks p
  | 0x30 => [(2, inRange 0 1 (byteAt p 4))]
  | 0x31 =>
    [(1, decide ((selected p).length ≤ 27)),
     (2, decide (byteAt p 4 = 0) || (decide (byteAt p 4 = 1) && decide ((selected p).length ≠ 27)))]
  | 0x41 => setLinkChecks p
  | 0x42 => [(1, inRange 0 1 (byteAt p 0))]
  | 0x48 => setOutputsChecks p
  | 0x50 => setDozeChecks p
  | 0x58 => [(1, inRange 0 1 (byteAt p 0))]
  | 0x59 => [(1, inRange 0 2 (byteAt p 0))]
  | _ => []

/-- A response after which nothing further is due. -/
def responseTo (tag code : Byte) (result : ResultCode) (payload : List Byte) : Response :=
  { tag := tag, code := code, result := result, payload := payload, after := .nothing }

/-! ### The report queue (R100, R104, R105, R106, R108, R109) -/

/-- Whether every SENT entry is older than every UNSENT entry (R109). -/
def sentFirst : List ReportEntry → Bool
  | [] => true
  | e :: rest => (e.sent || rest.all fun n => !n.sent) && sentFirst rest

/-- Whether the sequence numbers of a list of entries, oldest first, run on from a number (R104). -/
def consecutiveFrom (n : Word) : List ReportEntry → Bool
  | [] => true
  | e :: rest => decide (e.seq = n) && consecutiveFrom (n + 1) rest

/-- The number of SLIDER_MOVE entries of a group. -/
def moveCount (g : GroupId) (es : List ReportEntry) : Nat := es.countP fun e => e.report.isMoveOf g

/-- The report queue as the spec says it always is: at most 32 entries (R100), numbered consecutively up to the next sequence
number (R104), SENT before UNSENT (R109), at most one SLIDER_MOVE entry for each group (R105), a hold only beside such an entry
(R106), and a lost counter that is 0 unless the queue is full (R108). -/
def ReportQueue.sound (q : ReportQueue) : Bool :=
  decide (q.entries.length ≤ Config.queueCapacity) &&
  consecutiveFrom (q.nextSeq - BitVec.ofNat 16 q.entries.length) q.entries &&
  sentFirst q.entries &&
  (allGroups.all fun g => decide (moveCount g q.entries ≤ 1) && (q.holds[g].isNone || decide (moveCount g q.entries = 1))) &&
  decide (q.lost ≤ Config.countMax) &&
  (decide (q.lost = 0) || decide (q.entries.length = Config.queueCapacity))

/-! ### The sequencer, the engine and the doze controller (R5, R39, Table 3-2, Table 10-3) -/

/-- Whether a plan claim waits. -/
def State.planClaimed (s : State) : Bool := s.claims.plan.isSome

/-- Whether a plan measurement is in flight. -/
def State.planInFlight (s : State) : Bool := decide (s.engine.ownerKind = .plan)

/-- Whether an index and a subject are the position of the sequencer and the plan entry there. -/
def State.atPosition (s : State) (index : Nat) (subject : PlanEntry) : Bool :=
  decide (index = s.seq.position) && decide (s.seq.plan.entries[index]? = some subject)

/-- R39: the waiting plan claim and the plan measurement in flight, whichever there is, are for the plan entry at the position. -/
def State.planAtPosition (s : State) : Bool :=
  (match s.claims.plan with
    | some c => s.atPosition c.index c.subject
    | none => true) &&
  (match s.engine.job with
    | some { owner := .plan index subject _, .. } => s.atPosition index subject
    | _ => true)

/-- R39 and Table 3-2: what each run state holds of plan claims and measurements, and whether the period timer runs. -/
def State.runStateSound (s : State) : Bool :=
  match s.seq.runState with
  | .scanning => (s.planClaimed != s.planInFlight) && s.planAtPosition && s.seq.timerOn
  | .cycleWait => !s.planClaimed && !s.planInFlight && s.seq.timerOn
  | .stopping => !s.planClaimed && s.planInFlight && s.engine.abort && !s.seq.timerOn
  | .stopped => !s.planClaimed && !s.planInFlight && !s.seq.timerOn
  | .dozing => !s.planClaimed && !s.planInFlight && !s.seq.timerOn

/-- The owner record is absent in IDLE and present in the other phases, an abort leads to a DISCHARGE, and only an abort can have cut
a TRANSFER off (R5, R6 to R8, R10, R11). -/
def Engine.sound (e : Engine) : Bool :=
  (decide (e.phase = .idle) == e.job.isNone) && (!e.abort || decide (e.phase = .discharge)) && (!e.cut || e.abort)

/-- Table 10-3: the doze states in which the sequencer is in DOZING, with the receiver DISABLED, no request waiting or in
execution, and no entry request raised. -/
def Doze.asleep (d : Doze) : Bool :=
  match d.state with
  | .awake => false
  | .requested => false
  | _ => true

/-- Table 10-3 with its note 1, and R163, R164: the doze state against the run state, the receiver, the handler and the entry
request. From STOPPED the entry is taken in the event of its request, so REQUESTED is not seen in it. -/
def State.dozeSound (s : State) : Bool :=
  (decide (s.doze.state ≠ .requested) || decide (s.seq.runState ≠ .stopped)) &&
  (s.doze.asleep == decide (s.seq.runState = .dozing)) &&
  (decide (s.rx.state = .disabled) == s.doze.asleep) &&
  (!s.doze.asleep || (s.handler.inbox.isEmpty && s.handler.executing.isNone)) &&
  (s.doze.request.isSome == decide (s.doze.state = .requested))

/-! ### Records in range (Tables 1-1, 2-1, 2-3, 3-3, 5-1, 7-5, 9-2, 10-1) -/

/-- Measurement parameters in range (Table 1-1). -/
def MeasureParams.inRange (m : MeasureParams) : Bool :=
  Machine.inRange 1 255 m.charge && Machine.inRange 0 63 m.trim && Machine.inRange 64 4095 m.limit && decide (m.floor < m.limit)

/-- A key record in range (Table 2-1, R30). -/
def KeyRecord.inRange (r : KeyRecord) : Bool :=
  decide (r.padSet ≠ 0) && r.meas.inRange && [1, 2, 4, 8].contains r.filterDepth && Machine.inRange 1 2047 r.touchThreshold &&
    decide (r.releaseThreshold < r.touchThreshold) && Machine.inRange 1 15 r.debounceIn && Machine.inRange 1 15 r.debounceOut &&
    Machine.inRange 4 32 r.calSamples && Machine.inRange 0 255 r.driftInterval && Machine.inRange 0 2047 r.negThreshold &&
    Machine.inRange 1 15 r.negCount && Machine.inRange 0 600 r.maxOn && Machine.inRange 1 15 r.faultLimit

/-- A reference record in range (Table 2-3). -/
def RefRecord.inRange (r : RefRecord) : Bool := r.meas.inRange && Machine.inRange 4 32 r.calSamples

/-- Doze settings in range (Table 10-1). -/
def DozeSettings.inRange (d : DozeSettings) : Bool :=
  Machine.inRange 0 255 d.idleTime && Machine.inRange 16 2000 d.interval && decide (d.padSet ≠ 0) &&
    (decide (d.meas.clock = .s1) || decide (d.meas.clock = .s4)) && d.meas.inRange && Machine.inRange 1 2047 d.threshold &&
    Machine.inRange 1 7 d.debounce && Machine.inRange 4 32 d.calSamples

/-- Link settings in range (Table 7-5). -/
def LinkSettings.inRange (l : LinkSettings) : Bool :=
  Machine.inRange 20 2000 l.ackTimeout && Machine.inRange 1 15 l.retryLimit && Machine.inRange 0 8 l.window

/-- The run state, the engine and the doze state together, as every reachable state has them. -/
def State.scanSound (s : State) : Bool := s.runStateSound && s.engine.sound && s.dozeSound

end Sys2Proof.Machine
end

