-- ==== Sys2Proof/Certificates/Slice0/Obligations.lean ====
section
/-! DEFINITION. The statements about the Ufiva K24. OBLIGATIONS.json gives each its title, its basis and what it cites. -/

section
open Sys2Proof Sys2Proof.Machine

/-! ### The whole part -/

/-- A step takes the command at the front of the queue and executes it with the queue's rest. -/
def Obligations.StepTakesFrontCommand : Prop :=
  ∀ (c : Instr) (rest : List Instr) (s : State), s.pending = c :: rest → step s = exec c { s with pending := rest }

/-- Every command gives a next state, whatever state the part is in, and changes nothing in the queue of waiting commands. -/
def Obligations.CommandGivesNextState : Prop :=
  ∀ (c : Instr) (s : State), ∃ t, exec c s = .next t ∧ t.pending = s.pending

/-- THE MODEL'S CHOICE (log entries 1, 2, 3 and 10): what a step does on an empty queue. A held part stays, a part whose next event
is boot is given BOOT, one whose ENTERING is over is given ENTERING_END, and otherwise one millisecond passes, which a running idle
timer counts up to the idle time and which ends the moment an abort and the end of its measurement share, and the timers that have
reached their expiry are posted: a running idle timer that stands at the idle time, and the ack, period and interval timers whose
span has elapsed. -/
def Obligations.IdleStepPassesTime : Prop :=
  ∀ s : State,
    (s.pending = [] →
      (s.phase = .held → step s = .next s) ∧
      (s.phase = .bootDue → step s = .next { s with pending := [.boot] }) ∧
      (s.phase = .running → s.enteringOver = true → step s = .next { s with pending := [.enteringEnd] }) ∧
      (s.runs = true → s.enteringOver = false →
        let t := { s with
          uptime := s.uptime + 1
          engine := { s.engine with cut := false }
          doze := if s.idleRuns then { s.doze with idle := min (s.doze.idle + 1) (s.doze.settings.idleTime * 1000) } else s.doze }
        step s = .next { t with pending := t.dueTimers })) ∧
    (.idleTimerExpiry ∈ s.dueTimers ↔ s.idleRuns = true ∧ s.doze.settings.idleTime * 1000 ≤ s.doze.idle) ∧
    (.ackTimerExpiry ∈ s.dueTimers ↔ ∃ t : AckTimer, s.delivery.ackTimer = some t ∧ t.span ≤ (s.uptime - t.start).toNat) ∧
    (.periodTimerExpiry ∈ s.dueTimers ↔ s.seq.timerOn = true ∧ s.seq.plan.period ≤ (s.uptime - s.seq.cycleStart).toNat ∧
      (s.seq.runState = .cycleWait ∨ (s.seq.runState = .scanning ∧ s.seq.elapsed = false))) ∧
    (.intervalTimerExpiry ∈ s.dueTimers ↔ s.doze.state = .dozing ∧
      ∃ t : Time, s.doze.interval = some t ∧ s.doze.settings.interval ≤ (s.uptime - t).toNat)

/-- A part in reset does nothing, held or with boot next: only the supply, the end of the reset, RESET going low before boot, and the
levels on the pins reach it, and a pin changes its own level alone. -/
def Obligations.HeldPartDoesNothing : Prop :=
  ∀ s : State, s.phase ≠ .running →
    (∀ c : Instr, c ≠ .powerOn → c ≠ .boot → c ≠ .resetLow → c ≠ .bselEdge → c ≠ .hwakeFall → c ≠ .hwakeRise →
      exec c s = .next s) ∧
    (s.phase = .held → exec .resetLow s = .next s) ∧
    exec .bselEdge s = .next { s with pins := { s.pins with bselHigh := !s.pins.bselHigh } } ∧
    exec .hwakeFall s = .next { s with pins := { s.pins with hwakeHigh := false } } ∧
    exec .hwakeRise s = .next { s with pins := { s.pins with hwakeHigh := true } }

/-- Every step leaves nothing due: no claim waits at an IDLE engine, no request waits for a free handler, no response and no overflow
reply waits for an IDLE transmitter, and the idle timer is 0 when it may not run. A report alone may be left ready at an IDLE
transmitter, until the arbiter's next start (log entry 26). -/
def Obligations.StepLeavesNothingDue : Prop :=
  ∀ s t : State, s.rested = true → step s = .next t → t.rested = true

/-- Every step keeps the report queue sound: at most 32 entries with consecutive numbers up to the next sequence number, SENT
before UNSENT, at most one SLIDER_MOVE for a group, a hold only beside one, and nothing lost unless the queue is full. -/
def Obligations.StepKeepsQueueSound : Prop :=
  ∀ s t : State, s.queue.sound = true → step s = .next t → t.queue.sound = true

/-- Every step keeps the sequencer, the engine and the doze controller sound: Table 3-2 and R39, with the one plan claim or plan
measurement of SCANNING being for the plan entry at the position, and none in the other run states but the aborted one of STOPPING;
and Table 10-3 with its note 1, so that DOZING goes with ENTERING, DOZING and WAKING alone, and REQUESTED is never held in STOPPED. -/
def Obligations.StepKeepsScanSound : Prop :=
  ∀ s t : State, s.scanSound = true → step s = .next t → t.scanSound = true

/-- The part after reset meets the three invariants. -/
def Obligations.ResetMeetsInvariants : Prop :=
  State.reset.rested = true ∧ State.reset.queue.sound = true ∧ State.reset.scanSound = true

/-! ### The host link: frames and bytes -/

/-- The receiver takes what the frame layout builds: the bytes of a frame with a body of 3 to 250 bytes, taken one after the
other from SEARCHING, pass the body on and leave the receiver in SEARCHING. -/
def Obligations.ReceiverTakesBuiltFrame : Prop :=
  ∀ (body : List Byte) (s : State), 3 ≤ body.length → body.length ≤ 250 → s.rx = .searching →
    (frameBytes body).foldl (fun s b => takeByte b s) s = passBody body s

/-- The frames on TXD. A report frame has L from 9 to 15, its class 0x03, its sequence number, kind, subject and time in their
places, and a payload of 0 to 6 bytes. A response frame has its class 0x02, the tag, the code, the result and the payload. An IDLE
transmitter puts no byte on TXD, which is high; a frame being sent puts its start byte, its length, its body and its CRC there, back
to back, each byte as a low start bit, 8 data bits with the least significant first, and a high stop bit, and TXD is high after the
last. The receiver takes the 8 data bits of a byte as they are, whether its stop bit is high or low. -/
def Obligations.ReportFrameLayout : Prop :=
  (∀ e : ReportEntry, e.report.payload.length ≤ 6 ∧ (Frame.report e).body.length = 9 + e.report.payload.length ∧
    (Frame.report e).body.take 9 =
      byte1 0x03 ++ le16 e.seq.toNat ++ byte1 e.report.kind ++ byte1 e.report.subject ++ le32 e.time.toNat ∧
    (Frame.report e).body.drop 9 = e.report.payload) ∧
  (∀ r : Response, (Frame.response r).body.length = 4 + r.payload.length ∧
    (Frame.response r).body = byte1 0x02 ++ [r.tag, r.code] ++ byte1 r.result.code ++ r.payload) ∧
  (∀ t : Tx,
    (t.sending = none → t.bytesOnLine = [] ∧ ∀ n, t.levelAt n = true) ∧
    (∀ f : TxFrame, t.sending = some f →
      let body := f.frame.body
      t.bytesOnLine = byte1 0x5A ++ byte1 body.length ++ body ++ le16 (bodyCrc body).toNat ∧
      t.bytesOnLine.length = body.length + 4) ∧
    (∀ (i : Nat) (b : Byte), t.bytesOnLine[i]? = some b →
      t.levelAt (10 * i) = false ∧ (∀ n, n < 8 → t.levelAt (10 * i + 1 + n) = b.getLsbD n) ∧ t.levelAt (10 * i + 9) = true) ∧
    (∀ n, 10 * t.bytesOnLine.length ≤ n → t.levelAt n = true)) ∧
  (∀ (b : Byte) (levels : List Bool), (∀ n, n < 8 → levels.getD (n + 1) true = b.getLsbD n) → byteOfLevels levels = b)

/-- Each byte is taken by the state of the receiver: a start byte, noise, a length in range or not, a body byte, a CRC byte; the
second CRC byte completes the frame, which is checked as a whole. A gap discards a partial frame and counts GAP; in SEARCHING and
DISABLED it has no effect. -/
def Obligations.StrayByteTaken : Prop :=
  ∀ (b : Byte) (s : State), s.runs = true →
    (s.rx.state = .searching → b = 0x5A →
      exec (.strayByte b) s = .next { s with rx := { state := .length, len := 0, bytes := [] } }) ∧
    (s.rx.state = .searching → b ≠ 0x5A →
      exec (.strayByte b) s = .next { s with counters := { s.counters with noise := satSucc 65535 s.counters.noise } }) ∧
    (s.rx.state = .length → 3 ≤ b.toNat → b.toNat ≤ 250 →
      exec (.strayByte b) s = .next { s with rx := { state := .body, len := b.toNat, bytes := [] } }) ∧
    (s.rx.state = .length → (b.toNat < 3 ∨ 250 < b.toNat) →
      exec (.strayByte b) s = .next { s with
        rx := { state := .searching, len := 0, bytes := [] },
        counters := { s.counters with length := satSucc 65535 s.counters.length } }) ∧
    (s.rx.state = .body → s.rx.bytes.length + 1 < s.rx.len →
      exec (.strayByte b) s = .next { s with rx := { s.rx with bytes := s.rx.bytes ++ [b] } }) ∧
    (s.rx.state = .body → s.rx.bytes.length + 1 = s.rx.len →
      exec (.strayByte b) s = .next { s with rx := { s.rx with state := .crc, bytes := s.rx.bytes ++ [b] } }) ∧
    (s.rx.state = .crc → s.rx.bytes.length = s.rx.len →
      exec (.strayByte b) s = .next { s with rx := { s.rx with bytes := s.rx.bytes ++ [b] } }) ∧
    (s.rx.state = .crc → ∀ lo : Byte, ∀ body : List Byte, body.length = s.rx.len → s.rx.bytes = body ++ [lo] →
      exec (.strayByte b) s =
        exec (.frameDiscard body (BitVec.ofNat 16 (lo.toNat + 256 * b.toNat))) s) ∧
    (s.rx.state = .disabled → exec (.strayByte b) s = .next s) ∧
    ((s.rx.state = .length ∨ s.rx.state = .body ∨ s.rx.state = .crc) →
      exec .gap s = .next { s with
        rx := { state := .searching, len := 0, bytes := [] },
        counters := { s.counters with gap := satSucc 65535 s.counters.gap } }) ∧
    ((s.rx.state = .searching ∨ s.rx.state = .disabled) → exec .gap s = .next s)

/-- A complete frame with a CRC mismatch is counted as CRC whatever its body; one whose CRC matches, of a class other than
REQUEST and FLOW, or of class FLOW with L other than 5 or a flag bit above bit 1, is counted as CLASS. -/
def Obligations.BadFrameCounted : Prop :=
  ∀ (body : List Byte) (crc : Word) (s : State), s.runs = true → s.rx.state ≠ .disabled →
    (bodyCrc body ≠ crc →
      exec (.frameDiscard body crc) s = .next { s with
        rx := .searching, counters := { s.counters with crc := satSucc 65535 s.counters.crc } }) ∧
    (bodyCrc body = crc → ∀ (cls : Byte) (rest : List Byte), body = cls :: rest → cls ≠ 0x01 →
      (cls ≠ 0x04 ∨ rest.length ≠ 4 ∨ 4 ≤ byteAt rest 0) →
      exec (.frameDiscard body crc) s = .next { s with
        rx := .searching, counters := { s.counters with class' := satSucc 65535 s.counters.class' } })

/-- A REQUEST frame that finds a request in execution, or a response still in the response slot, joins an inbox of fewer than 2,
is answered BUSY from an empty overflow reply slot, and is otherwise dropped and counted. One that finds the part ready is taken and
executed in its own event. -/
def Obligations.RequestFrameTakenByInbox : Prop :=
  ∀ (tag code : Byte) (payload : List Byte) (s : State),
    let r : Request := { tag := tag, code := code, payload := payload }
    (s.runs = true → s.rx.state ≠ .disabled → s.handler.pendingReset = none →
      (s.handler.executing.isSome = true ∨ s.tx.respSlot.isSome = true) →
      (s.handler.inbox.length < 2 →
        exec (.requestFrame tag code payload) s = .next { s with
          rx := .searching, handler := { s.handler with inbox := s.handler.inbox ++ [r] }, doze := { s.doze with idle := 0 } }) ∧
      (2 ≤ s.handler.inbox.length → s.tx.overflow = none →
        exec (.requestFrame tag code payload) s = .next { s with
          rx := .searching,
          tx := if s.tx.sending.isNone then
              { s.tx with sending := some { frame := .response (r.reply .busy []), rate := s.linkCfg.rate } }
            else { s.tx with overflow := some (r.reply .busy []) } }) ∧
      (2 ≤ s.handler.inbox.length → s.tx.overflow.isSome = true →
        exec (.requestFrame tag code payload) s = .next { s with
          rx := .searching, counters := { s.counters with inboxDrop := satSucc 65535 s.counters.inboxDrop } })) ∧
    (s.ready = true → exec (.requestFrame tag code payload) s = .next (finish (executeRequest r (s.inExecution r))))

/-- A flow frame's ack is taken first when bit 0 of its flags is set, and then its window when bit 1 is set; one with neither bit
has no effect; neither field depends on the other being in range. A report that this makes ready is started at once by an IDLE
transmitter. -/
def Obligations.FlowFrameTaken : Prop :=
  ∀ (flags : Byte) (ack : Word) (window : Byte) (s : State), s.runs = true → s.rx.state ≠ .disabled →
    s.handler.pendingReset = none →
    let u : State := { s with rx := { state := .searching, len := 0, bytes := [] } }
    (flags = 0 → exec (.flowFrame flags ack window) s = .next u) ∧
    (flags = 1 → exec (.flowFrame flags ack window) s = .next (startIfFree (takeAck ack u))) ∧
    (flags = 2 → exec (.flowFrame flags ack window) s = .next (startIfFree (takeWindow window u))) ∧
    (flags = 3 → exec (.flowFrame flags ack window) s = .next (startIfFree (takeWindow window (takeAck ack u)))) ∧
    ((takeWindow window s).queue = s.queue ∧ (takeWindow window s).delivery.ackTimer = s.delivery.ackTimer ∧
      (takeWindow window (takeAck ack s)).delivery.window =
        if window.toNat ≤ 8 then window.toNat else s.delivery.window)

/-- An ack field: out of range it counts ACK_RANGE and changes nothing; in range the retry count is 0, the link ACTIVE, and the
timer restarts when SENT entries remain and stops when none do; nothing else of the part but the queue and an ATTN pulse
changes. A window field from 0 to 8 sets the window, and a larger one counts WINDOW_RANGE. -/
def Obligations.AckAndWindowTaken : Prop :=
  ∀ (n : Word) (w : Byte) (s : State),
    (s.queue.ackInRange n = false →
      takeAck n s = { s with counters := { s.counters with ackRange := satSucc 65535 s.counters.ackRange } }) ∧
    (s.queue.ackInRange n = true →
      let q := s.queue.remove n s.uptime
      takeAck n s = { s with
        queue := q
        attnPulse := s.attnPulse || (decide (s.outputs.attnMode = .pulse) && decide (q.nextSeq ≠ s.queue.nextSeq))
        delivery := { s.delivery with
          ackTimer := if q.entries.any (fun e => e.sent) then
              some { start := s.uptime, span := s.linkCfg.settings.ackTimeout }
            else none
          retries := 0
          link := .active } }) ∧
    (w.toNat ≤ 8 → takeWindow w s = { s with delivery := { s.delivery with window := w.toNat } }) ∧
    (8 < w.toNat →
      takeWindow w s = { s with counters := { s.counters with windowRange := satSucc 65535 s.counters.windowRange } })

/-! ### Requests -/

/-- A request that finds the part ready is answered in its own event, and one that fails a check changes nothing but the answer:
an unknown code gets UNKNOWN_REQUEST, then a length gets BAD_LENGTH with the length, then the state check gets STATE, and then the
first field out of range gets BAD_FIELD with its index. A request command is the arrival of a REQUEST frame of its code (log
entry 5). -/
def Obligations.RefusalsAnswered : Prop :=
  ∀ (tag code : Byte) (p : List Byte) (s : State),
    exec (requestCommand tag code p) s = exec (.requestFrame tag code p) s ∧
    (s.ready = true →
      (knownCode code = false →
        exec (.unknownRequest tag code p) s = .next (s.answered (responseTo tag code .unknownRequest []))) ∧
      (knownCode code = true → lengthAllowed code p = false →
        exec (requestCommand tag code p) s = .next (s.answered (responseTo tag code .badLength (byte1 p.length)))) ∧
      (lengthAllowed code p = true → stateAllowed code s = false →
        exec (requestCommand tag code p) s = .next (s.answered (responseTo tag code .state []))) ∧
      (lengthAllowed code p = true → stateAllowed code s = true → ∀ i, firstBad (fieldChecks code p s) = some i →
        exec (requestCommand tag code p) s = .next (s.answered (responseTo tag code .badField (byte1 i)))))

/-- IDENTIFY answers OK with the ten bytes of Table 8-4, and READ_STATUS OK with the eighteen of Table 8-5, each value as it is
held; a payload is refused with BAD_LENGTH; neither changes anything, and the entries are the SENT ones and the UNSENT ones. -/
def Obligations.IdentifyAndReadStatusAnswered : Prop :=
  ∀ (tag : Byte) (p : List Byte) (s : State), s.ready = true →
    exec (.identify tag []) s =
      .next (s.answered (responseTo tag 0x01 .ok [0x55, 0x4B, 0x18, 0x03, 24, 32, 8, 64, 32, 2])) ∧
    exec (.readStatus tag []) s = .next (s.answered (responseTo tag 0x02 .ok
      (byte1 s.seq.runState.code ++ byte1 s.delivery.link.code ++ byte1 s.queue.entries.length ++
        byte1 (s.queue.entries.countP fun e => e.sent) ++ byte1 (s.queue.entries.countP fun e => !e.sent) ++
        le16 s.queue.lost ++ byte1 s.delivery.window ++ byte1 s.store.save.code ++ byte1 s.doze.state.code ++
        byte1 s.track.ref.state.code ++ le16 s.seq.overruns ++ byte1 s.resetCause.code ++ le32 s.uptime.toNat))) ∧
    (p ≠ [] →
      exec (.identify tag p) s = .next (s.answered (responseTo tag 0x01 .badLength (byte1 p.length))) ∧
      exec (.readStatus tag p) s = .next (s.answered (responseTo tag 0x02 .badLength (byte1 p.length)))) ∧
    s.queue.entries.length = (s.queue.entries.countP fun e => e.sent) + s.queue.entries.countP fun e => !e.sent

/-- GET_KEY answers OK with the key id, the stored record in 28 bytes and the config version, and GET_REF with the reference
record in 8 bytes and its version; another length is refused with BAD_LENGTH, a key id above 31 with BAD_FIELD 1; nothing else
changes. -/
def Obligations.KeyTableReadsAnswered : Prop :=
  ∀ (tag : Byte) (s : State), s.ready = true →
    (∀ k : KeyId, exec (.getKey tag (byte1 k.val)) s = .next (s.answered (responseTo tag 0x11 .ok
      (byte1 k.val ++ s.table.keys[k].bytes ++ le16 s.table.keyVersions[k].toNat)))) ∧
    (∀ r : KeyRecord, r.bytes.length = 28) ∧
    (∀ b : Byte, 32 ≤ b.toNat → exec (.getKey tag [b]) s = .next (s.answered (responseTo tag 0x11 .badField (byte1 1)))) ∧
    (∀ p : List Byte, p.length ≠ 1 →
      exec (.getKey tag p) s = .next (s.answered (responseTo tag 0x11 .badLength (byte1 p.length)))) ∧
    exec (.getRef tag []) s = .next (s.answered (responseTo tag 0x13 .ok
      (byte1 s.table.ref.meas.clock.code ++ byte1 s.table.ref.meas.charge ++ byte1 s.table.ref.meas.trim ++
        le16 s.table.ref.meas.limit ++ le16 s.table.ref.meas.floor ++ byte1 s.table.ref.calSamples ++
        le16 s.table.refVersion.toNat))) ∧
    (∀ p : List Byte, p ≠ [] →
      exec (.getRef tag p) s = .next (s.answered (responseTo tag 0x13 .badLength (byte1 p.length))))

/-- GET_GROUP answers OK with Table 5-3, and GET_PLAN OK with the active plan and the pending plan, period 0 and count 0 when it
is absent; another length is refused with BAD_LENGTH, a group id above 7 with BAD_FIELD 1; nothing else changes. -/
def Obligations.GroupAndPlanReadsAnswered : Prop :=
  ∀ (tag : Byte) (s : State), s.ready = true →
    (∀ g : GroupId, exec (.getGroup tag (byte1 g.val)) s = .next (s.answered (responseTo tag 0x19 .ok
      (byte1 g.val ++ byte1 s.groups[g].config.kind.code ++ le16 s.groups[g].config.param ++
        byte1 s.groups[g].config.members.length ++ (s.groups[g].config.members.map fun k => BitVec.ofNat 8 k.val) ++
        byte1 (match s.groups[g].holder with | some k => k.val | none => 0xFF) ++
        byte1 (if s.groups[g].touched then 1 else 0) ++ le16 s.groups[g].lastPos)))) ∧
    (∀ b : Byte, 8 ≤ b.toNat → exec (.getGroup tag [b]) s = .next (s.answered (responseTo tag 0x19 .badField (byte1 1)))) ∧
    (∀ p : List Byte, p.length ≠ 1 →
      exec (.getGroup tag p) s = .next (s.answered (responseTo tag 0x19 .badLength (byte1 p.length)))) ∧
    (s.seq.pendingPlan = none → exec (.getPlan tag []) s = .next (s.answered (responseTo tag 0x21 .ok
      (le16 s.seq.plan.period ++ byte1 s.seq.plan.entries.length ++
        (s.seq.plan.entries.map fun e => BitVec.ofNat 8 e.code) ++ le16 0 ++ byte1 0)))) ∧
    (∀ pl : Plan, s.seq.pendingPlan = some pl → exec (.getPlan tag []) s = .next (s.answered (responseTo tag 0x21 .ok
      (le16 s.seq.plan.period ++ byte1 s.seq.plan.entries.length ++
        (s.seq.plan.entries.map fun e => BitVec.ofNat 8 e.code) ++ le16 pl.period ++ byte1 pl.entries.length ++
        pl.entries.map fun e => BitVec.ofNat 8 e.code)))) ∧
    (∀ p : List Byte, p ≠ [] →
      exec (.getPlan tag p) s = .next (s.answered (responseTo tag 0x21 .badLength (byte1 p.length))))

/-- READ_KEYS answers OK with one 9-byte entry (Table 4-7) for the reference, when its flag is 1, and for each selected key in
ascending order; more than 27 keys, and a flag above 1 or a flag of 1 with 27 keys, are refused. READ_LINK_STATS answers OK with
Table 7-6, and clears the eight counters when its flag is 1. -/
def Obligations.ReadKeysAndLinkStatsAnswered : Prop :=
  ∀ (tag : Byte) (s : State), s.ready = true →
    (∀ (n : Nat) (f : Byte), n < 4294967296 →
      let keys := allKeys.filter fun k => n.testBit k.val
      let p := le32 n ++ [f]
      let keyEntries := keys.flatMap fun k =>
        byte1 k.val ++ byte1 (s.rt k).state.code ++ le16 ((s.rt k).signal.getD 0xFFFF) ++ le16 ((s.rt k).baseline.getD 0xFFFF) ++
          le16 ((s.rt k).delta % 65536).toNat ++ byte1 (s.rt k).faultStreak
      (27 < keys.length → exec (.readKeys tag p) s = .next (s.answered (responseTo tag 0x31 .badField (byte1 1)))) ∧
      (keys.length ≤ 27 → (2 ≤ f.toNat ∨ (f = 1 ∧ keys.length = 27)) →
        exec (.readKeys tag p) s = .next (s.answered (responseTo tag 0x31 .badField (byte1 2)))) ∧
      (keys.length ≤ 27 → f = 0 → exec (.readKeys tag p) s = .next (s.answered (responseTo tag 0x31 .ok keyEntries))) ∧
      (keys.length ≤ 26 → f = 1 → exec (.readKeys tag p) s = .next (s.answered (responseTo tag 0x31 .ok
        (byte1 0x80 ++ byte1 s.track.ref.state.code ++ le16 (s.track.ref.signal.getD 0xFFFF) ++
          le16 (s.track.ref.baseline.getD 0xFFFF) ++ le16 (s.track.ref.drift % 65536).toNat ++
          byte1 s.track.ref.faultStreak ++ keyEntries))))) ∧
    (∀ p : List Byte, p.length ≠ 5 →
      exec (.readKeys tag p) s = .next (s.answered (responseTo tag 0x31 .badLength (byte1 p.length)))) ∧
    (∀ f : Byte,
      let stats :=
        le16 s.counters.noise ++ le16 s.counters.length ++ le16 s.counters.gap ++ le16 s.counters.crc ++
          le16 s.counters.class' ++ le16 s.counters.inboxDrop ++ le16 s.counters.ackRange ++ le16 s.counters.windowRange ++
          byte1 s.delivery.retries ++ byte1 s.delivery.link.code ++ byte1 s.delivery.window
      (f = 0 → exec (.readLinkStats tag [f]) s = .next (s.answered (responseTo tag 0x42 .ok stats))) ∧
      (f = 1 → exec (.readLinkStats tag [f]) s = .next (({ s with counters := .zero } : State).answered (responseTo tag 0x42 .ok stats))) ∧
      (2 ≤ f.toNat → exec (.readLinkStats tag [f]) s = .next (s.answered (responseTo tag 0x42 .badField (byte1 1))))) ∧
    (∀ p : List Byte, p.length ≠ 1 →
      exec (.readLinkStats tag p) s = .next (s.answered (responseTo tag 0x42 .badLength (byte1 p.length))))

/-- An accepted SET_KEY, with a record in range, stores the record, advances the key's version, applies the reconfiguration
effect, evaluates the slider the key is a member of, and answers OK with the key id and the new version. An accepted SET_REF stores
the record, advances the reference's version, returns the reference to SETTLING with drift 0, no window, no baseline and no
progress, and answers OK with the new version. Everything else is as it was, the measurement in flight among it. -/
def Obligations.KeyTableWritesTakeEffect : Prop :=
  ∀ (tag : Byte) (s : State), s.ready = true →
    (∀ (k : KeyId) (r : KeyRecord), r.inRange = true →
      let stored : State := { s with table :=
        { s.table with keys := vecSet s.table.keys k r, keyVersions := vecSet s.table.keyVersions k (s.table.keyVersions[k] + 1) } }
      let changed := reconfigure k stored
      exec (.setKey tag (byte1 k.val ++ r.bytes)) s =
        .next (State.answered
          (responseTo tag 0x10 .ok (byte1 k.val ++ le16 (s.table.keyVersions[k] + 1).toNat))
          (match changed.groupOf k with
            | some g => evaluateTouchOnly changed g
            | none => changed))) ∧
    (∀ r : RefRecord, r.inRange = true →
      exec (.setRef tag (byte1 r.meas.clock.code ++ byte1 r.meas.charge ++ byte1 r.meas.trim ++ le16 r.meas.limit ++
          le16 r.meas.floor ++ byte1 r.calSamples)) s =
        .next (State.answered (responseTo tag 0x12 .ok (le16 (s.table.refVersion + 1).toNat))
          { s with
            table := { s.table with ref := r, refVersion := s.table.refVersion + 1 }
            track := { s.track with ref := { state := .settling, window := [], baseline := none, calSum := 0, calCount := 0, faultStreak := 0, validStreak := 0, drift := 0 } } }))

/-- A SET_GROUP accepted in STOPPED stores the kind, the parameter and the members, exclusive members in ascending order and
slider members in the order given, sets the runtime part as after a reset, and answers OK; nothing else changes. -/
def Obligations.SetGroupTakesEffect : Prop :=
  ∀ (tag : Byte) (g : GroupId) (kind : GroupKind) (param : Nat) (ks : List KeyId) (s : State), s.ready = true →
    s.seq.runState = .stopped → ks.Nodup → (∀ k ∈ ks, ∀ j : GroupId, j ≠ g → k ∉ s.groups[j].config.members) →
    ((kind = .none ∧ param = 0 ∧ ks = []) ∨ (kind = .exclusive ∧ param ≤ 2047 ∧ 2 ≤ ks.length ∧ ks.length ≤ 16) ∨
      (kind = .slider ∧ 1 ≤ param ∧ param ≤ 64 ∧ 2 ≤ ks.length ∧ ks.length ≤ 8)) →
    let members := if kind = .exclusive then allKeys.filter (fun k => ks.contains k) else ks
    let config : GroupConfig := { kind := kind, param := param, members := members }
    exec (.setGroup tag (byte1 g.val ++ byte1 kind.code ++ le16 param ++ byte1 ks.length ++ ks.map fun k => BitVec.ofNat 8 k.val)) s =
      .next (State.answered (responseTo tag 0x18 .ok [])
        { s with groups := vecSet s.groups g { config := config, holder := none, touched := false, lastPos := 0 } })

/-- An accepted SET_PLAN of 1 to 64 entries and 1 to 1000 ms: in STOPPED it replaces the active plan and clears the pending plan,
with the reference UNCALIBRATED at its after-reset values when the plan holds no REF, and answers OK; in SCANNING and CYCLE_WAIT
it becomes the pending plan and is answered DEFERRED; nothing else changes. -/
def Obligations.SetPlanTakesEffect : Prop :=
  ∀ (tag : Byte) (pl : Plan) (s : State), s.ready = true → 1 ≤ pl.period → pl.period ≤ 1000 → 1 ≤ pl.entries.length →
    pl.entries.length ≤ 64 →
    let p := le16 pl.period ++ byte1 pl.entries.length ++ pl.entries.map fun e => BitVec.ofNat 8 e.code
    (s.seq.runState = .stopped → exec (.setPlan tag p) s = .next (State.answered (responseTo tag 0x20 .ok [])
      { s with
        seq := { s.seq with plan := pl, pendingPlan := none }
        track := if PlanEntry.ref ∈ pl.entries then s.track else { s.track with ref := .afterReset } })) ∧
    ((s.seq.runState = .scanning ∨ s.seq.runState = .cycleWait) → exec (.setPlan tag p) s =
      .next (State.answered (responseTo tag 0x20 .deferred []) { s with seq := { s.seq with pendingPlan := some pl } }))

/-- START_SCAN in STOPPED with an empty plan is refused with NO_PLAN. With a plan it clears every window and the reference's,
starts a cycle at the current uptime, and answers OK: the first entry that is REF or an enabled key is claimed, and granted at
once at an IDLE engine, the disabled keys before it skipped; with none, the cycle is done and the run state is CYCLE_WAIT. -/
def Obligations.StartScanTakesEffect : Prop :=
  ∀ (tag : Byte) (s : State), s.ready = true → s.seq.runState = .stopped →
    let measured := fun e => e = PlanEntry.ref ∨ ∃ k, e = PlanEntry.key k ∧ (s.keyCfg k).enabled = true
    let track : Tracker :=
      { keys := vecMap (fun r => { r with window := [] }) s.track.keys, ref := { s.track.ref with window := [] } }
    let seq := { s.seq with cycleStart := s.uptime, elapsed := false, timerOn := true }
    (s.seq.plan.entries = [] → exec (.startScan tag []) s = .next (s.answered (responseTo tag 0x22 .noPlan []))) ∧
    (∀ (before : List PlanEntry) (e : PlanEntry) (after : List PlanEntry),
      s.seq.plan.entries = before ++ e :: after → measured e → (∀ x ∈ before, ¬measured x) →
      exec (.startScan tag []) s = .next (State.answered (responseTo tag 0x22 .ok [])
        (grantIfFree { s with
          track := track
          seq := { seq with position := before.length, runState := .scanning }
          claims := { s.claims with plan := some { index := before.length, subject := e } } }))) ∧
    (s.seq.plan.entries ≠ [] → (∀ x ∈ s.seq.plan.entries, ¬measured x) →
      exec (.startScan tag []) s = .next (State.answered (responseTo tag 0x22 .ok [])
        { s with track := track, seq := { seq with position := s.seq.plan.entries.length, runState := .cycleWait } }))

/-- STOP_SCAN: in STOPPED it is answered OK and nothing changes; in CYCLE_WAIT, and in SCANNING with the claim waiting, which is
withdrawn, the stop completes and is answered OK in the same event; in SCANNING with the measurement in flight the period timer
stops, the measurement is asked to abort, the run state is STOPPING, and the request stays in execution. An abort that finds TRANSFER
is marked as one whose TRANSFER may still end first (log entry 17), and an abort in CHARGE or TRANSFER leaves a count of 0 (log entry
15). A completed stop applies the stop effect to every key in ascending order of key id, evaluates each slider once in ascending order
of group id, makes a pending plan the active one, with the reference UNCALIBRATED at its after-reset values when that plan holds no
REF, clears an entry request, with the doze state AWAKE and the idle timer 0, and answers the STOP_SCAN in execution with OK. -/
def Obligations.StopScanTakesEffect : Prop :=
  ∀ (tag : Byte) (s : State), s.ready = true →
    let stopped := fun u : State =>
      let v := clearEntryRequest (promotePlan (evaluateAll (allKeys.foldl (quiesce .stopped) u)))
      ({ v with seq := { v.seq with position := 0, elapsed := false, timerOn := false, runState := .stopped } } : State)
    (s.seq.runState = .stopped → exec (.stopScan tag []) s = .next (s.answered (responseTo tag 0x23 .ok []))) ∧
    (s.seq.runState = .cycleWait → exec (.stopScan tag []) s = .next ((stopped s).answered (responseTo tag 0x23 .ok []))) ∧
    (s.seq.runState = .scanning → s.claims.plan.isSome = true →
      exec (.stopScan tag []) s =
        .next ((stopped { s with claims := { s.claims with plan := none } }).answered (responseTo tag 0x23 .ok []))) ∧
    (s.seq.runState = .scanning → s.claims.plan = none → s.engine.phase ≠ .idle → s.engine.ownerKind = .plan →
      exec (.stopScan tag []) s = .next (State.inExecution { tag := tag, code := 0x23, payload := [] }
        { s with
          seq := { s.seq with timerOn := false, runState := .stopping }
          engine :=
            if s.engine.phase = .discharge then { s.engine with abort := true }
            else { s.engine with phase := .discharge, abort := true, count := 0, cut := decide (s.engine.phase = .transfer) } })) ∧
    allKeys.Pairwise (fun j k => j < k) ∧ (∀ k : KeyId, k ∈ allKeys) ∧
    ∀ u : State,
      evaluateAll u = ([0, 1, 2, 3, 4, 5, 6, 7] : List GroupId).foldl evaluateTouchOnly u ∧
      (u.seq.pendingPlan = none → promotePlan u = u) ∧
      (∀ pl : Plan, u.seq.pendingPlan = some pl → promotePlan u = { u with
        seq := { u.seq with plan := pl, pendingPlan := none }
        track := if PlanEntry.ref ∈ pl.entries then u.track else { u.track with ref := .afterReset } }) ∧
      (u.doze.request = none → clearEntryRequest u = u) ∧
      (u.doze.request.isSome = true →
        clearEntryRequest u = { u with doze := { u.doze with request := none, state := .awake, idle := 0 } }) ∧
      (∀ x : Request, u.handler.executing = some x → x.code = 0x23 →
        let v := stopped u
        completeStop u = { v with
          tx := { v.tx with respSlot := some (responseTo x.tag 0x23 .ok []) }
          handler := { v.handler with executing := none } })

/-- An accepted MEASURE of a pad set or of REF claims the engine and stays in execution: at an IDLE engine the claim is granted
at once, and DISCHARGE begins with the request as owner record and a copy of its parameters; at a busy one it waits. -/
def Obligations.MeasureTakesEffect : Prop :=
  ∀ (tag : Byte) (set : PadSet) (ref : Bool) (m : MeasureParams) (s : State), s.ready = true → m.inRange = true →
    (ref = true ∨ set ≠ 0) →
    let p := byte1 (if ref then 1 else 0) ++ le24 set.toNat ++ m.bytes
    let r : Request := { tag := tag, code := 0x28, payload := p }
    let target := if ref then Target.ref else Target.pads set
    (s.engine.phase = .idle → exec (.measure tag p) s = .next (State.inExecution r
      { s with
        engine :=
          { phase := .discharge, abort := false, cut := false, lastOwner := .host, count := s.engine.count,
            job := some { owner := .host r, target := target, meas := m, slowTimed := decide (s.fastOscillator ≠ .running) } }
        claims := { s.claims with host := none } })) ∧
    (s.engine.phase ≠ .idle → exec (.measure tag p) s = .next (State.inExecution r
      { s with claims := { s.claims with host := some { request := r, target := target, meas := m } } }))

/-- RECALIBRATE: the selected keys take the host recalibration effect in ascending order, sliders left with no touch end theirs,
the reference returns to SETTLING with its drift kept when the flag is 1, and the answer is OK with the number of selected keys
that were not DISABLED; a flag above 1 is refused with BAD_FIELD 2, another length with BAD_LENGTH. -/
def Obligations.RecalibrateTakesEffect : Prop :=
  ∀ (tag : Byte) (n : Nat) (f : Byte) (s : State), s.ready = true → n < 4294967296 →
    let keys := allKeys.filter fun k => n.testBit k.val
    let p := le32 n ++ [f]
    let u := evaluateAll (keys.foldl hostRecal s)
    let resp := responseTo tag 0x30 .ok (byte1 (keys.countP fun k => decide ((s.rt k).state ≠ .disabled)))
    (f = 0 → exec (.recalibrate tag p) s = .next (u.answered resp)) ∧
    (f = 1 → exec (.recalibrate tag p) s = .next (State.answered resp
      { u with track := { u.track with ref :=
        { state := .settling, window := [], baseline := none, calSum := 0, calCount := 0, faultStreak := 0, validStreak := 0, drift := s.track.ref.drift } } })) ∧
    (2 ≤ f.toNat → exec (.recalibrate tag p) s = .next (s.answered (responseTo tag 0x30 .badField (byte1 2)))) ∧
    (∀ q : List Byte, q.length ≠ 5 →
      exec (.recalibrate tag q) s = .next (s.answered (responseTo tag 0x30 .badLength (byte1 q.length))))

/-- FLUSH_REPORTS removes every entry and hold, sets the lost counter to 0, keeps the next sequence number, stops the ack timer,
and answers OK with the entries removed and the lost counter as it was. RESYNC makes every entry UNSENT, stops the ack timer, sets
the retry count to 0 and the link ACTIVE, and answers OK with the oldest sequence number, or the next when the queue is empty,
and the number of entries. Both refuse a payload with BAD_LENGTH. -/
def Obligations.FlushAndResyncTakeEffect : Prop :=
  ∀ (tag : Byte) (p : List Byte) (s : State), s.ready = true →
    exec (.flushReports tag []) s = .next (State.answered
      (responseTo tag 0x38 .ok (byte1 s.queue.entries.length ++ le16 s.queue.lost))
      { s with
        queue := { entries := [], nextSeq := s.queue.nextSeq, lost := 0, holds := vecOf fun _ => none }
        delivery := { s.delivery with ackTimer := none } }) ∧
    exec (.resync tag []) s = .next (State.answered
      (responseTo tag 0x40 .ok
        (le16 (match s.queue.entries with | [] => s.queue.nextSeq | e :: _ => e.seq).toNat ++ byte1 s.queue.entries.length))
      { s with
        queue := { s.queue with entries := s.queue.entries.map fun e => { e with sent := false } }
        delivery := { s.delivery with ackTimer := none, retries := 0, link := .active } }) ∧
    (p ≠ [] →
      exec (.flushReports tag p) s = .next (s.answered (responseTo tag 0x38 .badLength (byte1 p.length))) ∧
      exec (.resync tag p) s = .next (s.answered (responseTo tag 0x40 .badLength (byte1 p.length))))

/-- An accepted SET_LINK, in range, replaces the four settings, sets the window to the initial window, and answers OK; the ack
timer, the retry count, the link state and the rate in force are kept, and a rate that differs from the one every change already
ordered will leave is ordered with the response. -/
def Obligations.SetLinkTakesEffect : Prop :=
  ∀ (tag : Byte) (l : LinkSettings) (s : State), s.ready = true → l.inRange = true →
    let ordered := match s.tx.sending with
      | some { frame := .response { after := .baud b, .. }, .. } => b
      | _ => s.linkCfg.rate
    exec (.setLink tag (byte1 l.baud.code ++ le16 l.ackTimeout ++ byte1 l.retryLimit ++ byte1 l.window)) s =
      .next (State.answered
        { tag := tag, code := 0x41, result := .ok, payload := [], after := if l.baud = ordered then .nothing else .baud l.baud }
        { s with
          linkCfg := { settings := l, rate := s.linkCfg.rate }
          delivery := { s.delivery with window := l.window } })

/-- SET_OUTPUTS replaces the map, the polarity and the ATTN mode and answers OK; a pulse goes on only while PULSE mode is kept; no
key, group or report changes. GET_OUTPUTS answers OK with the ten bytes, the BSEL level, the active lines, bit n for KLn, and the
ATTN level. -/
def Obligations.OutputsRequestsTakeEffect : Prop :=
  ∀ (tag : Byte) (o : OutputSettings) (s : State), s.ready = true →
    let bytes := fun o : OutputSettings =>
      byte1 (o.bank0[0]).code ++ byte1 (o.bank0[1]).code ++ byte1 (o.bank0[2]).code ++ byte1 (o.bank0[3]).code ++
        byte1 (o.bank1[0]).code ++ byte1 (o.bank1[1]).code ++ byte1 (o.bank1[2]).code ++ byte1 (o.bank1[3]).code ++
        byte1 o.polarity.code ++ byte1 o.attnMode.code
    exec (.setOutputs tag (bytes o)) s = .next (State.answered (responseTo tag 0x48 .ok [])
      { s with
        outputs := o
        attnPulse := s.attnPulse && decide (s.outputs.attnMode = .pulse) && decide (o.attnMode = .pulse) }) ∧
    exec (.getOutputs tag []) s = .next (s.answered (responseTo tag 0x49 .ok
      (bytes s.outputs ++ byte1 (if s.pins.bselHigh then 1 else 0) ++ byte1 s.activeLines ++ byte1 (if s.attnLow then 1 else 0)))) ∧
    (∀ p : List Byte, p ≠ [] →
      exec (.getOutputs tag p) s = .next (s.answered (responseTo tag 0x49 .badLength (byte1 p.length)))) ∧
    s.activeLines < 16 ∧ ∀ n : Fin 4, s.activeLines.testBit n.val = s.lineActive n

/-- SET_DOZE, in range, replaces the doze settings, sets the wake set record as after reset and the idle timer to 0, clears an
entry request of source AUTO with the doze state AWAKE, and answers OK. GET_DOZE answers OK with the thirty bytes; its idle timer
field is 0, since the request itself broke entry condition 4 (THE MODEL'S CHOICE, log entry 11). -/
def Obligations.DozeSettingsRequestsTakeEffect : Prop :=
  ∀ (tag : Byte) (d : DozeSettings) (s : State), s.ready = true →
    (d.inRange = true → exec (.setDoze tag d.bytes) s = .next (State.answered (responseTo tag 0x50 .ok [])
      { s with doze := { s.doze with
        settings := d
        wake := .afterReset
        idle := 0
        request := if s.doze.request = some .auto then none else s.doze.request
        state := if s.doze.request = some .auto then .awake else s.doze.state } })) ∧
    exec (.getDoze tag []) s = .next (s.answered (responseTo tag 0x52 .ok
      (s.doze.settings.bytes ++ byte1 s.doze.state.code ++ le16 (s.doze.wake.baseline.getD 0xFFFF) ++
        le16 (s.doze.wake.signal.getD 0xFFFF) ++ byte1 s.doze.wake.calCount ++ byte1 s.doze.wake.touchStreak ++
        byte1 s.doze.wake.faultStreak ++ le32 0 ++
        byte1 (match s.doze.request with | none => 0 | some .auto => 1 | some .host => 2)))) ∧
    (∀ p : List Byte, p ≠ [] →
      exec (.getDoze tag p) s = .next (s.answered (responseTo tag 0x52 .badLength (byte1 p.length))))

/-- ENTER_DOZE: refused with STATE when one of the entry conditions 2 to 6 fails. In STOPPED doze is entered at once: the
sequencer DOZING with STOPPED recorded, the receiver DISABLED, the doze state ENTERING, the response OK handed over. In SCANNING
and CYCLE_WAIT the entry request is raised with source HOST, the doze state is REQUESTED, and the request stays in execution. -/
def Obligations.EnterDozeTakesEffect : Prop :=
  ∀ (tag : Byte) (s : State), s.ready = true →
    (s.entryConditions = false → exec (.enterDoze tag []) s = .next (s.answered (responseTo tag 0x51 .state []))) ∧
    (s.entryConditions = true → s.seq.runState = .stopped →
      exec (.enterDoze tag []) s = .next (State.handedOver (responseTo tag 0x51 .ok [])
        { s with
          seq := { s.seq with timerOn := false, elapsed := false, position := 0, runState := .dozing }
          doze := { s.doze with recorded := .stopped, request := none, idle := 0, state := .entering }
          rx := { state := .disabled, len := 0, bytes := [] } })) ∧
    (s.entryConditions = true → (s.seq.runState = .scanning ∨ s.seq.runState = .cycleWait) →
      exec (.enterDoze tag []) s = .next (State.inExecution { tag := tag, code := 0x51, payload := [] }
        { s with doze := { s.doze with request := some .host, state := .requested } }))

/-- PROFILE_SAVE: BUSY while a save is in flight, STATE when the newest generation is the greatest, and otherwise ACCEPTED with
the target slot and the generation: the image is staged from the running configuration, the target is the slot that is not the
newest VALID one, A when neither is VALID, its state EMPTY, and ERASING begins. PROFILE_INFO answers OK with the fourteen bytes of
R177, and refuses a payload with BAD_LENGTH. -/
def Obligations.ProfileSaveTakesEffect : Prop :=
  ∀ (tag : Byte) (autostart : Bool) (s : State), s.ready = true →
    let p := byte1 (if autostart then 1 else 0)
    let info := fun x : Slot =>
      byte1 x.state.code ++ le32 (match x.content with | some w => w.generation | none => 0) ++
        byte1 (match x.content with | some w => if w.image.autostart then 1 else 0 | none => 0)
    let target := match s.store.newest with | some .a => SlotId.b | some .b => .a | none => .a
    let generation := match s.store.newest with | some i => (s.store.slot i).generation + 1 | none => 1
    let image : Image :=
      { keys := s.table.keys, ref := s.table.ref, groups := vecMap (fun g => g.config) s.groups,
        plan := match s.seq.pendingPlan with | some pl => pl | none => s.seq.plan,
        outputs := s.outputs, doze := s.doze.settings, link := s.linkCfg.settings, autostart := autostart }
    (s.store.save ≠ .idle → exec (.profileSave tag p) s = .next (s.answered (responseTo tag 0x58 .busy []))) ∧
    (s.store.save = .idle → generation = 4294967296 →
      exec (.profileSave tag p) s = .next (s.answered (responseTo tag 0x58 .state []))) ∧
    (s.store.save = .idle → generation ≠ 4294967296 →
      exec (.profileSave tag p) s = .next (State.answered
        (responseTo tag 0x58 .accepted (byte1 target.code ++ le32 generation))
        { s with store :=
          { slotA := if target = .a then { state := .empty, cells := .torn } else s.store.slotA
            slotB := if target = .b then { state := .empty, cells := .torn } else s.store.slotB
            save := .erasing
            staged := some { image := image, target := target, generation := generation } } })) ∧
    exec (.profileInfo tag []) s = .next (s.answered (responseTo tag 0x5A .ok
      (info s.store.slotA ++ info s.store.slotB ++ byte1 s.store.save.code ++
        byte1 (match s.store.staged with | some x => x.target | none => target).code))) ∧
    (∀ q : List Byte, q ≠ [] →
      exec (.profileInfo tag q) s = .next (s.answered (responseTo tag 0x5A .badLength (byte1 q.length))))

/-- PROFILE_LOAD in STOPPED with a slot choice in range: BUSY while a save is in flight; a slot that is not VALID gets NO_PROFILE;
a VALID slot whose checksum fails becomes INVALID and gets NO_PROFILE; NEWEST tries the VALID slot of the higher generation and
then the other, and where both fail both become INVALID and it gets NO_PROFILE (how a slot comes to fail is outside the model: log
entry 27); and a slot that passes replaces the whole running configuration and is answered OK with the slot and its
generation, a rate that differs ordered with the response. -/
def Obligations.ProfileLoadTakesEffect : Prop :=
  ∀ (tag : Byte) (s : State), s.ready = true → s.seq.runState = .stopped →
    let spoilt := fun i : SlotId => s.store.setSlot i { s.store.slot i with state := .invalid }
    let loaded := fun (i : SlotId) (w : Written) (st : Store) =>
      State.answered
        { tag := tag, code := 0x59, result := .ok, payload := byte1 i.code ++ le32 w.generation
          after := if w.image.link.baud = s.orderedRate then .nothing else .baud w.image.link.baud }
        { s with
          store := st
          table := { keys := w.image.keys, ref := w.image.ref, keyVersions := vecMap (fun v => v + 1) s.table.keyVersions, refVersion := s.table.refVersion + 1 }
          track := { keys := vecMap (fun r => KeyRuntime.afterReset r.enabled) w.image.keys, ref := { RefRuntime.afterReset with state := .settling } }
          groups := vecMap Group.fresh w.image.groups
          seq := { s.seq with plan := w.image.plan, pendingPlan := none }
          outputs := w.image.outputs
          attnPulse := s.attnPulse && decide (s.outputs.attnMode = .pulse) && decide (w.image.outputs.attnMode = .pulse)
          doze := { s.doze with settings := w.image.doze, wake := .afterReset, idle := 0, request := none, state := .awake }
          linkCfg := { settings := w.image.link, rate := s.linkCfg.rate }
          delivery := { s.delivery with window := w.image.link.window } }
    let refused := fun st : Store => State.answered (responseTo tag 0x59 .noProfile []) { s with store := st }
    (∀ c : Fin 3, s.store.save ≠ .idle →
      exec (.profileLoad tag (byte1 c.val)) s = .next (s.answered (responseTo tag 0x59 .busy []))) ∧
    (∀ i : SlotId, s.store.save = .idle → (s.store.slot i).content = none →
      exec (.profileLoad tag (byte1 i.code)) s = .next (refused s.store)) ∧
    (∀ (i : SlotId) (w : Written), s.store.save = .idle → (s.store.slot i).content = some w →
      w.checksum ≠ slotChecksum w.generation w.image → exec (.profileLoad tag (byte1 i.code)) s = .next (refused (spoilt i))) ∧
    (∀ (i : SlotId) (w : Written), s.store.save = .idle → (s.store.slot i).content = some w →
      w.checksum = slotChecksum w.generation w.image → exec (.profileLoad tag (byte1 i.code)) s = .next (loaded i w s.store)) ∧
    (s.store.save = .idle → s.store.newest = none → exec (.profileLoad tag (byte1 2)) s = .next (refused s.store)) ∧
    (∀ (i : SlotId) (w : Written), s.store.save = .idle → s.store.newest = some i → (s.store.slot i).content = some w →
      w.checksum = slotChecksum w.generation w.image → exec (.profileLoad tag (byte1 2)) s = .next (loaded i w s.store)) ∧
    (∀ (i j : SlotId) (w v : Written), i ≠ j → s.store.save = .idle → s.store.newest = some i → (s.store.slot i).content = some w →
      w.checksum ≠ slotChecksum w.generation w.image → (s.store.slot j).content = some v →
      v.checksum = slotChecksum v.generation v.image → exec (.profileLoad tag (byte1 2)) s = .next (loaded j v (spoilt i))) ∧
    (∀ (i j : SlotId) (w : Written), i ≠ j → s.store.save = .idle → s.store.newest = some i → (s.store.slot i).content = some w →
      w.checksum ≠ slotChecksum w.generation w.image → (s.store.slot j).content = none →
      exec (.profileLoad tag (byte1 2)) s = .next (refused (spoilt i))) ∧
    (∀ w v : Written, s.store.save = .idle → s.store.slotA.content = some w → s.store.slotB.content = some v →
      w.checksum ≠ slotChecksum w.generation w.image → v.checksum ≠ slotChecksum v.generation v.image →
      exec (.profileLoad tag (byte1 2)) s = .next (refused { s.store with
        slotA := { s.store.slotA with state := .invalid }, slotB := { s.store.slotB with state := .invalid } }))

/-- SOFT_RESET with mode RESTART or DEFAULTS sets the pending reset and answers OK, with the reset to follow the response's last
stop bit; another mode is refused with BAD_FIELD 1. While a reset is pending, no REQUEST frame and no FLOW frame reaches its
destination. -/
def Obligations.SoftResetTakesEffect : Prop :=
  ∀ (tag : Byte) (s : State),
    (s.ready = true → ∀ m : Byte,
      (m = 0 → exec (.softReset tag [m]) s = .next (State.answered
        { tag := tag, code := 0x03, result := .ok, payload := [], after := .reset .restart }
        { s with handler := { s.handler with pendingReset := some .restart } })) ∧
      (m = 1 → exec (.softReset tag [m]) s = .next (State.answered
        { tag := tag, code := 0x03, result := .ok, payload := [], after := .reset .defaults }
        { s with handler := { s.handler with pendingReset := some .defaults } })) ∧
      (2 ≤ m.toNat → exec (.softReset tag [m]) s = .next (s.answered (responseTo tag 0x03 .badField (byte1 1))))) ∧
    (s.runs = true → s.rx.state ≠ .disabled → s.handler.pendingReset.isSome = true →
      (∀ (code : Byte) (p : List Byte), exec (.requestFrame tag code p) s = .next { s with rx := .searching }) ∧
      (∀ (flags : Byte) (ack : Word) (window : Byte), flags.toNat < 4 →
        exec (.flowFrame flags ack window) s = .next { s with rx := .searching }))

/-! ### Transmitter and delivery -/

/-- The end of the frame on the line leaves the transmitter IDLE and makes what waited for it: a change of rate, with a partial
frame discarded and the receiver SEARCHING unless it is DISABLED, or the soft reset; then what is due is done, and a ready report
starts. With no frame on the line there is nothing to end (log entry 13), and a report left ready starts (log entry 26). The handler
takes a request when none is in execution, no reset is pending, the response slot is empty and the inbox is not: the oldest leaves the
inbox, becomes the request in execution and is executed. So a boundary that empties the response slot by starting its response takes
the next request in the same event. Between the soft reset and boot the running configuration stands: THE MODEL'S CHOICE (log entry
19). -/
def Obligations.FrameBoundaryTaken : Prop :=
  ∀ s : State,
    (s.canTake = true ↔ s.handler.executing = none ∧ s.handler.pendingReset = none ∧ s.tx.respSlot = none ∧ s.handler.inbox ≠ []) ∧
    (∀ (r : Request) (rest : List Request), s.handler.inbox = r :: rest →
      takeRequest s = executeRequest r { s with handler := { s.handler with inbox := rest, executing := some r } }) ∧
    (s.phase = .running → s.rested = true → s.tx.sending = none → exec .frameBoundary s = .next (startIfFree s)) ∧
    (s.runs = true → ∀ f : TxFrame, s.tx.sending = some f →
      let free : State := { s with tx := { s.tx with sending := none } }
      let plain := (∃ e, f.frame = .report e) ∨ ∃ r : Response, f.frame = .response r ∧ r.after = .nothing
      (plain → exec .frameBoundary s = .next (startIfFree (finish free))) ∧
      (∀ (waiting : Response) (r : Request) (rest : List Request), plain → s.tx.respSlot = some waiting →
        s.handler.executing = none → s.handler.pendingReset = none → s.handler.inbox = r :: rest →
        exec .frameBoundary s = .next (startIfFree (finish (executeRequest r { s with
          tx := { s.tx with sending := some { frame := .response waiting, rate := s.linkCfg.rate }, respSlot := none }
          handler := { s.handler with inbox := rest, executing := some r } })))) ∧
      (∀ (r : Response) (b : Baud), f.frame = .response r → r.after = .baud b →
        exec .frameBoundary s = .next (startIfFree (finish { free with
          linkCfg := { s.linkCfg with rate := b }
          rx := if s.rx.state = .disabled then s.rx else { state := .searching, len := 0, bytes := [] } }))) ∧
      (∀ (r : Response) (m : ResetMode), f.frame = .response r → r.after = .reset m →
        exec .frameBoundary s = .next (enterReset (match m with | .restart => .softRestart | .defaults => .softDefaults)
          (s.image false) free)))

/-- What an IDLE transmitter starts: the response of the response slot first, then, with no reset pending, the overflow reply,
then, with the link ACTIVE and fewer SENT entries than the window, the oldest UNSENT report, which becomes SENT and starts a
stopped ack timer; nothing when none is ready. A frame is sent at the rate in force, and starting it empties its source. A report
that an event has left ready at an IDLE transmitter starts at a frame boundary, at the end of a flow frame and of the bytes that make
one up, and before every step on an empty queue and every other command (log entry 26). The expiry of the ack timer and the events
that may offer a report (DISCHARGE_END, TRANSFER_END, PERIOD_TIMER_EXPIRY, WAKE_COMPLETE, VERIFYING_END, COMMITTING_END) start it only
where they hand over a response: that response finds the frame of the report started, and waits. -/
def Obligations.ArbiterStartsFrame : Prop :=
  ∀ s : State,
    let reported := fun (older : List ReportEntry) (e : ReportEntry) (newer : List ReportEntry) => ({ s with
      queue := { s.queue with entries := older ++ { e with sent := true } :: newer }
      tx := { s.tx with sending := some { frame := .report { e with sent := true }, rate := s.linkCfg.rate } }
      delivery := { s.delivery with ackTimer :=
        match s.delivery.ackTimer with
        | some t => some t
        | none => some { start := s.uptime, span := s.linkCfg.settings.ackTimeout } } } : State)
    (s.tx.sending.isSome = true → s.canStart = false) ∧
    (s.tx.sending = none →
      (∀ r, s.tx.respSlot = some r → s.canStart = true ∧
        startFrame s = { s with tx :=
          { s.tx with sending := some { frame := .response r, rate := s.linkCfg.rate }, respSlot := none } }) ∧
      (s.tx.respSlot = none → s.handler.pendingReset.isSome = true → s.canStart = false) ∧
      (s.tx.respSlot = none → s.handler.pendingReset = none → ∀ r, s.tx.overflow = some r → s.canStart = true ∧
        startFrame s = { s with tx :=
          { s.tx with sending := some { frame := .response r, rate := s.linkCfg.rate }, overflow := none } }) ∧
      (s.tx.respSlot = none → s.handler.pendingReset = none → s.tx.overflow = none →
        (s.canStart = true ↔ s.delivery.link = .active ∧ (∃ e ∈ s.queue.entries, e.sent = false) ∧
          (s.queue.entries.countP fun e => e.sent) < s.delivery.window) ∧
        (∀ (older : List ReportEntry) (e : ReportEntry) (newer : List ReportEntry),
          s.queue.entries = older ++ e :: newer → (∀ x ∈ older, x.sent = true) → e.sent = false →
          startFrame s = reported older e newer))) ∧
    startIfFree s = (if s.canStart then startFrame s else s) ∧
    (s.canReport = true ↔ s.tx.sending = none ∧ s.handler.pendingReset = none ∧ s.delivery.link = .active ∧
      (∃ e ∈ s.queue.entries, e.sent = false) ∧ (s.queue.entries.countP fun e => e.sent) < s.delivery.window) ∧
    reportFirst false s = s ∧
    ((s.canReport = false ∨ (s.tx.respSlot = none ∧ s.tx.overflow = none)) → reportFirst true s = s) ∧
    (s.canReport = true → (s.tx.respSlot.isSome = true ∨ s.tx.overflow.isSome = true) →
      ∀ (older : List ReportEntry) (e : ReportEntry) (newer : List ReportEntry),
        s.queue.entries = older ++ e :: newer → (∀ x ∈ older, x.sent = true) → e.sent = false →
        reportFirst true s = reported older e newer) ∧
    (s.phase = .running → s.rested = true → s.canStart = true →
      exec .frameBoundary s = .next (startFrame s) ∧
      (∀ (flags : Byte) (ack : Word) (window : Byte), flags.toNat < 4 → s.rx.state ≠ .disabled →
        exec (.flowFrame flags ack window) s = .next (startIfFree (takeFlow flags ack window { s with rx := .searching }))) ∧
      (∀ (flags a0 a1 window : Byte) (crc : Word), bodyCrc [0x04, flags, a0, a1, window] = crc →
        exec (.frameDiscard [0x04, flags, a0, a1, window] crc) s =
          exec (.flowFrame flags (BitVec.ofNat 16 (a0.toNat + 256 * a1.toNat)) window) s) ∧
      (∀ (body : List Byte) (crc : Word), body.head? ≠ some 0x04 →
        exec (.frameDiscard body crc) s = exec (.frameDiscard body crc) (startFrame s)) ∧
      (∀ b : Byte, s.rx.state ≠ .crc → exec (.strayByte b) s = exec (.strayByte b) (startFrame s)) ∧
      (∀ c : Instr, c ≠ .boot → c ≠ .frameBoundary → (∀ flags ack window, c ≠ .flowFrame flags ack window) →
        (∀ body crc, c ≠ .frameDiscard body crc) → (∀ b, c ≠ .strayByte b) → c ≠ .ackTimerExpiry → c ≠ .dischargeEnd →
        (∀ trip, c ≠ .transferEnd trip) → c ≠ .periodTimerExpiry → c ≠ .wakeComplete → (∀ ok, c ≠ .verifyingEnd ok) →
        (∀ ok, c ≠ .committingEnd ok) → exec c s = exec c (startFrame s)) ∧
      (s.pending = [] → s.enteringOver = false → step s = step (startFrame s)))

/-- The expiry of the ack timer, once its span has elapsed: the timer stops and the retry count increases; below the retry limit
every entry is UNSENT again, and at it the link is STALLED. After the rewind no acknowledgement is in range: a flow frame that comes
then is counted as ACK_RANGE, and the oldest entry is sent again, after it or, where a frame boundary comes between, before it (log
entry 26); a measurement that ends then finds every entry UNSENT, so that a SLIDER_MOVE it offers is coalesced. A stopped timer does
not expire, nor does one whose span has not elapsed, as after an acknowledgement has restarted it (log entries 3 and 13). -/
def Obligations.AckTimerExpiryTaken : Prop :=
  ∀ s : State, s.phase = .running → s.rested = true →
    (s.delivery.ackTimer = none → exec .ackTimerExpiry s = .next s) ∧
    (∀ t : AckTimer, s.delivery.ackTimer = some t → (s.uptime - t.start).toNat < t.span → exec .ackTimerExpiry s = .next s) ∧
    (∀ t : AckTimer, s.delivery.ackTimer = some t → t.span ≤ (s.uptime - t.start).toNat →
      (s.delivery.retries + 1 < s.linkCfg.settings.retryLimit →
        let rewound : State := { s with
          queue := { s.queue with entries := s.queue.entries.map fun e => { e with sent := false } }
          delivery := { s.delivery with ackTimer := none, retries := s.delivery.retries + 1 } }
        exec .ackTimerExpiry s = .next rewound ∧ (∀ n : Word, rewound.queue.ackInRange n = false) ∧
        (s.rx.state ≠ .disabled → s.handler.pendingReset = none → ∀ (n : Word) (w : Byte),
          exec (.flowFrame 1 n w) rewound = .next (startIfFree { rewound with
            rx := .searching, counters := { s.counters with ackRange := satSucc 65535 s.counters.ackRange } })) ∧
        (∀ trip : Option Nat, exec (.transferEnd trip) rewound =
          .next (finish (reportFirst rewound.canReport (endTransfer trip rewound)))) ∧
        (s.tx.sending = none → exec .frameBoundary rewound = .next (startIfFree rewound))) ∧
      (s.linkCfg.settings.retryLimit ≤ s.delivery.retries + 1 → exec .ackTimerExpiry s = .next
        { s with delivery := { s.delivery with ackTimer := none, retries := s.delivery.retries + 1, link := .stalled } }))

/-! ### The measurement engine -/

/-- DISCHARGE that ends with the abort flag clear becomes CHARGE, and with it set ends the measurement as ABORTED: the engine is
IDLE with no owner record and the flag clear, and the owner takes the result. CHARGE that ends becomes TRANSFER with count 0. The
end of a phase that is not in progress does nothing (log entry 13). An abort request of the owner's kind sets the flag, restarts
DISCHARGE or enters it from CHARGE or TRANSFER, with a count of 0 (log entry 15); one that finds TRANSFER is marked (log entry 17);
one that finds the engine IDLE or another owner changes nothing. A report that a result offers waits for the arbiter's next start
(log entry 26). -/
def Obligations.EnginePhasesEnd : Prop :=
  ∀ s : State,
    (s.phase = .running → s.rested = true →
      (s.engine.phase = .discharge → s.engine.abort = false →
        exec .dischargeEnd s = .next { s with engine := { s.engine with phase := .charge } }) ∧
      (∀ j : Job, s.engine.phase = .discharge → s.engine.abort = true → s.engine.job = some j →
        exec .dischargeEnd s = .next (finish (reportFirst s.canReport (deliver j.owner .aborted 0
          { s with engine := { s.engine with phase := .idle, job := none, abort := false, cut := false } })))) ∧
      (s.engine.phase ≠ .discharge → exec .dischargeEnd s = .next s)) ∧
    (s.runs = true →
      (s.engine.phase = .charge →
        exec .chargeEnd s = .next { s with engine := { s.engine with phase := .transfer, count := 0 } }) ∧
      (s.engine.phase ≠ .charge → exec .chargeEnd s = .next s)) ∧
    (∀ kind : OwnerKind,
      ((s.engine.phase = .idle ∨ s.engine.ownerKind ≠ kind) → requestAbort kind s = s) ∧
      (s.engine.ownerKind = kind → s.engine.phase = .discharge →
        requestAbort kind s = { s with engine := { s.engine with abort := true } }) ∧
      (s.engine.ownerKind = kind → s.engine.phase = .charge →
        requestAbort kind s = { s with engine := { s.engine with phase := .discharge, abort := true, cut := false, count := 0 } }) ∧
      (s.engine.ownerKind = kind → s.engine.phase = .transfer →
        requestAbort kind s = { s with engine := { s.engine with phase := .discharge, abort := true, cut := true, count := 0 } }))

/-- The end of TRANSFER: a trip at a count below the limit is VALID at or above the floor and SHORT below it, and with no trip below
the limit the outcome is LIMIT with the limit as count. The engine is IDLE with no owner record, and the owner takes the result; the
IDLE engine keeps the count (log entry 15). Given in the moment in which an abort request has found that TRANSFER, it is taken
first, and the owner holds the real outcome in place of ABORTED (log entry 17). Given out of TRANSFER it does nothing (log entry
13). The count at the trip is an operand of the command (log entry 8). A report that the result offers waits for the arbiter's next
start (log entry 26). A plan result goes to its tracker and on to the next entry in SCANNING, and completes the stop in STOPPING; a
host result answers the MEASURE in execution with its outcome and count; a wake result goes to the doze controller. The next entry
is the next REF or enabled key, which is claimed; with none left the cycle is done: CYCLE_WAIT with the period elapsed mark clear,
and with the mark set one overrun more and the cycle boundary at once. -/
def Obligations.TransferEnds : Prop :=
  (∀ (s : State) (j : Job), s.phase = .running → s.rested = true → (s.engine.phase = .transfer ∨ s.engine.cut = true) → s.engine.job = some j →
    let ended : MeasureOutcome → Nat → Host.Outcome State Fault Refusal := fun outcome count =>
      .next (finish (reportFirst s.canReport (deliver j.owner outcome count
        { s with engine := { s.engine with phase := .idle, job := none, abort := false, cut := false, count := count } })))
    (∀ c : Nat, c < j.meas.limit → j.meas.floor ≤ c → exec (.transferEnd (some c)) s = ended .valid c) ∧
    (∀ c : Nat, c < j.meas.limit → c < j.meas.floor → exec (.transferEnd (some c)) s = ended .short c) ∧
    (∀ c : Nat, j.meas.limit ≤ c → exec (.transferEnd (some c)) s = ended .limit j.meas.limit) ∧
    exec (.transferEnd none) s = ended .limit j.meas.limit) ∧
  (∀ (s : State) (trip : Option Nat), s.phase = .running → s.rested = true → s.engine.phase ≠ .transfer → s.engine.cut = false →
    exec (.transferEnd trip) s = .next s) ∧
  ∀ (u : State) (outcome : MeasureOutcome) (count : Nat),
    (∀ (i : Nat) (subject : PlanEntry) (v : Word), u.seq.runState = .scanning →
      deliver (.plan i subject v) outcome count u = reachEntry (i + 1) (trackResult subject v outcome count u)) ∧
    (∀ (i : Nat) (subject : PlanEntry) (v : Word), u.seq.runState = .stopping →
      deliver (.plan i subject v) outcome count u = completeStop (trackResult subject v outcome count u)) ∧
    (∀ r x : Request, u.handler.executing = some x → x.code = 0x28 →
      deliver (.host r) outcome count u = { u with
        tx := { u.tx with respSlot := some (responseTo x.tag 0x28 .ok (byte1 outcome.code ++ le16 count)) }
        handler := { u.handler with executing := none } }) ∧
    deliver .wake outcome count u = wakeResult outcome count u ∧
    (let measured := fun e => e = PlanEntry.ref ∨ ∃ k, e = PlanEntry.key k ∧ u.table.keys[k].enabled = true
      let last := u.seq.plan.entries.length
      ∀ position : Nat,
        (∀ (before : List PlanEntry) (e : PlanEntry) (after : List PlanEntry),
          u.seq.plan.entries.drop position = before ++ e :: after → measured e → (∀ x ∈ before, ¬measured x) →
          reachEntry position u = { u with
            seq := { u.seq with position := position + before.length }
            claims := { u.claims with plan := some { index := position + before.length, subject := e } } }) ∧
        ((∀ x ∈ u.seq.plan.entries.drop position, ¬measured x) →
          (u.seq.elapsed = false →
            reachEntry position u = { u with seq := { u.seq with position := last, runState := .cycleWait } }) ∧
          (u.seq.elapsed = true →
            reachEntry position u = cycleBoundary
              { u with seq := { u.seq with position := last, overruns := satSucc 65535 u.seq.overruns } })))

/-- What an IDLE engine is granted: a plan claim, unless a host claim waits too and the last owner was PLAN; otherwise a host
claim; otherwise a wake claim. A grant records the owner's kind, clears the abort flag, copies the target and the parameters, a
plan claim's version, pad set and parameters from the key table now, enters DISCHARGE, and removes the claim. A busy engine
grants nothing. That a wake claim waiting beside another ranks last is THE MODEL'S CHOICE (log entry 16). -/
def Obligations.ArbiterGrants : Prop :=
  ∀ s : State,
    let job := fun (owner : Owner) (target : Target) (m : MeasureParams) =>
      some { owner := owner, target := target, meas := m, slowTimed := decide (s.fastOscillator ≠ .running) }
    let granted := fun (kind : OwnerKind) (j : Option Job) (c : Claims) =>
      ({ s with engine := { phase := .discharge, job := j, abort := false, cut := false, lastOwner := kind, count := s.engine.count }, claims := c } : State)
    (s.engine.phase ≠ .idle → s.canGrant = false) ∧
    (s.claims.plan = none → s.claims.host = none → s.claims.wake = false → s.canGrant = false) ∧
    (s.engine.phase = .idle →
      (∀ (i : Nat) (k : KeyId), s.claims.plan = some { index := i, subject := .key k } →
        (s.claims.host = none ∨ s.engine.lastOwner ≠ .plan) → s.canGrant = true ∧
        grant s = granted .plan
          (job (.plan i (.key k) s.table.keyVersions[k]) (.pads s.table.keys[k].padSet) s.table.keys[k].meas)
          { s.claims with plan := none }) ∧
      (∀ i : Nat, s.claims.plan = some { index := i, subject := .ref } →
        (s.claims.host = none ∨ s.engine.lastOwner ≠ .plan) → s.canGrant = true ∧
        grant s = granted .plan (job (.plan i .ref s.table.refVersion) .ref s.table.ref.meas) { s.claims with plan := none }) ∧
      (∀ c : HostClaim, s.claims.host = some c → (s.claims.plan = none ∨ s.engine.lastOwner = .plan) → s.canGrant = true ∧
        grant s = granted .host (job (.host c.request) c.target c.meas) { s.claims with host := none }) ∧
      (s.claims.plan = none → s.claims.host = none → s.claims.wake = true → s.canGrant = true ∧
        grant s = granted .wake (job .wake (.pads s.doze.settings.padSet) s.doze.settings.meas) { s.claims with wake := false }))

/-! ### The cycle -/

/-- The expiry of the period timer, once the period has elapsed: in SCANNING it sets the mark; in CYCLE_WAIT it takes the cycle
boundary. The boundary swaps in a pending plan, the keys that leave it taking the unplanned effect, the sliders evaluated and
the reference reset when REF is absent. Then, with an entry request and the conditions holding, doze is entered: the sequencer in
DOZING with RUNNING recorded, the receiver DISABLED, the doze state ENTERING, and an ENTER_DOZE in execution answered OK. With an
entry request and the conditions broken the request is cleared, the doze state AWAKE and the idle timer 0, an ENTER_DOZE in execution
answered STATE, and the next cycle starts; it starts too with no request. A cycle starts in SCANNING at the current uptime, with the
timer running, the mark clear, and the first entry reached. A stopped timer does not expire, nor does one whose period has not
elapsed (log entries 3 and 13). A report offered waits for the arbiter's next start (log entry 26). -/
def Obligations.PeriodTimerExpiryTaken : Prop :=
  ∀ s : State,
    let answered := fun (result : ResultCode) (u : State) => match s.handler.executing with
      | some r => if r.code = 0x51 then
          { u with
            tx := { u.tx with respSlot := some (responseTo r.tag 0x51 result []) }
            handler := { u.handler with executing := none } }
        else u
      | none => u
    (s.phase = .running → s.rested = true → s.seq.timerOn = false → exec .periodTimerExpiry s = .next s) ∧
    (s.phase = .running → s.rested = true → (s.uptime - s.seq.cycleStart).toNat < s.seq.plan.period → exec .periodTimerExpiry s = .next s) ∧
    (s.phase = .running → s.rested = true → s.seq.timerOn = true → s.seq.plan.period ≤ (s.uptime - s.seq.cycleStart).toNat →
      (s.seq.runState = .scanning → exec .periodTimerExpiry s = .next { s with seq := { s.seq with elapsed := true } }) ∧
      (s.seq.runState = .cycleWait → exec .periodTimerExpiry s = .next (finish (reportFirst s.canReport (cycleBoundary s))))) ∧
    (s.seq.pendingPlan = none → s.doze.request = none → cycleBoundary s = cycleStart s) ∧
    (s.seq.pendingPlan = none → s.doze.request.isSome = true → s.entryConditions = true →
      cycleBoundary s = answered .ok { s with
        seq := { s.seq with timerOn := false, elapsed := false, position := 0, runState := .dozing }
        doze := { s.doze with recorded := .running, request := none, idle := 0, state := .entering }
        rx := { state := .disabled, len := 0, bytes := [] } }) ∧
    (s.seq.pendingPlan = none → s.doze.request.isSome = true → s.entryConditions = false →
      cycleBoundary s = cycleStart (answered .state
        { s with doze := { s.doze with request := none, state := .awake, idle := 0 } })) ∧
    (∀ pl : Plan, s.seq.pendingPlan = some pl →
      let leaving := allKeys.filter fun k => decide (.key k ∈ s.seq.plan.entries) && decide (.key k ∉ pl.entries)
      let swapped := evaluateAll (leaving.foldl (quiesce .unplanned) { s with seq := { s.seq with plan := pl, pendingPlan := none } })
      cycleBoundary s = cycleBoundary
        (if PlanEntry.ref ∈ pl.entries then swapped else { swapped with track := { swapped.track with ref := .afterReset } })) ∧
    cycleStart s = reachEntry 0 { s with seq :=
      { s.seq with cycleStart := s.uptime, elapsed := false, timerOn := true, position := 0, runState := .scanning } }

/-! ### Doze -/

/-- The expiry of a running idle timer, at the idle time: from STOPPED doze is entered at once, the sequencer DOZING with
STOPPED recorded, the receiver DISABLED and the doze state ENTERING; in SCANNING and CYCLE_WAIT the entry request is raised with
source AUTO, the doze state is REQUESTED and the timer stays where it stands. A timer that does not run, and one that has not reached
the idle time, does not expire (log entries 3 and 13). -/
def Obligations.IdleTimerExpiryTaken : Prop :=
  ∀ s : State, s.runs = true →
    let reached := s.doze.settings.idleTime * 1000 ≤ s.doze.idle
    (s.idleRuns = false → exec .idleTimerExpiry s = .next s) ∧
    (¬reached → exec .idleTimerExpiry s = .next s) ∧
    (s.idleRuns = true → reached → s.handler.executing = none → s.seq.runState = .stopped → exec .idleTimerExpiry s = .next { s with
      seq := { s.seq with timerOn := false, elapsed := false, position := 0, runState := .dozing }
      doze := { s.doze with recorded := .stopped, request := none, idle := 0, state := .entering }
      rx := { state := .disabled, len := 0, bytes := [] } }) ∧
    (s.idleRuns = true → reached → (s.seq.runState = .scanning ∨ s.seq.runState = .cycleWait) →
      exec .idleTimerExpiry s = .next { s with doze := { s.doze with request := some .auto, state := .requested } }) ∧
    (s.idleRuns = true ↔ s.doze.state = .awake ∧ s.doze.settings.idleTime ≠ 0 ∧ s.entryConditions = true)

/-- The end of ENTERING, with the transmitter IDLE and the response slot empty: the doze state is DOZING, the interval timer starts,
and the wake set is claimed, and granted at once at an IDLE engine; with HWAKE low a wake with cause LINE begins after it, and asks
that measurement to abort, or withdraws the claim where the engine is busy; that the grant comes before that wake is THE MODEL'S
CHOICE (log entry 28). That the command has no effect out of ENTERING, or before the transmitter and the slot are free, is log entry
13. The expiry of the interval timer, once the interval has elapsed, restarts it, and claims the wake set unless a wake claim waits
or a wake measurement is in flight. Before that, and out of DOZING, it does not expire (log entries 3 and 13). -/
def Obligations.EnteringAndIntervalTaken : Prop :=
  ∀ s : State, s.runs = true →
    let wakeJob := some { owner := Owner.wake, target := .pads s.doze.settings.padSet, meas := s.doze.settings.meas, slowTimed := true }
    let measuring : Engine := { phase := .discharge, job := wakeJob, abort := false, cut := false, lastOwner := .wake, count := s.engine.count }
    ((s.doze.state ≠ .entering ∨ s.tx.sending.isSome = true ∨ s.tx.respSlot.isSome = true) →
      exec .enteringEnd s = .next s) ∧
    (s.doze.state = .entering → s.tx.sending = none → s.tx.respSlot = none → s.engine.phase = .idle → s.pins.hwakeHigh = true →
      exec .enteringEnd s = .next { s with
        doze := { s.doze with state := .dozing, interval := some s.uptime }
        engine := measuring }) ∧
    (s.doze.state = .entering → s.tx.sending = none → s.tx.respSlot = none → s.engine.phase = .idle → s.pins.hwakeHigh = false →
      exec .enteringEnd s = .next { s with
        doze := { s.doze with state := .waking, interval := none, cause := some .line }
        engine := { measuring with abort := true } }) ∧
    (s.doze.state = .entering → s.tx.sending = none → s.tx.respSlot = none → s.engine.phase ≠ .idle → s.pins.hwakeHigh = true →
      exec .enteringEnd s = .next { s with
        doze := { s.doze with state := .dozing, interval := some s.uptime }
        claims := { s.claims with wake := true } }) ∧
    (s.doze.state = .entering → s.tx.sending = none → s.tx.respSlot = none → s.engine.phase ≠ .idle → s.pins.hwakeHigh = false →
      exec .enteringEnd s = .next { s with
        doze := { s.doze with state := .waking, interval := none, cause := some .line }
        claims := { s.claims with wake := false }
        engine := if s.engine.ownerKind = .wake then s.engine.aborted else s.engine }) ∧
    (s.doze.state ≠ .dozing → exec .intervalTimerExpiry s = .next s) ∧
    (∀ t : Time, s.doze.interval = some t → (s.uptime - t).toNat < s.doze.settings.interval →
      exec .intervalTimerExpiry s = .next s) ∧
    (∀ t : Time, s.doze.state = .dozing → s.doze.interval = some t → s.doze.settings.interval ≤ (s.uptime - t).toNat →
      let restarted := { s.doze with interval := some (t + BitVec.ofNat 32 s.doze.settings.interval) }
      ((s.claims.wake = true ∨ s.engine.ownerKind = .wake) → exec .intervalTimerExpiry s = .next { s with doze := restarted }) ∧
      (s.claims.wake = false → s.engine.phase = .idle → s.engine.job = none →
        exec .intervalTimerExpiry s = .next { s with doze := restarted, engine := measuring }))

/-- A wake result in DOZING: ABORTED is discarded; LIMIT and SHORT count towards a fault streak of 4, which wakes the part with
cause FAULT; VALID counts are calibrated into a baseline, then a count at or above baseline plus threshold counts towards the
debounce, which wakes with cause TOUCH, and any other breaks it and drifts the baseline by 1 every 8 samples. In another doze
state it is discarded. -/
def Obligations.WakeResultTaken : Prop :=
  ∀ (s : State) (c : Nat) (o : MeasureOutcome),
    let w := s.doze.wake
    let d := s.doze.settings
    let valid := fun (x : WakeRecord) => s.setWake { x with faultStreak := 0, signal := some c }
    (s.doze.state ≠ .dozing → wakeResult o c s = s) ∧
    (s.doze.state = .dozing →
      wakeResult .aborted c s = s ∧
      ((o = .limit ∨ o = .short) →
        let failed := s.setWake { w with faultStreak := w.faultStreak + 1, touchStreak := 0 }
        (w.faultStreak + 1 = 4 → wakeResult o c s = beginWake .fault failed) ∧
        (w.faultStreak + 1 ≠ 4 → wakeResult o c s = failed)) ∧
      (w.baseline = none → w.calCount + 1 ≠ d.calSamples →
        wakeResult .valid c s = valid { w with calSum := w.calSum + c, calCount := w.calCount + 1 }) ∧
      (w.baseline = none → w.calCount + 1 = d.calSamples →
        wakeResult .valid c s = valid { w with baseline := some ((w.calSum + c) / d.calSamples), calSum := 0, calCount := 0, touchStreak := 0, driftCount := 0 }) ∧
      (∀ b, w.baseline = some b → b + d.threshold ≤ c → w.touchStreak + 1 ≠ d.debounce →
        wakeResult .valid c s = valid { w with touchStreak := w.touchStreak + 1 }) ∧
      (∀ b, w.baseline = some b → b + d.threshold ≤ c → w.touchStreak + 1 = d.debounce →
        wakeResult .valid c s = beginWake .touch (valid { w with touchStreak := w.touchStreak + 1 })) ∧
      (∀ b, w.baseline = some b → c < b + d.threshold → w.driftCount + 1 ≠ 8 →
        wakeResult .valid c s = valid { w with touchStreak := 0, driftCount := w.driftCount + 1 }) ∧
      (∀ b, w.baseline = some b → c < b + d.threshold → w.driftCount + 1 = 8 →
        wakeResult .valid c s = valid { w with
          touchStreak := 0
          driftCount := 0
          baseline := some (if b < c then b + 1 else if c < b then b - 1 else b) })) ∧
    (∀ cause : WakeCause, beginWake cause s = { s with
      doze := { s.doze with cause := some cause, interval := none, state := .waking }
      claims := { s.claims with wake := false }
      engine := if s.engine.phase ≠ .idle ∧ s.engine.ownerKind = .wake then s.engine.aborted else s.engine })

/-- HWAKE falling in DOZING begins a wake with cause LINE: a wake claim withdrawn, a wake measurement asked to abort. In another
doze state it breaks entry condition 6, which sets the idle timer to 0. HWAKE rising changes its level alone. The end of WAKING
enables the receiver, offers WAKE with the cause, clears the wake set record but for its baseline, which it keeps unless the cause
was FAULT, returns the sequencer to its recorded run state, and leaves the doze state AWAKE. WAKE waits UNSENT for the arbiter's
next start (log entry 26), so that ATTN in LEVEL mode tells of the wake. HWAKE falling at a low line, HWAKE rising at a high one and
the end of WAKING out of WAKING have no effect (log entry 13). -/
def Obligations.HwakeAndWakeTaken : Prop :=
  ∀ s : State,
    (s.runs = true →
      (s.pins.hwakeHigh = false → exec .hwakeFall s = .next s) ∧
      (s.pins.hwakeHigh = true → s.doze.state = .dozing → exec .hwakeFall s = .next { s with
        pins := { s.pins with hwakeHigh := false }
        doze := { s.doze with cause := some .line, interval := none, state := .waking, idle := 0 }
        claims := { s.claims with wake := false }
        engine := if s.engine.phase ≠ .idle ∧ s.engine.ownerKind = .wake then s.engine.aborted else s.engine }) ∧
      (s.pins.hwakeHigh = true → s.doze.state ≠ .dozing → exec .hwakeFall s = .next { s with
        pins := { s.pins with hwakeHigh := false }, doze := { s.doze with idle := 0 } }) ∧
      (s.pins.hwakeHigh = false → exec .hwakeRise s = .next { s with pins := { s.pins with hwakeHigh := true } }) ∧
      (s.pins.hwakeHigh = true → exec .hwakeRise s = .next s)) ∧
    (s.phase = .running → s.rested = true → s.doze.state ≠ .waking → exec .wakeComplete s = .next s) ∧
    (∀ c : WakeCause, s.phase = .running → s.rested = true → s.doze.state = .waking → s.doze.cause = some c →
      let told : State := offer (.wake c) { s with rx := { state := .searching, len := 0, bytes := [] } }
      let back : State := match s.doze.recorded with
        | .stopped => { told with seq := { s.seq with runState := .stopped } }
        | .running => startScanning told
      let t : State := finish { back with doze := { s.doze with
        state := .awake
        cause := none
        idle := 0
        wake := { baseline := if c = .fault then none else s.doze.wake.baseline, signal := none, calSum := 0, calCount := 0, touchStreak := 0, faultStreak := 0, driftCount := 0 } } }
      exec .wakeComplete s = .next t ∧ t.queue = s.queue.offer (.wake c) s.uptime ∧ t.tx = s.tx ∧
      (s.queue.entries.length < 32 → s.outputs.attnMode = .level → t.attnLow = true))

/-! ### The profile store, the lines, and reset -/

/-- The phases of a save: ERASING becomes PROGRAMMING with the target slot INVALID; PROGRAMMING becomes VERIFYING with the
generation, the image and its checksum in the slot and no commit mark; VERIFYING becomes COMMITTING on a match and ends the save as
FAILED on a mismatch; COMMITTING ends it as OK, the slot VALID, with the mark present, and as FAILED, the slot INVALID, without. An
ended save is IDLE with nothing staged, and offers PROFILE_DONE. The end of a phase not in progress does nothing (log entry 13). What
a failed verification leaves in the cells is log entry 20. PROFILE_DONE waits for the arbiter's next start (log entry 26). -/
def Obligations.SavePhasesEnd : Prop :=
  ∀ (s : State) (x : Staged) (ok : Bool), s.phase = .running → s.rested = true → s.store.staged = some x →
    let written := fun mark : Bool =>
      Cells.written { generation := x.generation, image := x.image, checksum := slotChecksum x.generation x.image, mark := mark }
    let put := fun (state : SlotState) (cells : Cells) => s.store.setSlot x.target { state := state, cells := cells }
    let ends : Store → Bool → Host.Outcome State Fault Refusal := fun st good =>
      .next (finish (offer (.profileDone x.target good x.generation) { s with store := { st with save := .idle, staged := none } }))
    (s.canStart = false → s.store.save = .erasing →
      exec .erasingEnd s = .next { s with store := { put .invalid .torn with save := .programming } }) ∧
    (s.canStart = false → s.store.save ≠ .erasing → exec .erasingEnd s = .next s) ∧
    (s.canStart = false → s.store.save = .programming →
      exec .programmingEnd s = .next { s with store := { put .invalid (written false) with save := .verifying } }) ∧
    (s.canStart = false → s.store.save ≠ .programming → exec .programmingEnd s = .next s) ∧
    (s.store.save = .verifying → exec (.verifyingEnd true) s = .next { s with store := { s.store with save := .committing } }) ∧
    (s.store.save = .verifying → exec (.verifyingEnd false) s = ends (put .invalid .torn) false) ∧
    (s.store.save ≠ .verifying → exec (.verifyingEnd ok) s = .next s) ∧
    (s.store.save = .committing → exec (.committingEnd true) s = ends (put .valid (written true)) true) ∧
    (s.store.save = .committing → exec (.committingEnd false) s = ends (put .invalid (written false)) false) ∧
    (s.store.save ≠ .committing → exec (.committingEnd ok) s = .next s)

/-- A BSEL edge selects the other bank, and the end of an ATTN pulse ends it; neither changes anything else. A line is active
exactly when its entry in the selected bank names a key that is TOUCHED or LIFTING or a group with such a member; BSEL low selects
bank 0. ATTN in LEVEL mode is low exactly while the queue holds an UNSENT entry or the link is STALLED, in PULSE mode while a pulse
is in progress, and in OFF mode never. The lines and ATTN are driven while the part runs. In reset they are not driven but pulled,
every line to its inactive level under the polarity held (log entry 19), and ATTN high. A measurement joins to the sense node the
pads of its pad set or REF alone, and its load trim, and an IDLE engine joins nothing. The fast oscillator is stopped in DOZING,
starting in WAKING and running otherwise; the slow one stops while RESET is low. -/
def Obligations.LinesFollowState : Prop :=
  ∀ s : State,
    (s.runs = true →
      exec .bselEdge s = .next { s with pins := { s.pins with bselHigh := !s.pins.bselHigh } } ∧
      exec .attnPulseEnd s = .next { s with attnPulse := false }) ∧
    (∀ n : Fin 4,
      let entry := if s.pins.bselHigh then s.outputs.bank1[n] else s.outputs.bank0[n]
      let touching := fun k : KeyId => (s.rt k).state = .touched ∨ (s.rt k).state = .lifting
      (s.lineActive n = true ↔ (∃ k, entry = .key k ∧ touching k) ∨
        ∃ g, entry = .group g ∧ ∃ k ∈ s.groups[g].config.members, touching k) ∧
      (s.phase = .running → s.lineHigh n = if s.outputs.polarity = .activeLow then !s.lineActive n else s.lineActive n) ∧
      (s.phase ≠ .running → s.lineHigh n = decide (s.outputs.polarity = .activeLow))) ∧
    (s.phase = .running → (s.attnLow = true ↔
      (s.outputs.attnMode = .level ∧ ((∃ e ∈ s.queue.entries, e.sent = false) ∨ s.delivery.link = .stalled)) ∨
      (s.outputs.attnMode = .pulse ∧ s.attnPulse = true))) ∧
    (s.phase ≠ .running → s.attnLow = false) ∧
    (∀ n : Fin 4, (s.linePin n).high = s.lineHigh n ∧ ((s.linePin n).driven = true ↔ s.phase = .running)) ∧
    (s.attnPin.high = !s.attnLow) ∧ (s.attnPin.driven = true ↔ s.phase = .running) ∧
    (s.engine.job = none → (∀ n : Fin 24, s.padJoined n = false) ∧ s.refJoined = false ∧ s.trimJoined = none) ∧
    (∀ j : Job, s.engine.job = some j → s.trimJoined = some j.meas.trim ∧
      (∀ set : PadSet, j.target = .pads set → s.refJoined = false ∧ ∀ n : Fin 24, s.padJoined n = set.getLsbD n.val) ∧
      (j.target = .ref → s.refJoined = true ∧ ∀ n : Fin 24, s.padJoined n = false)) ∧
    s.fastOscillator = (if s.doze.state = .dozing then .stopped else if s.doze.state = .waking then .starting else .running) ∧
    s.slowOscillatorRuns = s.pins.resetHigh

/-- A reset leaves every block at its after-reset values, whichever its cause, and the slots with their contents: nothing queued,
measured, claimed, received, sent, executed or saved, every key's runtime record fresh, no ATTN pulse, the uptime 0. POWER_ON, RESET
low in a part not held, and the last stop bit of the response to a SOFT_RESET each begin one. POWER_ON, LINE and the soft causes
record their cause in a part that runs; a reset that finds another in progress, not a soft one, keeps its cause; RESET low while the
part is held does nothing. The part is held while RESET is low, and otherwise boot is next. That every block takes its values when
the reset begins, under the configuration then in force, and again at boot, is log entry 19, and the count of 0 of the IDLE engine
is log entry 15. -/
def Obligations.ResetBegins : Prop :=
  ∀ s : State,
    let fresh := fun t : State =>
      t.uptime = 0 ∧
      t.engine = { phase := .idle, job := none, abort := false, cut := false, lastOwner := .none, count := 0 } ∧
      t.claims = { plan := none, host := none, wake := false } ∧
      t.queue = { entries := [], nextSeq := 0, lost := 0, holds := vecOf fun _ => none } ∧
      t.rx = { state := .searching, len := 0, bytes := [] } ∧
      t.counters = { noise := 0, length := 0, gap := 0, crc := 0, class' := 0, inboxDrop := 0, ackRange := 0, windowRange := 0 } ∧
      t.tx = { sending := none, respSlot := none, overflow := none } ∧
      t.handler = { inbox := [], executing := none, pendingReset := none } ∧
      t.delivery = { link := .active, window := t.linkCfg.settings.window, ackTimer := none, retries := 0 } ∧
      t.linkCfg.rate = t.linkCfg.settings.baud ∧
      t.seq.runState = .stopped ∧ t.seq.pendingPlan = none ∧ t.seq.position = 0 ∧ t.seq.timerOn = false ∧
      t.seq.elapsed = false ∧ t.seq.cycleStart = 0 ∧ t.seq.overruns = 0 ∧
      (∀ k : KeyId, t.table.keyVersions[k] = 0 ∧
        t.rt k = { state := if t.table.keys[k].enabled then .settling else .disabled, window := [], baseline := none, calSum := 0, calCount := 0, debounce := 0, faultStreak := 0, validStreak := 0, driftCount := 0, negStreak := 0, touchStart := 0, downReported := false }) ∧
      t.table.refVersion = 0 ∧
      t.track.ref = { state := .uncalibrated, window := [], baseline := none, calSum := 0, calCount := 0, faultStreak := 0, validStreak := 0, drift := 0 } ∧
      (∀ g : GroupId, t.groups[g].holder = none ∧ t.groups[g].touched = false ∧ t.groups[g].lastPos = 0) ∧
      t.attnPulse = false ∧
      t.doze.state = .awake ∧ t.doze.request = none ∧ t.doze.idle = 0 ∧ t.doze.interval = none ∧ t.doze.cause = none ∧
      t.doze.recorded = .stopped ∧
      t.doze.wake = { baseline := none, signal := none, calSum := 0, calCount := 0, touchStreak := 0, faultStreak := 0, driftCount := 0 } ∧
      t.store = { s.store with save := .idle, staged := none }
    let kept := s.resetCause = .line ∨ s.resetCause = .powerOn
    (∃ t, exec .powerOn s = .next t ∧ fresh t ∧ t.pins = s.pins ∧ (t.phase = if s.pins.resetHigh then .bootDue else .held) ∧
      (s.phase = .running → t.resetCause = .powerOn) ∧
      (s.phase ≠ .running → t.resetCause = if kept then s.resetCause else .powerOn)) ∧
    (s.phase = .held → exec .resetLow s = .next s) ∧
    (s.phase ≠ .held → ∃ t, exec .resetLow s = .next t ∧ fresh t ∧ t.pins = { s.pins with resetHigh := false } ∧ t.phase = .held ∧
      (s.phase = .running → t.resetCause = .line) ∧
      (s.phase = .bootDue → t.resetCause = if kept then s.resetCause else .line)) ∧
    (∀ (f : TxFrame) (r : Response) (m : ResetMode), s.phase = .running → s.tx.sending = some f → f.frame = .response r →
      r.after = .reset m →
      ∃ t, exec .frameBoundary s = .next t ∧ fresh t ∧ t.pins = s.pins ∧ (t.phase = if s.pins.resetHigh then .bootDue else .held) ∧
        t.resetCause = match m with | .restart => .softRestart | .defaults => .softDefaults)

/-- Boot examines both slots, takes the VALID slot of the higher generation as source, or the factory defaults when none is VALID
or the cause is SOFT_DEFAULTS, writes its configuration to every block at uptime 0, offers BOOT with the cause, the source and the
generation, and starts scanning when the source has autostart on and a plan, its first claim granted at once. A part that runs does
not boot. Boot leaves BOOT alone in the queue, as number 0, UNSENT, so that ATTN is low in LEVEL mode and in a pulse in PULSE mode; it
waits for the arbiter's next start (log entry 26). -/
def Obligations.BootWritesConfiguration : Prop :=
  ∀ s : State,
    let a := s.store.slotA.examine s.free
    let b := s.store.slotB.examine (s.free + 1)
    let up : State := { s with
      pins := { s.pins with resetHigh := true }, free := s.free + 2, store := { s.store with slotA := a, slotB := b } }
    let boots : Image → Option SlotId → Nat → Host.Outcome State Fault Refusal := fun im source generation =>
      let told : State := offer (.boot s.resetCause source generation)
        { resetBlocks im up with phase := .running }
      .next (grantIfFree (if im.autostart = true ∧ im.plan.entries ≠ [] then startScanning told else told))
    (s.phase = .running → exec .boot s = .next s) ∧
    (s.phase ≠ .running →
      (s.resetCause = .softDefaults → exec .boot s = boots .factory none 0) ∧
      (a.content = none → b.content = none → exec .boot s = boots .factory none 0) ∧
      (s.resetCause ≠ .softDefaults → ∀ w, a.content = some w → (∀ v, b.content = some v → v.generation < w.generation) →
        exec .boot s = boots w.image (some .a) w.generation) ∧
      (s.resetCause ≠ .softDefaults → ∀ v, b.content = some v → (∀ w, a.content = some w → w.generation < v.generation) →
        exec .boot s = boots v.image (some .b) v.generation) ∧
      ∃ t, exec .boot s = .next t ∧ t.phase = .running ∧ t.uptime = 0 ∧ t.tx.sending = none ∧
        (∃ source generation, t.queue.entries =
          [{ seq := 0, report := .boot s.resetCause source generation, time := 0, sent := false }]) ∧
        t.attnLow = decide (t.outputs.attnMode ≠ .off)) ∧
    (∀ (x : Slot) (n : Nat),
      (x.cells = .erased → x.examine n = { state := .empty, cells := .erased }) ∧
      (∀ w, x.cells = .written w → w.mark = true → w.checksum = slotChecksum w.generation w.image →
        x.examine n = { state := .valid, cells := .written w }) ∧
      (∀ w, x.cells = .written w → (w.mark = false ∨ w.checksum ≠ slotChecksum w.generation w.image) →
        x.examine n = { state := .invalid, cells := .written w }) ∧
      (x.cells = .torn → (x.examine n).state = .empty ∨ (x.examine n).state = .invalid)) ∧
    (∀ im : Image,
      let t := resetBlocks im up
      t.table.keys = im.keys ∧ t.table.ref = im.ref ∧ t.seq.plan = im.plan ∧ t.outputs = im.outputs ∧
      t.doze.settings = im.doze ∧ t.linkCfg = { settings := im.link, rate := im.link.baud } ∧
      t.delivery.window = im.link.window ∧ (∀ g : GroupId, t.groups[g].config = im.groups[g]) ∧
      (∀ k : KeyId, (t.rt k).state = if im.keys[k].enabled then .settling else .disabled))

/-! ### The trackers -/

/-- A plan result for a key is discarded, changing nothing, when it is ABORTED, stale, or for a key not enabled; otherwise its
outcome and state rule, the max-on check and the evaluation of the key's slider follow in that order. LIMIT and SHORT count
towards the fault limit, at which a key that is not FAULTED ends its touch, becomes FAULTED and offers KEY_FAULT; VALID results of
a FAULTED key count towards the same limit, at which it offers KEY_RECOVERED and becomes SETTLING. -/
def Obligations.KeyResultProcessed : Prop :=
  ∀ (k : KeyId) (v : Word) (o : MeasureOutcome) (c : Nat) (s : State),
    let cfg := s.table.keys[k]
    let r := s.rt k
    ((o = .aborted ∨ v ≠ s.table.keyVersions[k] ∨ cfg.enabled = false) → trackResult (.key k) v o c s = s) ∧
    (o ≠ .aborted → v = s.table.keyVersions[k] → cfg.enabled = true →
      let x := outcomeAndState k o c s
      let y :=
        if ((x.rt k).state = .touched ∨ (x.rt k).state = .lifting) ∧ cfg.maxOn ≠ 0 ∧
            cfg.maxOn * 100 ≤ (x.uptime - (x.rt k).touchStart).toNat then
          (offer (.keyRecal k .stuck) (endTouch k .stuck x)).modRt k fun r =>
            { r with state := .settling, baseline := none, window := [], calSum := 0, calCount := 0, debounce := 0, negStreak := 0, driftCount := 0 }
        else x
      trackResult (.key k) v o c s = match y.groupOfKind .slider k with
        | some g => evaluateFull g y
        | none => y) ∧
    ((o = .limit ∨ o = .short) →
      let failed := s.setRt k { r with faultStreak := satSucc 255 r.faultStreak, validStreak := 0 }
      ((r.state = .faulted ∨ satSucc 255 r.faultStreak ≠ cfg.faultLimit) → outcomeAndState k o c s = failed) ∧
      (r.state ≠ .faulted → satSucc 255 r.faultStreak = cfg.faultLimit →
        outcomeAndState k o c s = offer (.keyFault k o c) (clearHolder k
          ((if r.state = .touched ∨ r.state = .lifting then endTouch k .fault failed else failed).modRt k fun r =>
            { r with state := .faulted, window := [], debounce := 0, negStreak := 0, calSum := 0, calCount := 0 })))) ∧
    (r.state = .faulted →
      (r.validStreak + 1 ≠ cfg.faultLimit →
        outcomeAndState k .valid c s = s.setRt k { r with faultStreak := 0, validStreak := r.validStreak + 1 }) ∧
      (r.validStreak + 1 = cfg.faultLimit →
        outcomeAndState k .valid c s = offer (.keyRecovered k) (s.setRt k { r with
          state := .settling, baseline := none, window := [], calSum := 0, calCount := 0, faultStreak := 0, validStreak := 0, debounce := 0, driftCount := 0, negStreak := 0 })))

/-- A VALID result of a key by the state it holds: SETTLING adds the compensated count to the calibration and completes it at the
calibration samples with the rounded-down mean as baseline; PRESSING, HELD, TOUCHED and LIFTING push it into the window and follow
the new delta against the touch or the release threshold and the debounce; RELEASED at or above the touch threshold starts
PRESSING. The compensated count is the count less the reference drift, held within 0 to 4095, or the count itself. -/
def Obligations.KeySampleFollowsState : Prop :=
  ∀ (k : KeyId) (c : Nat) (s : State),
    let cfg := s.table.keys[k]
    let r := s.rt k
    let x : Nat := if cfg.refComp then (if (c : Int) < s.track.ref.drift then 0 else min ((c : Int) - s.track.ref.drift).toNat 4095) else c
    let w : KeyRuntime := { r with faultStreak := 0, window := (if r.window.length < cfg.filterDepth then r.window else r.window.drop (r.window.length + 1 - cfg.filterDepth)) ++ [x] }
    let sample := outcomeAndState k .valid c s
    (r.state = .settling → r.calCount + 1 ≠ cfg.calSamples →
      sample = s.setRt k { r with faultStreak := 0, calSum := r.calSum + x, calCount := r.calCount + 1 }) ∧
    (r.state = .settling → r.calCount + 1 = cfg.calSamples →
      sample = s.setRt k { r with
        faultStreak := 0, baseline := some ((r.calSum + x) / cfg.calSamples), calSum := 0, calCount := 0, window := [], debounce := 0, negStreak := 0, driftCount := 0, state := .released }) ∧
    (r.state = .released → (cfg.touchThreshold : Int) ≤ w.delta →
      let pressing := s.setRt k { w with state := .pressing, debounce := 1, negStreak := 0 }
      (cfg.debounceIn ≠ 1 → sample = pressing) ∧ (cfg.debounceIn = 1 → sample = claimTouch k pressing)) ∧
    (r.state = .pressing → w.delta < cfg.touchThreshold → sample = s.setRt k { w with state := .released, debounce := 0 }) ∧
    (r.state = .pressing → (cfg.touchThreshold : Int) ≤ w.delta →
      let counted := s.setRt k { w with debounce := r.debounce + 1 }
      (r.debounce + 1 ≠ cfg.debounceIn → sample = counted) ∧ (r.debounce + 1 = cfg.debounceIn → sample = claimTouch k counted)) ∧
    (r.state = .held → w.delta < cfg.touchThreshold → sample = s.setRt k { w with state := .released, debounce := 0 }) ∧
    (r.state = .held → (cfg.touchThreshold : Int) ≤ w.delta → sample = claimTouch k (s.setRt k w)) ∧
    (r.state = .touched → (cfg.releaseThreshold : Int) ≤ w.delta → sample = s.setRt k w) ∧
    (r.state = .touched → w.delta < cfg.releaseThreshold →
      let lifting := s.setRt k { w with state := .lifting, debounce := 1 }
      (cfg.debounceOut ≠ 1 → sample = lifting) ∧ (cfg.debounceOut = 1 → sample = releaseKey k lifting)) ∧
    (r.state = .lifting → (cfg.releaseThreshold : Int) ≤ w.delta → sample = s.setRt k { w with state := .touched, debounce := 0 }) ∧
    (r.state = .lifting → w.delta < cfg.releaseThreshold →
      let counted := s.setRt k { w with debounce := r.debounce + 1 }
      (r.debounce + 1 ≠ cfg.debounceOut → sample = counted) ∧ (r.debounce + 1 = cfg.debounceOut → sample = releaseKey k counted)) ∧
    releaseKey k s = (endTouch k .lifted s).modRt k fun r => { r with state := .released, debounce := 0, negStreak := 0 }

/-- A sample that leaves a key RELEASED: a delta at or below minus a negative threshold other than 0 counts towards the negative
count, at which the baseline becomes the signal and KEY_RECAL with cause NEGATIVE is offered; another delta sets the streak to 0;
and without a recalibration, a drift interval other than 0 moves the baseline by 1 towards the signal every that many samples. -/
def Obligations.ReleasedKeyTracks : Prop :=
  ∀ (k : KeyId) (c : Nat) (s : State), (s.rt k).state = .released →
    let cfg := s.table.keys[k]
    let r := s.rt k
    let w : KeyRuntime := { r with faultStreak := 0, window := pushCount cfg.filterDepth (s.compensated k c) r.window }
    let sample := outcomeAndState k .valid c s
    let negative := cfg.negThreshold ≠ 0 ∧ w.delta ≤ -(cfg.negThreshold : Int)
    let streak := if negative then r.negStreak + 1 else 0
    w.delta < cfg.touchThreshold →
    (negative → r.negStreak + 1 = cfg.negCount →
      sample = offer (.keyRecal k .negative) (s.setRt k { w with baseline := w.signal, negStreak := 0, driftCount := 0 })) ∧
    ((¬negative ∨ r.negStreak + 1 ≠ cfg.negCount) →
      (cfg.driftInterval = 0 → sample = s.setRt k { w with negStreak := streak }) ∧
      (cfg.driftInterval ≠ 0 → r.driftCount + 1 ≠ cfg.driftInterval →
        sample = s.setRt k { w with negStreak := streak, driftCount := r.driftCount + 1 }) ∧
      (cfg.driftInterval ≠ 0 → r.driftCount + 1 = cfg.driftInterval → ∀ b x : Nat, r.baseline = some b → w.signal = some x →
        sample = s.setRt k { w with
          negStreak := streak, driftCount := 0, baseline := some (if b < x then b + 1 else if x < b then b - 1 else b) }))

/-- A plan result for REF is discarded when it is ABORTED or stale, and otherwise first moves UNCALIBRATED to SETTLING with drift
0. VALID counts calibrate it in SETTLING, with the drift unchanged, move its drift to signal minus baseline in READY, and recover
it at the third in a row in FAULTED, its drift held; the third LIMIT or SHORT in a row makes it FAULTED and offers REF_FAULT. -/
def Obligations.ReferenceResultTaken : Prop :=
  ∀ (v : Word) (o : MeasureOutcome) (c : Nat) (s : State),
    let r : RefRuntime := if s.track.ref.state = .uncalibrated then { s.track.ref with state := .settling, calSum := 0, calCount := 0, drift := 0 } else s.track.ref
    let n := s.table.ref.calSamples
    let result := trackResult .ref v
    ((o = .aborted ∨ v ≠ s.table.refVersion) → result o c s = s) ∧
    (v = s.table.refVersion →
      (r.state = .settling → r.calCount + 1 ≠ n →
        result .valid c s = s.setRef { r with faultStreak := 0, calSum := r.calSum + c, calCount := r.calCount + 1 }) ∧
      (r.state = .settling → r.calCount + 1 = n →
        result .valid c s = s.setRef { r with
          faultStreak := 0, baseline := some ((r.calSum + c) / n), calSum := 0, calCount := 0, window := [], state := .ready }) ∧
      (∀ b, r.state = .ready → r.baseline = some b →
        let w := (if r.window.length < 4 then r.window else r.window.drop (r.window.length - 3)) ++ [c]
        result .valid c s = s.setRef { r with faultStreak := 0, window := w, drift := ((w.sum / w.length : Nat) : Int) - b }) ∧
      (r.state = .faulted → r.validStreak + 1 ≠ 3 →
        result .valid c s = s.setRef { r with faultStreak := 0, validStreak := r.validStreak + 1 }) ∧
      (r.state = .faulted → r.validStreak + 1 = 3 →
        result .valid c s = offer .refRecovered (s.setRef
          { state := .settling, window := [], baseline := none, calSum := 0, calCount := 0, faultStreak := 0, validStreak := 0, drift := r.drift })) ∧
      ((o = .limit ∨ o = .short) → (r.state = .faulted ∨ satSucc 255 r.faultStreak ≠ 3) →
        result o c s = s.setRef { r with faultStreak := satSucc 255 r.faultStreak, validStreak := 0 }) ∧
      ((o = .limit ∨ o = .short) → r.state ≠ .faulted → satSucc 255 r.faultStreak = 3 →
        result o c s = offer (.refFault o c) (s.setRef { r with
          faultStreak := 3, validStreak := 0, state := .faulted, window := [], calSum := 0, calCount := 0 })))

/-- A touch begins in TOUCHED at the current uptime, with KEY_DOWN and the delta when the key reports and is no slider member; it
ends with KEY_UP and the cause if it was reported, and clears the key as holder. A key of an exclusive set takes a vacant holder
place; takes it over, the holder HELD with cause SUPPRESSED, with a delta at or above the holder's plus the margin; and is HELD
otherwise. A key of no exclusive set begins its touch. -/
def Obligations.TouchesAndExclusiveSets : Prop :=
  ∀ (k : KeyId) (s : State),
    let r := s.rt k
    let began := fun down : Bool => s.setRt k { r with state := .touched, debounce := 0, touchStart := s.uptime, downReported := down }
    let slider := ∃ g, s.groupOf k = some g ∧ s.groups[g].config.kind = .slider
    (s.table.keys[k].reports = true → ¬slider → beginTouch k s = offer (.keyDown k r.delta) (began true)) ∧
    ((s.table.keys[k].reports = false ∨ slider) → beginTouch k s = began false) ∧
    (∀ cause : UpCause,
      (r.downReported = true →
        endTouch k cause s = clearHolder k (offer (.keyUp k cause) (s.setRt k { r with downReported := false }))) ∧
      (r.downReported = false → endTouch k cause s = clearHolder k s)) ∧
    clearHolder k s = { s with groups := vecMap (fun g => { g with holder := if g.holder = some k then none else g.holder }) s.groups } ∧
    (∀ g, s.groupOf k = some g → k ∈ s.groups[g].config.members) ∧
    (s.groupOf k = none → ∀ g : GroupId, k ∉ s.groups[g].config.members) ∧
    ((∀ g, s.groupOf k = some g → s.groups[g].config.kind ≠ .exclusive) → claimTouch k s = beginTouch k s) ∧
    (∀ g, s.groupOf k = some g → s.groups[g].config.kind = .exclusive →
      let holding := fun u : State => u.setGroup g { u.groups[g] with holder := some k }
      (s.groups[g].holder = none → claimTouch k s = beginTouch k (holding s)) ∧
      (∀ h, s.groups[g].holder = some h →
        let ended := endTouch h .suppressed s
        ((s.rt h).delta + s.groups[g].config.param ≤ r.delta →
          claimTouch k s = beginTouch k (holding (ended.setRt h { ended.rt h with state := .held, debounce := 0 }))) ∧
        (r.delta < (s.rt h).delta + s.groups[g].config.param →
          claimTouch k s = s.setRt k { r with state := .held, debounce := 0 })))

/-- The slider position: with the peak the first of the largest deltas, 64 times the mean index of the peak and its neighbours,
weighted by their positive deltas and rounded down, or 64 times the peak when none is positive; at most 64 (n - 1). Full
evaluation offers SLIDER_DOWN, SLIDER_MOVE at a step or more, or SLIDER_UP with the last reported position; touch-only evaluation
offers SLIDER_UP alone. -/
def Obligations.SliderEvaluated : Prop :=
  (∀ (ds : List Int) (p : Nat), p < ds.length → (∀ i, i < ds.length → ds.getD i 0 ≤ ds.getD p 0) →
    (∀ i, i < p → ds.getD i 0 < ds.getD p 0) →
    let d := fun i => (ds.getD i 0).toNat
    let sum := (if p = 0 then 0 else d (p - 1)) + d p + d (p + 1)
    let weighted := (if p = 0 then 0 else (p - 1) * d (p - 1)) + p * d p + (p + 1) * d (p + 1)
    sliderPosition ds = (if sum = 0 then 64 * p else 64 * weighted / sum) ∧ sliderPosition ds ≤ 64 * (ds.length - 1)) ∧
  ∀ (g : GroupId) (s : State),
    let x := s.groups[g]
    let position := sliderPosition (x.config.members.map fun k => (s.rt k).delta)
    let touched := ∃ k ∈ x.config.members, (s.rt k).state = .touched ∨ (s.rt k).state = .lifting
    let far := x.lastPos + x.config.param ≤ position ∨ position + x.config.param ≤ x.lastPos
    (x.touched = false → touched →
      evaluateFull g s = offer (.sliderDown g position) (s.setGroup g { x with touched := true, lastPos := position })) ∧
    (x.touched = true → touched → far →
      evaluateFull g s = offer (.sliderMove g position) (s.setGroup g { x with lastPos := position })) ∧
    (x.touched = true → touched → ¬far → evaluateFull g s = s) ∧
    (x.touched = true → ¬touched → evaluateFull g s = offer (.sliderUp g x.lastPos) (s.setGroup g { x with touched := false })) ∧
    (x.touched = false → ¬touched → evaluateFull g s = s) ∧
    (x.config.kind = .slider → x.touched = true → ¬touched →
      evaluateTouchOnly s g = offer (.sliderUp g x.lastPos) (s.setGroup g { x with touched := false })) ∧
    ((x.config.kind ≠ .slider ∨ x.touched = false ∨ touched) → evaluateTouchOnly s g = s)

/-- The effects from outside. Reconfiguration and host recalibration end a touch and take the after-reset record, SETTLING or, for a
key not enabled, DISABLED, host recalibration with KEY_RECAL and only for a key that is not DISABLED. The stop effect, and with
another cause the unplanned effect, leaves every key DISABLED, SETTLING, RELEASED or FAULTED with an empty window, its baseline,
drift count and fault streaks kept. -/
def Obligations.OutsideEffectsApplied : Prop :=
  ∀ (k : KeyId) (cause : UpCause) (s : State),
    let r := s.rt k
    let touching := r.state = .touched ∨ r.state = .lifting
    let fresh := fun state : KeyState =>
      ({ state := state, window := [], baseline := none, calSum := 0, calCount := 0, debounce := 0, faultStreak := 0, validStreak := 0, driftCount := 0, negStreak := 0, touchStart := 0, downReported := false } : KeyRuntime)
    reconfigure k s = clearHolder k ((if touching then endTouch k .reconfigured s else s).setRt k
      (fresh (if s.table.keys[k].enabled then .settling else .disabled))) ∧
    (r.state = .disabled → hostRecal s k = s ∧ quiesce cause s k = s) ∧
    (r.state ≠ .disabled → hostRecal s k = offer (.keyRecal k .host)
      (clearHolder k ((if touching then endTouch k .recal s else s).setRt k (fresh .settling)))) ∧
    (r.state = .settling →
      quiesce cause s k = s.setRt k { r with calSum := 0, calCount := 0, window := [], debounce := 0, negStreak := 0 }) ∧
    (r.state = .faulted → quiesce cause s k = s.setRt k { r with window := [], debounce := 0, negStreak := 0 }) ∧
    ((r.state = .released ∨ r.state = .pressing ∨ r.state = .held) →
      quiesce cause s k = clearHolder k (s.setRt k { r with state := .released, window := [], debounce := 0, negStreak := 0 })) ∧
    (touching → quiesce cause s k = clearHolder k ((endTouch k cause s).modRt k fun r =>
      { r with state := .released, window := [], debounce := 0, negStreak := 0 })) ∧
    (let t := allKeys.foldl (quiesce cause) s
      ∀ j : KeyId,
        ((t.rt j).state = .disabled ∨ (t.rt j).state = .settling ∨ (t.rt j).state = .released ∨ (t.rt j).state = .faulted) ∧
        (t.rt j).baseline = (s.rt j).baseline ∧ (t.rt j).driftCount = (s.rt j).driftCount ∧
        (t.rt j).faultStreak = (s.rt j).faultStreak ∧ (t.rt j).validStreak = (s.rt j).validStreak ∧
        ((s.rt j).state ≠ .disabled → (t.rt j).window = []))

/-! ### The report queue -/

/-- An offered report, by the first case that applies: SLIDER_UP discards the group's hold; SLIDER_MOVE replaces a hold, coalesces
into the group's UNSENT SLIDER_MOVE with no SLIDER_UP or SLIDER_DOWN of the group newer, or makes a hold behind another SLIDER_MOVE
of the group; every other offer is appended UNSENT with the next sequence number, or lost to a full queue. An append starts an ATTN
pulse in PULSE mode. -/
def Obligations.QueueTakesOffer : Prop :=
  (∀ (rep : Report) (s : State), offer rep s = { s with
    queue := s.queue.offer rep s.uptime
    attnPulse := s.attnPulse || (decide (s.outputs.attnMode = .pulse) && decide ((s.queue.offer rep s.uptime).nextSeq ≠ s.queue.nextSeq)) }) ∧
  ∀ (q : ReportQueue) (now : Time),
    let taken := fun (rep : Report) (q : ReportQueue) =>
      if q.entries.length < 32 then
        { q with entries := q.entries ++ [{ seq := q.nextSeq, report := rep, time := now, sent := false }], nextSeq := q.nextSeq + 1 }
      else { q with lost := satSucc 65535 q.lost }
    let holding := fun (g : GroupId) (h : Option Hold) => ({ q with holds := vecSet q.holds g h } : ReportQueue)
    (∀ rep : Report, (∀ g p, rep ≠ .sliderMove g p) → (∀ g p, rep ≠ .sliderUp g p) → q.offer rep now = taken rep q) ∧
    (∀ (g : GroupId) (p : Nat), q.offer (.sliderUp g p) now = taken (.sliderUp g p) (holding g none)) ∧
    (∀ (g : GroupId) (p : Nat), q.holds[g].isSome = true →
      q.offer (.sliderMove g p) now = holding g (some { position := p, time := now })) ∧
    (∀ (g : GroupId) (p old : Nat) (older newer : List ReportEntry) (e : ReportEntry), q.holds[g] = none →
      q.entries = older ++ e :: newer → e.report = .sliderMove g old → (∀ x ∈ older ++ newer, ∀ y, x.report ≠ .sliderMove g y) →
      let behind := ∃ x ∈ newer, ∃ y, x.report = .sliderUp g y ∨ x.report = .sliderDown g y
      (e.sent = false → ¬behind → q.offer (.sliderMove g p) now =
        { q with entries := older ++ { e with report := .sliderMove g p, time := now } :: newer }) ∧
      ((e.sent = true ∨ behind) → q.offer (.sliderMove g p) now = holding g (some { position := p, time := now }))) ∧
    (∀ (g : GroupId) (p : Nat), q.holds[g] = none → (∀ x ∈ q.entries, ∀ y, x.report ≠ .sliderMove g y) →
      q.offer (.sliderMove g p) now = taken (.sliderMove g p) q)

/-- An acknowledgement is in range when it names a SENT entry. It removes the entries through the one it names, appends
REPORTS_LOST with the lost counter and sets that to 0 when it is not 0, and then appends each hold whose group has no SLIDER_MOVE
left, with the hold's own time, in ascending order of group id, or loses it to a full queue. -/
def Obligations.AckRemovesEntries : Prop :=
  ∀ (q : ReportQueue) (n : Word) (now : Time),
    (q.ackInRange n = true ↔ ∃ e ∈ q.entries, e.sent = true ∧ e.seq = n) ∧
    (∀ (gone kept : List ReportEntry) (e : ReportEntry), q.entries = gone ++ e :: kept → e.seq = n → (∀ x ∈ gone, x.seq ≠ n) →
      let left : ReportQueue :=
        if q.lost = 0 then { q with entries := kept }
        else { q with
          entries := kept ++ [{ seq := q.nextSeq, report := .reportsLost q.lost, time := now, sent := false }]
          nextSeq := q.nextSeq + 1
          lost := 0 }
      q.remove n now = allGroups.foldl ReportQueue.releaseHold left ∧
      ((∀ g : GroupId, q.holds[g] = none) → q.remove n now = left)) ∧
    (∀ g : GroupId,
      (q.holds[g] = none → q.releaseHold g = q) ∧
      ((∃ x ∈ q.entries, ∃ p, x.report = .sliderMove g p) → q.releaseHold g = q) ∧
      (∀ h : Hold, q.holds[g] = some h → (∀ x ∈ q.entries, ∀ p, x.report ≠ .sliderMove g p) →
        q.releaseHold g =
          if q.entries.length < 32 then
            { q with
              entries := q.entries ++ [{ seq := q.nextSeq, report := .sliderMove g h.position, time := h.time, sent := false }]
              nextSeq := q.nextSeq + 1
              holds := vecSet q.holds g none }
          else { q with lost := satSucc 65535 q.lost, holds := vecSet q.holds g none }))

/-! ### Records on the wire -/

/-- Every record in range is read back from its bytes and passes the checks of the request that writes it, and every payload of
the right length that passes those checks is the bytes of a record in range: SET_KEY, SET_REF, SET_DOZE, SET_LINK and
SET_OUTPUTS. -/
def Obligations.RecordsRoundTrip : Prop :=
  (∀ (k : KeyId) (r : KeyRecord), r.inRange = true →
    readKeyRecord (byte1 k.val ++ r.bytes) 1 = r ∧ firstBad (setKeyChecks (byte1 k.val ++ r.bytes)) = none) ∧
  (∀ p : List Byte, p.length = 29 → firstBad (setKeyChecks p) = none →
    ∃ (k : KeyId) (r : KeyRecord), r.inRange = true ∧ p = byte1 k.val ++ r.bytes) ∧
  (∀ r : RefRecord, r.inRange = true → readRefRecord r.bytes = r ∧ firstBad (setRefChecks r.bytes) = none) ∧
  (∀ p : List Byte, p.length = 8 → firstBad (setRefChecks p) = none → ∃ r : RefRecord, r.inRange = true ∧ p = r.bytes) ∧
  (∀ d : DozeSettings, d.inRange = true → readDoze d.bytes = d ∧ firstBad (setDozeChecks d.bytes) = none) ∧
  (∀ p : List Byte, p.length = 17 → firstBad (setDozeChecks p) = none → ∃ d : DozeSettings, d.inRange = true ∧ p = d.bytes) ∧
  (∀ l : LinkSettings, l.inRange = true → readLink l.bytes = l ∧ firstBad (setLinkChecks l.bytes) = none) ∧
  (∀ p : List Byte, p.length = 5 → firstBad (setLinkChecks p) = none → ∃ l : LinkSettings, l.inRange = true ∧ p = l.bytes) ∧
  (∀ o : OutputSettings, readOutputs o.bytes = o ∧ firstBad (setOutputsChecks o.bytes) = none) ∧
  (∀ p : List Byte, p.length = 10 → firstBad (setOutputsChecks p) = none → ∃ o : OutputSettings, p = o.bytes)

end
end

