-- ==== Sys2Proof/Laws/State.lean ====
section
/-! SUPPORT. Each field of the state after each named update: true by unfolding, so that no later proof unfolds an update. -/

namespace Sys2Proof.Machine

variable (s : State)

@[simp] theorem State.setRt_phase (k : KeyId) (r : KeyRuntime) :
    (s.setRt k r).phase = s.phase := rfl
@[simp] theorem State.setRt_resetCause (k : KeyId) (r : KeyRuntime) :
    (s.setRt k r).resetCause = s.resetCause := rfl
@[simp] theorem State.setRt_uptime (k : KeyId) (r : KeyRuntime) :
    (s.setRt k r).uptime = s.uptime := rfl
@[simp] theorem State.setRt_pins (k : KeyId) (r : KeyRuntime) :
    (s.setRt k r).pins = s.pins := rfl
@[simp] theorem State.setRt_engine (k : KeyId) (r : KeyRuntime) :
    (s.setRt k r).engine = s.engine := rfl
@[simp] theorem State.setRt_claims (k : KeyId) (r : KeyRuntime) :
    (s.setRt k r).claims = s.claims := rfl
@[simp] theorem State.setRt_table (k : KeyId) (r : KeyRuntime) :
    (s.setRt k r).table = s.table := rfl
@[simp] theorem State.setRt_seq (k : KeyId) (r : KeyRuntime) :
    (s.setRt k r).seq = s.seq := rfl
@[simp] theorem State.setRt_track (k : KeyId) (r : KeyRuntime) :
    (s.setRt k r).track = { s.track with keys := vecSet s.track.keys k r } := rfl
@[simp] theorem State.setRt_groups (k : KeyId) (r : KeyRuntime) :
    (s.setRt k r).groups = s.groups := rfl
@[simp] theorem State.setRt_queue (k : KeyId) (r : KeyRuntime) :
    (s.setRt k r).queue = s.queue := rfl
@[simp] theorem State.setRt_rx (k : KeyId) (r : KeyRuntime) :
    (s.setRt k r).rx = s.rx := rfl
@[simp] theorem State.setRt_counters (k : KeyId) (r : KeyRuntime) :
    (s.setRt k r).counters = s.counters := rfl
@[simp] theorem State.setRt_tx (k : KeyId) (r : KeyRuntime) :
    (s.setRt k r).tx = s.tx := rfl
@[simp] theorem State.setRt_delivery (k : KeyId) (r : KeyRuntime) :
    (s.setRt k r).delivery = s.delivery := rfl
@[simp] theorem State.setRt_linkCfg (k : KeyId) (r : KeyRuntime) :
    (s.setRt k r).linkCfg = s.linkCfg := rfl
@[simp] theorem State.setRt_handler (k : KeyId) (r : KeyRuntime) :
    (s.setRt k r).handler = s.handler := rfl
@[simp] theorem State.setRt_outputs (k : KeyId) (r : KeyRuntime) :
    (s.setRt k r).outputs = s.outputs := rfl
@[simp] theorem State.setRt_attnPulse (k : KeyId) (r : KeyRuntime) :
    (s.setRt k r).attnPulse = s.attnPulse := rfl
@[simp] theorem State.setRt_doze (k : KeyId) (r : KeyRuntime) :
    (s.setRt k r).doze = s.doze := rfl
@[simp] theorem State.setRt_store (k : KeyId) (r : KeyRuntime) :
    (s.setRt k r).store = s.store := rfl
@[simp] theorem State.setRt_free (k : KeyId) (r : KeyRuntime) :
    (s.setRt k r).free = s.free := rfl
@[simp] theorem State.setRt_pending (k : KeyId) (r : KeyRuntime) :
    (s.setRt k r).pending = s.pending := rfl

@[simp] theorem State.modRt_phase (k : KeyId) (f : KeyRuntime → KeyRuntime) :
    (s.modRt k f).phase = s.phase := rfl
@[simp] theorem State.modRt_resetCause (k : KeyId) (f : KeyRuntime → KeyRuntime) :
    (s.modRt k f).resetCause = s.resetCause := rfl
@[simp] theorem State.modRt_uptime (k : KeyId) (f : KeyRuntime → KeyRuntime) :
    (s.modRt k f).uptime = s.uptime := rfl
@[simp] theorem State.modRt_pins (k : KeyId) (f : KeyRuntime → KeyRuntime) :
    (s.modRt k f).pins = s.pins := rfl
@[simp] theorem State.modRt_engine (k : KeyId) (f : KeyRuntime → KeyRuntime) :
    (s.modRt k f).engine = s.engine := rfl
@[simp] theorem State.modRt_claims (k : KeyId) (f : KeyRuntime → KeyRuntime) :
    (s.modRt k f).claims = s.claims := rfl
@[simp] theorem State.modRt_table (k : KeyId) (f : KeyRuntime → KeyRuntime) :
    (s.modRt k f).table = s.table := rfl
@[simp] theorem State.modRt_seq (k : KeyId) (f : KeyRuntime → KeyRuntime) :
    (s.modRt k f).seq = s.seq := rfl
@[simp] theorem State.modRt_track (k : KeyId) (f : KeyRuntime → KeyRuntime) :
    (s.modRt k f).track = { s.track with keys := vecSet s.track.keys k (f (s.rt k)) } := rfl
@[simp] theorem State.modRt_groups (k : KeyId) (f : KeyRuntime → KeyRuntime) :
    (s.modRt k f).groups = s.groups := rfl
@[simp] theorem State.modRt_queue (k : KeyId) (f : KeyRuntime → KeyRuntime) :
    (s.modRt k f).queue = s.queue := rfl
@[simp] theorem State.modRt_rx (k : KeyId) (f : KeyRuntime → KeyRuntime) :
    (s.modRt k f).rx = s.rx := rfl
@[simp] theorem State.modRt_counters (k : KeyId) (f : KeyRuntime → KeyRuntime) :
    (s.modRt k f).counters = s.counters := rfl
@[simp] theorem State.modRt_tx (k : KeyId) (f : KeyRuntime → KeyRuntime) :
    (s.modRt k f).tx = s.tx := rfl
@[simp] theorem State.modRt_delivery (k : KeyId) (f : KeyRuntime → KeyRuntime) :
    (s.modRt k f).delivery = s.delivery := rfl
@[simp] theorem State.modRt_linkCfg (k : KeyId) (f : KeyRuntime → KeyRuntime) :
    (s.modRt k f).linkCfg = s.linkCfg := rfl
@[simp] theorem State.modRt_handler (k : KeyId) (f : KeyRuntime → KeyRuntime) :
    (s.modRt k f).handler = s.handler := rfl
@[simp] theorem State.modRt_outputs (k : KeyId) (f : KeyRuntime → KeyRuntime) :
    (s.modRt k f).outputs = s.outputs := rfl
@[simp] theorem State.modRt_attnPulse (k : KeyId) (f : KeyRuntime → KeyRuntime) :
    (s.modRt k f).attnPulse = s.attnPulse := rfl
@[simp] theorem State.modRt_doze (k : KeyId) (f : KeyRuntime → KeyRuntime) :
    (s.modRt k f).doze = s.doze := rfl
@[simp] theorem State.modRt_store (k : KeyId) (f : KeyRuntime → KeyRuntime) :
    (s.modRt k f).store = s.store := rfl
@[simp] theorem State.modRt_free (k : KeyId) (f : KeyRuntime → KeyRuntime) :
    (s.modRt k f).free = s.free := rfl
@[simp] theorem State.modRt_pending (k : KeyId) (f : KeyRuntime → KeyRuntime) :
    (s.modRt k f).pending = s.pending := rfl

@[simp] theorem State.setRef_phase (r : RefRuntime) :
    (s.setRef r).phase = s.phase := rfl
@[simp] theorem State.setRef_resetCause (r : RefRuntime) :
    (s.setRef r).resetCause = s.resetCause := rfl
@[simp] theorem State.setRef_uptime (r : RefRuntime) :
    (s.setRef r).uptime = s.uptime := rfl
@[simp] theorem State.setRef_pins (r : RefRuntime) :
    (s.setRef r).pins = s.pins := rfl
@[simp] theorem State.setRef_engine (r : RefRuntime) :
    (s.setRef r).engine = s.engine := rfl
@[simp] theorem State.setRef_claims (r : RefRuntime) :
    (s.setRef r).claims = s.claims := rfl
@[simp] theorem State.setRef_table (r : RefRuntime) :
    (s.setRef r).table = s.table := rfl
@[simp] theorem State.setRef_seq (r : RefRuntime) :
    (s.setRef r).seq = s.seq := rfl
@[simp] theorem State.setRef_track (r : RefRuntime) :
    (s.setRef r).track = { s.track with ref := r } := rfl
@[simp] theorem State.setRef_groups (r : RefRuntime) :
    (s.setRef r).groups = s.groups := rfl
@[simp] theorem State.setRef_queue (r : RefRuntime) :
    (s.setRef r).queue = s.queue := rfl
@[simp] theorem State.setRef_rx (r : RefRuntime) :
    (s.setRef r).rx = s.rx := rfl
@[simp] theorem State.setRef_counters (r : RefRuntime) :
    (s.setRef r).counters = s.counters := rfl
@[simp] theorem State.setRef_tx (r : RefRuntime) :
    (s.setRef r).tx = s.tx := rfl
@[simp] theorem State.setRef_delivery (r : RefRuntime) :
    (s.setRef r).delivery = s.delivery := rfl
@[simp] theorem State.setRef_linkCfg (r : RefRuntime) :
    (s.setRef r).linkCfg = s.linkCfg := rfl
@[simp] theorem State.setRef_handler (r : RefRuntime) :
    (s.setRef r).handler = s.handler := rfl
@[simp] theorem State.setRef_outputs (r : RefRuntime) :
    (s.setRef r).outputs = s.outputs := rfl
@[simp] theorem State.setRef_attnPulse (r : RefRuntime) :
    (s.setRef r).attnPulse = s.attnPulse := rfl
@[simp] theorem State.setRef_doze (r : RefRuntime) :
    (s.setRef r).doze = s.doze := rfl
@[simp] theorem State.setRef_store (r : RefRuntime) :
    (s.setRef r).store = s.store := rfl
@[simp] theorem State.setRef_free (r : RefRuntime) :
    (s.setRef r).free = s.free := rfl
@[simp] theorem State.setRef_pending (r : RefRuntime) :
    (s.setRef r).pending = s.pending := rfl

@[simp] theorem State.setGroup_phase (g : GroupId) (x : Group) :
    (s.setGroup g x).phase = s.phase := rfl
@[simp] theorem State.setGroup_resetCause (g : GroupId) (x : Group) :
    (s.setGroup g x).resetCause = s.resetCause := rfl
@[simp] theorem State.setGroup_uptime (g : GroupId) (x : Group) :
    (s.setGroup g x).uptime = s.uptime := rfl
@[simp] theorem State.setGroup_pins (g : GroupId) (x : Group) :
    (s.setGroup g x).pins = s.pins := rfl
@[simp] theorem State.setGroup_engine (g : GroupId) (x : Group) :
    (s.setGroup g x).engine = s.engine := rfl
@[simp] theorem State.setGroup_claims (g : GroupId) (x : Group) :
    (s.setGroup g x).claims = s.claims := rfl
@[simp] theorem State.setGroup_table (g : GroupId) (x : Group) :
    (s.setGroup g x).table = s.table := rfl
@[simp] theorem State.setGroup_seq (g : GroupId) (x : Group) :
    (s.setGroup g x).seq = s.seq := rfl
@[simp] theorem State.setGroup_track (g : GroupId) (x : Group) :
    (s.setGroup g x).track = s.track := rfl
@[simp] theorem State.setGroup_groups (g : GroupId) (x : Group) :
    (s.setGroup g x).groups = vecSet s.groups g x := rfl
@[simp] theorem State.setGroup_queue (g : GroupId) (x : Group) :
    (s.setGroup g x).queue = s.queue := rfl
@[simp] theorem State.setGroup_rx (g : GroupId) (x : Group) :
    (s.setGroup g x).rx = s.rx := rfl
@[simp] theorem State.setGroup_counters (g : GroupId) (x : Group) :
    (s.setGroup g x).counters = s.counters := rfl
@[simp] theorem State.setGroup_tx (g : GroupId) (x : Group) :
    (s.setGroup g x).tx = s.tx := rfl
@[simp] theorem State.setGroup_delivery (g : GroupId) (x : Group) :
    (s.setGroup g x).delivery = s.delivery := rfl
@[simp] theorem State.setGroup_linkCfg (g : GroupId) (x : Group) :
    (s.setGroup g x).linkCfg = s.linkCfg := rfl
@[simp] theorem State.setGroup_handler (g : GroupId) (x : Group) :
    (s.setGroup g x).handler = s.handler := rfl
@[simp] theorem State.setGroup_outputs (g : GroupId) (x : Group) :
    (s.setGroup g x).outputs = s.outputs := rfl
@[simp] theorem State.setGroup_attnPulse (g : GroupId) (x : Group) :
    (s.setGroup g x).attnPulse = s.attnPulse := rfl
@[simp] theorem State.setGroup_doze (g : GroupId) (x : Group) :
    (s.setGroup g x).doze = s.doze := rfl
@[simp] theorem State.setGroup_store (g : GroupId) (x : Group) :
    (s.setGroup g x).store = s.store := rfl
@[simp] theorem State.setGroup_free (g : GroupId) (x : Group) :
    (s.setGroup g x).free = s.free := rfl
@[simp] theorem State.setGroup_pending (g : GroupId) (x : Group) :
    (s.setGroup g x).pending = s.pending := rfl

@[simp] theorem State.count_phase (f : Counters → Counters) :
    (s.count f).phase = s.phase := rfl
@[simp] theorem State.count_resetCause (f : Counters → Counters) :
    (s.count f).resetCause = s.resetCause := rfl
@[simp] theorem State.count_uptime (f : Counters → Counters) :
    (s.count f).uptime = s.uptime := rfl
@[simp] theorem State.count_pins (f : Counters → Counters) :
    (s.count f).pins = s.pins := rfl
@[simp] theorem State.count_engine (f : Counters → Counters) :
    (s.count f).engine = s.engine := rfl
@[simp] theorem State.count_claims (f : Counters → Counters) :
    (s.count f).claims = s.claims := rfl
@[simp] theorem State.count_table (f : Counters → Counters) :
    (s.count f).table = s.table := rfl
@[simp] theorem State.count_seq (f : Counters → Counters) :
    (s.count f).seq = s.seq := rfl
@[simp] theorem State.count_track (f : Counters → Counters) :
    (s.count f).track = s.track := rfl
@[simp] theorem State.count_groups (f : Counters → Counters) :
    (s.count f).groups = s.groups := rfl
@[simp] theorem State.count_queue (f : Counters → Counters) :
    (s.count f).queue = s.queue := rfl
@[simp] theorem State.count_rx (f : Counters → Counters) :
    (s.count f).rx = s.rx := rfl
@[simp] theorem State.count_counters (f : Counters → Counters) :
    (s.count f).counters = f s.counters := rfl
@[simp] theorem State.count_tx (f : Counters → Counters) :
    (s.count f).tx = s.tx := rfl
@[simp] theorem State.count_delivery (f : Counters → Counters) :
    (s.count f).delivery = s.delivery := rfl
@[simp] theorem State.count_linkCfg (f : Counters → Counters) :
    (s.count f).linkCfg = s.linkCfg := rfl
@[simp] theorem State.count_handler (f : Counters → Counters) :
    (s.count f).handler = s.handler := rfl
@[simp] theorem State.count_outputs (f : Counters → Counters) :
    (s.count f).outputs = s.outputs := rfl
@[simp] theorem State.count_attnPulse (f : Counters → Counters) :
    (s.count f).attnPulse = s.attnPulse := rfl
@[simp] theorem State.count_doze (f : Counters → Counters) :
    (s.count f).doze = s.doze := rfl
@[simp] theorem State.count_store (f : Counters → Counters) :
    (s.count f).store = s.store := rfl
@[simp] theorem State.count_free (f : Counters → Counters) :
    (s.count f).free = s.free := rfl
@[simp] theorem State.count_pending (f : Counters → Counters) :
    (s.count f).pending = s.pending := rfl

@[simp] theorem State.withQueue_phase (q : ReportQueue) :
    (s.withQueue q).phase = s.phase := rfl
@[simp] theorem State.withQueue_resetCause (q : ReportQueue) :
    (s.withQueue q).resetCause = s.resetCause := rfl
@[simp] theorem State.withQueue_uptime (q : ReportQueue) :
    (s.withQueue q).uptime = s.uptime := rfl
@[simp] theorem State.withQueue_pins (q : ReportQueue) :
    (s.withQueue q).pins = s.pins := rfl
@[simp] theorem State.withQueue_engine (q : ReportQueue) :
    (s.withQueue q).engine = s.engine := rfl
@[simp] theorem State.withQueue_claims (q : ReportQueue) :
    (s.withQueue q).claims = s.claims := rfl
@[simp] theorem State.withQueue_table (q : ReportQueue) :
    (s.withQueue q).table = s.table := rfl
@[simp] theorem State.withQueue_seq (q : ReportQueue) :
    (s.withQueue q).seq = s.seq := rfl
@[simp] theorem State.withQueue_track (q : ReportQueue) :
    (s.withQueue q).track = s.track := rfl
@[simp] theorem State.withQueue_groups (q : ReportQueue) :
    (s.withQueue q).groups = s.groups := rfl
@[simp] theorem State.withQueue_queue (q : ReportQueue) :
    (s.withQueue q).queue = q := rfl
@[simp] theorem State.withQueue_rx (q : ReportQueue) :
    (s.withQueue q).rx = s.rx := rfl
@[simp] theorem State.withQueue_counters (q : ReportQueue) :
    (s.withQueue q).counters = s.counters := rfl
@[simp] theorem State.withQueue_tx (q : ReportQueue) :
    (s.withQueue q).tx = s.tx := rfl
@[simp] theorem State.withQueue_delivery (q : ReportQueue) :
    (s.withQueue q).delivery = s.delivery := rfl
@[simp] theorem State.withQueue_linkCfg (q : ReportQueue) :
    (s.withQueue q).linkCfg = s.linkCfg := rfl
@[simp] theorem State.withQueue_handler (q : ReportQueue) :
    (s.withQueue q).handler = s.handler := rfl
@[simp] theorem State.withQueue_outputs (q : ReportQueue) :
    (s.withQueue q).outputs = s.outputs := rfl
@[simp] theorem State.withQueue_attnPulse (q : ReportQueue) :
    (s.withQueue q).attnPulse = (s.attnPulse || (decide (s.outputs.attnMode = .pulse) && decide (q.nextSeq ≠ s.queue.nextSeq))) := rfl
@[simp] theorem State.withQueue_doze (q : ReportQueue) :
    (s.withQueue q).doze = s.doze := rfl
@[simp] theorem State.withQueue_store (q : ReportQueue) :
    (s.withQueue q).store = s.store := rfl
@[simp] theorem State.withQueue_free (q : ReportQueue) :
    (s.withQueue q).free = s.free := rfl
@[simp] theorem State.withQueue_pending (q : ReportQueue) :
    (s.withQueue q).pending = s.pending := rfl

@[simp] theorem State.setWake_phase (w : WakeRecord) :
    (s.setWake w).phase = s.phase := rfl
@[simp] theorem State.setWake_resetCause (w : WakeRecord) :
    (s.setWake w).resetCause = s.resetCause := rfl
@[simp] theorem State.setWake_uptime (w : WakeRecord) :
    (s.setWake w).uptime = s.uptime := rfl
@[simp] theorem State.setWake_pins (w : WakeRecord) :
    (s.setWake w).pins = s.pins := rfl
@[simp] theorem State.setWake_engine (w : WakeRecord) :
    (s.setWake w).engine = s.engine := rfl
@[simp] theorem State.setWake_claims (w : WakeRecord) :
    (s.setWake w).claims = s.claims := rfl
@[simp] theorem State.setWake_table (w : WakeRecord) :
    (s.setWake w).table = s.table := rfl
@[simp] theorem State.setWake_seq (w : WakeRecord) :
    (s.setWake w).seq = s.seq := rfl
@[simp] theorem State.setWake_track (w : WakeRecord) :
    (s.setWake w).track = s.track := rfl
@[simp] theorem State.setWake_groups (w : WakeRecord) :
    (s.setWake w).groups = s.groups := rfl
@[simp] theorem State.setWake_queue (w : WakeRecord) :
    (s.setWake w).queue = s.queue := rfl
@[simp] theorem State.setWake_rx (w : WakeRecord) :
    (s.setWake w).rx = s.rx := rfl
@[simp] theorem State.setWake_counters (w : WakeRecord) :
    (s.setWake w).counters = s.counters := rfl
@[simp] theorem State.setWake_tx (w : WakeRecord) :
    (s.setWake w).tx = s.tx := rfl
@[simp] theorem State.setWake_delivery (w : WakeRecord) :
    (s.setWake w).delivery = s.delivery := rfl
@[simp] theorem State.setWake_linkCfg (w : WakeRecord) :
    (s.setWake w).linkCfg = s.linkCfg := rfl
@[simp] theorem State.setWake_handler (w : WakeRecord) :
    (s.setWake w).handler = s.handler := rfl
@[simp] theorem State.setWake_outputs (w : WakeRecord) :
    (s.setWake w).outputs = s.outputs := rfl
@[simp] theorem State.setWake_attnPulse (w : WakeRecord) :
    (s.setWake w).attnPulse = s.attnPulse := rfl
@[simp] theorem State.setWake_doze (w : WakeRecord) :
    (s.setWake w).doze = { s.doze with wake := w } := rfl
@[simp] theorem State.setWake_store (w : WakeRecord) :
    (s.setWake w).store = s.store := rfl
@[simp] theorem State.setWake_free (w : WakeRecord) :
    (s.setWake w).free = s.free := rfl
@[simp] theorem State.setWake_pending (w : WakeRecord) :
    (s.setWake w).pending = s.pending := rfl

@[simp] theorem State.inExecution_phase (r : Request) :
    (s.inExecution r).phase = s.phase := rfl
@[simp] theorem State.inExecution_resetCause (r : Request) :
    (s.inExecution r).resetCause = s.resetCause := rfl
@[simp] theorem State.inExecution_uptime (r : Request) :
    (s.inExecution r).uptime = s.uptime := rfl
@[simp] theorem State.inExecution_pins (r : Request) :
    (s.inExecution r).pins = s.pins := rfl
@[simp] theorem State.inExecution_engine (r : Request) :
    (s.inExecution r).engine = s.engine := rfl
@[simp] theorem State.inExecution_claims (r : Request) :
    (s.inExecution r).claims = s.claims := rfl
@[simp] theorem State.inExecution_table (r : Request) :
    (s.inExecution r).table = s.table := rfl
@[simp] theorem State.inExecution_seq (r : Request) :
    (s.inExecution r).seq = s.seq := rfl
@[simp] theorem State.inExecution_track (r : Request) :
    (s.inExecution r).track = s.track := rfl
@[simp] theorem State.inExecution_groups (r : Request) :
    (s.inExecution r).groups = s.groups := rfl
@[simp] theorem State.inExecution_queue (r : Request) :
    (s.inExecution r).queue = s.queue := rfl
@[simp] theorem State.inExecution_rx (r : Request) :
    (s.inExecution r).rx = .searching := rfl
@[simp] theorem State.inExecution_counters (r : Request) :
    (s.inExecution r).counters = s.counters := rfl
@[simp] theorem State.inExecution_tx (r : Request) :
    (s.inExecution r).tx = s.tx := rfl
@[simp] theorem State.inExecution_delivery (r : Request) :
    (s.inExecution r).delivery = s.delivery := rfl
@[simp] theorem State.inExecution_linkCfg (r : Request) :
    (s.inExecution r).linkCfg = s.linkCfg := rfl
@[simp] theorem State.inExecution_handler (r : Request) :
    (s.inExecution r).handler = { s.handler with executing := some r } := rfl
@[simp] theorem State.inExecution_outputs (r : Request) :
    (s.inExecution r).outputs = s.outputs := rfl
@[simp] theorem State.inExecution_attnPulse (r : Request) :
    (s.inExecution r).attnPulse = s.attnPulse := rfl
@[simp] theorem State.inExecution_doze (r : Request) :
    (s.inExecution r).doze = { s.doze with idle := 0 } := rfl
@[simp] theorem State.inExecution_store (r : Request) :
    (s.inExecution r).store = s.store := rfl
@[simp] theorem State.inExecution_free (r : Request) :
    (s.inExecution r).free = s.free := rfl
@[simp] theorem State.inExecution_pending (r : Request) :
    (s.inExecution r).pending = s.pending := rfl

@[simp] theorem State.answered_phase (resp : Response) :
    (s.answered resp).phase = s.phase := rfl
@[simp] theorem State.answered_resetCause (resp : Response) :
    (s.answered resp).resetCause = s.resetCause := rfl
@[simp] theorem State.answered_uptime (resp : Response) :
    (s.answered resp).uptime = s.uptime := rfl
@[simp] theorem State.answered_pins (resp : Response) :
    (s.answered resp).pins = s.pins := rfl
@[simp] theorem State.answered_engine (resp : Response) :
    (s.answered resp).engine = s.engine := rfl
@[simp] theorem State.answered_claims (resp : Response) :
    (s.answered resp).claims = s.claims := rfl
@[simp] theorem State.answered_table (resp : Response) :
    (s.answered resp).table = s.table := rfl
@[simp] theorem State.answered_seq (resp : Response) :
    (s.answered resp).seq = s.seq := rfl
@[simp] theorem State.answered_track (resp : Response) :
    (s.answered resp).track = s.track := rfl
@[simp] theorem State.answered_groups (resp : Response) :
    (s.answered resp).groups = s.groups := rfl
@[simp] theorem State.answered_queue (resp : Response) :
    (s.answered resp).queue = s.queue := rfl
@[simp] theorem State.answered_rx (resp : Response) :
    (s.answered resp).rx = .searching := rfl
@[simp] theorem State.answered_counters (resp : Response) :
    (s.answered resp).counters = s.counters := rfl
@[simp] theorem State.answered_tx (resp : Response) :
    (s.answered resp).tx = (if s.tx.sending.isNone then { s.tx with sending := some { frame := .response resp, rate := s.linkCfg.rate } } else { s.tx with respSlot := some resp }) := rfl
@[simp] theorem State.answered_delivery (resp : Response) :
    (s.answered resp).delivery = s.delivery := rfl
@[simp] theorem State.answered_linkCfg (resp : Response) :
    (s.answered resp).linkCfg = s.linkCfg := rfl
@[simp] theorem State.answered_handler (resp : Response) :
    (s.answered resp).handler = s.handler := rfl
@[simp] theorem State.answered_outputs (resp : Response) :
    (s.answered resp).outputs = s.outputs := rfl
@[simp] theorem State.answered_attnPulse (resp : Response) :
    (s.answered resp).attnPulse = s.attnPulse := rfl
@[simp] theorem State.answered_doze (resp : Response) :
    (s.answered resp).doze = { s.doze with idle := 0 } := rfl
@[simp] theorem State.answered_store (resp : Response) :
    (s.answered resp).store = s.store := rfl
@[simp] theorem State.answered_free (resp : Response) :
    (s.answered resp).free = s.free := rfl
@[simp] theorem State.answered_pending (resp : Response) :
    (s.answered resp).pending = s.pending := rfl

@[simp] theorem respondThen_phase (a : AfterSend) (r : Request) (c : ResultCode) (p : List Byte) :
    (respondThen a r c p s).phase = s.phase := rfl
@[simp] theorem respondThen_resetCause (a : AfterSend) (r : Request) (c : ResultCode) (p : List Byte) :
    (respondThen a r c p s).resetCause = s.resetCause := rfl
@[simp] theorem respondThen_uptime (a : AfterSend) (r : Request) (c : ResultCode) (p : List Byte) :
    (respondThen a r c p s).uptime = s.uptime := rfl
@[simp] theorem respondThen_pins (a : AfterSend) (r : Request) (c : ResultCode) (p : List Byte) :
    (respondThen a r c p s).pins = s.pins := rfl
@[simp] theorem respondThen_engine (a : AfterSend) (r : Request) (c : ResultCode) (p : List Byte) :
    (respondThen a r c p s).engine = s.engine := rfl
@[simp] theorem respondThen_claims (a : AfterSend) (r : Request) (c : ResultCode) (p : List Byte) :
    (respondThen a r c p s).claims = s.claims := rfl
@[simp] theorem respondThen_table (a : AfterSend) (r : Request) (c : ResultCode) (p : List Byte) :
    (respondThen a r c p s).table = s.table := rfl
@[simp] theorem respondThen_seq (a : AfterSend) (r : Request) (c : ResultCode) (p : List Byte) :
    (respondThen a r c p s).seq = s.seq := rfl
@[simp] theorem respondThen_track (a : AfterSend) (r : Request) (c : ResultCode) (p : List Byte) :
    (respondThen a r c p s).track = s.track := rfl
@[simp] theorem respondThen_groups (a : AfterSend) (r : Request) (c : ResultCode) (p : List Byte) :
    (respondThen a r c p s).groups = s.groups := rfl
@[simp] theorem respondThen_queue (a : AfterSend) (r : Request) (c : ResultCode) (p : List Byte) :
    (respondThen a r c p s).queue = s.queue := rfl
@[simp] theorem respondThen_rx (a : AfterSend) (r : Request) (c : ResultCode) (p : List Byte) :
    (respondThen a r c p s).rx = s.rx := rfl
@[simp] theorem respondThen_counters (a : AfterSend) (r : Request) (c : ResultCode) (p : List Byte) :
    (respondThen a r c p s).counters = s.counters := rfl
@[simp] theorem respondThen_tx (a : AfterSend) (r : Request) (c : ResultCode) (p : List Byte) :
    (respondThen a r c p s).tx = { s.tx with respSlot := some { tag := r.tag, code := r.code, result := c, payload := p, after := a } } := rfl
@[simp] theorem respondThen_delivery (a : AfterSend) (r : Request) (c : ResultCode) (p : List Byte) :
    (respondThen a r c p s).delivery = s.delivery := rfl
@[simp] theorem respondThen_linkCfg (a : AfterSend) (r : Request) (c : ResultCode) (p : List Byte) :
    (respondThen a r c p s).linkCfg = s.linkCfg := rfl
@[simp] theorem respondThen_handler (a : AfterSend) (r : Request) (c : ResultCode) (p : List Byte) :
    (respondThen a r c p s).handler = { s.handler with executing := none } := rfl
@[simp] theorem respondThen_outputs (a : AfterSend) (r : Request) (c : ResultCode) (p : List Byte) :
    (respondThen a r c p s).outputs = s.outputs := rfl
@[simp] theorem respondThen_attnPulse (a : AfterSend) (r : Request) (c : ResultCode) (p : List Byte) :
    (respondThen a r c p s).attnPulse = s.attnPulse := rfl
@[simp] theorem respondThen_doze (a : AfterSend) (r : Request) (c : ResultCode) (p : List Byte) :
    (respondThen a r c p s).doze = s.doze := rfl
@[simp] theorem respondThen_store (a : AfterSend) (r : Request) (c : ResultCode) (p : List Byte) :
    (respondThen a r c p s).store = s.store := rfl
@[simp] theorem respondThen_free (a : AfterSend) (r : Request) (c : ResultCode) (p : List Byte) :
    (respondThen a r c p s).free = s.free := rfl
@[simp] theorem respondThen_pending (a : AfterSend) (r : Request) (c : ResultCode) (p : List Byte) :
    (respondThen a r c p s).pending = s.pending := rfl

@[simp] theorem searchAgain_phase :
    (searchAgain s).phase = s.phase := rfl
@[simp] theorem searchAgain_resetCause :
    (searchAgain s).resetCause = s.resetCause := rfl
@[simp] theorem searchAgain_uptime :
    (searchAgain s).uptime = s.uptime := rfl
@[simp] theorem searchAgain_pins :
    (searchAgain s).pins = s.pins := rfl
@[simp] theorem searchAgain_engine :
    (searchAgain s).engine = s.engine := rfl
@[simp] theorem searchAgain_claims :
    (searchAgain s).claims = s.claims := rfl
@[simp] theorem searchAgain_table :
    (searchAgain s).table = s.table := rfl
@[simp] theorem searchAgain_seq :
    (searchAgain s).seq = s.seq := rfl
@[simp] theorem searchAgain_track :
    (searchAgain s).track = s.track := rfl
@[simp] theorem searchAgain_groups :
    (searchAgain s).groups = s.groups := rfl
@[simp] theorem searchAgain_queue :
    (searchAgain s).queue = s.queue := rfl
@[simp] theorem searchAgain_rx :
    (searchAgain s).rx = .searching := rfl
@[simp] theorem searchAgain_counters :
    (searchAgain s).counters = s.counters := rfl
@[simp] theorem searchAgain_tx :
    (searchAgain s).tx = s.tx := rfl
@[simp] theorem searchAgain_delivery :
    (searchAgain s).delivery = s.delivery := rfl
@[simp] theorem searchAgain_linkCfg :
    (searchAgain s).linkCfg = s.linkCfg := rfl
@[simp] theorem searchAgain_handler :
    (searchAgain s).handler = s.handler := rfl
@[simp] theorem searchAgain_outputs :
    (searchAgain s).outputs = s.outputs := rfl
@[simp] theorem searchAgain_attnPulse :
    (searchAgain s).attnPulse = s.attnPulse := rfl
@[simp] theorem searchAgain_doze :
    (searchAgain s).doze = s.doze := rfl
@[simp] theorem searchAgain_store :
    (searchAgain s).store = s.store := rfl
@[simp] theorem searchAgain_free :
    (searchAgain s).free = s.free := rfl
@[simp] theorem searchAgain_pending :
    (searchAgain s).pending = s.pending := rfl

@[simp] theorem beginMeasurement_phase (o : Owner) (x : Target) (m : MeasureParams) :
    (beginMeasurement o x m s).phase = s.phase := rfl
@[simp] theorem beginMeasurement_resetCause (o : Owner) (x : Target) (m : MeasureParams) :
    (beginMeasurement o x m s).resetCause = s.resetCause := rfl
@[simp] theorem beginMeasurement_uptime (o : Owner) (x : Target) (m : MeasureParams) :
    (beginMeasurement o x m s).uptime = s.uptime := rfl
@[simp] theorem beginMeasurement_pins (o : Owner) (x : Target) (m : MeasureParams) :
    (beginMeasurement o x m s).pins = s.pins := rfl
@[simp] theorem beginMeasurement_engine (o : Owner) (x : Target) (m : MeasureParams) :
    (beginMeasurement o x m s).engine = { s.engine with phase := .discharge, abort := false, cut := false, lastOwner := o.kind, job := some { owner := o, target := x, meas := m, slowTimed := decide (s.fastOscillator ≠ .running) } } := rfl
@[simp] theorem beginMeasurement_claims (o : Owner) (x : Target) (m : MeasureParams) :
    (beginMeasurement o x m s).claims = s.claims := rfl
@[simp] theorem beginMeasurement_table (o : Owner) (x : Target) (m : MeasureParams) :
    (beginMeasurement o x m s).table = s.table := rfl
@[simp] theorem beginMeasurement_seq (o : Owner) (x : Target) (m : MeasureParams) :
    (beginMeasurement o x m s).seq = s.seq := rfl
@[simp] theorem beginMeasurement_track (o : Owner) (x : Target) (m : MeasureParams) :
    (beginMeasurement o x m s).track = s.track := rfl
@[simp] theorem beginMeasurement_groups (o : Owner) (x : Target) (m : MeasureParams) :
    (beginMeasurement o x m s).groups = s.groups := rfl
@[simp] theorem beginMeasurement_queue (o : Owner) (x : Target) (m : MeasureParams) :
    (beginMeasurement o x m s).queue = s.queue := rfl
@[simp] theorem beginMeasurement_rx (o : Owner) (x : Target) (m : MeasureParams) :
    (beginMeasurement o x m s).rx = s.rx := rfl
@[simp] theorem beginMeasurement_counters (o : Owner) (x : Target) (m : MeasureParams) :
    (beginMeasurement o x m s).counters = s.counters := rfl
@[simp] theorem beginMeasurement_tx (o : Owner) (x : Target) (m : MeasureParams) :
    (beginMeasurement o x m s).tx = s.tx := rfl
@[simp] theorem beginMeasurement_delivery (o : Owner) (x : Target) (m : MeasureParams) :
    (beginMeasurement o x m s).delivery = s.delivery := rfl
@[simp] theorem beginMeasurement_linkCfg (o : Owner) (x : Target) (m : MeasureParams) :
    (beginMeasurement o x m s).linkCfg = s.linkCfg := rfl
@[simp] theorem beginMeasurement_handler (o : Owner) (x : Target) (m : MeasureParams) :
    (beginMeasurement o x m s).handler = s.handler := rfl
@[simp] theorem beginMeasurement_outputs (o : Owner) (x : Target) (m : MeasureParams) :
    (beginMeasurement o x m s).outputs = s.outputs := rfl
@[simp] theorem beginMeasurement_attnPulse (o : Owner) (x : Target) (m : MeasureParams) :
    (beginMeasurement o x m s).attnPulse = s.attnPulse := rfl
@[simp] theorem beginMeasurement_doze (o : Owner) (x : Target) (m : MeasureParams) :
    (beginMeasurement o x m s).doze = s.doze := rfl
@[simp] theorem beginMeasurement_store (o : Owner) (x : Target) (m : MeasureParams) :
    (beginMeasurement o x m s).store = s.store := rfl
@[simp] theorem beginMeasurement_free (o : Owner) (x : Target) (m : MeasureParams) :
    (beginMeasurement o x m s).free = s.free := rfl
@[simp] theorem beginMeasurement_pending (o : Owner) (x : Target) (m : MeasureParams) :
    (beginMeasurement o x m s).pending = s.pending := rfl

@[simp] theorem resetBlocks_phase (im : Image) :
    (resetBlocks im s).phase = s.phase := rfl
@[simp] theorem resetBlocks_resetCause (im : Image) :
    (resetBlocks im s).resetCause = s.resetCause := rfl
@[simp] theorem resetBlocks_uptime (im : Image) :
    (resetBlocks im s).uptime = 0 := rfl
@[simp] theorem resetBlocks_pins (im : Image) :
    (resetBlocks im s).pins = s.pins := rfl
@[simp] theorem resetBlocks_engine (im : Image) :
    (resetBlocks im s).engine = .afterReset := rfl
@[simp] theorem resetBlocks_claims (im : Image) :
    (resetBlocks im s).claims = .none := rfl
@[simp] theorem resetBlocks_table (im : Image) :
    (resetBlocks im s).table = { keys := im.keys, ref := im.ref, keyVersions := vecOf fun _ => 0, refVersion := 0 } := rfl
@[simp] theorem resetBlocks_seq (im : Image) :
    (resetBlocks im s).seq = .afterReset im.plan := rfl
@[simp] theorem resetBlocks_track (im : Image) :
    (resetBlocks im s).track = { keys := vecMap (fun r => .afterReset r.enabled) im.keys, ref := .afterReset } := rfl
@[simp] theorem resetBlocks_groups (im : Image) :
    (resetBlocks im s).groups = vecMap Group.fresh im.groups := rfl
@[simp] theorem resetBlocks_queue (im : Image) :
    (resetBlocks im s).queue = .afterReset := rfl
@[simp] theorem resetBlocks_rx (im : Image) :
    (resetBlocks im s).rx = .searching := rfl
@[simp] theorem resetBlocks_counters (im : Image) :
    (resetBlocks im s).counters = .zero := rfl
@[simp] theorem resetBlocks_tx (im : Image) :
    (resetBlocks im s).tx = .idle := rfl
@[simp] theorem resetBlocks_delivery (im : Image) :
    (resetBlocks im s).delivery = .afterReset im.link := rfl
@[simp] theorem resetBlocks_linkCfg (im : Image) :
    (resetBlocks im s).linkCfg = { settings := im.link, rate := im.link.baud } := rfl
@[simp] theorem resetBlocks_handler (im : Image) :
    (resetBlocks im s).handler = .afterReset := rfl
@[simp] theorem resetBlocks_outputs (im : Image) :
    (resetBlocks im s).outputs = im.outputs := rfl
@[simp] theorem resetBlocks_attnPulse (im : Image) :
    (resetBlocks im s).attnPulse = false := rfl
@[simp] theorem resetBlocks_doze (im : Image) :
    (resetBlocks im s).doze = .afterReset im.doze := rfl
@[simp] theorem resetBlocks_store (im : Image) :
    (resetBlocks im s).store = s.store.saveOver := rfl
@[simp] theorem resetBlocks_free (im : Image) :
    (resetBlocks im s).free = s.free := rfl
@[simp] theorem resetBlocks_pending (im : Image) :
    (resetBlocks im s).pending = s.pending := rfl

@[simp] theorem passTime_phase :
    (passTime s).phase = s.phase := rfl
@[simp] theorem passTime_resetCause :
    (passTime s).resetCause = s.resetCause := rfl
@[simp] theorem passTime_uptime :
    (passTime s).uptime = s.uptime + 1 := rfl
@[simp] theorem passTime_pins :
    (passTime s).pins = s.pins := rfl
@[simp] theorem passTime_engine :
    (passTime s).engine = { s.engine with cut := false } := rfl
@[simp] theorem passTime_claims :
    (passTime s).claims = s.claims := rfl
@[simp] theorem passTime_table :
    (passTime s).table = s.table := rfl
@[simp] theorem passTime_seq :
    (passTime s).seq = s.seq := rfl
@[simp] theorem passTime_track :
    (passTime s).track = s.track := rfl
@[simp] theorem passTime_groups :
    (passTime s).groups = s.groups := rfl
@[simp] theorem passTime_queue :
    (passTime s).queue = s.queue := rfl
@[simp] theorem passTime_rx :
    (passTime s).rx = s.rx := rfl
@[simp] theorem passTime_counters :
    (passTime s).counters = s.counters := rfl
@[simp] theorem passTime_tx :
    (passTime s).tx = s.tx := rfl
@[simp] theorem passTime_delivery :
    (passTime s).delivery = s.delivery := rfl
@[simp] theorem passTime_linkCfg :
    (passTime s).linkCfg = s.linkCfg := rfl
@[simp] theorem passTime_handler :
    (passTime s).handler = s.handler := rfl
@[simp] theorem passTime_outputs :
    (passTime s).outputs = s.outputs := rfl
@[simp] theorem passTime_attnPulse :
    (passTime s).attnPulse = s.attnPulse := rfl
@[simp] theorem passTime_doze :
    (passTime s).doze = if s.idleRuns then { s.doze with idle := min (s.doze.idle + 1) s.idleTarget } else s.doze := rfl
@[simp] theorem passTime_store :
    (passTime s).store = s.store := rfl
@[simp] theorem passTime_free :
    (passTime s).free = s.free := rfl
@[simp] theorem passTime_pending :
    (passTime s).pending = s.pending := rfl

@[simp] theorem Engine.freed_phase (e : Engine) : e.freed.phase = .idle := rfl
@[simp] theorem Engine.freed_job (e : Engine) : e.freed.job = none := rfl
@[simp] theorem Engine.freed_abort (e : Engine) : e.freed.abort = false := rfl
@[simp] theorem Engine.freed_cut (e : Engine) : e.freed.cut = false := rfl
@[simp] theorem Engine.freed_lastOwner (e : Engine) : e.freed.lastOwner = e.lastOwner := rfl
@[simp] theorem Engine.freed_count (e : Engine) : e.freed.count = e.count := rfl
@[simp] theorem Engine.aborted_job (e : Engine) : e.aborted.job = e.job := by cases e with | mk p => cases p <;> rfl
@[simp] theorem Engine.aborted_lastOwner (e : Engine) : e.aborted.lastOwner = e.lastOwner := by cases e with | mk p => cases p <;> rfl

end Sys2Proof.Machine
end

