-- ==== Sys2Proof/Laws/Handler.lean ====
section
/-! SUPPORT. What the handler and the end of an event do, once: a request that finds the part ready is executed at once, and
its response leaves the part `answered`. -/

namespace Sys2Proof.Machine

/-- No frame is started where none is ready. -/
theorem startIfFree_of_settled {s : State} (h : s.canStart = false) : startIfFree s = s := by simp [startIfFree, h]

/-- A ready frame is started. -/
theorem startIfFree_of_canStart {s : State} (h : s.canStart = true) : startIfFree s = startFrame s := by simp [startIfFree, h]

/-- What `ready` says, part by part. -/
theorem State.ready_iff (s : State) :
    s.ready = true ↔ s.phase = .running ∧ s.rx.state ≠ .disabled ∧ s.handler.inbox = [] ∧ s.handler.executing = none ∧
      s.handler.pendingReset = none ∧ s.tx.respSlot = none ∧ s.canGrant = false ∧ s.canTake = false ∧ s.canReply = false ∧
      s.canStart = false := by
  simp [State.ready, State.settled, and_assoc]

/-- A reply that may be started is a frame that may be started. -/
theorem State.canReply_of_not_canStart {s : State} (h : s.canStart = false) : s.canReply = false := by
  simp_all [State.canStart]

/-- Whether a claim waits at an IDLE engine depends on the engine and the claims alone. -/
theorem State.canGrant_congr {s t : State} (he : t.engine = s.engine) (hc : t.claims = s.claims) :
    t.canGrant = s.canGrant := by
  simp [State.canGrant, State.nextGrant, he, hc]

/-- The idle timer may not run while a response waits in the response slot. -/
theorem State.entryConditions_of_respSlot {s : State} (h : s.tx.respSlot.isSome = true) : s.entryConditions = false := by
  cases hr : s.tx.respSlot <;> simp_all [State.entryConditions, State.txQuiet]

/-- The idle timer may not run while the inbox holds a request. -/
theorem State.entryConditions_of_inbox {s : State} (h : s.handler.inbox ≠ []) : s.entryConditions = false := by
  cases hr : s.handler.inbox <;> simp_all [State.entryConditions, State.requestsQuiet]

/-- An idle timer of 0 set to 0. -/
theorem Doze.idle_zero {d : Doze} (h : d.idle = 0) : { d with idle := 0 } = d := by cases d; simp_all

/-- A request in execution that is absent made absent. -/
theorem Handler.executing_none {x : Handler} (h : x.executing = none) : { x with executing := none } = x := by
  cases x; simp_all

/-- An empty response slot emptied. -/
theorem Tx.respSlot_none {x : Tx} (h : x.respSlot = none) : { x with respSlot := none } = x := by cases x; simp_all

/-- Settling the idle timer of a state whose idle timer is 0 changes nothing. -/
theorem State.settleIdle_of_idle {s : State} (h : s.doze.idle = 0) : s.settleIdle = s := by
  unfold State.settleIdle
  split
  · rfl
  · rw [Doze.idle_zero h]

/-- Settling the idle timer when the entry conditions fail sets it to 0. -/
theorem State.settleIdle_of_not {s : State} (h : s.entryConditions = false) :
    s.settleIdle = { s with doze := { s.doze with idle := 0 } } := by
  simp [State.settleIdle, State.idleRuns, h]

/-- A request that joins the inbox sets the idle timer to 0. -/
theorem joinInbox_eq (r : Request) (s : State) :
    joinInbox r s = { s with handler := { s.handler with inbox := s.handler.inbox ++ [r] }, doze := { s.doze with idle := 0 } } := by
  unfold joinInbox
  rw [State.settleIdle_of_not (State.entryConditions_of_inbox (by simp))]

/-- Nothing is due once a response waits behind a frame on the line, or is itself on the line with the inbox empty, and no claim
waits at an IDLE engine. -/
theorem settleMany_of_settled {s : State} (hg : s.canGrant = false) (ht : s.canTake = false) (hs : s.canReply = false) (n : Nat) :
    settleMany n s = s := by
  induction n with
  | zero => rfl
  | succ n ih => simp [settleMany, settleOnce, hg, ht, hs, ih]

/-- The end of an event that has handed over a response with an empty inbox and no claim due. -/
theorem settle_response {s : State} {resp : Response} (hr : s.tx.respSlot = some resp) (hi : s.handler.inbox = [])
    (hg : s.canGrant = false) (hd : s.doze.idle = 0) (hx : s.rx = .searching) (n : Nat) (hn : 0 < n) :
    (settleMany n s).settleIdle = State.answered resp { s with tx := { s.tx with respSlot := none } } := by
  cases hsend : s.tx.sending with
  | some f =>
    rw [settleMany_of_settled hg (by simp [State.canTake, hr]) (by simp [State.canReply, hsend]),
      State.settleIdle_of_idle hd]
    have hd' := Doze.idle_zero hd
    rcases s with ⟨_, _, _, _, _, _, _, _, _, _, _, _, _, ⟨_, _, _⟩, _, _, _, _, _, _, _, _, _⟩
    simp_all [State.answered, State.handedOver]
  | none =>
    obtain ⟨m, rfl⟩ : ∃ m, n = m + 1 := ⟨n - 1, by omega⟩
    have h1 : settleOnce s = State.answered resp { s with tx := { s.tx with respSlot := none } } := by
      have hd' := Doze.idle_zero hd
      have ht : s.canTake = false := by simp [State.canTake, hr]
      have hs : s.canReply = true := by simp [State.canReply, hsend, hr]
      rw [settleOnce, hg, ht, hs]
      rcases s with ⟨_, _, _, _, _, _, _, _, _, _, _, _, _, ⟨_, _, _⟩, _, _, _, _, _, _, _, _, _⟩
      simp_all [startFrame, sendFrame, State.answered, State.handedOver]
    have h2 : (State.answered resp { s with tx := { s.tx with respSlot := none } }).canGrant = false := by
      rw [← hg]; exact State.canGrant_congr rfl rfl
    rw [settleMany, h1, settleMany_of_settled h2 (by simp [State.canTake, hi]) (by simp [State.canReply, hsend]),
      State.settleIdle_of_idle (by simp)]

/-- A request that finds the part ready is taken and executed at once, with the receiver SEARCHING and the idle timer 0. -/
theorem onPart_request {s : State} (h : s.ready = true) (r : Request) :
    onPart (receiveRequest r) s = .next (State.settleIdle (settleMany 3 (executeRequest r (s.inExecution r)))) := by
  obtain ⟨hp, hx, hi, he, hpr, hrs, hg, ht, -, hs⟩ := (State.ready_iff s).1 h
  have hw : startIfFree (searchAgain s) = searchAgain s := startIfFree_of_settled hs
  have h1 : receiveRequest r s = { s with rx := .searching, handler := { s.handler with inbox := [r] }, doze := { s.doze with idle := 0 } } := by
    simp [receiveRequest, receiving, hx, passRequest, hw]; simp [searchAgain, hpr, takeRequestFrame, hi, Config.inboxCapacity, joinInbox_eq]
  have h2 : settleOnce (receiveRequest r s) = executeRequest r (s.inExecution r) := by
    have hg' : (receiveRequest r s).canGrant = false := by rw [h1, ← hg]; exact State.canGrant_congr rfl rfl
    have ht' : (receiveRequest r s).canTake = true := by rw [h1]; simp [State.canTake, he, hpr, hrs]
    simp only [settleOnce, hg', ht']
    rw [h1]
    cases s with | mk phase resetCause uptime pins engine claims table seq track groups queue rx counters tx delivery linkCfg handler =>
      cases handler
      simp_all [takeRequest, State.inExecution]
  simp only [onPart, hp, finish, settleSteps, startIfFree_of_settled hs]
  simp only [settleMany, h2]
  simp

/-- A request whose execution hands over a response and makes no claim leaves the part answered. -/
theorem onPart_request_answered {s u : State} {r : Request} {a : AfterSend} {c : ResultCode} {p : List Byte}
    (h : s.ready = true) (hex : executeRequest r (s.inExecution r) = respondThen a r c p u)
    (hu : u.handler.inbox = [] ∧ u.tx.respSlot = none ∧ u.canGrant = false ∧ u.doze.idle = 0 ∧ u.rx = .searching) :
    onPart (receiveRequest r) s =
      .next (State.answered { tag := r.tag, code := r.code, result := c, payload := p, after := a }
        { u with handler := { u.handler with executing := none } }) := by
  obtain ⟨hi, hs, hg, hd, hx⟩ := hu
  rw [onPart_request h, hex,
    settle_response (s := respondThen a r c p u) (resp := { tag := r.tag, code := r.code, result := c, payload := p, after := a }) rfl hi
      (by rw [← hg]; exact State.canGrant_congr rfl rfl) hd hx 3 (by omega)]
  rcases u with ⟨_, _, _, _, _, _, _, _, _, _, _, _, _, ⟨_, slot, _⟩, _, _, _, _, _, _, _, _, _⟩
  have hn : slot = none := hs
  subst hn
  rfl

/-- A request that changes nothing but hands over a response. -/
theorem onPart_request_reply {s : State} {r : Request} {c : ResultCode} {p : List Byte} (h : s.ready = true)
    (hex : executeRequest r (s.inExecution r) = respond r c p (s.inExecution r)) :
    onPart (receiveRequest r) s = .next (s.answered (r.reply c p)) := by
  obtain ⟨hp, hx, hi, he, hpr, hrs, hg, ht, -⟩ := (State.ready_iff s).1 h
  rw [onPart_request_answered h hex ⟨hi, hrs, by rw [← hg]; exact State.canGrant_congr rfl rfl, rfl, rfl⟩]
  have hh := Handler.executing_none he
  rcases s with ⟨_, _, _, _, _, _, _, _, _, _, _, _, _, _, _, _, _, _, _, _, _, _, _⟩
  simp_all [State.answered, State.handedOver, State.inExecution, Request.reply]

/-- The checks of a request that passes them all. -/
theorem checked_accept {r : Request} {l st : Bool} {f : List (Nat × Bool)} {g : State → State} {s : State} (hl : l = true)
    (hst : st = true) (hf : firstBad f = none) : checked r l st f g s = g s := by
  simp [checked, hl, hst, hf]

end Sys2Proof.Machine
end

