-- ==== Sys2Proof/Laws/Events.lean ====
section
/-! SUPPORT. What the end of an event does, once: nothing when nothing is due; and what decides whether anything is. -/

namespace Sys2Proof.Machine

/-- What `idleSettled` says. -/
theorem State.idleSettled_iff (s : State) :
    s.idleSettled = true ↔ s.doze.idle = 0 ∨
      (s.phase = .running ∧ (s.idleRuns = true ∨ (s.doze.state = .requested ∧ s.entryConditions = true))) := by
  simp [State.idleSettled]

/-- What `rested` says, part by part. -/
theorem State.rested_iff (s : State) :
    s.rested = true ↔ s.canGrant = false ∧ s.canTake = false ∧ s.canReply = false ∧ s.idleSettled = true := by
  simp [State.rested, State.settled, and_assoc]

/-- What `runs` says, part by part. -/
theorem State.runs_iff (s : State) :
    s.runs = true ↔ s.phase = .running ∧ s.canGrant = false ∧ s.canTake = false ∧ s.canReply = false ∧
      s.canStart = false ∧ s.idleSettled = true := by
  simp [State.runs, State.settled, and_assoc]

/-- A part that runs with nothing due is at rest. -/
theorem State.rested_of_runs {s : State} (h : s.runs = true) : s.rested = true := by
  obtain ⟨-, hg, ht, hr, -, hi⟩ := (State.runs_iff s).1 h
  exact (State.rested_iff s).2 ⟨hg, ht, hr, hi⟩

/-- Settling an idle timer that stands as it may changes nothing. -/
theorem State.settleIdle_of_settled {s : State} (h : s.idleSettled = true) : s.settleIdle = s := by
  rcases (State.idleSettled_iff s).1 h with h | ⟨-, h | ⟨h, k⟩⟩
  · exact State.settleIdle_of_idle h
  · simp [State.settleIdle, h]
  · simp [State.settleIdle, h, k]

/-- A frame that a part at rest may start is that of its oldest UNSENT report, which becomes SENT; the ack timer runs after it. -/
theorem startFrame_of_rested {s : State} (h : s.rested = true) (hs : s.canStart = true) :
    ∃ e, s.queue.oldestUnsent = some e ∧ s.tx.sending = none ∧ s.tx.respSlot = none ∧ s.tx.overflow = none ∧
      s.handler.pendingReset = none ∧ startFrame s = startReport { e with sent := true } s := by
  obtain ⟨-, -, hr, -⟩ := (State.rested_iff s).1 h
  simp only [State.canStart, State.canReport, hr, Bool.false_or, Bool.and_eq_true, Option.isNone_iff_eq_none] at hs
  obtain ⟨⟨hsend, hp⟩, hrep⟩ := hs
  simp only [State.canReply, hsend, hp, Option.isNone_none, Bool.true_and, Bool.or_eq_false_iff] at hr
  have hslot : s.tx.respSlot = none := by simpa using hr.1
  have hover : s.tx.overflow = none := by simpa using hr.2
  simp only [State.reportReady, ReportQueue.hasUnsent, Bool.and_eq_true, List.any_eq_true] at hrep
  obtain ⟨⟨-, x, hx, hu⟩, -⟩ := hrep
  have hold : s.queue.oldestUnsent.isSome = true := by
    simp only [ReportQueue.oldestUnsent, List.find?_isSome]
    exact ⟨x, hx, hu⟩
  obtain ⟨e, he⟩ := Option.isSome_iff_exists.1 hold
  exact ⟨e, he, hsend, hslot, hover, hp, by simp [startFrame, startOldest, hslot, hover, he]⟩

/-- Nothing happens at the end of an event that leaves nothing due. -/
theorem finish_of_rested {s : State} (h : s.rested = true) : finish s = s := by
  obtain ⟨hg, ht, hs, hi⟩ := (State.rested_iff s).1 h
  rw [finish, settleMany_of_settled hg ht hs, State.settleIdle_of_settled hi]

/-- Nothing happens at the end of an event that leaves nothing due, nor a report ready. -/
theorem finish_of_runs {s : State} (h : s.runs = true) : finish s = s := finish_of_rested (State.rested_of_runs h)

/-- An event given to a part in reset. -/
theorem onPart_of_reset {s : State} (h : s.phase ≠ .running) (f : State → State) : onPart f s = .next s := by simp [onPart, h]

/-- An event that may offer a report, given to a part in reset. -/
theorem onQueue_of_reset {s : State} (h : s.phase ≠ .running) (f : State → State) : onQueue f s = .next s := by simp [onQueue, h]

/-- No report goes before a reply where none was ready before the event. -/
theorem reportFirst_false (s : State) : reportFirst false s = s := by simp [reportFirst]

/-- Nor where no reply is ready. -/
theorem reportFirst_of_rested {s : State} (h : s.rested = true) (waiting : Bool) : reportFirst waiting s = s := by
  simp [reportFirst, ((State.rested_iff s).1 h).2.2.1]

/-- An event that may offer a report, given to a part that runs with no report ready. -/
theorem onQueue_of_not_canReport {s : State} (h : s.phase = .running) (hr : s.canReport = false) (f : State → State) :
    onQueue f s = .next (finish (f s)) := by
  simp [onQueue, h, hr, reportFirst_false]

/-- An event that may offer a report, given to a part that runs, when it leaves nothing due. -/
theorem onQueue_of_rested {s : State} (h : s.phase = .running) (f : State → State) (hf : (f s).rested = true) :
    onQueue f s = .next (f s) := by
  simp [onQueue, h, reportFirst_of_rested hf, finish_of_rested hf]

/-- An event at the arbiter or the delivery state of a part in reset. -/
theorem onLink_of_reset {s : State} (h : s.phase ≠ .running) (f : State → State) : onLink f s = .next s := by simp [onLink, h]

/-- An event at the arbiter or the delivery state of a part that runs, when it leaves nothing due, nor a report ready. -/
theorem onLink_of_runs {s : State} (h : s.phase = .running) (f : State → State) (hf : (f s).runs = true) : onLink f s = .next (f s) := by
  obtain ⟨-, -, -, -, hs, -⟩ := (State.runs_iff (f s)).1 hf
  simp [onLink, h, finish_of_runs hf, startIfFree_of_settled hs]

/-- An event given to a part that runs and has no frame to start. -/
theorem onPart_of_settled {s : State} (hp : s.phase = .running) (hs : s.canStart = false) (f : State → State) :
    onPart f s = .next (finish (f s)) := by
  simp [onPart, hp, startIfFree_of_settled hs]

/-- An event given to a part that runs, and that leaves nothing due. -/
theorem onPart_of_runs {s : State} (h : s.runs = true) (f : State → State) (hf : (f s).runs = true) :
    onPart f s = .next (f s) := by
  obtain ⟨hp, -, -, -, hs, -⟩ := (State.runs_iff s).1 h
  rw [onPart_of_settled hp hs, finish_of_runs hf]

/-- Whether anything is due depends on these fields alone. -/
theorem State.runs_congr {s t : State} (h : s.runs = true) (hp : t.phase = s.phase) (he : t.engine = s.engine)
    (hc : t.claims = s.claims) (hh : t.handler = s.handler) (htx : t.tx = s.tx) (hd : t.delivery = s.delivery)
    (hq : t.queue = s.queue) (hz : t.doze = s.doze) (ht : t.table = s.table) (hk : t.track = s.track)
    (hg : t.groups = s.groups) (hs : t.store = s.store) (hi : t.pins = s.pins) : t.runs = true := by
  rw [← h]
  simp only [State.runs, State.idleSettled, State.settled, State.canGrant, State.nextGrant, State.canTake, State.canReply,
    State.canReport, State.canStart, State.reportReady, State.idleRuns, State.entryConditions, State.keysQuiet, State.requestsQuiet, State.txQuiet, State.keyCfg,
    State.rt, hp, he, hc, hh, htx, hd, hq, hz, ht, hk, hg, hs, hi]
  rfl

/-! ### Resets and the tests of an event -/

/-- A reset leaves no claim, no request and no reply, and the idle timer 0. -/
theorem enterReset_settled (cause : ResetCause) (im : Image) (s : State) :
    (enterReset cause im s).settled = true ∧ (enterReset cause im s).doze.idle = 0 := by
  refine ⟨?_, rfl⟩
  simp [State.settled, State.canGrant, State.nextGrant, State.canTake, State.canReply, enterReset, resetBlocks,
    Claims.none, Handler.afterReset, Tx.idle]

/-- Nothing is due after a reset. -/
theorem finish_enterReset (cause : ResetCause) (im : Image) (s : State) :
    finish (enterReset cause im s) = enterReset cause im s := by
  have h := enterReset_settled cause im s
  simp only [State.settled, Bool.and_eq_true, Bool.not_eq_true'] at h
  rw [finish, settleMany_of_settled h.1.1.1 h.1.1.2 h.1.2, State.settleIdle_of_idle h.2]

/-- Nor is a frame ready. -/
theorem startIfFree_enterReset (cause : ResetCause) (im : Image) (s : State) :
    startIfFree (enterReset cause im s) = enterReset cause im s := startIfFree_of_settled (by rfl)

/-- The end of TRANSFER is taken in TRANSFER, and after an abort that found it in the same moment. -/
theorem endTransfer_of {s : State} {j : Job} (hj : s.engine.job = some j) (h : s.engine.phase = .transfer ∨ s.engine.cut = true)
    (trip : Option Nat) :
    endTransfer trip s = endMeasurement (transferOutcome j.meas trip).1 (transferOutcome j.meas trip).2
      { s with engine := { s.engine with count := (transferOutcome j.meas trip).2 } } := by
  simp [endTransfer, hj, h]

/-- Out of that moment it has no effect. -/
theorem endTransfer_of_not {s : State} (h : ¬(s.engine.phase = .transfer ∨ s.engine.cut = true)) (trip : Option Nat) :
    endTransfer trip s = s := by
  unfold endTransfer
  split <;> simp [h]

/-- What `expired` says. -/
theorem State.expired_iff (s : State) (start : Time) (span : Nat) : s.expired start span = true ↔ span ≤ (s.uptime - start).toNat := by
  rw [State.expired, State.elapsedSince, decide_eq_true_iff]

end Sys2Proof.Machine
end

