-- ==== Sys2Proof/Laws/Queue.lean ====
section
/-! SUPPORT. What the operations of the report queue keep, once: each leaves a sound queue sound. -/

namespace Sys2Proof.Machine

/-! ### Soundness, part by part -/

/-- The hold of each group in a list may stand without its SLIDER_MOVE entry; of every other group it stands beside one. -/
def ReportQueue.holdsBut (q : ReportQueue) (gs : List GroupId) : Prop :=
  ∀ g : GroupId, moveCount g q.entries ≤ 1 ∧ (g ∉ gs → q.holds[g] = none ∨ moveCount g q.entries = 1)

/-- What soundness says of everything but the holds, with the room that an append needs. -/
structure ReportQueue.Ordered (q : ReportQueue) : Prop where
  room : q.entries.length ≤ 32
  run : consecutiveFrom (q.nextSeq - BitVec.ofNat 16 q.entries.length) q.entries = true
  sent : sentFirst q.entries = true
  lostMax : q.lost ≤ 65535
  lostFull : q.lost = 0 ∨ q.entries.length = 32

theorem ReportQueue.sound_iff (q : ReportQueue) : q.sound = true ↔ q.Ordered ∧ q.holdsBut [] := by
  simp only [ReportQueue.sound, Bool.and_eq_true, decide_eq_true_eq, Bool.or_eq_true, List.all_eq_true,
    Option.isNone_iff_eq_none]
  constructor
  · rintro ⟨⟨⟨⟨⟨h1, h2⟩, h3⟩, h4⟩, h5⟩, h6⟩
    exact ⟨⟨h1, h2, h3, h5, h6⟩, fun g => ⟨(h4 g (List.mem_finRange g)).1, fun _ => (h4 g (List.mem_finRange g)).2⟩⟩
  · rintro ⟨⟨h1, h2, h3, h5, h6⟩, h⟩
    exact ⟨⟨⟨⟨⟨h1, h2⟩, h3⟩, fun g _ => ⟨(h g).1, (h g).2 (by simp)⟩⟩, h5⟩, h6⟩

/-! ### Lists of entries -/

theorem consecutiveFrom_append (a b : List ReportEntry) (n : Word) :
    consecutiveFrom n (a ++ b) = (consecutiveFrom n a && consecutiveFrom (n + BitVec.ofNat 16 a.length) b) := by
  induction a generalizing n with
  | nil => simp [consecutiveFrom]
  | cons e a ih =>
    have h : n + 1 + BitVec.ofNat 16 a.length = n + BitVec.ofNat 16 (a.length + 1) := by
      rw [BitVec.add_assoc]
      congr 1
      simp [BitVec.ofNat_add, BitVec.add_comm]
    simp only [List.cons_append, List.length_cons, consecutiveFrom, ih, h, Bool.and_assoc]

/-- Numbering depends on the sequence numbers alone. -/
theorem consecutiveFrom_congr {a b : List ReportEntry} (h : a.map (fun e => e.seq) = b.map fun e => e.seq) (n : Word) :
    consecutiveFrom n a = consecutiveFrom n b := by
  induction a generalizing b n with
  | nil => cases b <;> simp_all [consecutiveFrom]
  | cons e a ih =>
    cases b with
    | nil => simp at h
    | cons f b =>
      simp only [List.map_cons, List.cons.injEq] at h
      simp [consecutiveFrom, h.1, ih h.2]

/-- Marks depend on the marks alone. -/
theorem sentFirst_congr {a b : List ReportEntry} (h : a.map (fun e => e.sent) = b.map fun e => e.sent) :
    sentFirst a = sentFirst b := by
  induction a generalizing b with
  | nil => cases b <;> simp_all [sentFirst]
  | cons e a ih =>
    cases b with
    | nil => simp at h
    | cons f b =>
      simp only [List.map_cons, List.cons.injEq] at h
      have hall : (a.all fun n => !n.sent) = b.all fun n => !n.sent := by
        have := congrArg (List.all · (!·)) h.2
        simpa [List.all_map, Function.comp_def] using this
      simp [sentFirst, h.1, ih h.2, hall]

theorem sentFirst_append_unsent (l : List ReportEntry) (e : ReportEntry) (h : e.sent = false) :
    sentFirst (l ++ [e]) = sentFirst l := by
  induction l with
  | nil => simp [sentFirst]
  | cons f l ih => simp [sentFirst, ih, h]

theorem sentFirst_suffix {a b : List ReportEntry} (h : sentFirst (a ++ b) = true) : sentFirst b = true := by
  induction a with
  | nil => exact h
  | cons e a ih =>
    simp only [List.cons_append, sentFirst, Bool.and_eq_true] at h
    exact ih h.2

theorem moveCount_append (g : GroupId) (a b : List ReportEntry) : moveCount g (a ++ b) = moveCount g a + moveCount g b := by
  simp [moveCount, List.countP_append]

theorem hasMove_iff (g : GroupId) (es : List ReportEntry) : hasMove g es = true ↔ 0 < moveCount g es := by
  simp [hasMove, moveCount, List.countP_pos_iff]

theorem hasMove_false {g : GroupId} {es : List ReportEntry} (h : hasMove g es = false) : moveCount g es = 0 := by
  have := (hasMove_iff g es).not.1 (by simp [h])
  omega

/-- Coalescing changes neither numbers, nor marks, nor how many moves a group has. -/
theorem coalesceInto_keeps (g : GroupId) (p : Nat) (t : Time) (es : List ReportEntry) :
    (coalesceInto g p t es).map (fun e => e.seq) = es.map (fun e => e.seq) ∧
      (coalesceInto g p t es).map (fun e => e.sent) = es.map (fun e => e.sent) ∧
      ∀ h, moveCount h (coalesceInto g p t es) = moveCount h es := by
  induction es with
  | nil => simp [coalesceInto]
  | cons e es ih =>
    unfold coalesceInto
    split
    case isTrue ho =>
      refine ⟨by simp, by simp, fun h => ?_⟩
      have hm : e.report.isMoveOf g = true := by
        simp only [openMove, Bool.and_eq_true] at ho
        exact ho.1.1
      obtain ⟨q, hq⟩ : ∃ q, e.report = .sliderMove g q := by
        cases hr : e.report <;> simp_all [Report.isMoveOf]
      simp [moveCount, List.countP_cons, hq, Report.isMoveOf]
    case isFalse =>
      refine ⟨by simp [ih.1], by simp [ih.2.1], fun h => ?_⟩
      have := ih.2.2 h
      simp only [moveCount] at this ⊢
      simp [List.countP_cons, this]

theorem markOldest_keeps (es : List ReportEntry) :
    (markOldest es).map (fun e => e.seq) = es.map (fun e => e.seq) ∧ ∀ g, moveCount g (markOldest es) = moveCount g es := by
  induction es with
  | nil => simp [markOldest]
  | cons e es ih =>
    unfold markOldest
    split
    · refine ⟨by simp [ih.1], fun g => ?_⟩
      have := ih.2 g
      simp only [moveCount] at this ⊢
      simp [List.countP_cons, this]
    · simp [moveCount, List.countP_cons]

theorem sentFirst_markOldest {es : List ReportEntry} (h : sentFirst es = true) : sentFirst (markOldest es) = true := by
  induction es with
  | nil => rfl
  | cons e es ih =>
    simp only [sentFirst, Bool.and_eq_true] at h
    unfold markOldest
    split
    case isTrue hs => simp [sentFirst, hs, ih h.2]
    case isFalse => simp [sentFirst, h.2]

/-- What is left after an acknowledgement is the newer end, one or more entries shorter unless the queue was empty. -/
theorem dropThrough_suffix (n : Word) (es : List ReportEntry) :
    ∃ gone, es = gone ++ dropThrough n es ∧ (es ≠ [] → gone ≠ []) := by
  induction es with
  | nil => exact ⟨[], rfl, by simp⟩
  | cons e es ih =>
    unfold dropThrough
    split
    · exact ⟨[e], rfl, by simp⟩
    · obtain ⟨gone, hg, -⟩ := ih
      exact ⟨e :: gone, by rw [List.cons_append, ← hg], by simp⟩

/-! ### Appending and losing -/

/-- An append to a queue that has room keeps it ordered. -/
theorem ReportQueue.Ordered.append {q : ReportQueue} (h : q.Ordered) (hr : q.entries.length < 32) (hl : q.lost = 0)
    (rep : Report) (t : Time) : (q.append rep t).Ordered := by
  have hn : q.nextSeq + 1 - BitVec.ofNat 16 (q.entries.length + 1) = q.nextSeq - BitVec.ofNat 16 q.entries.length := by
    rw [BitVec.ofNat_add]
    bv_omega
  refine ⟨by simp [ReportQueue.append]; omega, ?_, ?_, by simp [ReportQueue.append, hl], by simp [ReportQueue.append, hl]⟩
  · have h2 := h.run
    simp only [ReportQueue.append, List.length_append, List.length_cons, List.length_nil, Nat.zero_add]
    rw [hn, consecutiveFrom_append, h2]
    simp [consecutiveFrom]
  · simp only [ReportQueue.append]
    rw [sentFirst_append_unsent _ _ rfl]
    exact h.sent

/-- A loss from a full queue keeps it ordered. -/
theorem ReportQueue.Ordered.lose {q : ReportQueue} (h : q.Ordered) (hf : ¬q.entries.length < 32) :
    ({ q with lost := satSucc 65535 q.lost } : ReportQueue).Ordered := by
  have h1 := h.room
  have h2 := h.lostMax
  refine ⟨h.room, h.run, h.sent, ?_, .inr (by show q.entries.length = 32; omega)⟩
  simp only [satSucc]
  split <;> omega

theorem ReportQueue.Ordered.appendOrLose {q : ReportQueue} (h : q.Ordered) (rep : Report) (t : Time) :
    (q.appendOrLose rep t).Ordered := by
  unfold ReportQueue.appendOrLose
  split
  case isTrue hr =>
    have hr : q.entries.length < 32 := hr
    exact h.append hr (by rcases h.lostFull with hl | hl <;> omega) rep t
  case isFalse hr => exact h.lose hr

theorem ReportQueue.Ordered.setHold {q : ReportQueue} (h : q.Ordered) (g : GroupId) (x : Option Hold) : (q.setHold g x).Ordered :=
  ⟨h.room, h.run, h.sent, h.lostMax, h.lostFull⟩

theorem ReportQueue.setHold_holds (q : ReportQueue) (g h : GroupId) (x : Option Hold) :
    (q.setHold g x).holds[h] = if g = h then x else q.holds[h] := by
  simp only [ReportQueue.setHold, vecSet, Fin.getElem_fin, Vector.getElem_set]
  split <;> split <;> simp_all [Fin.ext_iff]

/-- How many moves a group has after an append or a loss. -/
theorem ReportQueue.appendOrLose_moves (q : ReportQueue) (rep : Report) (t : Time) (g : GroupId) :
    moveCount g q.entries ≤ moveCount g (q.appendOrLose rep t).entries ∧
      (rep.isMoveOf g = false → moveCount g (q.appendOrLose rep t).entries = moveCount g q.entries) ∧
      moveCount g (q.appendOrLose rep t).entries ≤ moveCount g q.entries + 1 := by
  simp only [ReportQueue.appendOrLose]
  split
  · simp only [ReportQueue.append, moveCount_append]
    cases hm : rep.isMoveOf g <;> simp [moveCount, hm]
  · simp

theorem ReportQueue.appendOrLose_holds (q : ReportQueue) (rep : Report) (t : Time) : (q.appendOrLose rep t).holds = q.holds := by
  simp only [ReportQueue.appendOrLose]
  split <;> rfl

/-- A report that is no move, or a move of a group that has none and no hold, keeps the holds beside their entries. -/
theorem ReportQueue.holdsBut.appendOrLose {q : ReportQueue} {gs : List GroupId} (h : q.holdsBut gs) (rep : Report) (t : Time)
    (hm : ∀ g, rep.isMoveOf g = true → moveCount g q.entries = 0 ∧ q.holds[g] = none) : (q.appendOrLose rep t).holdsBut gs := by
  intro g
  obtain ⟨h1, h2⟩ := h g
  obtain ⟨m1, m2, m3⟩ := q.appendOrLose_moves rep t g
  rw [q.appendOrLose_holds rep t]
  cases hr : rep.isMoveOf g with
  | false => rw [m2 hr]; exact ⟨h1, h2⟩
  | true =>
    obtain ⟨c0, hn⟩ := hm g hr
    exact ⟨by omega, fun _ => .inl hn⟩

/-! ### The operations -/

/-- An offered report keeps the queue sound (R100, R104 to R106, R108, R109). -/
theorem ReportQueue.offer_sound {q : ReportQueue} (h : q.sound = true) (rep : Report) (t : Time) : (q.offer rep t).sound = true := by
  obtain ⟨ho, hh⟩ := (ReportQueue.sound_iff q).1 h
  have plain : ∀ r : Report, (∀ g, r.isMoveOf g = false) → (q.appendOrLose r t).sound = true := fun r hr =>
    (ReportQueue.sound_iff _).2 ⟨ho.appendOrLose r t, hh.appendOrLose r t (by simp [hr])⟩
  unfold ReportQueue.offer
  split
  case h_1 g p =>
    refine (ReportQueue.sound_iff _).2 ⟨(ho.setHold g none).appendOrLose _ t, ReportQueue.holdsBut.appendOrLose ?_ _ t (by simp [Report.isMoveOf])⟩
    intro k
    refine ⟨(hh k).1, fun _ => ?_⟩
    rw [ReportQueue.setHold_holds]
    split
    · exact .inl rfl
    · exact (hh k).2 (by simp)
  case h_2 g p =>
    have held : moveCount g q.entries = 1 → ∀ x : Option Hold, (q.setHold g x).sound = true := by
      intro hc x
      refine (ReportQueue.sound_iff _).2 ⟨ho.setHold g x, fun k => ⟨(hh k).1, fun _ => ?_⟩⟩
      rw [ReportQueue.setHold_holds]
      split
      case isTrue hk => subst hk; exact .inr hc
      case isFalse => exact (hh k).2 (by simp)
    unfold ReportQueue.offerMove
    split
    case isTrue hs =>
      exact held ((hh g).2 (by simp) |>.resolve_left (by intro hn; simp [hn] at hs)) _
    case isFalse hs =>
      split
      · obtain ⟨k1, k2, k3⟩ := coalesceInto_keeps g p t q.entries
        have hlen : (coalesceInto g p t q.entries).length = q.entries.length := by simpa using congrArg List.length k1
        refine (ReportQueue.sound_iff _).2 ⟨⟨?_, ?_, ?_, ho.lostMax, ?_⟩, fun k => ?_⟩
        · simpa [hlen] using ho.room
        · simpa [hlen, consecutiveFrom_congr k1] using ho.run
        · simpa [sentFirst_congr k2] using ho.sent
        · simpa [hlen] using ho.lostFull
        · simpa [k3] using hh k
      · split
        case isTrue hm =>
          exact held (by have := (hasMove_iff g q.entries).1 hm; have := (hh g).1; omega) _
        case isFalse hm =>
          refine (ReportQueue.sound_iff _).2 ⟨ho.appendOrLose _ t, hh.appendOrLose _ t fun k hk => ?_⟩
          have : g = k := by simpa [Report.isMoveOf] using hk
          subst this
          exact ⟨hasMove_false (by simpa using hm), by simpa using hs⟩
  case h_3 r h1 h2 =>
    exact plain _ fun g => by cases rep <;> first | rfl | exact absurd rfl (h2 _ _)

/-- Marking the oldest UNSENT entry SENT keeps the queue sound. -/
theorem ReportQueue.markSent_sound {q : ReportQueue} (h : q.sound = true) : q.markSent.sound = true := by
  obtain ⟨ho, hh⟩ := (ReportQueue.sound_iff q).1 h
  obtain ⟨k1, k2⟩ := markOldest_keeps q.entries
  have hlen : (markOldest q.entries).length = q.entries.length := by simpa using congrArg List.length k1
  refine (ReportQueue.sound_iff _).2 ⟨⟨?_, ?_, sentFirst_markOldest ho.sent, ho.lostMax, ?_⟩, fun g => ?_⟩
  · simpa [ReportQueue.markSent, hlen] using ho.room
  · simpa [ReportQueue.markSent, hlen, consecutiveFrom_congr k1] using ho.run
  · simpa [ReportQueue.markSent, hlen] using ho.lostFull
  · simpa [ReportQueue.markSent, k2] using hh g

/-- A rewind keeps the queue sound. -/
theorem ReportQueue.rewind_sound {q : ReportQueue} (h : q.sound = true) : q.rewind.sound = true := by
  obtain ⟨ho, hh⟩ := (ReportQueue.sound_iff q).1 h
  have k1 : (q.entries.map fun e => { e with sent := false }).map (fun e => e.seq) = q.entries.map fun e => e.seq := by simp
  have k2 : ∀ g, moveCount g (q.entries.map fun e => { e with sent := false }) = moveCount g q.entries := by
    intro g
    simp [moveCount, List.countP_map, Function.comp_def]
  have k3 : ∀ es : List ReportEntry, sentFirst (es.map fun e => { e with sent := false }) = true := by
    intro es
    induction es with
    | nil => rfl
    | cons e es ih => simp [sentFirst, ih]
  refine (ReportQueue.sound_iff _).2 ⟨⟨?_, ?_, k3 _, ho.lostMax, ?_⟩, fun g => ?_⟩
  · simpa [ReportQueue.rewind] using ho.room
  · simpa [ReportQueue.rewind, consecutiveFrom_congr k1] using ho.run
  · simpa [ReportQueue.rewind] using ho.lostFull
  · simpa [ReportQueue.rewind, k2] using hh g

/-- A flushed queue is sound. -/
theorem ReportQueue.flush_sound (q : ReportQueue) : q.flush.sound = true := by
  refine (ReportQueue.sound_iff _).2 ⟨⟨by simp [ReportQueue.flush], rfl, rfl, by simp [ReportQueue.flush], .inl rfl⟩, fun g => ?_⟩
  refine ⟨by simp [ReportQueue.flush, moveCount], fun _ => .inl ?_⟩
  fin_cases g <;> rfl

/-- A hold released, or left beside its entry, keeps the queue ordered, and its group's hold then stands beside an entry. -/
theorem ReportQueue.releaseHold_keeps {q : ReportQueue} {g : GroupId} {gs : List GroupId} (ho : q.Ordered)
    (hh : q.holdsBut (g :: gs)) : (q.releaseHold g).Ordered ∧ (q.releaseHold g).holdsBut gs := by
  have other : ∀ k : GroupId, k ≠ g → k ∉ gs → k ∉ g :: gs := by simp_all
  unfold ReportQueue.releaseHold
  split
  case h_1 hn =>
    refine ⟨ho, fun k => ⟨(hh k).1, fun hk => ?_⟩⟩
    by_cases e : k = g
    · subst e; exact .inl hn
    · exact (hh k).2 (other k e hk)
  case h_2 x hx =>
    split
    case isTrue hm =>
      refine ⟨ho, fun k => ⟨(hh k).1, fun hk => ?_⟩⟩
      by_cases e : k = g
      · subst e
        have := (hasMove_iff k q.entries).1 hm
        have := (hh k).1
        exact .inr (by omega)
      · exact (hh k).2 (other k e hk)
    case isFalse hm =>
      refine ⟨(ho.setHold g none).appendOrLose _ _, ReportQueue.holdsBut.appendOrLose ?_ _ _ fun k hk => ?_⟩
      · intro k
        refine ⟨(hh k).1, fun hk => ?_⟩
        rw [ReportQueue.setHold_holds]
        split
        · exact .inl rfl
        case isFalse e => exact (hh k).2 (other k (fun h => e h.symm) hk)
      · have : g = k := by simpa [Report.isMoveOf] using hk
        subst this
        have hm : hasMove g q.entries = false := by simpa using hm
        exact ⟨hasMove_false hm, by rw [ReportQueue.setHold_holds]; simp⟩

theorem ReportQueue.releaseHolds_keep (gs : List GroupId) {q : ReportQueue} (ho : q.Ordered) (hh : q.holdsBut gs) :
    (gs.foldl ReportQueue.releaseHold q).Ordered ∧ (gs.foldl ReportQueue.releaseHold q).holdsBut [] := by
  induction gs generalizing q with
  | nil => exact ⟨ho, hh⟩
  | cons g gs ih =>
    obtain ⟨h1, h2⟩ := ReportQueue.releaseHold_keeps ho hh
    exact ih h1 h2

/-- A removal by acknowledgement keeps the queue sound (R111). -/
theorem ReportQueue.remove_sound {q : ReportQueue} (h : q.sound = true) (n : Word) (now : Time) : (q.remove n now).sound = true := by
  obtain ⟨ho, hh⟩ := (ReportQueue.sound_iff q).1 h
  obtain ⟨gone, hg, hne⟩ := dropThrough_suffix n q.entries
  generalize hd : dropThrough n q.entries = left at hg
  have hlen : q.entries.length = gone.length + left.length := by rw [hg]; simp
  have hrun : consecutiveFrom (q.nextSeq - BitVec.ofNat 16 left.length) left = true := by
    have h1 := ho.run
    rw [hlen, hg, consecutiveFrom_append, Bool.and_eq_true] at h1
    have e : q.nextSeq - BitVec.ofNat 16 (gone.length + left.length) + BitVec.ofNat 16 gone.length =
        q.nextSeq - BitVec.ofNat 16 left.length := by
      rw [BitVec.ofNat_add]
      bv_omega
    rw [e] at h1
    exact h1.2
  have hsent : sentFirst left = true := sentFirst_suffix (a := gone) (by rw [← hg]; exact ho.sent)
  have hmove : ∀ g, moveCount g left ≤ 1 := by
    intro g
    have h1 := (hh g).1
    rw [hg, moveCount_append] at h1
    omega
  have hroom := ho.room
  have hshort : left.length < 32 := by
    by_cases he : q.entries = []
    · have : left.length = 0 := by simp [he] at hlen; omega
      omega
    · have := List.length_pos_of_ne_nil (hne he)
      omega
  have base : ∀ r : ReportQueue, r.entries = left → r.nextSeq = q.nextSeq → r.lost = 0 → r.Ordered := by
    intro r h1 h2 h3
    exact ⟨by rw [h1]; omega, by rw [h1, h2]; exact hrun, by rw [h1]; exact hsent, by omega, .inl h3⟩
  have key : (({ q with entries := left } : ReportQueue).announceLost now).Ordered ∧
      (({ q with entries := left } : ReportQueue).announceLost now).holdsBut allGroups := by
    have all : ∀ g : GroupId, g ∈ allGroups := List.mem_finRange
    unfold ReportQueue.announceLost
    split
    case isTrue hl => exact ⟨base _ rfl rfl hl, fun g => ⟨hmove g, fun hn => absurd (all g) hn⟩⟩
    case isFalse =>
      refine ⟨(base { q with entries := left, lost := 0 } rfl rfl rfl).append hshort rfl _ now, fun g => ⟨?_, fun hn => absurd (all g) hn⟩⟩
      show moveCount g (left ++ _) ≤ 1
      rw [moveCount_append]
      have := hmove g
      simpa [moveCount, Report.isMoveOf] using this
  unfold ReportQueue.remove
  rw [hd]
  exact (ReportQueue.sound_iff _).2 (ReportQueue.releaseHolds_keep allGroups key.1 key.2)

end Sys2Proof.Machine
end

