-- ==== Sys2Proof/Laws/Tracker.lean ====
section
/-! SUPPORT. What tracking can change, once: every result and every effect from outside changes the runtime records, the groups,
the report queue and an ATTN pulse, and nothing else. -/

namespace Sys2Proof.Machine

/-- The second state differs from the first in its runtime records, its groups, its report queue and its ATTN pulse alone. -/
def State.Tracks (s t : State) : Prop :=
  t = { s with track := t.track, groups := t.groups, queue := t.queue, attnPulse := t.attnPulse }

theorem State.Tracks.refl (s : State) : s.Tracks s := rfl

theorem State.Tracks.trans {s t u : State} (h : s.Tracks t) (k : t.Tracks u) : s.Tracks u := by
  unfold State.Tracks at *
  rw [k, h]

/-- What a change of the runtime records and the like leaves: every other field. -/
theorem State.Tracks.fields {s t : State} (h : s.Tracks t) :
    t.phase = s.phase ∧ t.resetCause = s.resetCause ∧ t.uptime = s.uptime ∧ t.pins = s.pins ∧ t.engine = s.engine ∧
      t.claims = s.claims ∧ t.table = s.table ∧ t.seq = s.seq ∧ t.rx = s.rx ∧ t.counters = s.counters ∧ t.tx = s.tx ∧
      t.delivery = s.delivery ∧ t.linkCfg = s.linkCfg ∧ t.handler = s.handler ∧ t.outputs = s.outputs ∧ t.doze = s.doze ∧
      t.store = s.store ∧ t.free = s.free ∧ t.pending = s.pending := by
  unfold State.Tracks at h
  rw [h]
  exact ⟨rfl, rfl, rfl, rfl, rfl, rfl, rfl, rfl, rfl, rfl, rfl, rfl, rfl, rfl, rfl, rfl, rfl, rfl, rfl⟩

/-- A choice between two such changes. -/
theorem State.Tracks.ite {s t u : State} {c : Prop} [Decidable c] (h : s.Tracks t) (k : s.Tracks u) :
    s.Tracks (if c then t else u) := by split <;> assumption

theorem State.Tracks.foldl {α : Type} {f : State → α → State} (h : ∀ (s : State) (a : α), s.Tracks (f s a)) (l : List α) (s : State) :
    s.Tracks (l.foldl f s) := by
  induction l generalizing s with
  | nil => exact .refl s
  | cons a l ih => exact (h s a).trans (ih _)

/-! ### The single changes -/

theorem setRt_tracks (k : KeyId) (r : KeyRuntime) (s : State) : s.Tracks (s.setRt k r) := rfl

theorem modRt_tracks (k : KeyId) (f : KeyRuntime → KeyRuntime) (s : State) : s.Tracks (s.modRt k f) := rfl

theorem setRef_tracks (r : RefRuntime) (s : State) : s.Tracks (s.setRef r) := rfl

theorem setGroup_tracks (g : GroupId) (x : Group) (s : State) : s.Tracks (s.setGroup g x) := rfl

theorem offer_tracks (rep : Report) (s : State) : s.Tracks (offer rep s) := rfl

theorem clearHolder_tracks (k : KeyId) (s : State) : s.Tracks (clearHolder k s) := rfl

/-! ### Touches and groups -/

theorem beginTouch_tracks (k : KeyId) (s : State) : s.Tracks (beginTouch k s) := by
  unfold beginTouch
  exact .ite ((modRt_tracks ..).trans ((offer_tracks ..).trans (modRt_tracks ..))) ((modRt_tracks ..).trans (modRt_tracks ..))

theorem endTouch_tracks (k : KeyId) (cause : UpCause) (s : State) : s.Tracks (endTouch k cause s) := by
  unfold endTouch
  exact (State.Tracks.ite ((offer_tracks ..).trans (modRt_tracks ..)) (.refl s)).trans (clearHolder_tracks ..)

theorem endIfTouching_tracks (k : KeyId) (cause : UpCause) (s : State) : s.Tracks (endIfTouching k cause s) :=
  .ite (endTouch_tracks k cause s) (.refl s)

theorem placeHeld_tracks (k : KeyId) (s : State) : s.Tracks (placeHeld k s) := rfl

theorem setHolder_tracks (g : GroupId) (k : KeyId) (s : State) : s.Tracks (setHolder g k s) := rfl

theorem claimTouch_tracks (k : KeyId) (s : State) : s.Tracks (claimTouch k s) := by
  unfold claimTouch
  split
  · unfold decideExclusive
    split
    · exact (setHolder_tracks ..).trans (beginTouch_tracks ..)
    · exact .ite ((endTouch_tracks ..).trans ((placeHeld_tracks ..).trans ((setHolder_tracks ..).trans (beginTouch_tracks ..))))
        (placeHeld_tracks ..)
  · exact beginTouch_tracks k s

theorem evaluateFull_tracks (g : GroupId) (s : State) : s.Tracks (evaluateFull g s) := by
  unfold evaluateFull
  dsimp only
  exact .ite (.ite (.ite ((offer_tracks ..).trans (setGroup_tracks ..)) (.refl s)) ((offer_tracks ..).trans (setGroup_tracks ..)))
    (.ite ((offer_tracks ..).trans (setGroup_tracks ..)) (.refl s))

theorem evaluateTouchOnly_tracks (s : State) (g : GroupId) : s.Tracks (evaluateTouchOnly s g) :=
  .ite ((offer_tracks ..).trans (setGroup_tracks ..)) (.refl s)

theorem evaluateAll_tracks (s : State) : s.Tracks (evaluateAll s) := .foldl evaluateTouchOnly_tracks _ s

/-! ### Results -/

theorem faultResult_tracks (k : KeyId) (o : MeasureOutcome) (c : Nat) (s : State) : s.Tracks (faultResult k o c s) := by
  unfold faultResult enterFaulted
  exact .ite ((modRt_tracks ..).trans ((endIfTouching_tracks ..).trans ((modRt_tracks ..).trans
    ((clearHolder_tracks ..).trans (offer_tracks ..))))) (modRt_tracks ..)

theorem sampleFaulted_tracks (k : KeyId) (s : State) : s.Tracks (sampleFaulted k s) := by
  unfold sampleFaulted
  exact .ite ((modRt_tracks ..).trans ((offer_tracks ..).trans (modRt_tracks ..))) (modRt_tracks ..)

theorem trackReleased_tracks (k : KeyId) (s : State) : s.Tracks (trackReleased k s) := by
  unfold trackReleased
  exact .ite (.ite ((modRt_tracks ..).trans (offer_tracks ..)) (modRt_tracks ..)) (modRt_tracks ..)

theorem releaseKey_tracks (k : KeyId) (s : State) : s.Tracks (releaseKey k s) := (endTouch_tracks ..).trans (modRt_tracks ..)

theorem sampleReleased_tracks (k : KeyId) (s : State) : s.Tracks (sampleReleased k s) := by
  unfold sampleReleased
  exact .ite (.ite ((modRt_tracks ..).trans (claimTouch_tracks ..)) (modRt_tracks ..)) (trackReleased_tracks k s)

theorem samplePressing_tracks (k : KeyId) (s : State) : s.Tracks (samplePressing k s) := by
  unfold samplePressing
  exact .ite (.ite ((modRt_tracks ..).trans (claimTouch_tracks ..)) (modRt_tracks ..)) (modRt_tracks ..)

theorem sampleHeld_tracks (k : KeyId) (s : State) : s.Tracks (sampleHeld k s) := .ite (claimTouch_tracks k s) (modRt_tracks ..)

theorem sampleTouched_tracks (k : KeyId) (s : State) : s.Tracks (sampleTouched k s) := by
  unfold sampleTouched
  exact .ite (.refl s) (.ite ((modRt_tracks ..).trans (releaseKey_tracks ..)) (modRt_tracks ..))

theorem sampleLifting_tracks (k : KeyId) (s : State) : s.Tracks (sampleLifting k s) := by
  unfold sampleLifting
  exact .ite (modRt_tracks ..) (.ite ((modRt_tracks ..).trans (releaseKey_tracks ..)) (modRt_tracks ..))

theorem sampleByState_tracks (k : KeyId) (c : Nat) (s : State) : s.Tracks (sampleByState k c s) := by
  have p := modRt_tracks k (fun r => { r with window := pushCount (s.keyCfg k).filterDepth c r.window }) s
  unfold sampleByState
  split
  · exact sampleFaulted_tracks k s
  · exact modRt_tracks ..
  · exact p.trans (sampleReleased_tracks ..)
  · exact p.trans (samplePressing_tracks ..)
  · exact p.trans (sampleHeld_tracks ..)
  · exact p.trans (sampleTouched_tracks ..)
  · exact p.trans (sampleLifting_tracks ..)
  · exact .refl s

theorem outcomeAndState_tracks (k : KeyId) (o : MeasureOutcome) (c : Nat) (s : State) : s.Tracks (outcomeAndState k o c s) := by
  unfold outcomeAndState
  split
  · exact (modRt_tracks ..).trans (sampleByState_tracks ..)
  · exact faultResult_tracks ..

theorem maxOnCheck_tracks (k : KeyId) (s : State) : s.Tracks (maxOnCheck k s) := by
  unfold maxOnCheck stickKey
  exact .ite ((endTouch_tracks ..).trans ((offer_tracks ..).trans (modRt_tracks ..))) (.refl s)

theorem sliderCheck_tracks (k : KeyId) (s : State) : s.Tracks (sliderCheck k s) := by
  unfold sliderCheck
  split
  · exact evaluateFull_tracks ..
  · exact .refl s

theorem keyResult_tracks (k : KeyId) (v : Word) (o : MeasureOutcome) (c : Nat) (s : State) : s.Tracks (keyResult k v o c s) := by
  unfold keyResult processKey
  exact .ite (.refl s) ((outcomeAndState_tracks ..).trans ((maxOnCheck_tracks ..).trans (sliderCheck_tracks ..)))

theorem refResult_tracks (v : Word) (o : MeasureOutcome) (c : Nat) (s : State) : s.Tracks (refResult v o c s) := by
  unfold refResult
  refine .ite (.refl s) ?_
  split <;> exact .ite ((setRef_tracks ..).trans (offer_tracks ..)) (setRef_tracks ..)

/-- A plan result changes the runtime records, the groups, the report queue and an ATTN pulse alone. -/
theorem trackResult_tracks (subject : PlanEntry) (v : Word) (o : MeasureOutcome) (c : Nat) (s : State) :
    s.Tracks (trackResult subject v o c s) := by
  unfold trackResult
  split
  · exact keyResult_tracks ..
  · exact refResult_tracks ..

/-! ### Effects from outside -/

theorem refPlanChange_tracks (es : List PlanEntry) (s : State) : s.Tracks (refPlanChange es s) := .ite (.refl s) (setRef_tracks ..)

theorem reconfigure_tracks (k : KeyId) (s : State) : s.Tracks (reconfigure k s) :=
  (endIfTouching_tracks ..).trans ((setRt_tracks ..).trans (clearHolder_tracks ..))

theorem quiesce_tracks (cause : UpCause) (s : State) (k : KeyId) : s.Tracks (quiesce cause s k) := by
  unfold quiesce
  split
  · exact .refl s
  · exact modRt_tracks ..
  · exact modRt_tracks ..
  · exact (endIfTouching_tracks ..).trans ((modRt_tracks ..).trans (clearHolder_tracks ..))

theorem hostRecal_tracks (s : State) (k : KeyId) : s.Tracks (hostRecal s k) := by
  unfold hostRecal
  exact .ite (.refl s) ((endIfTouching_tracks ..).trans ((setRt_tracks ..).trans ((clearHolder_tracks ..).trans (offer_tracks ..))))

theorem startEffect_tracks (s : State) : s.Tracks (startEffect s) := rfl

end Sys2Proof.Machine
end

