-- ==== Sys2Proof/Machine/Timing.lean ====
section
/-! DEFINITION. The durations of what ends by a command of its own (log entry 4): engine phases, bytes and frames, save phases,
the oscillator's start, the receiver's gap, the ATTN pulse. No step waits for one. -/

namespace Sys2Proof.Machine

/-- The frequency of a modulation clock in Hz (R4, Table 1-2). -/
def Clock.hertz : Clock → Nat
  | .f2 => 4000000 | .f4 => 2000000 | .f8 => 1000000 | .f16 => 500000 | .f32 => 250000 | .s1 => 32768 | .s4 => 8192

/-- The length of a TRANSFER that ends at a count, in ns, rounded down (Table 1-2 note 1). -/
def transferNanos (m : MeasureParams) (count : Nat) : Nat := count * 1000000000 / m.clock.hertz

/-- DISCHARGE awake, in µs (R6). -/
def dischargeMicros : Nat := 8

/-- CHARGE awake, in µs (R7). -/
def chargeMicros (m : MeasureParams) : Nat := 4 * m.charge

/-- CHARGE timed from the slow oscillator, in slow periods: the smallest whole number whose total is at least the charge time
(R12). -/
def chargeSlowPeriods (m : MeasureParams) : Nat := (4 * m.charge * 32768 + 999999) / 1000000

/-- A byte on the line is 10 bit times (R116); the rates in bits per second (Table 7-1). -/
def Baud.rate : Baud → Nat
  | .b19200 => 19200 | .b57600 => 57600 | .b115200 => 115200 | .b230400 => 230400

/-- The length of a byte in ns, rounded down (Table 7-1). -/
def Baud.byteNanos (b : Baud) : Nat := 10 * 1000000000 / b.rate

/-- A partial frame is discarded after more than this many ms without a byte (R119). -/
def gapMillis : Nat := 10

/-- The length of a save phase in ms (R172, R173). -/
def SaveState.millis : SaveState → Nat
  | .idle => 0 | .erasing => 24 | .programming => 16 | .verifying => 2 | .committing => 1

/-- The start of the fast oscillator at a wake, in ms (R167). -/
def oscillatorStartMillis : Nat := 2

/-- The length of an ATTN pulse in µs (R156). -/
def attnPulseMicros : Nat := 20

end Sys2Proof.Machine
end

