-- ==== Sys2Proof/Tests/Slice0.lean ====
section
/-! SUPPORT. Tests against the worked examples of spec/, the refusals of well-formedness, and a witness for the hypotheses of each
statement of Certificates/Slice0/Obligations.lean. -/

namespace Sys2Proof.Tests

open Sys2Proof Sys2Proof.Machine

set_option Elab.async false

/-! ### Well-formedness: ill-formed terms refused -/

theorem test_wf_payload_too_long : (Instr.setKey 0 (List.replicate 248 0)).wellFormed = false := by decide +kernel

theorem test_wf_payload_longest : (Instr.setKey 0 (List.replicate 247 0)).wellFormed = true := by decide +kernel

theorem test_wf_unknown_code_known : (Instr.unknownRequest 0 0x10 []).wellFormed = false := by decide +kernel

theorem test_wf_flow_flags : (Instr.flowFrame 4 0 0).wellFormed = false := by decide +kernel

theorem test_wf_frame_too_short : (Instr.frameDiscard [2, 0] 0).wellFormed = false := by decide +kernel

theorem test_wf_frame_too_long : (Instr.frameDiscard (List.replicate 251 2) 0).wellFormed = false := by decide +kernel

theorem test_wf_frame_good : (Instr.frameDiscard [1, 0, 0] (bodyCrc [1, 0, 0])).wellFormed = false := by decide +kernel

theorem test_wf_trip : (Instr.transferEnd (some 4096)).wellFormed = false := by decide +kernel

theorem test_wf_accepts : (Instr.frameDiscard [2, 0, 0] (bodyCrc [2, 0, 0])).wellFormed = true ∧
    (Instr.unknownRequest 0 0x99 []).wellFormed = true ∧ (Instr.flowFrame 3 0 0).wellFormed = true ∧
    (Instr.transferEnd (some 4095)).wellFormed = true := by decide +kernel

/-- The table gives no row any bits. -/
theorem test_decode_spells_none : decodeTableWord 8 0x01 = none := by decide

/-! ### States for the tests -/

/-- The part running, STOPPED, with the factory defaults and an empty queue. -/
def up : State := { State.reset with phase := .running }

/-- The measurement of a plan entry. -/
def planJob (subject : PlanEntry) : Job :=
  { owner := .plan 0 subject 0, target := .pads 1, meas := .default, slowTimed := false }

/-- The engine in a phase of that measurement. -/
def measuring (phase : EnginePhase) : Engine :=
  { phase := phase, job := some (planJob (.key 0)), abort := false, cut := false, lastOwner := .plan, count := 0 }

/-- SCANNING a plan of key 0 and REF, key 0 in flight. -/
def scanning : State :=
  { up with
    seq := { up.seq with runState := .scanning, timerOn := true, plan := { period := 20, entries := [.key 0, .ref] } }
    engine := measuring .discharge }

/-- CYCLE_WAIT after that plan, 20 ms after the cycle start. -/
def waiting : State := { scanning with engine := .afterReset, uptime := 20, seq := { scanning.seq with runState := .cycleWait, position := 2 } }

/-- Doze settings with an idle time of 1 s. -/
def idling : State := { up with doze := { up.doze with settings := { DozeSettings.default with idleTime := 1 } } }

/-- A running part in a doze state, its interval timer last expired at uptime 0. -/
def dozingIn (d : DozeState) : State :=
  { up with
    doze := { up.doze with state := d, interval := some 0, cause := some .touch }, uptime := 100
    seq := { up.seq with runState := .dozing }, rx := { state := .disabled, len := 0, bytes := [] } }

/-- A report entry. -/
def entry (seq : Word) (report : Report) (sent : Bool) : ReportEntry := { seq := seq, report := report, time := 0, sent := sent }

/-- The running part with a report queue, the transmitter busy with a response. -/
def queued (es : List ReportEntry) (next : Word) : State :=
  { up with
    queue := { up.queue with entries := es, nextSeq := next }
    tx := { up.tx with sending := some { frame := .response (responseTo 1 0x01 .ok []), rate := .b115200 } } }

/-- The running part with a key enabled, in a state, with a window and a baseline. -/
def withKey (k : KeyId) (r : KeyRecord) (x : KeyRuntime) (s : State) : State :=
  { s with
    table := { s.table with keys := vecSet s.table.keys k { r with enabled := true } }
    track := { s.track with keys := vecSet s.track.keys k x } }

/-- A runtime record in a state. -/
def inState (st : KeyState) (window : List Nat) (baseline : Nat) : KeyRuntime :=
  { KeyRuntime.afterReset true with state := st, window := window, baseline := some baseline }

/-- A staged save to slot B. -/
def staged : Staged := { image := .factory, target := .b, generation := 13 }

/-- The running part in a save phase. -/
def saving (p : SaveState) : State := { up with store := { up.store with save := p, staged := some staged } }

/-- What a programmed slot holds. -/
def good (generation : Nat) : Written :=
  { generation := generation, image := .factory, checksum := slotChecksum generation .factory, mark := true }

/-- A VALID slot. -/
def validSlot (generation : Nat) : Slot := { state := .valid, cells := .written (good generation) }

/-- A VALID slot whose checksum fails. -/
def badSlot (generation : Nat) : Slot :=
  { state := .valid, cells := .written { good generation with checksum := slotChecksum generation .factory + 1 } }

/-- The running part with two slots. -/
def slots (a b : Slot) : State := { up with store := { up.store with slotA := a, slotB := b } }

/-- The next state of an outcome. -/
def after : Host.Outcome State Fault Refusal → Option State
  | .next t => some t
  | _ => none

/-! ### Worked examples of spec/ -/

/-- Section 7.2: the check value of the CRC. -/
theorem test_crc_check_value : crc16 [0x31, 0x32, 0x33, 0x34, 0x35, 0x36, 0x37, 0x38, 0x39] = 0x29B1 := by decide +kernel

/-- Section 5.7: positions of the swipe. -/
theorem test_slider_positions :
    sliderPosition [80, 20, 0, 0] = 12 ∧ sliderPosition [50, 90, 0, 0] = 41 ∧ sliderPosition [5, 90, 10, 0] = 67 ∧
      sliderPosition [0, 10, 60, 0] = 118 ∧ sliderPosition [0, 10, 60, 90] = 166 ∧ sliderPosition [0, 0, 5, 90] = 188 := by
  decide +kernel

/-- The record of section 4.11. -/
def record411 : KeyRecord :=
  { KeyRecord.default 2 with filterDepth := 2, calSamples := 4, debounceIn := 2, debounceOut := 2, driftInterval := 3 }

/-- Section 4.11, sample 7: the baseline moves from 900 to 901. -/
theorem test_drift_step :
    let s := withKey 2 record411 { inState .released [903, 905] 900 with driftCount := 2 } up
    let t := outcomeAndState 2 .valid 904 s
    (t.rt 2).baseline = some 901 ∧ (t.rt 2).delta = 3 ∧ (t.rt 2).driftCount = 0 := by decide +kernel

/-- Section 4.11, sample 10: debounce completes and KEY_DOWN carries 110. -/
theorem test_key_down :
    let s := withKey 2 record411 { inState .pressing [960, 1010] 901 with debounce := 1 } up
    let t := outcomeAndState 2 .valid 1012 s
    (t.rt 2).state = .touched ∧ (t.rt 2).downReported = true ∧ (t.queue.entries.map fun e => e.report) = [.keyDown 2 110] := by
  decide +kernel

/-- Section 4.11, sample 14: debounce completes and KEY_UP carries LIFTED. -/
theorem test_key_up :
    let s := withKey 2 record411 { inState .lifting [940, 905] 901 with debounce := 1, downReported := true } up
    let t := outcomeAndState 2 .valid 903 s
    (t.rt 2).state = .released ∧ (t.queue.entries.map fun e => e.report) = [.keyUp 2 .lifted] := by decide +kernel

/-- Section 4.11, sample 4: calibration completes at 900. -/
theorem test_calibration :
    let s := withKey 2 record411 { KeyRuntime.afterReset true with calSum := 2700, calCount := 3 } up
    let t := outcomeAndState 2 .valid 901 s
    (t.rt 2).baseline = some 900 ∧ (t.rt 2).state = .released ∧ (t.rt 2).window = [] := by decide +kernel

/-- Section 5.6: group 0 with margin 40, key 10 holding with delta 80 and key 11 HELD with delta 120. -/
def set56 : State :=
  let s := withKey 10 (KeyRecord.default 10) { inState .touched [980] 900 with downReported := true } up
  { withKey 11 (KeyRecord.default 11) (inState .held [1020] 900) s with
    groups := vecSet s.groups 0
      { config := { kind := .exclusive, param := 40, members := [10, 11, 12] }, holder := some 10, touched := false, lastPos := 0 } }

/-- Section 5.6, cycle 4: 120 is exactly 80 plus 40, and the touch is handed over. -/
theorem test_handover :
    let t := claimTouch 11 set56
    (t.rt 10).state = .held ∧ (t.rt 11).state = .touched ∧ t.groups[0].holder = some 11 ∧
      (t.queue.entries.map fun e => e.report) = [.keyUp 10 .suppressed, .keyDown 11 120] := by decide +kernel

/-- The queue of section 6.10 cut to its ends: 200 and 201 SENT at the oldest end, three reports lost. -/
def queue610 : ReportQueue :=
  { ReportQueue.afterReset with
    entries := [entry 200 .refRecovered true, entry 201 .refRecovered true, entry 202 .refRecovered true], nextSeq := 232, lost := 3 }

/-- Section 6.10: the ack of 201 removes two entries, and REPORTS_LOST(3) is appended as 232. -/
theorem test_loss_announced :
    let q := queue610.remove 201 5450
    (q.entries.map fun e => e.seq) = [202, 232] ∧ (q.entries.map fun e => e.report) = [.refRecovered, .reportsLost 3] ∧
      q.lost = 0 ∧ q.nextSeq = 233 := by decide +kernel

/-- Section 6.11: a move offered behind a SENT move of its group is held, and appended with its own time when that one leaves. -/
theorem test_move_held :
    let q : ReportQueue := { ReportQueue.afterReset with
      entries := [entry 40 (.sliderDown 2 0) true, entry 41 (.sliderMove 2 20) true], nextSeq := 42 }
    let r := (q.offer (.sliderMove 2 80) 1090)
    r.entries = q.entries ∧ r.holds[2] = some { position := 80, time := 1090 } ∧
      (r.remove 41 1100).entries = [{ seq := 42, report := .sliderMove 2 80, time := 1090, sent := false }] := by decide +kernel

/-- Section 4.12: the third LIMIT makes the reference FAULTED with its drift held. -/
theorem test_reference_fault :
    let r : RefRuntime :=
      { RefRuntime.afterReset with state := .ready, window := [704, 705, 706, 705], baseline := some 700, faultStreak := 2, drift := 5 }
    let t := trackResult .ref 0 .limit 2000 { up with track := { up.track with ref := r } }
    t.track.ref.state = .faulted ∧ t.track.ref.drift = 5 ∧ (t.queue.entries.map fun e => e.report) = [.refFault .limit 2000] := by
  decide +kernel

/-- Two SENT entries at the expiry of the ack timer, the transmitter IDLE. -/
def atExpiry : State := { up with
  queue := { up.queue with entries := [entry 7 (.keyDown 2 1) true, entry 8 (.keyUp 2 .lifted) true], nextSeq := 9 }
  uptime := 100, delivery := { up.delivery with ackTimer := some { start := 0, span := 100 } } }

/-- Commands one after the other. -/
def afterAll (cs : List Instr) (s : State) : Option State := cs.foldl (fun o c => o.bind fun t => after (exec c t)) (some s)

/-- R131 and section 7.12, expiry first: the entries are UNSENT, an acknowledgement of 8 is counted as ACK_RANGE, and 7 is sent again. -/
theorem test_ack_after_expiry :
    (afterAll [.ackTimerExpiry, .flowFrame 1 8 0] atExpiry).map
        (fun t => (t.queue.entries.map fun e => (e.seq, e.sent), t.counters.ackRange, t.tx.sending.isSome)) =
      some ([(7, true), (8, false)], 1, true) := by decide +kernel

/-- R131, the start of a report frame between: the frame of 7 starts first, and an acknowledgement of 7 is then in range. -/
theorem test_ack_after_start :
    (afterAll [.ackTimerExpiry, .frameBoundary, .flowFrame 1 7 0] atExpiry).map
        (fun t => (t.queue.entries.map fun e => (e.seq, e.sent), t.counters.ackRange, t.delivery.retries)) =
      some ([(8, false)], 0, 0) := by decide +kernel

/-- A slider of keys 0 and 1 at 0 with a step of 8, its SLIDER_MOVE the oldest entry, SENT, at the expiry of the ack timer, and the
measurement of key 1 at the end of its TRANSFER. -/
def sliding : State :=
  let s := withKey 1 (.default 1) (inState .touched [] 700) (withKey 0 (.default 0) (inState .touched [800] 700) scanning)
  { s with
    engine := { measuring .transfer with job := some { planJob (.key 1) with owner := .plan 0 (.key 1) 0 } }
    groups := vecSet s.groups 0
      { config := { kind := .slider, param := 8, members := [0, 1] }, holder := none, touched := true, lastPos := 0 }
    queue := { up.queue with entries := [entry 7 (.sliderMove 0 0) true, entry 8 .refRecovered true], nextSeq := 9 }
    uptime := 100, delivery := { up.delivery with ackTimer := some { start := 0, span := 100 } } }

/-- What the queue holds of the slider: its entries, each with whether it is SENT, and the position of its hold. -/
def slidOf (cs : List Instr) : Option (List (Report × Bool) × Option Nat) :=
  (afterAll cs sliding).map fun t => (t.queue.entries.map fun e => (e.report, e.sent), t.queue.holds[0].map fun h => h.position)

/-- R112, a SLIDER_MOVE offered together with a rewind of its group's entry: after the rewind it is coalesced into the entry, before
it, or after the entry is marked SENT again, it makes a hold. -/
theorem test_move_and_rewind :
    slidOf [.ackTimerExpiry, .transferEnd (some 800)] = some ([(.sliderMove 0 32, false), (.refRecovered, false)], none) ∧
      slidOf [.transferEnd (some 800), .ackTimerExpiry] = some ([(.sliderMove 0 0, false), (.refRecovered, false)], some 32) ∧
      slidOf [.ackTimerExpiry, .frameBoundary, .transferEnd (some 800)] =
        some ([(.sliderMove 0 0, true), (.refRecovered, false)], some 32) := by decide +kernel

/-- The running part about to end a save as OK, with a host measurement at the end of its TRANSFER. -/
def savingAndMeasuring : State :=
  { saving .committing with
    engine :=
      { phase := .transfer, job := some { owner := .host ⟨9, 0x28, []⟩, target := .ref, meas := .default, slowTimed := false },
        abort := false, cut := false, lastOwner := .host, count := 0 }
    handler := { up.handler with executing := some ⟨9, 0x28, []⟩ } }

/-- R123: the response of a later event finds the frame of PROFILE_DONE started, and waits; handed over first, it is sent first. -/
theorem test_later_response_waits :
    ((afterAll [.committingEnd true, .transferEnd (some 800)] savingAndMeasuring).map fun t =>
        (t.queue.entries.map fun e => e.sent, t.tx.respSlot.isSome, t.tx.sending.isSome)) = some ([true], true, true) ∧
      ((afterAll [.transferEnd (some 800), .committingEnd true] savingAndMeasuring).map fun t =>
        (t.queue.entries.map fun e => e.sent, t.tx.respSlot.isSome, t.tx.sending.isSome)) = some ([false], false, true) := by
  decide +kernel

/-- R154 and R156: in reset the lines and ATTN are pulled, the lines down after ACTIVE_HIGH and up at power-on; a part that runs drives
them. -/
theorem test_pins_in_reset :
    let s : State := { up with outputs := { up.outputs with polarity := .activeHigh } }
    s.linePin 0 = { driven := true, high := false } ∧
      ((after (exec .resetLow s)).map fun t => (t.linePin 0, t.attnPin)) =
        some ({ driven := false, high := false }, { driven := false, high := true }) ∧
      ((after (exec .powerOn s)).map fun t => (t.linePin 0, t.attnPin)) =
        some ({ driven := false, high := true }, { driven := false, high := true }) ∧
      ((after (exec .boot State.reset)).map fun t => (t.linePin 0).driven && t.attnPin.driven) = some true := by decide +kernel

/-- Section 10.6: at the end of WAKING the queue is 0 U, and ATTN in LEVEL mode is low until the frame of WAKE starts (R155, R168). -/
theorem test_wake_told :
    let s : State := { dozingIn .waking with outputs := { up.outputs with attnMode := .level } }
    (after (exec .wakeComplete s)).map (fun t => (t.queue.entries.map fun e => (e.report, e.sent), t.attnLow)) =
        some ([(.wake .touch, false)], true) ∧
      (afterAll [.wakeComplete, .frameBoundary] s).map (fun t => (t.queue.entries.map fun e => (e.report, e.sent), t.attnLow)) =
        some ([(.wake .touch, true)], false) := by decide +kernel

/-- Section 11.7: with A VALID 12 and B VALID 11 a save targets B with generation 13. -/
theorem test_save_target :
    (slots (validSlot 12) (validSlot 11)).store.saveTarget = .b ∧
      (slots (validSlot 12) (validSlot 11)).store.newestGeneration + 1 = 13 := by decide +kernel

/-- Sections 11.6, 6.8 and 9.3: a part from the factory boots with BOOT(POWER_ON, DEFAULTS, 0) as entry 0, UNSENT, and ATTN is low. -/
theorem test_boot_report :
    (after (exec .boot State.reset)).map
        (fun t => (t.queue.entries.map fun e => (e.seq, e.report, e.sent), t.phase, t.attnLow)) =
      some ([(0, .boot .powerOn none 0, false)], .running, true) := by decide +kernel

/-- The frame of BOOT is on the line before the next thing that happens at the receiver (log entry 26). -/
theorem test_boot_sent :
    ((after (exec .boot State.reset)).bind fun t => after (exec .gap t)).map
        (fun t => (t.queue.entries.map fun e => e.sent, t.tx.sending.isSome, t.attnLow)) =
      some ([true], true, false) := by decide +kernel

/-- Section 8.7: a byte that comes after the reset has taken effect, and before boot, is lost. -/
theorem test_byte_in_reset : after (exec (.strayByte 0x5A) State.reset) = some State.reset := by decide +kernel

/-- Section 3.9, the third row: a plan claim and a host claim wait, the last owner was PLAN, and the host claim is granted. -/
theorem test_host_after_plan :
    (grant { up with
      engine := { Engine.afterReset with lastOwner := .plan }
      claims := { plan := some { index := 1, subject := .key 2 }, host := some { request := ⟨1, 0x28, []⟩, target := .ref, meas := .default }, wake := false }
      }).engine.lastOwner = .host := by decide +kernel

/-- Section 3.11, the last paragraph: the trip taken first while STOPPING completes the stop with the VALID result processed. -/
theorem test_completion_first :
    let s := { scanning with engine := measuring .transfer }
    ((after (exec (.stopScan 1 []) s)).bind fun t => after (exec (.transferEnd (some 900)) t)).map
        (fun t => (t.seq.runState, t.engine.phase, t.tx.sending.isSome, t.handler.executing)) =
      some (.stopped, .idle, true, none) ∧
    ((after (exec (.stopScan 1 []) s)).map fun t => (t.seq.runState, t.engine.phase, t.engine.abort)) =
      some (.stopping, .discharge, true) := by decide +kernel

/-- Section 7.7, ack first: the timer restarts at uptime 100, and its expiry at that moment does not happen. -/
theorem test_ack_before_expiry :
    let s : State := { queued [entry 7 .refRecovered true, entry 8 .refRecovered true] 9 with
      uptime := 100, delivery := { up.delivery with ackTimer := some { start := 0, span := 100 } } }
    ((after (exec (.flowFrame 1 7 0) s)).bind fun t => after (exec .ackTimerExpiry t)).map
        (fun t => (t.queue.entries.map fun e => (e.seq, e.sent), t.delivery.retries, t.delivery.ackTimer)) =
      some ([(8, true)], 0, some { start := 100, span := 100 }) := by decide +kernel

/-- Table 7-2 and section 7.1: the first bit times of a frame on TXD, 0x5A with its least significant bit first. -/
theorem test_start_byte_levels :
    byteLevels 0x5A = [false, false, true, false, true, true, false, true, false, true] := by decide +kernel

/-- Section 10.6: the second VALID result at the threshold wakes the part with cause TOUCH. -/
theorem test_wake_touch :
    let w : WakeRecord := { WakeRecord.afterReset with baseline := some 600, touchStreak := 1 }
    let s := dozingIn .dozing
    let t := wakeResult .valid 690 { s with doze := { s.doze with wake := w, cause := none } }
    t.doze.state = .waking ∧ t.doze.cause = some .touch := by decide +kernel

/-! ### Witnesses: states and operands that meet the hypotheses of the statements, at the ends of their ranges -/

/-- Whether an outcome is a next state. -/
def isNext : Host.Outcome State Fault Refusal → Bool
  | .next _ => true
  | _ => false

/-- The running part with its receiver in a state. -/
def rxIn (st : RxState) (len : Nat) (bytes : List Byte) : State := { up with rx := { state := st, len := len, bytes := bytes } }

/-- The part held in reset. -/
def heldPart : State := { State.reset with phase := .held, pins := { State.reset.pins with resetHigh := false } }

/-- A frame on the line. -/
def onLine (f : Frame) (s : State) : State := { s with tx := { s.tx with sending := some { frame := f, rate := .b115200 } } }

/-- A response with what follows it. -/
def ending (after : AfterSend) : Frame := .response { responseTo 1 0x03 .ok [] with after := after }

/-- The running part with a host measurement claimed and its request in execution. -/
def hostClaimed (s : State) : State :=
  { s with
    handler := { s.handler with executing := some ⟨1, 0x28, []⟩ }
    claims := { s.claims with host := some { request := ⟨1, 0x28, []⟩, target := .ref, meas := .default } } }

/-- A request in execution, an inbox, and an overflow reply slot behind a response on the line. -/
def busyWith (inbox : List Request) (overflow : Option Response) : State :=
  let s := onLine (ending .nothing) (hostClaimed { up with engine := measuring .charge })
  { s with handler := { s.handler with inbox := inbox }, tx := { s.tx with overflow := overflow } }

/-- SCANNING with the plan claim waiting behind a host measurement. -/
def claiming : State :=
  { scanning with
    claims := { scanning.claims with plan := some { index := 0, subject := .key 0 } }
    engine := { scanning.engine with
      job := some { owner := .host ⟨1, 0x28, []⟩, target := .ref, meas := .default, slowTimed := false }, lastOwner := .host }
    handler := { scanning.handler with executing := some ⟨1, 0x28, []⟩ } }

/-- The running part with a response on the line, another in the response slot, and requests in the inbox. -/
def behind (inbox : List Request) : State :=
  { up with
    tx := { sending := some { frame := .response (responseTo 1 0x01 .ok []), rate := .b115200 },
            respSlot := some (responseTo 2 0x01 .ok []), overflow := none }
    handler := { up.handler with inbox := inbox } }

/-- A pending plan without REF. -/
def withPending (s : State) : State := { s with seq := { s.seq with pendingPlan := some { period := 10, entries := [.key 1] } } }

theorem witness_StepTakesFrontCommand : ({ up with pending := [.gap, .boot] } : State).pending = .gap :: [.boot] := by rfl

theorem witness_IdleStepPassesTime :
    up.pending = [] ∧ heldPart.phase = .held ∧ State.reset.phase = .bootDue ∧
      ((dozingIn .entering).phase = .running ∧ (dozingIn .entering).enteringOver = true) ∧
      (up.runs = true ∧ up.enteringOver = false ∧ up.idleRuns = false) ∧
      (let s := { idling with doze := { idling.doze with idle := 999 } };
        s.runs = true ∧ s.enteringOver = false ∧ s.idleRuns = true ∧ s.doze.idle + 1 = s.doze.settings.idleTime * 1000) := by
  decide +kernel

theorem witness_HeldPartDoesNothing :
    heldPart.phase = .held ∧ heldPart.phase ≠ .running ∧ State.reset.phase ≠ .running ∧ Instr.gap ≠ .powerOn ∧ Instr.gap ≠ .boot ∧
      Instr.gap ≠ .resetLow ∧ Instr.gap ≠ .bselEdge ∧ Instr.gap ≠ .hwakeFall ∧ Instr.gap ≠ .hwakeRise := by decide +kernel

/-- A state with something to do, for the invariants: a plan measurement at its end, a report SENT, its tracker short of a window. -/
theorem witness_StepLeavesNothingDue_StepKeepsQueueSound_StepKeepsScanSound :
    let s : State := { scanning with
      engine := measuring .transfer, pending := [.transferEnd (some 900)]
      queue := { up.queue with entries := [entry 7 .refRecovered true], nextSeq := 8 } }
    s.rested = true ∧ s.queue.sound = true ∧ s.scanSound = true ∧ isNext (step s) = true := by decide +kernel

theorem witness_ReceiverTakesBuiltFrame :
    (3 ≤ (List.replicate 3 (1 : Byte)).length ∧ (List.replicate 250 (1 : Byte)).length ≤ 250) ∧ up.rx = .searching := by
  decide +kernel

theorem witness_ReportFrameLayout :
    let idle := up.tx
    let busy := (onLine (.report (entry 0 .refRecovered true)) up).tx
    idle.sending = none ∧ busy.sending = some { frame := .report (entry 0 .refRecovered true), rate := .b115200 } ∧
      busy.bytesOnLine[0]? = some 0x5A ∧ 10 * busy.bytesOnLine.length ≤ 130 ∧
      (∀ n, n < 8 → (byteLevels 0xA5).getD (n + 1) true = (0xA5 : Byte).getLsbD n) := by decide +kernel

theorem witness_StrayByteTaken :
    (up.runs = true ∧ up.rx.state = .searching ∧ (0x59 : Byte) ≠ 0x5A) ∧
      (let s := rxIn .length 0 [];
        s.runs = true ∧ s.rx.state = .length ∧ 3 ≤ (3 : Byte).toNat ∧ (250 : Byte).toNat ≤ 250 ∧ (2 : Byte).toNat < 3 ∧
          250 < (251 : Byte).toNat) ∧
      (let s := rxIn .body 3 [1];
        s.runs = true ∧ s.rx.state = .body ∧ s.rx.bytes.length + 1 < s.rx.len) ∧
      (let s := rxIn .body 3 [1, 0];
        s.runs = true ∧ s.rx.state = .body ∧ s.rx.bytes.length + 1 = s.rx.len) ∧
      (let s := rxIn .crc 3 [1, 0, 0];
        s.runs = true ∧ s.rx.state = .crc ∧ s.rx.bytes.length = s.rx.len) ∧
      (let s := rxIn .crc 3 [1, 0, 0, 7];
        s.runs = true ∧ s.rx.state = .crc ∧ ([1, 0, 0] : List Byte).length = s.rx.len ∧ s.rx.bytes = [1, 0, 0] ++ [7]) ∧
      (let s := dozingIn .dozing;
        s.runs = true ∧ s.rx.state = .disabled) := by decide +kernel

theorem witness_BadFrameCounted :
    up.runs = true ∧ up.rx.state ≠ .disabled ∧ bodyCrc [1, 0, 1] ≠ bodyCrc [1, 0, 1] + 1 ∧ (2 : Byte) ≠ 0x01 ∧ (2 : Byte) ≠ 0x04 ∧
      ([3, 0, 0] : List Byte).length ≠ 4 ∧ 4 ≤ byteAt [4, 0, 0, 0] 0 := by decide +kernel

theorem witness_RequestFrameTakenByInbox :
    let r : Request := ⟨2, 0x01, []⟩
    let free := fun s : State => s.runs = true ∧ s.rx.state ≠ .disabled ∧ s.handler.pendingReset = none ∧
      (s.handler.executing.isSome = true ∨ s.tx.respSlot.isSome = true)
    (free (busyWith [r] none) ∧ (busyWith [r] none).handler.inbox.length < 2) ∧
      (free (busyWith [r, r] none) ∧ 2 ≤ (busyWith [r, r] none).handler.inbox.length ∧ (busyWith [r, r] none).tx.overflow = none) ∧
      (free (busyWith [r, r] (some (r.reply .busy []))) ∧
        (busyWith [r, r] (some (r.reply .busy []))).tx.overflow.isSome = true) ∧
      (free (behind []) ∧ (behind []).handler.executing = none ∧ (behind []).handler.inbox.length < 2) ∧ up.ready = true := by
  decide +kernel

theorem witness_FlowFrameTaken : up.runs = true ∧ up.rx.state ≠ .disabled ∧ up.handler.pendingReset = none := by decide +kernel

theorem witness_AckAndWindowTaken :
    let q := (queued [entry 7 .refRecovered true, entry 8 .refRecovered false] 9).queue
    q.ackInRange 7 = true ∧ q.ackInRange 8 = false ∧ q.ackInRange 6 = false ∧ (8 : Byte).toNat ≤ 8 ∧ 8 < (9 : Byte).toNat := by
  decide +kernel

theorem witness_RefusalsAnswered :
    up.ready = true ∧ knownCode 0x99 = false ∧ (knownCode 0x03 = true ∧ lengthAllowed 0x03 [] = false) ∧
      (waiting.ready = true ∧ lengthAllowed 0x22 [] = true ∧ stateAllowed 0x22 waiting = false) ∧
      (lengthAllowed 0x03 [2] = true ∧ stateAllowed 0x03 up = true ∧ firstBad (fieldChecks 0x03 [2] up) = some 1) := by
  decide +kernel

/-- The requests answered from any run state, of a part that scans with a plan measurement in flight, and with a pending plan. -/
theorem witness_Identify_KeyTable_GroupAndPlan_Outputs_Reads_Recalibrate_FlushAndResync :
    scanning.ready = true ∧ (withPending scanning).ready = true ∧ scanning.seq.pendingPlan = none ∧
      (withPending scanning).seq.pendingPlan = some { period := 10, entries := [.key 1] } ∧ ([0] : List Byte) ≠ [] ∧
      32 ≤ (32 : Byte).toNat ∧ 8 ≤ (8 : Byte).toNat ∧ 2 ≤ (2 : Byte).toNat ∧ ([] : List Byte).length ≠ 1 ∧
      ([] : List Byte).length ≠ 5 := by decide +kernel

theorem witness_ReadKeysAndLinkStatsAnswered :
    let count := fun n : Nat => (allKeys.filter fun k => n.testBit k.val).length
    scanning.ready = true ∧ 27 < count 4294967295 ∧ 27 < count 268435455 ∧ count 134217727 = 27 ∧ count 67108863 = 26 ∧
      2 ≤ (2 : Byte).toNat ∧ ([0] : List Byte).length ≠ 5 := by decide +kernel

theorem witness_KeyTableWritesTakeEffect :
    up.ready = true ∧ (KeyRecord.default 31).inRange = true ∧ RefRecord.default.inRange = true ∧
      ({ KeyRecord.default 0 with releaseThreshold := 59, debounceIn := 15, calSamples := 32, maxOn := 600 } : KeyRecord).inRange = true := by
  decide +kernel

theorem witness_SetGroupTakesEffect :
    up.ready = true ∧ up.seq.runState = .stopped ∧ (allKeys.take 16).Nodup ∧ (allKeys.take 8).Nodup ∧
      (∀ k ∈ allKeys.take 16, ∀ j : GroupId, j ≠ 7 → k ∉ up.groups[j].config.members) ∧ (allKeys.take 16).length = 16 ∧
      ([3, 1] : List KeyId).Nodup ∧ ∀ k ∈ ([3, 1] : List KeyId), ∀ j : GroupId, j ≠ 0 → k ∉ up.groups[j].config.members := by
  decide +kernel

theorem witness_SetPlanTakesEffect :
    let longest : Plan := { period := 1000, entries := List.replicate 64 .ref }
    (up.ready = true ∧ up.seq.runState = .stopped) ∧ (scanning.ready = true ∧ scanning.seq.runState = .scanning) ∧
      (waiting.ready = true ∧ waiting.seq.runState = .cycleWait) ∧
      (longest.period ≤ 1000 ∧ longest.entries.length ≤ 64 ∧ 1 ≤ longest.entries.length) := by decide +kernel

theorem witness_StartScanTakesEffect :
    let s := { up with seq := { up.seq with plan := { period := 1, entries := [.key 0, .ref] } } }
    (up.ready = true ∧ up.seq.runState = .stopped ∧ up.seq.plan.entries = []) ∧
      (s.ready = true ∧ s.seq.plan.entries = [.key 0] ++ .ref :: [] ∧ (s.keyCfg 0).enabled = false) := by decide +kernel

theorem witness_StopScanTakesEffect :
    (up.ready = true ∧ up.seq.runState = .stopped) ∧ (waiting.ready = true ∧ waiting.seq.runState = .cycleWait) ∧
      (let s := { claiming with handler := up.handler };
        s.ready = true ∧ s.seq.runState = .scanning ∧ s.claims.plan.isSome = true) ∧
      (scanning.ready = true ∧ scanning.seq.runState = .scanning ∧ scanning.claims.plan = none ∧
        scanning.engine.phase ≠ .idle ∧ scanning.engine.ownerKind = .plan) ∧
      ((withPending up).seq.pendingPlan = some { period := 10, entries := [.key 1] } ∧
        ({ waiting with doze := { waiting.doze with request := some .auto } } : State).doze.request.isSome = true ∧
        ({ up with handler := { up.handler with executing := some ⟨1, 0x23, []⟩ } } : State).handler.executing =
          some ⟨1, 0x23, []⟩) := by decide +kernel

theorem witness_MeasureTakesEffect :
    MeasureParams.default.inRange = true ∧
      ({ clock := .s4, charge := 255, trim := 63, limit := 4095, floor := 4094 } : MeasureParams).inRange = true ∧
      (1 : PadSet) ≠ 0 ∧ (up.ready = true ∧ up.engine.phase = .idle) ∧ (scanning.ready = true ∧ scanning.engine.phase ≠ .idle) := by
  decide +kernel

theorem witness_SetLink_SetDoze_SetOutputs :
    up.ready = true ∧ ({ baud := .b230400, ackTimeout := 2000, retryLimit := 15, window := 8 } : LinkSettings).inRange = true ∧
      ({ DozeSettings.default with idleTime := 255, interval := 2000, debounce := 7 } : DozeSettings).inRange = true := by
  decide +kernel

theorem witness_EnterDozeTakesEffect :
    (let s := { up with pins := { up.pins with hwakeHigh := false } };
      s.ready = true ∧ s.entryConditions = false) ∧
      (up.ready = true ∧ up.entryConditions = true ∧ up.seq.runState = .stopped) ∧
      (scanning.ready = true ∧ scanning.entryConditions = true ∧ scanning.seq.runState = .scanning) ∧
      (waiting.ready = true ∧ waiting.entryConditions = true ∧ waiting.seq.runState = .cycleWait) := by decide +kernel

theorem witness_ProfileSaveTakesEffect :
    ((saving .erasing).ready = true ∧ (saving .erasing).store.save ≠ .idle) ∧
      (let s := slots (validSlot 4294967295) .erased;
        s.ready = true ∧ s.store.save = .idle ∧ s.store.newest = some .a ∧ (s.store.slot .a).generation + 1 = 4294967296) ∧
      (let s := slots (validSlot 4294967294) .erased;
        s.ready = true ∧ s.store.save = .idle ∧ (s.store.slot .a).generation + 1 = 4294967295) := by decide +kernel

/-- What a VALID slot of generation 2 holds whose checksum fails. -/
def spoiltTwo : Written := { good 2 with checksum := slotChecksum 2 .factory + 1 }

theorem witness_ProfileLoad_checksum_good (n : Nat) : (good n).checksum = slotChecksum (good n).generation (good n).image := by
  simp only [good]

theorem witness_ProfileLoad_checksum_bad : spoiltTwo.checksum ≠ slotChecksum spoiltTwo.generation spoiltTwo.image := by
  simp only [spoiltTwo, good]
  generalize slotChecksum 2 .factory = x
  bv_omega

theorem witness_ProfileLoad_checksum_bad_three :
    ({ good 3 with checksum := slotChecksum 3 .factory + 1 } : Written).checksum ≠ slotChecksum 3 .factory := by
  simp only
  generalize slotChecksum 3 .factory = x
  bv_omega

/-- The slots of the clauses on NEWEST: both good, the newest bad with the other good, the newest bad with the other not VALID, both
bad. -/
theorem witness_ProfileLoadTakesEffect :
    (up.ready = true ∧ up.seq.runState = .stopped ∧ up.store.save = .idle ∧ (up.store.slot .b).content = none ∧ up.store.newest = none) ∧
      (saving .committing).store.save ≠ .idle ∧
      ((slots (validSlot 1) (validSlot 2)).ready = true ∧ (slots (validSlot 1) (validSlot 2)).store.newest = some .b) ∧
      ((slots (validSlot 1) (badSlot 2)).ready = true ∧ (slots (validSlot 1) (badSlot 2)).store.newest = some .b) ∧
      ((slots .erased (badSlot 2)).ready = true ∧ (slots .erased (badSlot 2)).store.newest = some .b ∧
        ((slots .erased (badSlot 2)).store.slot .a).content = none) ∧
      ((slots (badSlot 3) (badSlot 2)).ready = true ∧ (slots (badSlot 3) (badSlot 2)).store.newest = some .a) := by decide +kernel

theorem witness_ProfileLoad_contents :
    ((slots (validSlot 1) (validSlot 2)).store.slot .b).content = some (good 2) ∧
      ((slots (validSlot 1) (badSlot 2)).store.slot .b).content = some spoiltTwo ∧
      ((slots (validSlot 1) (badSlot 2)).store.slot .a).content = some (good 1) ∧
      (slots (badSlot 3) (badSlot 2)).store.slotA.content = some { good 3 with checksum := slotChecksum 3 .factory + 1 } ∧
      (slots (badSlot 3) (badSlot 2)).store.slotB.content = some spoiltTwo := ⟨rfl, rfl, rfl, rfl, rfl⟩

theorem witness_SoftResetTakesEffect :
    up.ready = true ∧ 2 ≤ (2 : Byte).toNat ∧ (3 : Byte).toNat < 4 ∧
      (let s := onLine (ending (.reset .restart)) { up with handler := { up.handler with pendingReset := some .restart } };
        s.runs = true ∧ s.rx.state ≠ .disabled ∧ s.handler.pendingReset.isSome = true) := by decide +kernel

theorem witness_FrameBoundaryTaken :
    (up.phase = .running ∧ up.rested = true ∧ up.tx.sending = none) ∧
      (let s := { atExpiry with queue := atExpiry.queue.rewind };
        s.phase = .running ∧ s.rested = true ∧ s.tx.sending = none ∧ s.canStart = true) ∧
      (let s := behind [⟨2, 0x01, []⟩];
        s.runs = true ∧ s.tx.sending = some { frame := .response (responseTo 1 0x01 .ok []), rate := .b115200 } ∧
          s.tx.respSlot = some (responseTo 2 0x01 .ok []) ∧ s.handler.executing = none ∧ s.handler.pendingReset = none ∧
          s.handler.inbox = ⟨2, 0x01, []⟩ :: []) ∧
      (let s := onLine (.report (entry 0 .refRecovered true)) up;
        s.runs = true ∧ s.tx.sending = some { frame := .report (entry 0 .refRecovered true), rate := .b115200 }) ∧
      (let s := onLine (ending (.baud .b230400)) up;
        s.runs = true ∧ s.tx.sending = some { frame := ending (.baud .b230400), rate := .b115200 }) ∧
      (let s := onLine (ending (.reset .defaults)) { up with handler := { up.handler with pendingReset := some .defaults } };
        s.runs = true ∧ s.tx.sending = some { frame := ending (.reset .defaults), rate := .b115200 }) := by decide +kernel

theorem witness_ArbiterStartsFrame :
    let r := responseTo 1 0x01 .ok []
    let s : State := { up with queue := { up.queue with entries := [entry 7 .refRecovered true] ++ entry 8 .refRecovered false :: [] } }
    (onLine (.response r) up).tx.sending.isSome = true ∧ s.tx.sending = none ∧ s.tx.respSlot = none ∧
      s.handler.pendingReset = none ∧ s.tx.overflow = none ∧ s.canReport = true ∧
      (∀ x ∈ [entry 7 .refRecovered true], x.sent = true) ∧ (entry 8 .refRecovered false).sent = false ∧
      ({ up with tx := { up.tx with respSlot := some r } } : State).tx.respSlot = some r ∧
      ({ up with tx := { up.tx with overflow := some r } } : State).tx.overflow = some r ∧
      (s.phase = .running ∧ s.rested = true ∧ s.canStart = true ∧ s.rx.state ≠ .disabled ∧ s.rx.state ≠ .crc ∧ s.pending = [] ∧
        s.enteringOver = false) := by decide +kernel

theorem witness_AckTimerExpiryTaken :
    let s := fun retries : Nat => { up with
      uptime := 100, delivery := { up.delivery with ackTimer := some { start := 0, span := 100 }, retries := retries } }
    (up.runs = true ∧ up.delivery.ackTimer = none) ∧
      (let u := { s 2 with uptime := 99 }; u.runs = true ∧ (u.uptime - 0).toNat < 100) ∧
      ((s 2).runs = true ∧ 100 ≤ ((s 2).uptime - 0).toNat ∧ (s 2).delivery.retries + 1 < (s 2).linkCfg.settings.retryLimit) ∧
      (atExpiry.runs = true ∧ 100 ≤ (atExpiry.uptime - 0).toNat ∧ atExpiry.delivery.retries + 1 < atExpiry.linkCfg.settings.retryLimit ∧
        atExpiry.rx.state ≠ .disabled ∧ atExpiry.handler.pendingReset = none ∧ atExpiry.tx.sending = none) ∧
      ((s 3).runs = true ∧ (s 3).linkCfg.settings.retryLimit ≤ (s 3).delivery.retries + 1) := by decide +kernel

theorem witness_EnginePhasesEnd :
    (scanning.runs = true ∧ scanning.engine.phase = .discharge ∧ scanning.engine.abort = false) ∧
      (let s := { scanning with engine := { scanning.engine with abort := true } };
        s.runs = true ∧ s.engine.abort = true ∧ s.engine.job = some (planJob (.key 0))) ∧
      (let s := { scanning with engine := measuring .charge };
        s.runs = true ∧ s.engine.phase = .charge ∧ s.engine.phase ≠ .discharge ∧ s.engine.ownerKind = .plan) ∧
      (measuring .transfer).ownerKind = .plan ∧ (measuring .transfer).phase = .transfer ∧ up.engine.phase = .idle := by decide +kernel

theorem witness_TransferEnds :
    let m := (planJob (.key 0)).meas
    (let s := { scanning with engine := measuring .transfer };
      s.runs = true ∧ s.engine.phase = .transfer ∧ s.engine.job = some (planJob (.key 0)) ∧
        s.seq.runState = .scanning) ∧
      (32 < m.limit ∧ m.floor ≤ 32) ∧ (31 < m.limit ∧ 31 < m.floor) ∧ m.limit ≤ 2000 ∧
      (let s := { scanning with engine := (measuring .transfer).aborted };
        s.runs = true ∧ s.engine.cut = true ∧ s.engine.job = some (planJob (.key 0))) ∧
      (up.runs = true ∧ up.engine.phase ≠ .transfer ∧ up.engine.cut = false) ∧
      (waiting.seq.plan.entries.drop 1 = [] ++ .ref :: [] ∧ waiting.seq.plan.entries.drop 2 = [] ∧ waiting.seq.elapsed = false) ∧
      ({ waiting with seq := { waiting.seq with elapsed := true } } : State).seq.elapsed = true ∧
      (hostClaimed up).handler.executing = some ⟨1, 0x28, []⟩ ∧
      ({ scanning with seq := { scanning.seq with runState := .stopping } } : State).seq.runState = .stopping := by decide +kernel

theorem witness_ArbiterGrants :
    let c : HostClaim := { request := ⟨1, 0x28, []⟩, target := .ref, meas := .default }
    let s := fun (kind : OwnerKind) (claims : Claims) => { up with engine := { up.engine with lastOwner := kind }, claims := claims }
    scanning.engine.phase ≠ .idle ∧ (up.engine.phase = .idle ∧ up.claims.plan = none ∧ up.claims.host = none ∧ up.claims.wake = false) ∧
      (s .host { plan := some { index := 0, subject := .key 0 }, host := some c, wake := false }).engine.lastOwner ≠ .plan ∧
      (s .none { plan := some { index := 1, subject := .ref }, host := none, wake := false }).claims.host = none ∧
      (s .plan { plan := some { index := 0, subject := .key 0 }, host := some c, wake := false }).engine.lastOwner = .plan ∧
      (s .none { plan := none, host := none, wake := true }).claims.wake = true := by decide +kernel

theorem witness_PeriodTimerExpiryTaken :
    (up.runs = true ∧ up.seq.timerOn = false) ∧
      (let s := { scanning with uptime := 19 };
        s.runs = true ∧ (s.uptime - s.seq.cycleStart).toNat < s.seq.plan.period) ∧
      (let s := { scanning with uptime := 20 };
        s.runs = true ∧ s.seq.timerOn = true ∧ s.seq.plan.period ≤ (s.uptime - s.seq.cycleStart).toNat ∧ s.seq.runState = .scanning) ∧
      (waiting.runs = true ∧ waiting.seq.timerOn = true ∧ waiting.seq.plan.period ≤ (waiting.uptime - waiting.seq.cycleStart).toNat ∧
        waiting.seq.runState = .cycleWait ∧ waiting.seq.pendingPlan = none ∧ waiting.doze.request = none) ∧
      (let s := { waiting with doze := { waiting.doze with request := some .auto, state := .requested } };
        s.doze.request.isSome = true ∧ s.entryConditions = true ∧
          (let u := { s with handler := { s.handler with executing := some ⟨1, 0x51, []⟩ } };
            u.handler.executing = some ⟨1, 0x51, []⟩ ∧ u.entryConditions = true) ∧
          ({ s with pins := { s.pins with hwakeHigh := false } } : State).entryConditions = false) ∧
      (withPending waiting).seq.pendingPlan = some { period := 10, entries := [.key 1] } := by decide +kernel

theorem witness_IdleTimerExpiryTaken :
    (up.runs = true ∧ up.idleRuns = false) ∧
      (idling.runs = true ∧ idling.idleRuns = true ∧ ¬(idling.doze.settings.idleTime * 1000 ≤ idling.doze.idle)) ∧
      (let s := { idling with doze := { idling.doze with idle := 1000 } };
        s.runs = true ∧ s.idleRuns = true ∧ s.doze.settings.idleTime * 1000 ≤ s.doze.idle ∧ s.handler.executing = none ∧
          s.seq.runState = .stopped) ∧
      (let s := { waiting with doze := { idling.doze with idle := 1000 } };
        s.runs = true ∧ s.idleRuns = true ∧ s.doze.settings.idleTime * 1000 ≤ s.doze.idle ∧ s.seq.runState = .cycleWait) := by
  decide +kernel

theorem witness_EnteringAndIntervalTaken :
    let low := fun s : State => { s with pins := { s.pins with hwakeHigh := false } }
    let s := dozingIn .entering
    let busy := { s with engine := measuring .charge }
    (up.runs = true ∧ up.doze.state ≠ .entering) ∧
      (s.runs = true ∧ s.doze.state = .entering ∧ s.tx.sending = none ∧ s.tx.respSlot = none ∧ s.engine.phase = .idle ∧
        s.pins.hwakeHigh = true ∧ (low s).runs = true ∧ (low s).pins.hwakeHigh = false) ∧
      (busy.runs = true ∧ busy.engine.phase ≠ .idle ∧ (low busy).runs = true) ∧
      (let d := { dozingIn .dozing with uptime := 99 };
        d.runs = true ∧ d.doze.interval = some 0 ∧ (d.uptime - 0).toNat < d.doze.settings.interval) ∧
      (let d := dozingIn .dozing;
        d.runs = true ∧ d.doze.state = .dozing ∧ d.doze.interval = some 0 ∧ d.doze.settings.interval ≤ (d.uptime - 0).toNat ∧
          d.claims.wake = false ∧ d.engine.phase = .idle ∧ d.engine.job = none) ∧
      (let d := { dozingIn .dozing with engine := { measuring .charge with job := some { planJob .ref with owner := .wake } } };
        d.runs = true ∧ d.engine.ownerKind = .wake) := by decide +kernel

/-- The default wake set: 8 calibration samples, threshold 40, debounce 2. -/
theorem witness_WakeResultTaken :
    let d := DozeSettings.default
    up.doze.state ≠ .dozing ∧ (dozingIn .dozing).doze.state = .dozing ∧ (dozingIn .dozing).doze.settings = d ∧
      (6 + 1 ≠ d.calSamples ∧ 7 + 1 = d.calSamples) ∧ (600 + d.threshold ≤ 640 ∧ 639 < 600 + d.threshold) ∧
      (0 + 1 ≠ d.debounce ∧ 1 + 1 = d.debounce) ∧ WakeRecord.afterReset.baseline = none := by decide +kernel

theorem witness_HwakeAndWakeTaken :
    let low := fun s : State => { s with pins := { s.pins with hwakeHigh := false } }
    ((low up).runs = true ∧ (low up).pins.hwakeHigh = false) ∧ (up.runs = true ∧ up.pins.hwakeHigh = true ∧ up.doze.state ≠ .dozing) ∧
      ((dozingIn .dozing).runs = true ∧ (dozingIn .dozing).doze.state = .dozing) ∧
      ((dozingIn .waking).runs = true ∧ (dozingIn .waking).doze.state = .waking ∧ (dozingIn .waking).doze.cause = some .touch) ∧
      (let s : State := { dozingIn .waking with outputs := { up.outputs with attnMode := .level } };
        s.runs = true ∧ s.queue.entries.length < 32 ∧ s.outputs.attnMode = .level) := by
  decide +kernel

theorem witness_SavePhasesEnd :
    ∀ p ∈ [SaveState.erasing, .programming, .verifying, .committing],
      (saving p).runs = true ∧ (saving p).store.staged = some staged ∧ (saving p).store.save = p := by decide +kernel

theorem witness_LinesFollowState :
    up.runs = true ∧ up.phase = .running ∧ State.reset.phase ≠ .running ∧ up.engine.job = none ∧
      scanning.engine.job = some (planJob (.key 0)) ∧ (planJob (.key 0)).target = .pads 1 ∧
      ({ planJob .ref with target := .ref } : Job).target = .ref := by decide +kernel

theorem witness_ResetBegins :
    up.phase = .running ∧ isNext (exec .powerOn up) = true ∧ isNext (exec .resetLow up) = true ∧
      (heldPart.phase = .held ∧ ({ heldPart with resetCause := .line } : State).resetCause = .line) ∧
      (State.reset.phase = .bootDue ∧ State.reset.resetCause = .powerOn ∧ State.reset.phase ≠ .held) ∧
      (let s := onLine (ending (.reset .defaults)) { up with handler := { up.handler with pendingReset := some .defaults } };
        s.phase = .running ∧ s.tx.sending = some { frame := ending (.reset .defaults), rate := .b115200 }) := by decide +kernel

theorem witness_BootWritesConfiguration :
    (up.phase = .running ∧ State.reset.phase ≠ .running ∧ State.reset.resetCause ≠ .softDefaults) ∧
      (good 1).generation < (good 2).generation ∧ (State.reset.store.slotA.examine 0).content = none := by decide +kernel

/-- A programmed slot with its mark and its checksum is VALID with that content when it is examined. -/
theorem witness_BootWritesConfiguration_content (w : Written) (m : Nat) (k : w.mark = true)
    (h : w.checksum = slotChecksum w.generation w.image) : (({ state := .invalid, cells := .written w } : Slot).examine m).content = some w := by
  simp [Slot.examine, Slot.content, Written.sound, h, k]

/-- Key 2 with the record of section 4.11, enabled, in a state, with its window and its baseline 900. -/
def key2 (st : KeyState) (window : List Nat) : State := withKey 2 record411 (inState st window 900) up

theorem witness_KeyResultProcessed :
    (key2 .released [900]).table.keyVersions[(2 : KeyId)] = 0 ∧ (key2 .released [900]).table.keys[(2 : KeyId)].enabled = true ∧
      up.table.keys[(2 : KeyId)].enabled = false ∧ record411.faultLimit = 3 ∧ satSucc 255 1 ≠ record411.faultLimit ∧
      satSucc 255 2 = record411.faultLimit ∧ ((key2 .faulted []).rt 2).state = .faulted ∧
      ((key2 .touched [1000]).rt 2).state ≠ .faulted := by decide +kernel

/-- The new delta at the thresholds: 60 touches, 59 does not; 40 keeps the touch, 39 does not. -/
theorem witness_KeySampleFollowsState :
    let delta := fun c : Nat => ({ inState .touched [c] 900 with window := [c] } : KeyRuntime).delta
    ((key2 .settling []).rt 2).state = .settling ∧ ((key2 .pressing [960]).rt 2).state = .pressing ∧
      ((key2 .held [960]).rt 2).state = .held ∧ ((key2 .lifting [900]).rt 2).state = .lifting ∧
      (record411.touchThreshold : Int) ≤ delta 960 ∧ delta 959 < record411.touchThreshold ∧
      (record411.releaseThreshold : Int) ≤ delta 940 ∧ delta 939 < record411.releaseThreshold ∧
      (record411.debounceIn ≠ 1 ∧ 1 + 1 = record411.debounceIn) := by decide +kernel

theorem witness_ReleasedKeyTracks :
    ((key2 .released [900]).rt 2).state = .released ∧ (key2 .released [900]).table.keys[(2 : KeyId)] = { record411 with enabled := true } ∧
      (inState .released [900, 959] 900).delta < record411.touchThreshold ∧
      (record411.negThreshold ≠ 0 ∧ (inState .released [860] 900).delta ≤ -(record411.negThreshold : Int)) ∧
      ¬((inState .released [861] 900).delta ≤ -(record411.negThreshold : Int)) ∧ 3 + 1 = record411.negCount ∧
      record411.driftInterval ≠ 0 ∧ 2 + 1 = record411.driftInterval ∧ (inState .released [901] 900).signal = some 901 := by
  decide +kernel

theorem witness_ReferenceResultTaken :
    up.table.refVersion = 0 ∧ up.track.ref.state = .uncalibrated ∧ (0 + 1 ≠ up.table.ref.calSamples ∧ 15 + 1 = up.table.ref.calSamples) ∧
      (let r : RefRuntime := { RefRuntime.afterReset with state := .ready, window := [704], baseline := some 700 };
        r.state = .ready ∧ r.baseline = some 700) ∧ satSucc 255 1 ≠ 3 ∧ satSucc 255 2 = 3 ∧ 1 + 1 ≠ 3 ∧ 2 + 1 = 3 := by decide +kernel

/-- The exclusive set of section 5.6: key 11 at the margin above the holder, and key 12, which has no touch; key 2 is in no group. -/
theorem witness_TouchesAndExclusiveSets :
    set56.groupOf 11 = some 0 ∧ set56.groups[(0 : GroupId)].config.kind = .exclusive ∧ set56.groups[(0 : GroupId)].holder = some 10 ∧
      (set56.rt 10).delta + 40 ≤ (set56.rt 11).delta ∧ (set56.rt 12).delta < (set56.rt 10).delta + 40 ∧
      set56.groupOf 2 = none ∧ set56.table.keys[(2 : KeyId)].reports = true ∧ (set56.rt 10).downReported = true := by decide +kernel

/-- A slider of keys 0 and 1, with key 0 TOUCHED, its touched flag and its last position as given. -/
def slider (touched : Bool) (st : KeyState) (last : Nat) : State :=
  let s := withKey 0 (KeyRecord.default 0) (inState st [980] 900) up
  { s with
    groups := vecSet s.groups 0
      { config := { kind := .slider, param := 4, members := [0, 1] }, holder := none, touched := touched, lastPos := last } }

theorem witness_SliderEvaluated :
    let members := fun s : State => s.groups[(0 : GroupId)].config.members = [0, 1] ∧ (s.rt 1).state = .disabled
    (1 < ([80, 90] : List Int).length ∧ (∀ i, i < 2 → ([80, 90] : List Int).getD i 0 ≤ ([80, 90] : List Int).getD 1 0) ∧
        ∀ i, i < 1 → ([80, 90] : List Int).getD i 0 < ([80, 90] : List Int).getD 1 0) ∧
      (members (slider false .touched 0) ∧ ((slider false .touched 0).rt 0).state = .touched ∧
        (slider false .touched 0).groups[(0 : GroupId)].touched = false) ∧
      (((slider true .lifting 4).rt 0).state = .lifting ∧ sliderPosition [80, 0] + 4 ≤ 4 ∧ ¬(sliderPosition [80, 0] + 4 ≤ 3)) ∧
      (members (slider true .released 4) ∧ ((slider true .released 4).rt 0).state = .released) := by decide +kernel

theorem witness_OutsideEffectsApplied :
    ∀ st ∈ [KeyState.disabled, .settling, .released, .pressing, .held, .touched, .lifting, .faulted],
      ((key2 st []).rt 2).state = st := by decide +kernel

theorem witness_QueueTakesOffer :
    let move := Report.sliderMove 2 20
    let q := fun (es : List ReportEntry) => { ReportQueue.afterReset with entries := es }
    (∀ g p, Report.refRecovered ≠ .sliderMove g p ∧ Report.refRecovered ≠ .sliderUp g p) ∧
      (q [entry 7 move false]).entries = [] ++ entry 7 move false :: [] ∧ (entry 7 move false).report = .sliderMove 2 20 ∧
      (q [entry 7 move true]).holds[(2 : GroupId)] = none ∧
      (∀ x ∈ [entry 6 (.sliderUp 2 8) true, entry 8 (.sliderDown 2 8) false], ∀ y, x.report ≠ .sliderMove 2 y) ∧
      (q (List.replicate 32 (entry 7 .refRecovered false))).entries.length = 32 := by
  refine ⟨fun g p => ⟨nofun, nofun⟩, rfl, rfl, by decide +kernel, ?_, by decide +kernel⟩
  intro x hx y
  simp only [List.mem_cons, List.not_mem_nil, or_false] at hx
  rcases hx with rfl | rfl <;> exact nofun

theorem witness_AckRemovesEntries :
    queue610.entries = [entry 200 .refRecovered true] ++ entry 201 .refRecovered true :: [entry 202 .refRecovered true] ∧
      (entry 201 .refRecovered true).seq = 201 ∧ (∀ x ∈ [entry 200 .refRecovered true], x.seq ≠ 201) ∧
      (∀ g : GroupId, queue610.holds[g] = none) := by decide +kernel

theorem witness_RecordsRoundTrip :
    (KeyRecord.default 0).inRange = true ∧ RefRecord.default.inRange = true ∧ DozeSettings.default.inRange = true ∧
      LinkSettings.default.inRange = true ∧
      ((byte1 0 ++ (KeyRecord.default 0).bytes).length = 29 ∧ firstBad (setKeyChecks (byte1 0 ++ (KeyRecord.default 0).bytes)) = none) ∧
      (RefRecord.default.bytes.length = 8 ∧ DozeSettings.default.bytes.length = 17 ∧ LinkSettings.default.bytes.length = 5 ∧
        OutputSettings.default.bytes.length = 10) := by decide +kernel

end Sys2Proof.Tests
end

