-- ==== Sys2Proof/Proofs/Payloads.lean ====
section
/-! SUPPORT. What is read back from a payload, once: past its first byte, from the bytes of a field at its front, and from the bytes
of a record of the key table, which pass the checks of R141 when the record is in range. -/

namespace Sys2Proof.Machine

/-! ### Past the first byte -/

section
variable (b : Byte) (p : List Byte) (i : Nat)

@[simp] theorem byteAt_cons_zero : byteAt (b :: p) 0 = b.toNat := rfl

@[simp] theorem byteAt_cons_succ : byteAt (b :: p) (i + 1) = byteAt p i := rfl

@[simp] theorem le16At_cons_succ : le16At (b :: p) (i + 1) = le16At p i := rfl

@[simp] theorem readPads_cons_succ : readPads (b :: p) (i + 1) = readPads p i := rfl

@[simp] theorem readMeas_cons_succ : readMeas (b :: p) (i + 1) = readMeas p i := rfl

@[simp] theorem readKeyRecord_cons_succ : readKeyRecord (b :: p) (i + 1) = readKeyRecord p i := rfl

end

/-! ### A field at the front -/

theorem toNat_byte {n : Nat} (h : n < 256) : (BitVec.ofNat 8 n).toNat = n := by simpa using h

theorem byteAt_byte1_append {n : Nat} (h : n < 256) (p : List Byte) : byteAt (byte1 n ++ p) 0 = n := toNat_byte h

theorem le16At_cons_cons {n : Nat} (h : n < 65536) (p : List Byte) :
    le16At (BitVec.ofNat 8 n :: BitVec.ofNat 8 (n / 256) :: p) 0 = n := by
  simp only [le16At, byteAt_cons_zero, byteAt_cons_succ, BitVec.toNat_ofNat]
  omega

theorem le24At_cons_cons_cons {n : Nat} (h : n < 16777216) (p : List Byte) :
    le24At (BitVec.ofNat 8 n :: BitVec.ofNat 8 (n / 256) :: BitVec.ofNat 8 (n / 65536) :: p) 0 = n := by
  simp only [le24At, le16At, byteAt_cons_zero, byteAt_cons_succ, BitVec.toNat_ofNat]
  omega

theorem Clock.code_lt (c : Clock) : c.code < 256 := by cases c <;> decide

@[simp] theorem Clock.ofCode_code (c : Clock) : Clock.ofCode c.code = some c := by cases c <;> rfl

/-! ### Lengths -/

@[simp] theorem byte1_length (n : Nat) : (byte1 n).length = 1 := rfl

@[simp] theorem MeasureParams.bytes_length (m : MeasureParams) : m.bytes.length = 7 := rfl

@[simp] theorem KeyRecord.bytes_length (r : KeyRecord) : r.bytes.length = 28 := by
  simp [KeyRecord.bytes, boolByte, le16, le24]

@[simp] theorem RefRecord.bytes_length (r : RefRecord) : r.bytes.length = 8 := rfl

/-! ### Measurement parameters (Table 1-1) -/

theorem inRange_iff (lo hi n : Nat) : inRange lo hi n = true ↔ lo ≤ n ∧ n ≤ hi := by simp [inRange]

theorem MeasureParams.inRange_iff (m : MeasureParams) :
    m.inRange = true ↔ (1 ≤ m.charge ∧ m.charge ≤ 255) ∧ m.trim ≤ 63 ∧ (64 ≤ m.limit ∧ m.limit ≤ 4095) ∧ m.floor < m.limit := by
  simp [MeasureParams.inRange, Machine.inRange_iff, and_assoc]

theorem MeasureParams.bytes_append (m : MeasureParams) (p : List Byte) :
    m.bytes ++ p = BitVec.ofNat 8 m.clock.code :: BitVec.ofNat 8 m.charge :: BitVec.ofNat 8 m.trim :: BitVec.ofNat 8 m.limit ::
      BitVec.ofNat 8 (m.limit / 256) :: BitVec.ofNat 8 m.floor :: BitVec.ofNat 8 (m.floor / 256) :: p := rfl

/-- Parameters in range read back as they were written. -/
theorem readMeas_bytes {m : MeasureParams} (h : m.inRange = true) (p : List Byte) : readMeas (m.bytes ++ p) 0 = m := by
  obtain ⟨hcharge, htrim, hlimit, hfloor⟩ := m.inRange_iff.1 h
  simp [MeasureParams.bytes_append, readMeas, -BitVec.toNat_ofNat, toNat_byte, m.clock.code_lt, show m.charge < 256 by omega,
    show m.trim < 256 by omega, le16At_cons_cons, show m.limit < 65536 by omega, show m.floor < 65536 by omega]

/-- What stands after the parameters is read past their seven bytes. -/
theorem byteAt_meas_append (m : MeasureParams) (p : List Byte) (i : Nat) : byteAt (m.bytes ++ p) (i + 7) = byteAt p i := by
  simp [MeasureParams.bytes_append]

theorem le16At_meas_append (m : MeasureParams) (p : List Byte) (i : Nat) : le16At (m.bytes ++ p) (i + 7) = le16At p i := by
  simp [MeasureParams.bytes_append]

/-! ### The checks of a record, and the record read -/

@[simp] theorem firstBad_nil : firstBad [] = none := rfl

@[simp] theorem firstBad_cons_iff (i : Nat) (ok : Bool) (l : List (Nat × Bool)) :
    firstBad ((i, ok) :: l) = none ↔ ok = true ∧ firstBad l = none := by
  cases ok <;> simp [firstBad]

@[simp] theorem firstBad_append_iff (l l' : List (Nat × Bool)) :
    firstBad (l ++ l') = none ↔ firstBad l = none ∧ firstBad l' = none := by
  induction l with
  | nil => simp
  | cons c l ih =>
    obtain ⟨i, ok⟩ := c
    simp [ih, and_assoc]

theorem byteAt_lt (p : List Byte) (i : Nat) : byteAt p i < 256 := (p.getD i 0).isLt

theorem le24At_lt (p : List Byte) (i : Nat) : le24At p i < 16777216 := by
  have h0 := byteAt_lt p i
  have h1 := byteAt_lt p (i + 1)
  have h2 := byteAt_lt p (i + 2)
  simp only [le24At, le16At]
  omega

/-- A pad set field names a pad exactly when its number is not 0 (R2). -/
theorem readPads_eq_zero_iff (p : List Byte) (i : Nat) : readPads p i = 0 ↔ le24At p i = 0 := by
  rw [← BitVec.toNat_inj, readPads, BitVec.toNat_ofNat, Nat.mod_eq_of_lt (le24At_lt p i)]
  simp

/-- Every parameter passes its check exactly when the clock has a code of Table 1-1 and the parameters read are in range. -/
theorem measChecks_iff (n : Nat) (p : List Byte) (i : Nat) :
    firstBad (measChecks n p i) = none ↔ (Clock.ofCode (byteAt p i)).isSome = true ∧ (readMeas p i).inRange = true := by
  rw [MeasureParams.inRange_iff]
  simp [measChecks, readMeas, inRange_iff]

theorem KeyRecord.inRange_iff (r : KeyRecord) :
    r.inRange = true ↔ r.padSet ≠ 0 ∧ r.meas.inRange = true ∧ r.filterDepth ∈ [1, 2, 4, 8] ∧
      (1 ≤ r.touchThreshold ∧ r.touchThreshold ≤ 2047) ∧ r.releaseThreshold < r.touchThreshold ∧
      (1 ≤ r.debounceIn ∧ r.debounceIn ≤ 15) ∧ (1 ≤ r.debounceOut ∧ r.debounceOut ≤ 15) ∧
      (4 ≤ r.calSamples ∧ r.calSamples ≤ 32) ∧ r.driftInterval ≤ 255 ∧ r.negThreshold ≤ 2047 ∧
      (1 ≤ r.negCount ∧ r.negCount ≤ 15) ∧ r.maxOn ≤ 600 ∧ (1 ≤ r.faultLimit ∧ r.faultLimit ≤ 15) := by
  simp [KeyRecord.inRange, Machine.inRange_iff, and_assoc]

/-- Every field of a SET_KEY passes its check exactly when the key id, the yes-or-no fields and the clock have codes and the record
read is in range (R29, R30). -/
theorem setKeyChecks_iff (p : List Byte) :
    firstBad (setKeyChecks p) = none ↔ byteAt p 0 ≤ 31 ∧ byteAt p 1 ≤ 1 ∧ (Clock.ofCode (byteAt p 5)).isSome = true ∧
      byteAt p 27 ≤ 1 ∧ byteAt p 28 ≤ 1 ∧ (readKeyRecord p 1).inRange = true := by
  rw [KeyRecord.inRange_iff]
  simp only [setKeyChecks, firstBad_append_iff, firstBad_cons_iff, firstBad_nil, measChecks_iff, readKeyRecord, inRange_iff,
    bne_iff_ne, ne_eq, readPads_eq_zero_iff, List.contains_iff_mem, decide_eq_true_eq, Nat.zero_le, true_and, and_true]
  tauto

/-- Every field of a SET_REF passes its check exactly when the clock has a code and the record read is in range (R33). -/
theorem setRefChecks_iff (p : List Byte) :
    firstBad (setRefChecks p) = none ↔ (Clock.ofCode (byteAt p 0)).isSome = true ∧ (readRefRecord p).inRange = true := by
  simp [setRefChecks, measChecks_iff, RefRecord.inRange, readRefRecord, and_assoc]

/-! ### The records of the key table, read back as they were written (Tables 2-1, 2-3) -/

/-- The 28 bytes of a key record, one after the other around its parameters. -/
theorem KeyRecord.bytes_eq (r : KeyRecord) :
    r.bytes = BitVec.ofNat 8 (if r.enabled then 1 else 0) :: BitVec.ofNat 8 r.padSet.toNat ::
      BitVec.ofNat 8 (r.padSet.toNat / 256) :: BitVec.ofNat 8 (r.padSet.toNat / 65536) :: (r.meas.bytes ++
      (byte1 r.filterDepth ++ le16 r.touchThreshold ++ le16 r.releaseThreshold ++ byte1 r.debounceIn ++ byte1 r.debounceOut ++
      byte1 r.calSamples ++ byte1 r.driftInterval ++ le16 r.negThreshold ++ byte1 r.negCount ++ le16 r.maxOn ++ byte1 r.faultLimit ++
      boolByte r.refComp ++ boolByte r.reports)) := by
  simp only [KeyRecord.bytes, boolByte, le24, le16, byte1, List.append_assoc, List.cons_append, List.nil_append]

theorem readPads_cons_cons_cons (set : PadSet) (p : List Byte) :
    readPads (BitVec.ofNat 8 set.toNat :: BitVec.ofNat 8 (set.toNat / 256) :: BitVec.ofNat 8 (set.toNat / 65536) :: p) 0 = set := by
  rw [readPads, le24At_cons_cons_cons set.isLt, BitVec.ofNat_toNat, BitVec.setWidth_eq]

theorem boolByte_toNat_beq (b : Bool) : ((BitVec.ofNat 8 (if b then 1 else 0)).toNat == 1) = b := by cases b <;> rfl

theorem boolByte_toNat_le (b : Bool) : (BitVec.ofNat 8 (if b then 1 else 0)).toNat ≤ 1 := by cases b <;> decide

/-- A key record in range reads back as it was written. -/
theorem readKeyRecord_bytes {r : KeyRecord} (h : r.inRange = true) : readKeyRecord r.bytes 0 = r := by
  obtain ⟨-, hmeas, hdepth, htouch, hrelease, hin, hout, hcal, hdrift, hneg, hcount, hmax, hfault⟩ := r.inRange_iff.1 h
  have hdepth' : r.filterDepth < 256 := by
    simp only [List.mem_cons, List.not_mem_nil, or_false] at hdepth
    omega
  simp (disch := omega) only [KeyRecord.bytes_eq, readKeyRecord, boolByte, le16, byte1, List.cons_append, List.nil_append,
    Nat.zero_add, byteAt_cons_zero, byteAt_cons_succ, le16At_cons_succ, readPads_cons_succ, readMeas_cons_succ, byteAt_meas_append,
    le16At_meas_append, boolByte_toNat_beq, readPads_cons_cons_cons, readMeas_bytes hmeas, toNat_byte, le16At_cons_cons]

/-- The first byte of the parameters is the code of the clock. -/
theorem byteAt_meas_zero (m : MeasureParams) (p : List Byte) : byteAt (m.bytes ++ p) 0 = m.clock.code :=
  toNat_byte m.clock.code_lt

/-- The payload of a SET_KEY reads back as the record it was made of (R31). -/
theorem readKeyRecord_byte1_append {r : KeyRecord} (h : r.inRange = true) (n : Nat) : readKeyRecord (byte1 n ++ r.bytes) 1 = r := by
  rw [byte1, List.singleton_append, readKeyRecord_cons_succ, readKeyRecord_bytes h]

/-- A SET_KEY of a record in range passes its checks (R30). -/
theorem setKeyChecks_bytes (k : KeyId) {r : KeyRecord} (h : r.inRange = true) :
    firstBad (setKeyChecks (byte1 k.val ++ r.bytes)) = none := by
  have hid : byteAt (byte1 k.val ++ r.bytes) 0 ≤ 31 := by
    rw [byteAt_byte1_append (by omega)]
    omega
  refine (setKeyChecks_iff _).2 ⟨hid, ?_, ?_, ?_, ?_, by rw [readKeyRecord_byte1_append h, h]⟩
  all_goals
    simp only [KeyRecord.bytes_eq, boolByte, byte1, le16, List.cons_append, List.nil_append, byteAt_cons_succ, byteAt_cons_zero,
      byteAt_meas_zero, byteAt_meas_append, boolByte_toNat_le, Clock.ofCode_code, Option.isSome_some]

/-- A reference record in range reads back as it was written. -/
theorem readRefRecord_bytes {r : RefRecord} (h : r.inRange = true) : readRefRecord r.bytes = r := by
  simp only [RefRecord.inRange, Bool.and_eq_true, inRange_iff] at h
  obtain ⟨hmeas, -, hcal⟩ := h
  simp (disch := omega) only [RefRecord.bytes, readRefRecord, readMeas_bytes hmeas, byteAt_meas_append, byte1, byteAt_cons_zero, toNat_byte]

/-- A SET_REF of a record in range passes its checks (R33). -/
theorem setRefChecks_bytes {r : RefRecord} (h : r.inRange = true) : firstBad (setRefChecks r.bytes) = none := by
  refine (setRefChecks_iff _).2 ⟨?_, by rwa [readRefRecord_bytes h]⟩
  rw [RefRecord.bytes, byteAt_meas_zero, Clock.ofCode_code, Option.isSome_some]

end Sys2Proof.Machine
end

