-- ==== Sys2Proof/Proofs/Requests.lean ====
section
/-! SUPPORT. A request that a ready part executes, once: its effect on the part before the arrival, and the answer; its refusals. The
effects of tracking do not look at the receiver, the handler and the doze. -/

namespace Sys2Proof.Machine

/-! ### Effects and a request in execution -/

section
variable (r : Request) (s : State)

theorem storeKey_inExecution (k : KeyId) (x : KeyRecord) : storeKey k x (s.inExecution r) = (storeKey k x s).inExecution r := rfl

theorem endTouch_inExecution (k : KeyId) (cause : UpCause) : endTouch k cause (s.inExecution r) = (endTouch k cause s).inExecution r := by
  have hdown : ((s.inExecution r).rt k).downReported = (s.rt k).downReported := rfl
  rw [endTouch, endTouch, hdown]
  split <;> rfl

theorem endIfTouching_inExecution (k : KeyId) (cause : UpCause) :
    endIfTouching k cause (s.inExecution r) = (endIfTouching k cause s).inExecution r := by
  have htouch : (s.inExecution r).touching k = s.touching k := rfl
  rw [endIfTouching, endIfTouching, htouch, endTouch_inExecution]
  split <;> rfl

theorem reconfigure_inExecution (k : KeyId) : reconfigure k (s.inExecution r) = (reconfigure k s).inExecution r := by
  rw [reconfigure, endIfTouching_inExecution]
  rfl

theorem evaluateTouchOnly_inExecution (g : GroupId) :
    evaluateTouchOnly (s.inExecution r) g = (evaluateTouchOnly s g).inExecution r := by
  have htouch : (s.inExecution r).groupTouched g = s.groupTouched g := rfl
  simp only [evaluateTouchOnly, State.inExecution_groups, htouch]
  split <;> rfl

theorem evaluateSliderOf_inExecution (k : KeyId) :
    evaluateSliderOf k (s.inExecution r) = (evaluateSliderOf k s).inExecution r := by
  have hgroup : (s.inExecution r).groupOf k = s.groupOf k := rfl
  rw [evaluateSliderOf, evaluateSliderOf, hgroup]
  split
  · rw [evaluateTouchOnly_inExecution]
  · rfl

end

/-! ### The answer -/

/-- A request whose effect leaves the handler, the transmitter, the engine and the claims alone leaves the part with that effect and
answered. -/
theorem onPart_request_effect {s u : State} {r : Request} {c : ResultCode} {p : List Byte} (h : s.ready = true)
    (hex : executeRequest r (s.inExecution r) = respond r c p (u.inExecution r)) (hh : u.handler = s.handler) (htx : u.tx = s.tx)
    (he : u.engine = s.engine) (hc : u.claims = s.claims) :
    onPart (receiveRequest r) s = .next (u.answered (r.reply c p)) := by
  obtain ⟨-, -, hinbox, hnone, -, hslot, hgrant, -⟩ := (State.ready_iff s).1 h
  have hidle : ({ (u.inExecution r).handler with executing := none } : Handler) = u.handler :=
    Handler.executing_none (hh ▸ hnone)
  rw [onPart_request_answered h hex ⟨(congrArg Handler.inbox hh).trans hinbox, (congrArg Tx.respSlot htx).trans hslot,
    (State.canGrant_congr he hc).trans hgrant, rfl, rfl⟩, hidle]
  rfl

/-! ### The refusals of a request (R141, R142) -/

/-- A request of a length that its rule does not allow. -/
theorem checked_badLength {r : Request} {l st : Bool} {f : List (Nat × Bool)} {g : State → State} {s : State} (hl : l = false) :
    checked r l st f g s = respond r .badLength (byte1 r.payload.length) s := by
  simp [checked, hl]

/-- A request with a field out of range. -/
theorem checked_badField {r : Request} {l st : Bool} {f : List (Nat × Bool)} {g : State → State} {s : State} {i : Nat} (hl : l = true)
    (hst : st = true) (hf : firstBad f = some i) : checked r l st f g s = respond r .badField (byte1 i) s := by
  simp [checked, hl, hst, hf]

end Sys2Proof.Machine
end

