-- ==== Sys2Proof/Proofs/KeyTable.lean ====
section
/-! SUPPORT. The key table: SET_KEY, GET_KEY, SET_REF and GET_REF (spec/02_the_key_table.md). -/

namespace Sys2Proof.Machine

/-! ### The commands and their runs -/

section
variable (tag : Byte) (p : List Byte) (s : State)

theorem exec_setKey : exec (.setKey tag p) s = onPart (receiveRequest { tag := tag, code := 0x10, payload := p }) s := rfl

theorem executeRequest_setKey :
    executeRequest { tag := tag, code := 0x10, payload := p } s = runSetKey { tag := tag, code := 0x10, payload := p } s := rfl

theorem exec_getKey : exec (.getKey tag p) s = onPart (receiveRequest { tag := tag, code := 0x11, payload := p }) s := rfl

theorem executeRequest_getKey :
    executeRequest { tag := tag, code := 0x11, payload := p } s = runGetKey { tag := tag, code := 0x11, payload := p } s := rfl

theorem exec_setRef : exec (.setRef tag p) s = onPart (receiveRequest { tag := tag, code := 0x12, payload := p }) s := rfl

theorem executeRequest_setRef :
    executeRequest { tag := tag, code := 0x12, payload := p } s = runSetRef { tag := tag, code := 0x12, payload := p } s := rfl

theorem exec_getRef : exec (.getRef tag p) s = onPart (receiveRequest { tag := tag, code := 0x13, payload := p }) s := rfl

theorem executeRequest_getRef :
    executeRequest { tag := tag, code := 0x13, payload := p } s = runGetRef { tag := tag, code := 0x13, payload := p } s := rfl

end

theorem keyOf_byte1_append (k : KeyId) (p : List Byte) : keyOf (byte1 k.val ++ p) = k := by
  apply Fin.ext
  rw [keyOf, byteAt_byte1_append (by omega), Fin.val_ofNat, Nat.mod_eq_of_lt k.isLt]

theorem vecSet_getElem_self {α : Type} {n : Nat} (v : Vector α n) (i : Fin n) (x : α) : (vecSet v i x)[i] = x := by
  simp [vecSet]

/-- Evaluating a key's slider changes the runtime records, the groups, the report queue and an ATTN pulse alone. -/
theorem evaluateSliderOf_tracks (k : KeyId) (s : State) : s.Tracks (evaluateSliderOf k s) := by
  unfold evaluateSliderOf
  split
  · exact evaluateTouchOnly_tracks ..
  · exact .refl s

/-! ### Reads -/

section
variable {s : State} (h : s.ready = true) (tag : Byte)
include h

theorem getKey_answered (k : KeyId) :
    exec (.getKey tag (byte1 k.val)) s = .next (s.answered (responseTo tag 0x11 .ok
      (byte1 k.val ++ s.table.keys[k].bytes ++ le16 s.table.keyVersions[k].toNat))) := by
  have hk : keyOf (byte1 k.val) = k := keyOf_byte1_append k []
  have hid : inRange 0 31 (byteAt (byte1 k.val) 0) = true := by
    have hbyte : byteAt (byte1 k.val) 0 = k.val := byteAt_byte1_append (by omega) []
    rw [hbyte, inRange_iff]
    omega
  rw [exec_getKey]
  refine onPart_request_reply h ((executeRequest_getKey ..).trans ((checked_accept rfl rfl (by simp [hid])).trans ?_))
  simp only [hk, State.keyCfg, State.inExecution_table]

theorem getKey_badField (b : Byte) (hb : 32 ≤ b.toNat) :
    exec (.getKey tag [b]) s = .next (s.answered (responseTo tag 0x11 .badField (byte1 1))) := by
  have hid : inRange 0 31 (byteAt [b] 0) = false := by
    rw [Bool.eq_false_iff, ne_eq, inRange_iff, byteAt_cons_zero]
    omega
  have hbad : firstBad [(1, inRange 0 31 (byteAt [b] 0))] = some 1 := by rw [hid]; rfl
  rw [exec_getKey]
  exact onPart_request_reply h ((executeRequest_getKey ..).trans (checked_badField rfl rfl hbad))

theorem getKey_badLength (p : List Byte) (hp : p.length ≠ 1) :
    exec (.getKey tag p) s = .next (s.answered (responseTo tag 0x11 .badLength (byte1 p.length))) := by
  rw [exec_getKey]
  exact onPart_request_reply h ((executeRequest_getKey ..).trans (checked_badLength (beq_false_of_ne hp)))

theorem getRef_answered :
    exec (.getRef tag []) s = .next (s.answered (responseTo tag 0x13 .ok (s.table.ref.bytes ++ le16 s.table.refVersion.toNat))) := by
  rw [exec_getRef]
  exact onPart_request_reply h ((executeRequest_getRef ..).trans (checked_accept rfl rfl rfl))

theorem getRef_badLength (p : List Byte) (hp : p ≠ []) :
    exec (.getRef tag p) s = .next (s.answered (responseTo tag 0x13 .badLength (byte1 p.length))) := by
  rw [exec_getRef]
  exact onPart_request_reply h ((executeRequest_getRef ..).trans
    (checked_badLength (beq_false_of_ne (mt List.eq_nil_of_length_eq_zero hp))))

/-! ### Writes -/

/-- An accepted SET_KEY: the record stored, the reconfiguration effect applied, and the key's slider evaluated (R31). -/
theorem setKey_accepted (k : KeyId) {x : KeyRecord} (hx : x.inRange = true) :
    exec (.setKey tag (byte1 k.val ++ x.bytes)) s = .next (State.answered
      (responseTo tag 0x10 .ok (byte1 k.val ++ le16 (s.table.keyVersions[k] + 1).toNat))
      (evaluateSliderOf k (reconfigure k (storeKey k x s)))) := by
  have htracks : (storeKey k x s).Tracks (evaluateSliderOf k (reconfigure k (storeKey k x s))) :=
    (reconfigure_tracks ..).trans (evaluateSliderOf_tracks ..)
  obtain ⟨-, -, -, -, hengine, hclaims, htable, -, -, -, htx, -, -, hhandler, -⟩ := htracks.fields
  have hversion : (evaluateSliderOf k (reconfigure k (storeKey k x s))).table.keyVersions[k] = s.table.keyVersions[k] + 1 := by
    rw [htable]
    exact vecSet_getElem_self ..
  rw [exec_setKey]
  refine onPart_request_effect h ((executeRequest_setKey ..).trans
    ((checked_accept (by simp) rfl (setKeyChecks_bytes k hx)).trans ?_)) hhandler htx hengine hclaims
  simp only [acceptSetKey, keyOf_byte1_append, readKeyRecord_byte1_append hx, storeKey_inExecution, reconfigure_inExecution, evaluateSliderOf_inExecution,
    State.inExecution_table, hversion]

/-- An accepted SET_REF: the record stored, and the reference back to SETTLING with its drift 0 (R33, R83). -/
theorem setRef_accepted {x : RefRecord} (hx : x.inRange = true) :
    exec (.setRef tag x.bytes) s = .next (State.answered (responseTo tag 0x12 .ok (le16 (s.table.refVersion + 1).toNat))
      (State.setRef (.settled 0) { s with table := { s.table with ref := x, refVersion := s.table.refVersion + 1 } })) := by
  rw [exec_setRef]
  refine onPart_request_effect h ((executeRequest_setRef ..).trans
    ((checked_accept (by simp) rfl (setRefChecks_bytes hx)).trans ?_)) rfl rfl rfl rfl
  simp only [acceptSetRef, readRefRecord_bytes hx]
  rfl

end

/-! ### The obligations -/

/-- Settles O18: each answer of GET_KEY and of GET_REF, and each refusal. -/
theorem keyTableReadsAnswered : Obligations.KeyTableReadsAnswered := by
  intro tag s h
  exact ⟨getKey_answered h tag, KeyRecord.bytes_length, getKey_badField h tag, getKey_badLength h tag, getRef_answered h tag,
    getRef_badLength h tag⟩

/-- Settles O21: the state after an accepted SET_KEY, the slider's evaluation written out in the statement, and after an accepted
SET_REF. -/
theorem keyTableWritesTakeEffect : Obligations.KeyTableWritesTakeEffect := by
  intro tag s h
  exact ⟨fun k _ hx => setKey_accepted h tag k hx, fun _ hx => setRef_accepted h tag hx⟩

end Sys2Proof.Machine
end

