-- ==== Sys2Proof/Proofs/SetPlan.lean ====
section
/-! SUPPORT. SET_PLAN (spec/03_scan_plan_and_sequencer.md, section 3.5): a plan read back from its bytes, its checks, and its effect
by the run state. -/

namespace Sys2Proof.Machine

/-! ### A plan read back as it was written (Tables 3-1 and 3-3) -/

theorem PlanEntry.code_lt (e : PlanEntry) : e.code < 256 := by
  cases e with
  | key k => exact k.isLt.trans (by decide)
  | ref => decide

@[simp] theorem PlanEntry.ofCode_code (e : PlanEntry) : PlanEntry.ofCode e.code = some e := by
  cases e with
  | key k => simp [PlanEntry.ofCode, PlanEntry.code]
  | ref => rfl

/-- An entry's byte on the link (Table 3-1) names that entry. -/
theorem PlanEntry.ofCode_byte (e : PlanEntry) : PlanEntry.ofCode (BitVec.ofNat 8 e.code).toNat = some e := by
  rw [toNat_byte e.code_lt, PlanEntry.ofCode_code]

/-- The bytes of a plan: period, entry count, and one byte for each entry in its order. -/
theorem Plan.bytes_eq (pl : Plan) :
    pl.bytes = BitVec.ofNat 8 pl.period :: BitVec.ofNat 8 (pl.period / 256) :: BitVec.ofNat 8 pl.entries.length ::
      pl.entries.map fun e => BitVec.ofNat 8 e.code := by
  rw [List.map_eq_flatMap]
  rfl

theorem Plan.bytes_length (pl : Plan) : pl.bytes.length = pl.entries.length + 3 := by
  simp [Plan.bytes_eq]

theorem Plan.byteAt_count {pl : Plan} (h : pl.entries.length < 256) : byteAt pl.bytes 2 = pl.entries.length := by
  rw [Plan.bytes_eq, byteAt_cons_succ, byteAt_cons_succ, byteAt_cons_zero, toNat_byte h]

theorem Plan.le16At_period {pl : Plan} (h : pl.period < 65536) : le16At pl.bytes 0 = pl.period := by
  rw [Plan.bytes_eq, le16At_cons_cons h]

/-- The byte at a position in the list of entries plus 3 is the code of that entry (R47). -/
theorem Plan.byteAt_entry (pl : Plan) {i : Nat} (h : i < pl.entries.length) : byteAt pl.bytes (3 + i) = (pl.entries[i]).code := by
  rw [Plan.bytes_eq, Nat.add_comm, byteAt_cons_succ, byteAt_cons_succ, byteAt_cons_succ]
  simp [byteAt, h, Nat.mod_eq_of_lt (PlanEntry.code_lt _)]

/-- A plan whose period fits its field reads back as it was written. -/
theorem readPlan_bytes {pl : Plan} (h : pl.period < 65536) : readPlan pl.bytes = pl := by
  have hentries : (pl.bytes.drop 3).filterMap (fun b => PlanEntry.ofCode b.toNat) = pl.entries := by
    rw [Plan.bytes_eq, List.drop_succ_cons, List.drop_succ_cons, List.drop_succ_cons, List.drop_zero, List.filterMap_map]
    simp only [Function.comp_def, PlanEntry.ofCode_byte, List.filterMap_some]
  rw [readPlan, Plan.le16At_period h, hentries]

/-- Fields pass their checks exactly when each one does. -/
theorem firstBad_eq_none_iff (l : List (Nat × Bool)) : firstBad l = none ↔ ∀ c ∈ l, c.2 = true := by
  induction l with
  | nil => simp
  | cons c l ih =>
    obtain ⟨i, ok⟩ := c
    simp [ih]

/-- A SET_PLAN of 1 to 64 entries and 1 to 1000 ms passes its checks (R47). -/
theorem setPlanChecks_bytes {pl : Plan} (hperiod : 1 ≤ pl.period ∧ pl.period ≤ 1000)
    (hcount : 1 ≤ pl.entries.length ∧ pl.entries.length ≤ 64) : firstBad (setPlanChecks pl.bytes) = none := by
  rw [setPlanChecks, Plan.byteAt_count (by omega), Plan.le16At_period (by omega), firstBad_append_iff]
  refine ⟨by simp [inRange_iff, hperiod, hcount], (firstBad_eq_none_iff _).2 fun c hc => ?_⟩
  obtain ⟨i, hi, rfl⟩ := List.mem_map.1 hc
  rw [Plan.byteAt_entry pl (List.mem_range.1 hi), PlanEntry.ofCode_code, Option.isSome_some]

/-! ### The command and its run -/

section
variable (tag : Byte) (p : List Byte) (s : State)

theorem exec_setPlan : exec (.setPlan tag p) s = onPart (receiveRequest { tag := tag, code := 0x20, payload := p }) s := rfl

theorem executeRequest_setPlan :
    executeRequest { tag := tag, code := 0x20, payload := p } s = runSetPlan { tag := tag, code := 0x20, payload := p } s := rfl

end

/-- SET_PLAN of a plan in range is accepted, in whatever state it is executed (R47). -/
theorem runSetPlan_bytes (tag : Byte) {pl : Plan} (hperiod : 1 ≤ pl.period ∧ pl.period ≤ 1000)
    (hcount : 1 ≤ pl.entries.length ∧ pl.entries.length ≤ 64) (s : State) :
    runSetPlan { tag := tag, code := 0x20, payload := pl.bytes } s =
      acceptSetPlan { tag := tag, code := 0x20, payload := pl.bytes } s :=
  checked_accept (by simp [Plan.bytes_length, Plan.byteAt_count (show pl.entries.length < 256 by omega), Nat.add_comm]) rfl
    (setPlanChecks_bytes hperiod hcount)

/-- The reference when the active plan is replaced (R83), as a change of the tracker's records alone. -/
theorem refPlanChange_eq (es : List PlanEntry) (s : State) :
    refPlanChange es s = { s with track := if .ref ∈ es then s.track else { s.track with ref := .afterReset } } := by
  by_cases hmem : PlanEntry.ref ∈ es <;> simp [refPlanChange, hmem, State.setRef]

/-! ### The effect by the run state (R48) -/

section
variable {s : State} (h : s.ready = true) (tag : Byte) {pl : Plan} (hperiod : 1 ≤ pl.period ∧ pl.period ≤ 1000)
  (hcount : 1 ≤ pl.entries.length ∧ pl.entries.length ≤ 64)
include h hperiod hcount

/-- In STOPPED the plan becomes the active plan, and the pending plan is cleared. -/
theorem setPlan_stopped (hrun : s.seq.runState = .stopped) :
    exec (.setPlan tag pl.bytes) s = .next (State.answered (responseTo tag 0x20 .ok [])
      { s with
        seq := { s.seq with plan := pl, pendingPlan := none }
        track := if .ref ∈ pl.entries then s.track else { s.track with ref := .afterReset } }) := by
  have hfield : pl.period < 65536 := by omega
  rw [exec_setPlan]
  refine onPart_request_effect h ((executeRequest_setPlan ..).trans ((runSetPlan_bytes tag hperiod hcount _).trans ?_)) rfl rfl rfl rfl
  simp only [acceptSetPlan, State.inExecution_seq, if_pos hrun, readPlan_bytes hfield, refPlanChange_eq]
  rfl

/-- In every other run state the plan becomes the pending plan. -/
theorem setPlan_not_stopped (hrun : s.seq.runState ≠ .stopped) :
    exec (.setPlan tag pl.bytes) s =
      .next (State.answered (responseTo tag 0x20 .deferred []) { s with seq := { s.seq with pendingPlan := some pl } }) := by
  have hfield : pl.period < 65536 := by omega
  rw [exec_setPlan]
  refine onPart_request_effect h ((executeRequest_setPlan ..).trans ((runSetPlan_bytes tag hperiod hcount _).trans ?_)) rfl rfl rfl rfl
  simp only [acceptSetPlan, State.inExecution_seq, if_neg hrun, readPlan_bytes hfield]
  rfl

end

/-! ### The obligation -/

/-- Settles O23: the payload is the bytes of the plan, which pass the checks and read back as the plan; the run state decides between
the active and the pending plan. -/
theorem setPlanTakesEffect : Obligations.SetPlanTakesEffect := by
  intro tag pl s h hmin hmax hone hcount p
  have hbytes : p = pl.bytes := by rw [Plan.bytes_eq]; rfl
  rw [hbytes]
  refine ⟨setPlan_stopped h tag ⟨hmin, hmax⟩ ⟨hone, hcount⟩, fun hrun => setPlan_not_stopped h tag ⟨hmin, hmax⟩ ⟨hone, hcount⟩ ?_⟩
  rcases hrun with hscan | hwait
  · rw [hscan]; decide
  · rw [hwait]; decide

end Sys2Proof.Machine
end

