-- ==== Sys2Proof/Proofs/KeyRuntime.lean ====
section
/-! SUPPORT. A key's runtime record after each change of the tracker, once: after a write to the same key and to another, after a
report, and at the end of a touch. -/

namespace Sys2Proof.Machine

/-! ### Entries of a vector -/

section
variable {α : Type} {n : Nat} (v : Vector α n)

theorem vecSet_getElem_ne {i j : Fin n} (h : i ≠ j) (x : α) : (vecSet v i x)[j] = v[j] := by
  have hval : i.val ≠ j.val := fun e => h (Fin.ext e)
  simp [vecSet, hval]

theorem vecSet_vecSet (i : Fin n) (x y : α) : vecSet (vecSet v i x) i y = vecSet v i y := by simp [vecSet]

theorem vecSet_getElem (i : Fin n) : vecSet v i v[i] = v := by simp [vecSet]

end

/-! ### A record written and read -/

section
variable (s : State) (k : KeyId) (r x : KeyRuntime)

@[simp] theorem State.setRt_rt : (s.setRt k r).rt k = r := vecSet_getElem_self ..

theorem State.setRt_rt_ne {j : KeyId} (h : k ≠ j) : (s.setRt k r).rt j = s.rt j := vecSet_getElem_ne _ h _

@[simp] theorem State.setRt_setRt : (s.setRt k r).setRt k x = s.setRt k x := by simp only [State.setRt, vecSet_vecSet]

@[simp] theorem State.setRt_self : s.setRt k (s.rt k) = s := by simp only [State.setRt, State.rt, vecSet_getElem]

@[simp] theorem State.setRt_keyCfg (j : KeyId) : (s.setRt k r).keyCfg j = s.keyCfg j := rfl

theorem State.modRt_eq (f : KeyRuntime → KeyRuntime) : s.modRt k f = s.setRt k (f (s.rt k)) := rfl

@[simp] theorem offer_rt (rep : Report) : (offer rep s).rt k = s.rt k := rfl

@[simp] theorem clearHolder_rt (j : KeyId) : (clearHolder j s).rt k = s.rt k := rfl

/-- A report offered and a record written do not meet. -/
theorem offer_setRt (rep : Report) : (offer rep s).setRt k r = offer rep (s.setRt k r) := rfl

end

/-! ### The end of a touch -/

section
variable (k : KeyId) (cause : UpCause) (s : State)

theorem State.touching_iff : s.touching k = true ↔ (s.rt k).state = .touched ∨ (s.rt k).state = .lifting := by
  rw [State.touching]
  cases (s.rt k).state <;> decide

/-- A touch ends in the states TOUCHED and LIFTING alone. -/
theorem endIfTouching_eq :
    endIfTouching k cause s = if (s.rt k).state = .touched ∨ (s.rt k).state = .lifting then endTouch k cause s else s := by
  simp only [endIfTouching, State.touching_iff]

/-- The end of a touch clears the key's down-reported flag, and nothing else of its record (R66). -/
theorem endTouch_rt : (endTouch k cause s).rt k = { s.rt k with downReported := false } := by
  unfold endTouch
  split
  · simp [State.modRt_eq]
  · next hdown => rw [clearHolder_rt, ← Bool.eq_false_iff.2 hdown]

theorem endTouch_rt_ne {j : KeyId} (h : k ≠ j) : (endTouch k cause s).rt j = s.rt j := by
  unfold endTouch
  split
  · exact State.setRt_rt_ne _ _ _ h
  · rfl

theorem endIfTouching_rt_ne {j : KeyId} (h : k ≠ j) : (endIfTouching k cause s).rt j = s.rt j := by
  unfold endIfTouching
  split
  · exact endTouch_rt_ne k cause s h
  · rfl

end

end Sys2Proof.Machine
end

