-- ==== Sys2Proof/Proofs/KeyResults.lean ====
section
/-! SUPPORT. A plan result for a key (spec/04, sections 4.2 to 4.7): whether it is processed, the faults, and a VALID sample by the
state the key holds. -/

namespace Sys2Proof.Machine

/-! ### A result discarded or processed (R60) -/

section
variable (k : KeyId) (v : Word) (o : MeasureOutcome) (c : Nat) (s : State)

theorem keyResult_discarded (h : o = .aborted ∨ v ≠ s.table.keyVersions[k] ∨ s.table.keys[k].enabled = false) :
    keyResult k v o c s = s := if_pos h

theorem keyResult_processed (ho : o ≠ .aborted) (hv : v = s.table.keyVersions[k]) (he : s.table.keys[k].enabled = true) :
    keyResult k v o c s = processKey k o c s :=
  if_neg fun h => h.elim ho fun h => h.elim (fun hstale => hstale hv) fun hoff => Bool.noConfusion (he.symm.trans hoff)

/-- No outcome and state rule changes the key table, so that the max-on check after it reads the configuration the key had before
(R74). -/
theorem maxOnCheck_outcomeAndState :
    let x := outcomeAndState k o c s
    maxOnCheck k x =
      if ((x.rt k).state = .touched ∨ (x.rt k).state = .lifting) ∧ s.table.keys[k].maxOn ≠ 0 ∧
          s.table.keys[k].maxOn * 100 ≤ (x.uptime - (x.rt k).touchStart).toNat then stickKey k x
      else x := by
  intro x
  have htable : x.table = s.table := by
    obtain ⟨-, -, -, -, -, -, htable, -⟩ := (outcomeAndState_tracks k o c s).fields
    exact htable
  simp only [maxOnCheck, State.touching_iff, State.keyCfg, htable]

end

/-! ### LIMIT and SHORT (R62) -/

section
variable (k : KeyId) (o : MeasureOutcome) (c : Nat) (s : State)

/-- The record of a key after a processed LIMIT or SHORT, its fault limit not considered. -/
def KeyRuntime.failed (r : KeyRuntime) : KeyRuntime := { r with faultStreak := satSucc 255 r.faultStreak, validStreak := 0 }

theorem outcomeAndState_fault (h : o = .limit ∨ o = .short) : outcomeAndState k o c s = faultResult k o c s := by
  rcases h with rfl | rfl <;> rfl

theorem faultResult_eq :
    faultResult k o c s =
      if (s.rt k).state ≠ .faulted ∧ satSucc 255 (s.rt k).faultStreak = s.table.keys[k].faultLimit then
        enterFaulted k o c (s.setRt k (s.rt k).failed)
      else s.setRt k (s.rt k).failed := by
  simp only [faultResult, State.modRt_eq, State.setRt_rt]
  rfl

/-- A key whose touch ends in the fault leaves TOUCHED or LIFTING, and every key becomes FAULTED. -/
theorem enterFaulted_failed :
    enterFaulted k o c (s.setRt k (s.rt k).failed) = offer (.keyFault k o c) (clearHolder k
      ((if (s.rt k).state = .touched ∨ (s.rt k).state = .lifting then endTouch k .fault (s.setRt k (s.rt k).failed)
        else s.setRt k (s.rt k).failed).modRt k fun r =>
          { r with state := .faulted, window := [], debounce := 0, negStreak := 0, calSum := 0, calCount := 0 })) := by
  simp only [enterFaulted, endIfTouching_eq, State.setRt_rt, KeyRuntime.failed]

end

/-! ### A VALID result and the state held (R60, R61) -/

/-- The held difference of R61, by its three ranges. -/
theorem State.compensated_eq (s : State) (k : KeyId) (c : Nat) :
    s.compensated k c = if (s.keyCfg k).refComp then
      (if (c : Int) < s.track.ref.drift then 0 else min ((c : Int) - s.track.ref.drift).toNat 4095) else c := by
  unfold State.compensated clampCount
  split
  · split <;> omega
  · rfl

/-- A count pushed into a window with room, and into a full one. -/
theorem pushCount_eq (depth c : Nat) (w : List Nat) :
    pushCount depth c w = (if w.length < depth then w else w.drop (w.length + 1 - depth)) ++ [c] := by
  unfold pushCount
  split
  · next hroom => rw [Nat.sub_eq_zero_of_le (by omega), List.drop_zero]
  · rfl

/-- The record by which the touch states judge a VALID result: fault streak cleared, compensated count pushed into the window. -/
def State.sampled (s : State) (k : KeyId) (c : Nat) : KeyRuntime :=
  { s.rt k with faultStreak := 0, window := pushCount (s.keyCfg k).filterDepth (s.compensated k c) (s.rt k).window }

section
variable (k : KeyId) (c : Nat) (s : State)

theorem outcomeAndState_valid :
    outcomeAndState k .valid c s = sampleByState k (s.compensated k c) (s.setRt k { s.rt k with faultStreak := 0 }) := rfl

/-- In the touch states the rule of the state is applied to the record judged. -/
theorem pushSample_cleared :
    pushSample k (s.compensated k c) (s.setRt k { s.rt k with faultStreak := 0 }) = s.setRt k (s.sampled k c) := by
  simp [pushSample, State.modRt_eq, State.sampled]

end

section
variable {k : KeyId} {c : Nat} {s : State}

theorem sample_of_faulted (h : (s.rt k).state = .faulted) :
    outcomeAndState k .valid c s = sampleFaulted k (s.setRt k { s.rt k with faultStreak := 0 }) := by
  simp [outcomeAndState_valid, sampleByState, h]

theorem sample_of_settling (h : (s.rt k).state = .settling) :
    outcomeAndState k .valid c s = sampleSettling k (s.compensated k c) (s.setRt k { s.rt k with faultStreak := 0 }) := by
  simp [outcomeAndState_valid, sampleByState, h]

theorem sample_of_released (h : (s.rt k).state = .released) :
    outcomeAndState k .valid c s = sampleReleased k (s.setRt k (s.sampled k c)) := by
  rw [outcomeAndState_valid, ← pushSample_cleared]
  simp [sampleByState, h]

theorem sample_of_pressing (h : (s.rt k).state = .pressing) :
    outcomeAndState k .valid c s = samplePressing k (s.setRt k (s.sampled k c)) := by
  rw [outcomeAndState_valid, ← pushSample_cleared]
  simp [sampleByState, h]

theorem sample_of_held (h : (s.rt k).state = .held) :
    outcomeAndState k .valid c s = sampleHeld k (s.setRt k (s.sampled k c)) := by
  rw [outcomeAndState_valid, ← pushSample_cleared]
  simp [sampleByState, h]

theorem sample_of_touched (h : (s.rt k).state = .touched) :
    outcomeAndState k .valid c s = sampleTouched k (s.setRt k (s.sampled k c)) := by
  rw [outcomeAndState_valid, ← pushSample_cleared]
  simp [sampleByState, h]

theorem sample_of_lifting (h : (s.rt k).state = .lifting) :
    outcomeAndState k .valid c s = sampleLifting k (s.setRt k (s.sampled k c)) := by
  rw [outcomeAndState_valid, ← pushSample_cleared]
  simp [sampleByState, h]

end

/-! ### The rule of each state, for a key whose record is given -/

section
variable (k : KeyId) (w : KeyRuntime) (c : Nat) (s : State)

theorem sampleFaulted_setRt :
    sampleFaulted k (s.setRt k w) =
      if w.validStreak + 1 = s.table.keys[k].faultLimit then
        offer (.keyRecovered k) (s.setRt k { w with
          state := .settling, baseline := none, window := [], calSum := 0, calCount := 0, validStreak := 0, debounce := 0,
          driftCount := 0, negStreak := 0 })
      else s.setRt k { w with validStreak := w.validStreak + 1 } := by
  simp only [sampleFaulted, State.modRt_eq, State.setRt_rt, State.setRt_setRt, offer_rt, offer_setRt]
  rfl

theorem sampleSettling_setRt :
    sampleSettling k c (s.setRt k w) = s.setRt k
      (if w.calCount + 1 = s.table.keys[k].calSamples then
        { w with
          baseline := some ((w.calSum + c) / s.table.keys[k].calSamples), calSum := 0, calCount := 0, window := [], debounce := 0,
          negStreak := 0, driftCount := 0, state := .released }
      else { w with calSum := w.calSum + c, calCount := w.calCount + 1 }) := by
  simp only [sampleSettling, State.modRt_eq, State.setRt_rt, State.setRt_setRt]
  rfl

theorem sampleReleased_setRt :
    sampleReleased k (s.setRt k w) =
      if (s.table.keys[k].touchThreshold : Int) ≤ w.delta then
        if s.table.keys[k].debounceIn = 1 then claimTouch k (s.setRt k { w with state := .pressing, debounce := 1, negStreak := 0 })
        else s.setRt k { w with state := .pressing, debounce := 1, negStreak := 0 }
      else trackReleased k (s.setRt k w) := by
  simp only [sampleReleased, State.modRt_eq, State.setRt_rt, State.setRt_setRt]
  rfl

theorem samplePressing_setRt :
    samplePressing k (s.setRt k w) =
      if (s.table.keys[k].touchThreshold : Int) ≤ w.delta then
        if w.debounce + 1 = s.table.keys[k].debounceIn then claimTouch k (s.setRt k { w with debounce := w.debounce + 1 })
        else s.setRt k { w with debounce := w.debounce + 1 }
      else s.setRt k { w with state := .released, debounce := 0 } := by
  simp only [samplePressing, State.modRt_eq, State.setRt_rt, State.setRt_setRt]
  rfl

theorem sampleHeld_setRt :
    sampleHeld k (s.setRt k w) =
      if (s.table.keys[k].touchThreshold : Int) ≤ w.delta then claimTouch k (s.setRt k w)
      else s.setRt k { w with state := .released, debounce := 0 } := by
  simp only [sampleHeld, State.modRt_eq, State.setRt_rt, State.setRt_setRt]
  rfl

theorem sampleTouched_setRt :
    sampleTouched k (s.setRt k w) =
      if (s.table.keys[k].releaseThreshold : Int) ≤ w.delta then s.setRt k w
      else if s.table.keys[k].debounceOut = 1 then releaseKey k (s.setRt k { w with state := .lifting, debounce := 1 })
      else s.setRt k { w with state := .lifting, debounce := 1 } := by
  simp only [sampleTouched, State.modRt_eq, State.setRt_rt, State.setRt_setRt]
  rfl

theorem sampleLifting_setRt :
    sampleLifting k (s.setRt k w) =
      if (s.table.keys[k].releaseThreshold : Int) ≤ w.delta then s.setRt k { w with state := .touched, debounce := 0 }
      else if w.debounce + 1 = s.table.keys[k].debounceOut then releaseKey k (s.setRt k { w with debounce := w.debounce + 1 })
      else s.setRt k { w with debounce := w.debounce + 1 } := by
  simp only [sampleLifting, State.modRt_eq, State.setRt_rt, State.setRt_setRt]
  rfl

end

/-! ### Negative recalibration and drift (R67 to R69) -/

/-- Recalibration, or drift tracking with the new negative streak. -/
theorem trackReleased_setRt (k : KeyId) (w : KeyRuntime) (s : State) :
    trackReleased k (s.setRt k w) =
      if s.table.keys[k].negThreshold ≠ 0 ∧ w.delta ≤ -(s.table.keys[k].negThreshold : Int) then
        if w.negStreak + 1 = s.table.keys[k].negCount then
          offer (.keyRecal k .negative) (s.setRt k { w with baseline := w.signal, negStreak := 0, driftCount := 0 })
        else s.setRt k (({ w with negStreak := w.negStreak + 1 } : KeyRuntime).drifted s.table.keys[k].driftInterval)
      else s.setRt k (({ w with negStreak := 0 } : KeyRuntime).drifted s.table.keys[k].driftInterval) := by
  simp only [trackReleased, State.modRt_eq, State.setRt_rt, State.setRt_setRt]
  rfl

section
variable {interval : Nat} (w : KeyRuntime)

theorem KeyRuntime.drifted_off (h : interval = 0) : w.drifted interval = w := if_pos h

theorem KeyRuntime.drifted_counting (h : interval ≠ 0) (hn : w.driftCount + 1 ≠ interval) :
    w.drifted interval = { w with driftCount := w.driftCount + 1 } := by
  rw [KeyRuntime.drifted, if_neg h, if_neg hn]

theorem KeyRuntime.drifted_moving (h : interval ≠ 0) (hn : w.driftCount + 1 = interval) {b x : Nat} (hb : w.baseline = some b)
    (hx : w.signal = some x) : w.drifted interval = { w with driftCount := 0, baseline := some (stepTowards b x) } := by
  rw [KeyRuntime.drifted, if_neg h, if_pos hn, hb, hx]

end

/-! ### The obligations -/

/-- Settles O51: a result is discarded by its first three tests; the steps of a processed one; and the rules of a fault and of a
recovery by whether the streak has reached the fault limit. -/
theorem keyResultProcessed : Obligations.KeyResultProcessed := by
  intro k v o c s cfg r
  refine ⟨keyResult_discarded k v o c s, fun ho hv he => ?_, fun ho => ⟨fun hbelow => ?_, fun hstate hlimit => ?_⟩,
    fun hfaulted => ⟨fun hbelow => ?_, fun hlimit => ?_⟩⟩
  · intro x y
    have hmaxOn : maxOnCheck k x = y := maxOnCheck_outcomeAndState k o c s
    have hkey : trackResult (.key k) v o c s = sliderCheck k y :=
      (keyResult_processed k v o c s ho hv he).trans (congrArg (sliderCheck k) hmaxOn)
    exact hkey
  · rw [outcomeAndState_fault k o c s ho, faultResult_eq]
    exact if_neg fun h => hbelow.elim h.1 fun hne => hne h.2
  · rw [outcomeAndState_fault k o c s ho, faultResult_eq, enterFaulted_failed]
    exact if_pos ⟨hstate, hlimit⟩
  · rw [sample_of_faulted hfaulted, sampleFaulted_setRt]
    exact if_neg hbelow
  · rw [sample_of_faulted hfaulted, sampleFaulted_setRt]
    exact if_pos hlimit

/-- Settles O52: the rule of each state, with its thresholds and its debounce count, on the record judged. -/
theorem keySampleFollowsState : Obligations.KeySampleFollowsState := by
  intro k c s cfg r x w
  have hx : x = s.compensated k c := (s.compensated_eq k c).symm
  have hw : w = s.sampled k c := by
    simp only [w, hx, ← pushCount_eq]
    rfl
  clear_value w x
  subst hw hx
  refine ⟨fun h hn => ?_, fun h hn => ?_, fun h hd => ⟨fun hn => ?_, fun hn => ?_⟩, fun h hd => ?_,
    fun h hd => ⟨fun hn => ?_, fun hn => ?_⟩, fun h hd => ?_, fun h hd => ?_, fun h hd => ?_,
    fun h hd => ⟨fun hn => ?_, fun hn => ?_⟩, fun h hd => ?_, fun h hd => ⟨fun hn => ?_, fun hn => ?_⟩, rfl⟩
  · rw [sample_of_settling h, sampleSettling_setRt, if_neg hn]
  · rw [sample_of_settling h, sampleSettling_setRt, if_pos hn]
  · rw [sample_of_released h, sampleReleased_setRt, if_pos hd, if_neg hn]
  · rw [sample_of_released h, sampleReleased_setRt, if_pos hd, if_pos hn]
  · rw [sample_of_pressing h, samplePressing_setRt, if_neg (not_le.2 hd)]
  · rw [sample_of_pressing h, samplePressing_setRt, if_pos hd]
    exact if_neg hn
  · rw [sample_of_pressing h, samplePressing_setRt, if_pos hd]
    exact if_pos hn
  · rw [sample_of_held h, sampleHeld_setRt, if_neg (not_le.2 hd)]
  · rw [sample_of_held h, sampleHeld_setRt, if_pos hd]
  · rw [sample_of_touched h, sampleTouched_setRt, if_pos hd]
  · rw [sample_of_touched h, sampleTouched_setRt, if_neg (not_le.2 hd), if_neg hn]
  · rw [sample_of_touched h, sampleTouched_setRt, if_neg (not_le.2 hd), if_pos hn]
  · rw [sample_of_lifting h, sampleLifting_setRt, if_pos hd]
  · rw [sample_of_lifting h, sampleLifting_setRt, if_neg (not_le.2 hd)]
    exact if_neg hn
  · rw [sample_of_lifting h, sampleLifting_setRt, if_neg (not_le.2 hd)]
    exact if_pos hn


/-- Settles O53: below the touch threshold the key is tracked; the negative delta decides on the streak, the streak on the
recalibration, and the drift interval on what becomes of the baseline without one. -/
theorem releasedKeyTracks : Obligations.ReleasedKeyTracks := by
  intro k c s h cfg r w sample negative streak hbelow
  have hsample : sample = trackReleased k (s.setRt k w) :=
    (sample_of_released h).trans ((sampleReleased_setRt ..).trans (if_neg (not_le.2 hbelow)))
  refine ⟨fun hneg hn => ?_, fun hrecal => ?_⟩
  · rw [hsample, trackReleased_setRt, if_pos hneg]
    exact if_pos hn
  · have hdrift : sample = s.setRt k (({ w with negStreak := streak } : KeyRuntime).drifted cfg.driftInterval) := by
      rw [hsample, trackReleased_setRt]
      by_cases hneg : negative
      · have hstreak : streak = r.negStreak + 1 := if_pos hneg
        rw [if_pos hneg, hstreak]
        exact if_neg (hrecal.resolve_left (not_not.2 hneg))
      · have hstreak : streak = 0 := if_neg hneg
        rw [if_neg hneg, hstreak]
    have hrecord : ∀ {x : KeyRuntime},
        ({ w with negStreak := streak } : KeyRuntime).drifted cfg.driftInterval = x → sample = s.setRt k x :=
      fun hx => hdrift.trans (congrArg (fun x => s.setRt k x) hx)
    exact ⟨fun hoff => hrecord (KeyRuntime.drifted_off _ hoff), fun hon hn => hrecord (KeyRuntime.drifted_counting _ hon hn),
      fun hon hn b x hb hx => hrecord (KeyRuntime.drifted_moving { w with negStreak := streak } hon hn hb hx)⟩

end Sys2Proof.Machine
end

