-- ==== Sys2Proof/Proofs/Reference.lean ====
section
/-! SUPPORT. A plan result for REF (spec/04, section 4.9): the record it leaves, by the state of the reference, and the report it
offers. -/

namespace Sys2Proof.Machine

/-! ### A VALID result, by the state of the reference (R81, R82) -/

section
variable {n c : Nat} {r : RefRuntime}

theorem RefRuntime.sampled_settling (h : r.state = .settling) (hn : r.calCount + 1 ≠ n) :
    r.sampled n c = ({ r with faultStreak := 0, calSum := r.calSum + c, calCount := r.calCount + 1 }, false) := by
  simp [RefRuntime.sampled, h, hn]

theorem RefRuntime.sampled_calibrated (h : r.state = .settling) (hn : r.calCount + 1 = n) :
    r.sampled n c = ({ r with
      faultStreak := 0, baseline := some ((r.calSum + c) / n), calSum := 0, calCount := 0, window := [], state := .ready }, false) := by
  simp [RefRuntime.sampled, h, hn]

/-- The window holds the count just pushed, so it has a mean. -/
theorem windowMean_pushCount (depth c : Nat) (w : List Nat) :
    windowMean (pushCount depth c w) = some ((pushCount depth c w).sum / (pushCount depth c w).length) :=
  if_neg (by simp [pushCount])

theorem RefRuntime.sampled_ready (h : r.state = .ready) {b : Nat} (hb : r.baseline = some b) :
    r.sampled n c = ({ r with
      faultStreak := 0
      window := pushCount 4 c r.window
      drift := (((pushCount 4 c r.window).sum / (pushCount 4 c r.window).length : Nat) : Int) - b }, false) := by
  simp [RefRuntime.sampled, h, hb, refDepth, windowMean_pushCount]

theorem RefRuntime.sampled_faulted (h : r.state = .faulted) (hn : r.validStreak + 1 ≠ 3) :
    r.sampled n c = ({ r with faultStreak := 0, validStreak := r.validStreak + 1 }, false) := by
  simp only [RefRuntime.sampled, h, refFaultLimit, if_neg hn]

theorem RefRuntime.sampled_recovered (h : r.state = .faulted) (hn : r.validStreak + 1 = 3) :
    r.sampled n c = (.settled r.drift, true) := by
  simp only [RefRuntime.sampled, h, refFaultLimit, if_pos hn]

/-! ### A LIMIT or SHORT result (R82) -/

theorem RefRuntime.failed_counted (h : r.state = .faulted ∨ satSucc 255 r.faultStreak ≠ 3) :
    r.failed = ({ r with faultStreak := satSucc 255 r.faultStreak, validStreak := 0 }, false) :=
  if_neg fun hfault => h.elim hfault.1 fun hne => hne hfault.2

theorem RefRuntime.failed_faulted (h : r.state ≠ .faulted) (hn : satSucc 255 r.faultStreak = 3) :
    r.failed = ({ r with faultStreak := 3, validStreak := 0, state := .faulted, window := [], calSum := 0, calCount := 0 }, true) := by
  rw [← hn]
  exact if_pos ⟨h, hn⟩

end

/-! ### The result (R81) -/

section
variable (v : Word) (o : MeasureOutcome) (c : Nat) (s : State)

theorem refResult_discarded (h : o = .aborted ∨ v ≠ s.table.refVersion) : refResult v o c s = s := if_pos h

/-- A result that is not discarded writes the record, and offers a report when the record's rule says so. -/
theorem refResult_valid (hv : v = s.table.refVersion) :
    refResult v .valid c s =
      let x := s.track.ref.started.sampled s.table.ref.calSamples c
      if x.2 then offer .refRecovered (s.setRef x.1) else s.setRef x.1 :=
  if_neg (by simp [hv])

theorem refResult_fault (ho : o = .limit ∨ o = .short) (hv : v = s.table.refVersion) :
    refResult v o c s =
      let x := s.track.ref.started.failed
      if x.2 then offer (.refFault o c) (s.setRef x.1) else s.setRef x.1 := by
  rcases ho with rfl | rfl <;> exact if_neg (by simp [hv])

end

/-! ### The obligation -/

/-- Settles O54: a result that is taken follows the rule of the state the reference has, once UNCALIBRATED has become SETTLING. -/
theorem referenceResultTaken : Obligations.ReferenceResultTaken := by
  intro v o c s r n result
  have hr : s.track.ref.started = r := rfl
  refine ⟨refResult_discarded v o c s, fun hv => ?_⟩
  have hvalid := refResult_valid v c s hv
  have hfault := fun ho => refResult_fault v o c s ho hv
  rw [hr] at hvalid hfault
  refine ⟨fun h hn => ?_, fun h hn => ?_, fun b h hb => ?_, fun h hn => ?_, fun h hn => ?_, fun ho h => ?_, fun ho h hn => ?_⟩
  · rw [RefRuntime.sampled_settling h hn] at hvalid
    exact hvalid
  · rw [RefRuntime.sampled_calibrated h hn] at hvalid
    exact hvalid
  · rw [RefRuntime.sampled_ready h hb, pushCount_eq] at hvalid
    exact hvalid
  · rw [RefRuntime.sampled_faulted h hn] at hvalid
    exact hvalid
  · rw [RefRuntime.sampled_recovered h hn] at hvalid
    exact hvalid
  · rw [RefRuntime.failed_counted h] at hfault
    exact hfault ho
  · rw [RefRuntime.failed_faulted h hn] at hfault
    exact hfault ho

end Sys2Proof.Machine
end

