-- ==== Sys2Proof/Proofs/OutsideEffects.lean ====
section
/-! SUPPORT. The effects from outside (spec/04, section 4.8): reconfiguration, host recalibration, and the stop and unplanned
effects, on one key and over every key. -/

namespace Sys2Proof.Machine

/-! ### On one key (R75 to R78) -/

section
variable {k : KeyId} {cause : UpCause} {s : State}

theorem hostRecal_of_disabled (h : (s.rt k).state = .disabled) : hostRecal s k = s := if_pos h

theorem hostRecal_of_not_disabled (h : (s.rt k).state ≠ .disabled) :
    hostRecal s k = offer (.keyRecal k .host)
      (clearHolder k ((if (s.rt k).state = .touched ∨ (s.rt k).state = .lifting then endTouch k .recal s else s).setRt k
        { KeyRuntime.afterReset true with state := .settling })) := by
  rw [hostRecal, if_neg h, endIfTouching_eq]

theorem reconfigure_eq :
    reconfigure k s = clearHolder k
      ((if (s.rt k).state = .touched ∨ (s.rt k).state = .lifting then endTouch k .reconfigured s else s).setRt k
        (.afterReset s.table.keys[k].enabled)) := by
  rw [reconfigure, endIfTouching_eq]
  rfl

theorem quiesce_of_disabled (h : (s.rt k).state = .disabled) : quiesce cause s k = s := by simp only [quiesce, h]

theorem quiesce_of_settling (h : (s.rt k).state = .settling) :
    quiesce cause s k = s.setRt k { s.rt k with calSum := 0, calCount := 0, window := [], debounce := 0, negStreak := 0 } := by
  simp only [quiesce, h, State.modRt_eq]

theorem quiesce_of_faulted (h : (s.rt k).state = .faulted) :
    quiesce cause s k = s.setRt k { s.rt k with window := [], debounce := 0, negStreak := 0 } := by
  simp only [quiesce, h, State.modRt_eq]

theorem quiesce_of_untouched (h : (s.rt k).state = .released ∨ (s.rt k).state = .pressing ∨ (s.rt k).state = .held) :
    quiesce cause s k =
      clearHolder k (s.setRt k { s.rt k with state := .released, window := [], debounce := 0, negStreak := 0 }) := by
  rcases h with h | h | h <;> simp [quiesce, endIfTouching_eq, State.modRt_eq, h]

theorem quiesce_of_touching (h : (s.rt k).state = .touched ∨ (s.rt k).state = .lifting) :
    quiesce cause s k = clearHolder k ((endTouch k cause s).modRt k fun r =>
      { r with state := .released, window := [], debounce := 0, negStreak := 0 }) := by
  rcases h with h | h <;> simp [quiesce, endIfTouching_eq, h]

end

/-! ### Over every key (R76, R77) -/

/-- What the stop effect makes of a key's record: at rest, its window empty unless it is DISABLED, and its baseline, drift count and
fault streaks kept. -/
structure KeyRuntime.Quieted (r x : KeyRuntime) : Prop where
  state : x.state = .disabled ∨ x.state = .settling ∨ x.state = .released ∨ x.state = .faulted
  baseline : x.baseline = r.baseline
  driftCount : x.driftCount = r.driftCount
  faultStreak : x.faultStreak = r.faultStreak
  validStreak : x.validStreak = r.validStreak
  window : r.state ≠ .disabled → x.window = []

section
variable (cause : UpCause) (s : State) (k : KeyId)

theorem quiesce_rt : (s.rt k).Quieted ((quiesce cause s k).rt k) := by
  cases h : (s.rt k).state with
  | disabled =>
    rw [quiesce_of_disabled h]
    exact ⟨.inl h, rfl, rfl, rfl, rfl, fun hne => absurd h hne⟩
  | settling =>
    rw [quiesce_of_settling h, State.setRt_rt]
    exact ⟨.inr (.inl h), rfl, rfl, rfl, rfl, fun _ => rfl⟩
  | faulted =>
    rw [quiesce_of_faulted h, State.setRt_rt]
    exact ⟨.inr (.inr (.inr h)), rfl, rfl, rfl, rfl, fun _ => rfl⟩
  | released | pressing | held =>
    rw [quiesce_of_untouched (by simp [h]), clearHolder_rt, State.setRt_rt]
    exact ⟨.inr (.inr (.inl rfl)), rfl, rfl, rfl, rfl, fun _ => rfl⟩
  | touched | lifting =>
    rw [quiesce_of_touching (by simp [h]), clearHolder_rt, State.modRt_eq, State.setRt_rt, endTouch_rt]
    exact ⟨.inr (.inr (.inl rfl)), rfl, rfl, rfl, rfl, fun _ => rfl⟩

theorem quiesce_rt_ne {j : KeyId} (h : k ≠ j) : (quiesce cause s k).rt j = s.rt j := by
  unfold quiesce
  split
  · rfl
  · exact State.setRt_rt_ne _ _ _ h
  · exact State.setRt_rt_ne _ _ _ h
  · exact (State.setRt_rt_ne _ _ _ h).trans (endIfTouching_rt_ne k cause s h)

end

/-- An effect on one key at a time, taken over a list of keys without repetition, does to each of them what it does to it alone. -/
theorem foldl_rt {f : State → KeyId → State} {P : KeyRuntime → KeyRuntime → Prop} (hself : ∀ s k, P (s.rt k) ((f s k).rt k))
    (hother : ∀ s {k j}, k ≠ j → (f s k).rt j = s.rt j) {keys : List KeyId} (hkeys : keys.Nodup) {j : KeyId} (s : State) :
    (j ∈ keys → P (s.rt j) ((keys.foldl f s).rt j)) ∧ (j ∉ keys → (keys.foldl f s).rt j = s.rt j) := by
  induction keys generalizing s with
  | nil => exact ⟨fun hj => absurd hj List.not_mem_nil, fun _ => rfl⟩
  | cons k keys ih =>
    obtain ⟨hk, hkeys⟩ := List.nodup_cons.1 hkeys
    obtain ⟨hin, hout⟩ := ih hkeys (f s k)
    rw [List.foldl_cons, List.mem_cons, not_or]
    refine ⟨fun hj => ?_, fun ⟨hne, hj⟩ => (hout hj).trans (hother s (Ne.symm hne))⟩
    by_cases hjk : j = k
    · subst hjk
      rw [hout hk]
      exact hself s j
    · rw [← hother s (Ne.symm hjk)]
      exact hin (hj.resolve_left hjk)

/-- After the stop effect every key's record is quieted. -/
theorem foldl_quiesce_rt (cause : UpCause) (s : State) (j : KeyId) : (s.rt j).Quieted ((allKeys.foldl (quiesce cause) s).rt j) :=
  (foldl_rt (quiesce_rt cause) (fun s _ _ => quiesce_rt_ne cause s _) (List.nodup_finRange 32) s).1 (List.mem_finRange j)

/-! ### The obligation -/

/-- Settles O57: each effect by the state the key holds, and the stop effect over every key, which touches each record once. -/
theorem outsideEffectsApplied : Obligations.OutsideEffectsApplied := by
  intro k cause s r touching fresh
  have hfresh : ∀ enabled, KeyRuntime.afterReset enabled = fresh (if enabled then .settling else .disabled) := fun _ => rfl
  refine ⟨?_, fun h => ⟨hostRecal_of_disabled h, quiesce_of_disabled h⟩, hostRecal_of_not_disabled, quiesce_of_settling,
    quiesce_of_faulted, quiesce_of_untouched, quiesce_of_touching, fun j => ?_⟩
  · rw [← hfresh]
    exact reconfigure_eq
  · have hquiet := foldl_quiesce_rt cause s j
    exact ⟨hquiet.state, hquiet.baseline, hquiet.driftCount, hquiet.faultStreak, hquiet.validStreak, hquiet.window⟩

end Sys2Proof.Machine
end

