-- ==== Sys2Proof/Proofs/KeyReads.lean ====
section
/-! SUPPORT. The requests that select keys and read counters: RECALIBRATE, READ_KEYS (spec/04, section 4.10) and READ_LINK_STATS
(spec/07, section 7.10). -/

namespace Sys2Proof.Machine

/-! ### A selection of keys and a flag -/

/-- The keys that the bits of a number select, in ascending order (R84). -/
def keysOfBits (n : Nat) : List KeyId := allKeys.filter fun k => n.testBit k.val

theorem byteAt_selection (n : Nat) (f : Byte) : byteAt (le32 n ++ [f]) 4 = f.toNat := rfl

/-- A selection reads back as it was written (R84, R85). -/
theorem selected_selection {n : Nat} (hn : n < 4294967296) (f : Byte) : selected (le32 n ++ [f]) = keysOfBits n := by
  have hfield : le32At (le32 n ++ [f]) 0 = n := by
    simp only [le32, le16, le32At, le16At, List.cons_append, List.nil_append, byteAt_cons_zero, byteAt_cons_succ, BitVec.toNat_ofNat]
    omega
  rw [selected, hfield, keysOfBits]

/-- A flag field is in range when it is 0 or 1. -/
theorem inRange_flag (f : Byte) : inRange 0 1 f.toNat = decide (f.toNat ≤ 1) := by simp [inRange]

/-! ### The commands and their runs -/

section
variable (tag : Byte) (p : List Byte) (s : State)

theorem exec_recalibrate : exec (.recalibrate tag p) s = onPart (receiveRequest { tag := tag, code := 0x30, payload := p }) s := rfl

theorem executeRequest_recalibrate :
    executeRequest { tag := tag, code := 0x30, payload := p } s = runRecalibrate { tag := tag, code := 0x30, payload := p } s := rfl

theorem exec_readKeys : exec (.readKeys tag p) s = onPart (receiveRequest { tag := tag, code := 0x31, payload := p }) s := rfl

theorem executeRequest_readKeys :
    executeRequest { tag := tag, code := 0x31, payload := p } s = runReadKeys { tag := tag, code := 0x31, payload := p } s := rfl

theorem exec_readLinkStats :
    exec (.readLinkStats tag p) s = onPart (receiveRequest { tag := tag, code := 0x42, payload := p }) s := rfl

theorem executeRequest_readLinkStats :
    executeRequest { tag := tag, code := 0x42, payload := p } s = runReadLinkStats { tag := tag, code := 0x42, payload := p } s := rfl

end

/-! ### RECALIBRATE (R84) -/

section
variable (r : Request) (s : State) (keys : List KeyId)

theorem hostRecal_inExecution (k : KeyId) : hostRecal (s.inExecution r) k = (hostRecal s k).inExecution r := by
  have hrt : (s.inExecution r).rt k = s.rt k := rfl
  rw [hostRecal, hostRecal, hrt, endIfTouching_inExecution]
  split <;> rfl

/-- The effect of RECALIBRATE on the keys and the sliders; irreducible, so that no comparison of two states runs the two folds. -/
@[irreducible] def recalibrated (keys : List KeyId) (s : State) : State := evaluateAll (keys.foldl hostRecal s)

theorem recalibrated_eq : recalibrated keys s = evaluateAll (keys.foldl hostRecal s) := by
  unfold recalibrated
  rfl

theorem recalibrated_inExecution : recalibrated keys (s.inExecution r) = (recalibrated keys s).inExecution r := by
  rw [recalibrated_eq, recalibrated_eq, evaluateAll, evaluateAll,
    List.foldl_hom (State.inExecution r) (g₁ := hostRecal) (g₂ := hostRecal) (H := hostRecal_inExecution r),
    List.foldl_hom (State.inExecution r) (g₁ := evaluateTouchOnly) (g₂ := evaluateTouchOnly) (H := evaluateTouchOnly_inExecution r)]

theorem recalibrated_tracks : s.Tracks (recalibrated keys s) := by
  rw [recalibrated_eq]
  exact (State.Tracks.foldl hostRecal_tracks keys s).trans (evaluateAll_tracks _)

theorem hostRecal_ref (k : KeyId) : (hostRecal s k).track.ref = s.track.ref := by
  unfold hostRecal endIfTouching endTouch
  split
  · rfl
  · split
    · split <;> rfl
    · rfl

theorem evaluateTouchOnly_ref (g : GroupId) : (evaluateTouchOnly s g).track.ref = s.track.ref := by
  unfold evaluateTouchOnly
  dsimp only
  split <;> rfl

/-- What no single effect changes, effects taken over a list do not change. -/
theorem foldl_ref {α : Type} {f : State → α → State} (hf : ∀ s a, (f s a).track.ref = s.track.ref) (l : List α) (s : State) :
    (l.foldl f s).track.ref = s.track.ref := by
  induction l generalizing s with
  | nil => rfl
  | cons a l ih => exact (ih (f s a)).trans (hf s a)

/-- Neither the keys' effects nor the sliders' reach the reference. -/
theorem recalibrated_ref : (recalibrated keys s).track.ref = s.track.ref := by
  rw [recalibrated_eq, evaluateAll, foldl_ref evaluateTouchOnly_ref, foldl_ref hostRecal_ref]

end

section
variable {s : State} (h : s.ready = true) (tag : Byte) {n : Nat} (hn : n < 4294967296) {f : Byte}
include h

include hn in
/-- An accepted RECALIBRATE: the effect on keys and sliders, then on the reference when the flag is 1. -/
theorem recalibrate_accepted (hf : f.toNat ≤ 1) :
    let keys := keysOfBits n
    let u := recalibrated keys s
    exec (.recalibrate tag (le32 n ++ [f])) s = .next (State.answered
      (responseTo tag 0x30 .ok (byte1 (keys.countP fun k => decide ((s.rt k).state ≠ .disabled))))
      (if f.toNat = 1 then recalibrateRef u else u)) := by
  intro keys u
  obtain ⟨-, -, -, -, hengine, hclaims, -, -, -, -, htx, -, -, hhandler, -⟩ := (recalibrated_tracks s keys).fields
  rw [exec_recalibrate]
  refine onPart_request_effect h ((executeRequest_recalibrate ..).trans
    ((checked_accept rfl rfl (by simp [byteAt_selection, inRange_flag, hf])).trans ?_))
    (by split <;> exact hhandler) (by split <;> exact htx) (by split <;> exact hengine) (by split <;> exact hclaims)
  simp only [acceptRecalibrate, selected_selection hn, byteAt_selection, ← recalibrated_eq, recalibrated_inExecution]
  split <;> rfl

theorem recalibrate_badField (hf : 2 ≤ f.toNat) :
    exec (.recalibrate tag (le32 n ++ [f])) s = .next (s.answered (responseTo tag 0x30 .badField (byte1 2))) := by
  rw [exec_recalibrate]
  refine onPart_request_reply h ((executeRequest_recalibrate ..).trans (checked_badField rfl rfl ?_))
  simp only [byteAt_selection, inRange_flag, firstBad, decide_eq_false (show ¬f.toNat ≤ 1 by omega)]
  rfl

theorem recalibrate_badLength (p : List Byte) (hp : p.length ≠ 5) :
    exec (.recalibrate tag p) s = .next (s.answered (responseTo tag 0x30 .badLength (byte1 p.length))) := by
  rw [exec_recalibrate]
  exact onPart_request_reply h ((executeRequest_recalibrate ..).trans (checked_badLength (beq_false_of_ne hp)))

/-! ### READ_KEYS (R85) -/

theorem readKeys_badLength (p : List Byte) (hp : p.length ≠ 5) :
    exec (.readKeys tag p) s = .next (s.answered (responseTo tag 0x31 .badLength (byte1 p.length))) := by
  rw [exec_readKeys]
  exact onPart_request_reply h ((executeRequest_readKeys ..).trans (checked_badLength (beq_false_of_ne hp)))

section
include hn

theorem readKeys_tooMany (hkeys : 27 < (keysOfBits n).length) :
    exec (.readKeys tag (le32 n ++ [f])) s = .next (s.answered (responseTo tag 0x31 .badField (byte1 1))) := by
  rw [exec_readKeys]
  refine onPart_request_reply h ((executeRequest_readKeys ..).trans (checked_badField rfl rfl ?_))
  simp only [selected_selection hn, firstBad, decide_eq_false (not_le.2 hkeys)]
  rfl

theorem readKeys_badFlag (hkeys : (keysOfBits n).length ≤ 27)
    (hf : 2 ≤ f.toNat ∨ (f = 1 ∧ (keysOfBits n).length = 27)) :
    exec (.readKeys tag (le32 n ++ [f])) s = .next (s.answered (responseTo tag 0x31 .badField (byte1 2))) := by
  rw [exec_readKeys]
  refine onPart_request_reply h ((executeRequest_readKeys ..).trans (checked_badField rfl rfl ?_))
  simp only [selected_selection hn, byteAt_selection, firstBad, hkeys, decide_true, if_true, inRange_flag]
  rcases hf with hf | ⟨rfl, h27⟩
  · simp only [decide_eq_false (show ¬f.toNat ≤ 1 by omega), Bool.false_and]
    rfl
  · rw [h27]
    rfl

/-- An accepted READ_KEYS: at most 27 entries, the reference's counted. -/
theorem readKeys_accepted (hf : (f = 0 ∧ (keysOfBits n).length ≤ 27) ∨
      (f = 1 ∧ (keysOfBits n).length ≤ 26)) :
    exec (.readKeys tag (le32 n ++ [f])) s = .next (s.answered (responseTo tag 0x31 .ok
      ((if f.toNat = 1 then refEntry s.track.ref else []) ++
        (keysOfBits n).flatMap fun k => keyEntry k (s.rt k)))) := by
  rw [exec_readKeys]
  refine onPart_request_reply h ((executeRequest_readKeys ..).trans ((checked_accept rfl rfl ?_).trans ?_))
  · simp only [selected_selection hn, byteAt_selection, firstBad_cons_iff, inRange_flag]
    rcases hf with ⟨rfl, hkeys⟩ | ⟨rfl, hkeys⟩
    · simp [hkeys]
    · simp
      omega
  · simp only [readKeysReply, selected_selection hn, byteAt_selection]
    rfl

end

/-! ### READ_LINK_STATS (R137) -/

theorem readLinkStats_badLength (p : List Byte) (hp : p.length ≠ 1) :
    exec (.readLinkStats tag p) s = .next (s.answered (responseTo tag 0x42 .badLength (byte1 p.length))) := by
  rw [exec_readLinkStats]
  exact onPart_request_reply h ((executeRequest_readLinkStats ..).trans (checked_badLength (beq_false_of_ne hp)))

theorem readLinkStats_badField (hf : 2 ≤ f.toNat) :
    exec (.readLinkStats tag [f]) s = .next (s.answered (responseTo tag 0x42 .badField (byte1 1))) := by
  rw [exec_readLinkStats]
  refine onPart_request_reply h ((executeRequest_readLinkStats ..).trans (checked_badField rfl rfl ?_))
  simp only [byteAt_cons_zero, inRange_flag, firstBad, decide_eq_false (show ¬f.toNat ≤ 1 by omega)]
  rfl

theorem readLinkStats_kept :
    exec (.readLinkStats tag [0]) s = .next (s.answered (responseTo tag 0x42 .ok (linkStats s))) := by
  rw [exec_readLinkStats]
  exact onPart_request_reply h ((executeRequest_readLinkStats ..).trans (checked_accept rfl rfl rfl))

theorem readLinkStats_cleared :
    exec (.readLinkStats tag [1]) s =
      .next (({ s with counters := .zero } : State).answered (responseTo tag 0x42 .ok (linkStats s))) := by
  rw [exec_readLinkStats]
  exact onPart_request_effect h ((executeRequest_readLinkStats ..).trans (checked_accept rfl rfl rfl)) rfl rfl rfl rfl

end

/-! ### The obligations -/

/-- Settles O20: each refusal and each answer of READ_KEYS and of READ_LINK_STATS, the entries written out in the statement. -/
theorem readKeysAndLinkStatsAnswered : Obligations.ReadKeysAndLinkStatsAnswered := by
  intro tag s h
  refine ⟨fun n f hn => ⟨readKeys_tooMany h tag hn, readKeys_badFlag h tag hn, fun hkeys hf => ?_, fun hkeys hf => ?_⟩,
    readKeys_badLength h tag, fun f => ⟨fun hf => ?_, fun hf => ?_, readLinkStats_badField h tag⟩, readLinkStats_badLength h tag⟩
  · have hreply := readKeys_accepted h tag hn (.inl ⟨hf, hkeys⟩)
    subst hf
    exact hreply
  · have hreply := readKeys_accepted h tag hn (.inr ⟨hf, hkeys⟩)
    subst hf
    exact hreply
  · subst hf
    exact readLinkStats_kept h tag
  · subst hf
    exact readLinkStats_cleared h tag

/-- Settles O27: the effect is `recalibrated`, which does not reach the reference, so that the drift kept is the one it had. -/
theorem recalibrateTakesEffect : Obligations.RecalibrateTakesEffect := by
  intro tag n f s h hn keys p u resp
  have hu : u = recalibrated keys s := (recalibrated_eq s keys).symm
  clear_value u
  subst hu
  refine ⟨fun hf => ?_, fun hf => ?_, recalibrate_badField h tag, recalibrate_badLength h tag⟩
  · subst hf
    exact recalibrate_accepted h tag hn (by decide)
  · subst hf
    rw [← recalibrated_ref s keys]
    exact recalibrate_accepted h tag hn (by decide)

end Sys2Proof.Machine
end

