-- ==== Sys2Proof/Proofs/ExclusiveSets.lean ====
section
/-! SUPPORT. The beginning and the end of a touch (spec/04, section 4.5), the group a key is in, and the decision of an exclusive
set (spec/05, section 5.3). -/

namespace Sys2Proof.Machine

/-! ### The group of a key (R87) -/

section
variable {k : KeyId} {s : State}

theorem State.mem_of_groupOf {g : GroupId} (h : s.groupOf k = some g) : k ∈ s.groups[g].config.members := by
  rw [State.groupOf] at h
  have hfound := List.find?_some h
  exact List.contains_iff_mem.1 hfound

theorem State.not_mem_of_groupOf (h : s.groupOf k = none) (g : GroupId) : k ∉ s.groups[g].config.members := fun hk =>
  List.find?_eq_none.1 h g (List.mem_finRange g) (List.contains_iff_mem.2 hk)

theorem State.groupOfKind_eq_some {kind : GroupKind} {g : GroupId} :
    s.groupOfKind kind k = some g ↔ s.groupOf k = some g ∧ s.groups[g].config.kind = kind := by
  rw [State.groupOfKind, Option.filter_eq_some_iff, decide_eq_true_eq]

theorem State.sliderMember_iff :
    s.sliderMember k = true ↔ ∃ g, s.groupOf k = some g ∧ s.groups[g].config.kind = .slider := by
  simp only [State.sliderMember, Option.isSome_iff_exists, State.groupOfKind_eq_some]

end

/-! ### The beginning and the end of a touch (R65, R66, R95) -/

section
variable {k : KeyId} {s : State}

theorem beginTouch_reported (hreports : s.table.keys[k].reports = true) (hslider : s.sliderMember k = false) :
    beginTouch k s = offer (.keyDown k (s.rt k).delta)
      (s.setRt k { s.rt k with state := .touched, debounce := 0, touchStart := s.uptime, downReported := true }) := by
  have hdown : ((s.keyCfg k).reports && !s.sliderMember k) = true := by rw [State.keyCfg, hreports, hslider]; rfl
  rw [beginTouch, if_pos hdown]
  simp only [State.modRt_eq, offer_rt, offer_setRt, State.setRt_rt, State.setRt_setRt]
  rfl

theorem beginTouch_unreported (h : s.table.keys[k].reports = false ∨ s.sliderMember k = true) :
    beginTouch k s =
      s.setRt k { s.rt k with state := .touched, debounce := 0, touchStart := s.uptime, downReported := false } := by
  have hdown : ¬((s.keyCfg k).reports && !s.sliderMember k) = true := by
    rw [State.keyCfg, Bool.and_eq_true, Bool.not_eq_true']
    rintro ⟨hreports, hslider⟩
    rcases h with h | h
    · exact Bool.false_ne_true (h.symm.trans hreports)
    · exact Bool.false_ne_true (hslider.symm.trans h)
  rw [beginTouch, if_neg hdown]
  simp only [State.modRt_eq, State.setRt_rt, State.setRt_setRt]

theorem endTouch_reported {cause : UpCause} (h : (s.rt k).downReported = true) :
    endTouch k cause s = clearHolder k (offer (.keyUp k cause) (s.setRt k { s.rt k with downReported := false })) := by
  rw [endTouch, if_pos h]
  rfl

theorem endTouch_unreported {cause : UpCause} (h : (s.rt k).downReported = false) : endTouch k cause s = clearHolder k s := by
  rw [endTouch, if_neg (Bool.eq_false_iff.1 h)]

/-- Every group keeps its record but for the holder place, vacated where the key held it. -/
theorem clearHolder_eq :
    clearHolder k s =
      { s with groups := vecMap (fun g => { g with holder := if g.holder = some k then none else g.holder }) s.groups } := by
  have hgroup (g : Group) : (if g.holder = some k then { g with holder := none } else g) =
      { g with holder := if g.holder = some k then none else g.holder } := by split <;> rfl
  simp only [clearHolder, hgroup]

end

/-! ### The candidate and its set (R92, R93) -/

section
variable {k : KeyId} {g : GroupId} {s : State}

theorem claimTouch_of_not_exclusive (h : ∀ g, s.groupOf k = some g → s.groups[g].config.kind ≠ .exclusive) :
    claimTouch k s = beginTouch k s := by
  have hnone : s.groupOfKind .exclusive k = none :=
    Option.eq_none_iff_forall_ne_some.2 fun g hg =>
      have ⟨hmember, hkind⟩ := State.groupOfKind_eq_some.1 hg
      h g hmember hkind
  rw [claimTouch, hnone]

theorem claimTouch_of_exclusive (hmember : s.groupOf k = some g) (hkind : s.groups[g].config.kind = .exclusive) :
    claimTouch k s = decideExclusive g k s := by
  rw [claimTouch, State.groupOfKind_eq_some.2 ⟨hmember, hkind⟩]

theorem decideExclusive_vacant (h : s.groups[g].holder = none) : decideExclusive g k s = beginTouch k (setHolder g k s) := by
  rw [decideExclusive, h]

theorem decideExclusive_held {h : KeyId} (hholder : s.groups[g].holder = some h) :
    decideExclusive g k s =
      if (s.rt h).delta + (s.groups[g].config.param : Int) ≤ (s.rt k).delta then
        beginTouch k (setHolder g k (placeHeld h (endTouch h .suppressed s)))
      else placeHeld k s := by
  rw [decideExclusive, hholder]

end

/-! ### The obligation -/

/-- Settles O55: each clause is a case of the beginning or the end of a touch, or of the decision of the key's set. -/
theorem touchesAndExclusiveSets : Obligations.TouchesAndExclusiveSets := by
  intro k s r began slider
  have hslider : s.sliderMember k = true ↔ slider := State.sliderMember_iff
  have hnot : s.sliderMember k = false ↔ ¬slider := by rw [← hslider, Bool.not_eq_true]
  rw [← hnot, ← hslider]
  refine ⟨beginTouch_reported, beginTouch_unreported, fun cause => ⟨endTouch_reported, endTouch_unreported⟩, clearHolder_eq,
    fun g => State.mem_of_groupOf, State.not_mem_of_groupOf, claimTouch_of_not_exclusive, fun g hmember hkind => ?_⟩
  rw [claimTouch_of_exclusive hmember hkind]
  refine ⟨decideExclusive_vacant, fun h hholder => ?_⟩
  rw [decideExclusive_held hholder]
  exact ⟨fun htakes => if_pos htakes, fun hbelow => if_neg (not_le.2 hbelow)⟩

end Sys2Proof.Machine
end

