-- ==== Sys2Proof/Proofs/Sliders.lean ====
section
/-! SUPPORT. Sliders (spec/05, section 5.4): the peak of a list of deltas, the position around it, and what the evaluation of a
group offers. -/

namespace Sys2Proof.Machine

/-! ### The peak member (R96) -/

section
variable {best : Int} {k i : Nat} {ds : List Int}

/-- A largest delta that none of the rest exceeds stays the peak. -/
theorem peakFrom_of_le (h : ∀ d ∈ ds, d ≤ best) : peakFrom best k i ds = k := by
  induction ds generalizing i with
  | nil => rfl
  | cons d ds ih =>
    obtain ⟨hd, hds⟩ := List.forall_mem_cons.1 h
    rw [peakFrom, if_neg (not_lt.2 hd), ih hds]

/-- The peak moves to the first of the largest deltas that follow, if that exceeds the largest so far. -/
theorem peakFrom_of_first {p : Nat} (hp : p < ds.length) (hbest : best < ds[p]) (hmax : ∀ d ∈ ds, d ≤ ds[p])
    (hfirst : ∀ j (hj : j < p), ds[j] < ds[p]) : peakFrom best k i ds = i + p := by
  induction ds generalizing best k i p with
  | nil => exact absurd hp (Nat.not_lt_zero p)
  | cons d ds ih =>
    obtain ⟨-, hrest⟩ := List.forall_mem_cons.1 hmax
    cases p with
    | zero => exact (if_pos hbest).trans (peakFrom_of_le hrest)
    | succ q =>
      have hq : q < ds.length := Nat.lt_of_succ_lt_succ hp
      have later {b : Int} {m : Nat} (hb : b < ds[q]) : peakFrom b m (i + 1) ds = i + (q + 1) := by
        rw [ih hq hb hrest fun j hj => hfirst (j + 1) (Nat.succ_lt_succ hj)]
        omega
      rw [peakFrom]
      split
      · exact later (hfirst 0 q.succ_pos)
      · exact later hbest

/-- The peak is the first of the largest deltas. -/
theorem peakIndex_eq {p : Nat} (hp : p < ds.length) (hmax : ∀ d ∈ ds, d ≤ ds[p]) (hfirst : ∀ j (hj : j < p), ds[j] < ds[p]) :
    peakIndex ds = p := by
  cases ds with
  | nil => exact absurd hp (Nat.not_lt_zero p)
  | cons d ds =>
    obtain ⟨-, hrest⟩ := List.forall_mem_cons.1 hmax
    cases p with
    | zero => exact peakFrom_of_le hrest
    | succ q =>
      have hq : q < ds.length := Nat.lt_of_succ_lt_succ hp
      exact (peakFrom_of_first hq (hfirst 0 q.succ_pos) hrest fun j hj => hfirst (j + 1) (Nat.succ_lt_succ hj)).trans
        (Nat.add_comm 1 q)

end

/-! ### Sums over the members used (R96) -/

/-- The delta of a member as the position counts it: 0 unless it is positive, and 0 past the last member. -/
def posDelta (ds : List Int) (i : Nat) : Nat := (ds.getD i 0).toNat

/-- What a function of the index gives at an index, its left neighbour if there is one, and its right neighbour, added up. -/
def aroundSum (p : Nat) (f : Nat → Nat) : Nat := (if p = 0 then 0 else f (p - 1)) + f p + f (p + 1)

/-- A sum over the entries of a list that meet a condition, as a sum over all its indices. -/
theorem sum_filter_zipIdx (P : Int × Nat → Bool) (f : Int × Nat → Nat) (ds : List Int) (n : Nat) :
    (((ds.zipIdx n).filter P).map f).sum =
      ∑ i ∈ Finset.range ds.length, if P (ds.getD i 0, n + i) then f (ds.getD i 0, n + i) else 0 := by
  induction ds generalizing n with
  | nil => rfl
  | cons d ds ih =>
    have hrest := ih (n + 1)
    simp only [Nat.add_assoc, Nat.add_comm 1] at hrest
    rw [List.zipIdx_cons, List.length_cons, Finset.sum_range_succ', List.filter_cons]
    split
    · next hP => simp [hrest, hP, Nat.add_comm]
    · next hP => simp [hrest, hP]

/-- A sum over the neighbourhood of an index, of a function that is 0 past the range. -/
theorem sum_neighbourhood {f : Nat → Nat} {n p : Nat} (hf : ∀ i, n ≤ i → f i = 0) :
    (∑ i ∈ Finset.range n, if i + 1 = p ∨ i = p ∨ i = p + 1 then f i else 0) = aroundSum p f := by
  have single (j : Nat) : (∑ i ∈ Finset.range n, if i = j then f i else 0) = f j := by
    rw [Finset.sum_ite_eq', ite_eq_left_iff, Finset.mem_range, not_lt]
    exact fun hj => (hf j hj).symm
  have left : (∑ i ∈ Finset.range n, if i + 1 = p then f i else 0) = if p = 0 then 0 else f (p - 1) := by
    cases p with
    | zero => simp
    | succ q => simpa using single q
  rw [aroundSum, ← left, ← single p, ← single (p + 1), ← Finset.sum_add_distrib, ← Finset.sum_add_distrib]
  refine Finset.sum_congr rfl fun i _ => ?_
  split_ifs <;> omega

/-- The deltas used, each weighted by a function of its index, add up around the peak: a member with no positive delta adds 0. -/
theorem sliderUsed_sum (w : Nat → Nat) (ds : List Int) :
    ((sliderUsed ds).map fun q => w q.2 * q.1.toNat).sum = aroundSum (peakIndex ds) fun i => w i * posDelta ds i := by
  have past (i : Nat) (hi : ds.length ≤ i) : w i * posDelta ds i = 0 := by simp [posDelta, hi]
  rw [← sum_neighbourhood past, sliderUsed, sum_filter_zipIdx]
  refine Finset.sum_congr rfl fun i _ => ?_
  by_cases hpos : 0 < ds.getD i 0
  · simp only [hpos, posDelta, Nat.zero_add, Bool.and_eq_true, Bool.or_eq_true, decide_eq_true_eq, and_true, or_assoc]
  · have hzero : posDelta ds i = 0 := Int.toNat_of_nonpos (not_lt.1 hpos)
    simp only [hpos, hzero, decide_false, Bool.and_false, Bool.false_eq_true, if_false, Nat.mul_zero, ite_self]

/-! ### The position (R96) -/

theorem sliderPosition_eq (ds : List Int) :
    sliderPosition ds =
      if aroundSum (peakIndex ds) (posDelta ds) = 0 then 64 * peakIndex ds
      else 64 * aroundSum (peakIndex ds) (fun i => i * posDelta ds i) / aroundSum (peakIndex ds) (posDelta ds) := by
  have hsum := sliderUsed_sum (fun _ => 1) ds
  have hweighted := sliderUsed_sum id ds
  simp only [Nat.one_mul, id_eq] at hsum hweighted
  simp only [sliderPosition, hsum, hweighted]

/-- A mean of indices is at most the last index. -/
theorem aroundSum_weighted_le (ds : List Int) (p : Nat) :
    aroundSum p (fun i => i * posDelta ds i) ≤ (ds.length - 1) * aroundSum p (posDelta ds) := by
  have term (i : Nat) : i * posDelta ds i ≤ (ds.length - 1) * posDelta ds i := by
    by_cases hi : i < ds.length
    · exact Nat.mul_le_mul_right _ (Nat.le_sub_one_of_lt hi)
    · simp [posDelta, not_lt.1 hi]
  simp only [aroundSum, Nat.mul_add]
  refine Nat.add_le_add (Nat.add_le_add ?_ (term p)) (term (p + 1))
  split
  · exact Nat.zero_le _
  · exact term (p - 1)

theorem sliderPosition_le {ds : List Int} (hp : peakIndex ds < ds.length) : sliderPosition ds ≤ 64 * (ds.length - 1) := by
  rw [sliderPosition_eq]
  split
  · omega
  · have hmean := aroundSum_weighted_le ds (peakIndex ds)
    refine Nat.div_le_of_le_mul ?_
    calc 64 * aroundSum (peakIndex ds) (fun i => i * posDelta ds i)
        ≤ 64 * ((ds.length - 1) * aroundSum (peakIndex ds) (posDelta ds)) := Nat.mul_le_mul_left 64 hmean
      _ = aroundSum (peakIndex ds) (posDelta ds) * (64 * (ds.length - 1)) := by ring

/-! ### Evaluation (R97, R98) -/

section
variable {g : GroupId} {s : State}

theorem State.groupTouched_iff :
    s.groupTouched g = true ↔
      ∃ k ∈ s.groups[g].config.members, (s.rt k).state = .touched ∨ (s.rt k).state = .lifting := by
  simp only [State.groupTouched, List.any_eq_true, State.touching_iff]

theorem movedBy_iff {step last position : Nat} :
    movedBy step last position = true ↔ last + step ≤ position ∨ position + step ≤ last := by
  simp only [movedBy, Bool.or_eq_true, decide_eq_true_eq]

/-- A report offered and a group written do not meet. -/
theorem offer_setGroup (rep : Report) (x : Group) : (offer rep s).setGroup g x = offer rep (s.setGroup g x) := rfl

theorem evaluateFull_down (hflag : s.groups[g].touched = false) (htouch : s.groupTouched g = true) :
    evaluateFull g s = offer (.sliderDown g (s.position g))
      (s.setGroup g { s.groups[g] with touched := true, lastPos := s.position g }) := by
  simp only [evaluateFull, if_true, if_false, Bool.false_eq_true, hflag, htouch, offer_setGroup]

theorem evaluateFull_move (hflag : s.groups[g].touched = true) (htouch : s.groupTouched g = true)
    (hfar : movedBy s.groups[g].config.param s.groups[g].lastPos (s.position g) = true) :
    evaluateFull g s = offer (.sliderMove g (s.position g)) (s.setGroup g { s.groups[g] with lastPos := s.position g }) := by
  simp only [evaluateFull, if_true, hflag, htouch, hfar, offer_setGroup]

theorem evaluateFull_near (hflag : s.groups[g].touched = true) (htouch : s.groupTouched g = true)
    (hnear : movedBy s.groups[g].config.param s.groups[g].lastPos (s.position g) = false) : evaluateFull g s = s := by
  simp only [evaluateFull, if_true, if_false, Bool.false_eq_true, hflag, htouch, hnear]

theorem evaluateFull_up (hflag : s.groups[g].touched = true) (htouch : s.groupTouched g = false) :
    evaluateFull g s = offer (.sliderUp g s.groups[g].lastPos) (s.setGroup g { s.groups[g] with touched := false }) := by
  simp only [evaluateFull, if_true, if_false, Bool.false_eq_true, hflag, htouch, offer_setGroup]

theorem evaluateFull_idle (hflag : s.groups[g].touched = false) (htouch : s.groupTouched g = false) : evaluateFull g s = s := by
  simp only [evaluateFull, if_false, Bool.false_eq_true, hflag, htouch]

theorem evaluateTouchOnly_up (hkind : s.groups[g].config.kind = .slider) (hflag : s.groups[g].touched = true)
    (htouch : s.groupTouched g = false) :
    evaluateTouchOnly s g = offer (.sliderUp g s.groups[g].lastPos) (s.setGroup g { s.groups[g] with touched := false }) := by
  simp only [evaluateTouchOnly, hkind, hflag, htouch, offer_setGroup, Bool.not_false, and_self, if_true]

theorem evaluateTouchOnly_nothing
    (h : s.groups[g].config.kind ≠ .slider ∨ s.groups[g].touched = false ∨ s.groupTouched g = true) : evaluateTouchOnly s g = s := by
  refine if_neg fun ⟨hkind, hflag, htouch⟩ => ?_
  rcases h with h | h | h
  · exact h hkind
  · exact Bool.false_ne_true (h.symm.trans hflag)
  · rw [h] at htouch
    exact Bool.false_ne_true htouch

end

/-! ### The obligation -/

/-- Settles O56: the peak of the statement is the peak member, and each clause of the evaluation is a case of the functions. -/
theorem sliderEvaluated : Obligations.SliderEvaluated := by
  constructor
  · intro ds p hp hmax hfirst d sum weighted
    have entry {i : Nat} (hi : i < ds.length) : ds[i] = ds.getD i 0 := by simp [hi]
    have hpeak : peakIndex ds = p := by
      refine peakIndex_eq hp (List.forall_mem_iff_forall_getElem.2 fun i hi => ?_) fun j hj => ?_
      · rw [entry hi, entry hp]
        exact hmax i hi
      · rw [entry (hj.trans hp), entry hp]
        exact hfirst j hj
    subst hpeak
    exact ⟨sliderPosition_eq ds, sliderPosition_le hp⟩
  · intro g s x position touched far
    have htouch : s.groupTouched g = true ↔ touched := State.groupTouched_iff
    have huntouch : s.groupTouched g = false ↔ ¬touched := by rw [← htouch, Bool.not_eq_true]
    have hfar : movedBy x.config.param x.lastPos position = true ↔ far := movedBy_iff
    have hnear : movedBy x.config.param x.lastPos position = false ↔ ¬far := by rw [← hfar, Bool.not_eq_true]
    rw [← huntouch, ← htouch, ← hnear, ← hfar]
    exact ⟨evaluateFull_down, evaluateFull_move, evaluateFull_near, evaluateFull_up, evaluateFull_idle, evaluateTouchOnly_up,
      evaluateTouchOnly_nothing⟩

end Sys2Proof.Machine
end

