-- ==== Sys2Proof/Proofs/QueueOffers.lean ====
section
/-! SUPPORT. An offered report (spec/06, section 6.3): the entries that are reports of a group, coalescing around the group's one
SLIDER_MOVE, and what the queue does in each case of R103. -/

namespace Sys2Proof.Machine

/-! ### The reports of a group -/

section
variable {g : GroupId} {r : Report} {es : List ReportEntry}

theorem Report.isMoveOf_iff : r.isMoveOf g = true ↔ ∃ p, r = .sliderMove g p := by
  cases r <;> simp [Report.isMoveOf]

theorem Report.isEndOf_iff : r.isEndOf g = true ↔ ∃ p, r = .sliderUp g p ∨ r = .sliderDown g p := by
  cases r <;> simp [Report.isEndOf]

theorem hasMove_iff_exists : hasMove g es = true ↔ ∃ x ∈ es, ∃ p, x.report = .sliderMove g p := by
  simp [hasMove, Report.isMoveOf_iff]

theorem hasMove_eq_false_iff : hasMove g es = false ↔ ∀ x ∈ es, ∀ p, x.report ≠ .sliderMove g p := by
  simp [← Bool.not_eq_true, hasMove_iff_exists]

/-- A SLIDER_MOVE is open when it is UNSENT and neither a SLIDER_UP nor a SLIDER_DOWN of its group is newer (R103 case 3). -/
theorem openMove_iff {e : ReportEntry} {old : Nat} (he : e.report = .sliderMove g old) :
    openMove g e es = true ↔ e.sent = false ∧ ¬∃ x ∈ es, ∃ p, x.report = .sliderUp g p ∨ x.report = .sliderDown g p := by
  have hmove : e.report.isMoveOf g = true := Report.isMoveOf_iff.2 ⟨old, he⟩
  simp only [openMove, hmove, Bool.true_and, Bool.and_eq_true, Bool.not_eq_true', ← Bool.not_eq_true, List.any_eq_true,
    Report.isEndOf_iff]

theorem openMove_of_not_isMoveOf {e : ReportEntry} (he : e.report.isMoveOf g = false) : openMove g e es = false := by
  simp [openMove, he]

end

/-! ### Coalescing around the group's SLIDER_MOVE (R105) -/

section
variable {g : GroupId} {older : List ReportEntry}

theorem hasMove_cons (e : ReportEntry) (es : List ReportEntry) :
    hasMove g (e :: es) = (e.report.isMoveOf g || hasMove g es) := rfl

/-- Entries that are no SLIDER_MOVE of the group neither allow coalescing nor forbid it to what is newer. -/
theorem canCoalesce_append (h : hasMove g older = false) (es : List ReportEntry) :
    canCoalesce g (older ++ es) = canCoalesce g es := by
  induction older with
  | nil => rfl
  | cons e older ih =>
    obtain ⟨he, holder⟩ := Bool.or_eq_false_iff.1 (hasMove_cons e older ▸ h)
    rw [List.cons_append, canCoalesce, openMove_of_not_isMoveOf he, Bool.false_or, ih holder]

theorem canCoalesce_of_not_hasMove (h : hasMove g older = false) : canCoalesce g older = false := by
  simpa [canCoalesce] using canCoalesce_append h []

/-- Coalescing passes over entries that are no SLIDER_MOVE of the group. -/
theorem coalesceInto_append (h : hasMove g older = false) (p : Nat) (t : Time) (es : List ReportEntry) :
    coalesceInto g p t (older ++ es) = older ++ coalesceInto g p t es := by
  induction older with
  | nil => rfl
  | cons e older ih =>
    obtain ⟨he, holder⟩ := Bool.or_eq_false_iff.1 (hasMove_cons e older ▸ h)
    simp only [List.cons_append, coalesceInto, openMove_of_not_isMoveOf he, Bool.false_eq_true, if_false, ih holder]

/-- Where one entry may be a SLIDER_MOVE of the group, coalescing is possible exactly when that entry is open. -/
theorem canCoalesce_around {e : ReportEntry} {newer : List ReportEntry} (ho : hasMove g older = false)
    (hn : hasMove g newer = false) : canCoalesce g (older ++ e :: newer) = openMove g e newer := by
  rw [canCoalesce_append ho, canCoalesce, canCoalesce_of_not_hasMove hn, Bool.or_false]

theorem coalesceInto_around {e : ReportEntry} {newer : List ReportEntry} (ho : hasMove g older = false)
    (he : openMove g e newer = true) (p : Nat) (t : Time) :
    coalesceInto g p t (older ++ e :: newer) = older ++ { e with report := .sliderMove g p, time := t } :: newer := by
  rw [coalesceInto_append ho, coalesceInto, if_pos he]

end

/-! ### The cases of an offer (R103) -/

section
variable {q : ReportQueue} {g : GroupId} (p : Nat) (t : Time)

/-- A report that is neither a SLIDER_MOVE nor a SLIDER_UP (case 5 or 6). -/
theorem ReportQueue.offer_other {rep : Report} (hmove : ∀ g p, rep ≠ .sliderMove g p) (hup : ∀ g p, rep ≠ .sliderUp g p) :
    q.offer rep t = q.appendOrLose rep t := by
  unfold ReportQueue.offer
  split
  case h_1 g p => exact absurd rfl (hup g p)
  case h_2 g p => exact absurd rfl (hmove g p)
  case h_3 => rfl

/-- A SLIDER_UP discards its group's hold first (case 1). -/
theorem ReportQueue.offer_sliderUp :
    q.offer (.sliderUp g p) t = (q.setHold g none).appendOrLose (.sliderUp g p) t := rfl

/-- A hold takes the position and the time (case 2, R106). -/
theorem ReportQueue.offerMove_held (h : q.holds[g].isSome = true) :
    q.offerMove g p t = q.setHold g (some { position := p, time := t }) := if_pos h

theorem ReportQueue.offerMove_unheld (h : q.holds[g] = none) :
    q.offerMove g p t =
      if canCoalesce g q.entries then { q with entries := coalesceInto g p t q.entries }
      else if hasMove g q.entries then q.setHold g (some { position := p, time := t })
      else q.appendOrLose (.sliderMove g p) t := if_neg (by simp [h])

/-- A queue without a SLIDER_MOVE of the group appends it or loses it (case 5 or 6). -/
theorem ReportQueue.offerMove_first (h : q.holds[g] = none) (hm : hasMove g q.entries = false) :
    q.offerMove g p t = q.appendOrLose (.sliderMove g p) t := by
  simp only [ReportQueue.offerMove_unheld p t h, canCoalesce_of_not_hasMove hm, hm, Bool.false_eq_true, if_false]

section
variable {older newer : List ReportEntry} {e : ReportEntry} (hq : q.entries = older ++ e :: newer)
  (ho : hasMove g older = false) (hn : hasMove g newer = false) (h : q.holds[g] = none)
include hq ho hn h

/-- The group's open SLIDER_MOVE takes the position and the time (case 3, R105). -/
theorem ReportQueue.offerMove_open (he : openMove g e newer = true) :
    q.offerMove g p t = { q with entries := older ++ { e with report := .sliderMove g p, time := t } :: newer } := by
  rw [ReportQueue.offerMove_unheld p t h, hq, canCoalesce_around ho hn, if_pos he, coalesceInto_around ho he]

/-- A SLIDER_MOVE behind another of the group that is not open becomes the hold (case 4, R106). -/
theorem ReportQueue.offerMove_behind (hmove : e.report.isMoveOf g = true) (he : openMove g e newer = false) :
    q.offerMove g p t = q.setHold g (some { position := p, time := t }) := by
  have hmem : hasMove g (older ++ e :: newer) = true := List.any_eq_true.2 ⟨e, by simp, hmove⟩
  simp only [ReportQueue.offerMove_unheld p t h, hq, canCoalesce_around ho hn, he, hmem, Bool.false_eq_true, if_false, if_true]

end

end

/-! ### The obligation -/

/-- Settles O58: each clause is a case of R103, the appends, losses and holds written out in the statement. -/
theorem queueTakesOffer : Obligations.QueueTakesOffer := by
  refine ⟨fun _ _ => rfl, ?_⟩
  intro q t taken holding
  refine ⟨fun _ hmove hup => ReportQueue.offer_other t hmove hup, fun _ p => ReportQueue.offer_sliderUp p t,
    fun _ p hheld => ReportQueue.offerMove_held p t hheld, ?_,
    fun _ p hnone hmoves => ReportQueue.offerMove_first p t hnone (hasMove_eq_false_iff.2 hmoves)⟩
  intro g p old older newer e hnone hq hmove hmoves behind
  have ho : hasMove g older = false := hasMove_eq_false_iff.2 fun x hx => hmoves x (List.mem_append_left _ hx)
  have hn : hasMove g newer = false := hasMove_eq_false_iff.2 fun x hx => hmoves x (List.mem_append_right _ hx)
  have hopen : openMove g e newer = true ↔ e.sent = false ∧ ¬behind := openMove_iff hmove
  refine ⟨fun hsent hbehind => ReportQueue.offerMove_open p t hq ho hn hnone (hopen.2 ⟨hsent, hbehind⟩), fun hclosed =>
    ReportQueue.offerMove_behind p t hq ho hn hnone (Report.isMoveOf_iff.2 ⟨old, hmove⟩) (Bool.eq_false_iff.2 fun he => ?_)⟩
  obtain ⟨hsent, hbehind⟩ := hopen.1 he
  rcases hclosed with hclosed | hclosed
  · exact Bool.false_ne_true (hsent.symm.trans hclosed)
  · exact hbehind hclosed

end Sys2Proof.Machine
end

