-- ==== Sys2Proof/Proofs/QueueRemoval.lean ====
section
/-! SUPPORT. The removal by an acknowledgement (R111, R127): the entries it leaves, the loss announcement, and the holds released. -/

namespace Sys2Proof.Machine

section
variable {q : ReportQueue} {n : Word} {g : GroupId}

/-- An acknowledgement is in range when it names a SENT entry (R127). -/
theorem ReportQueue.ackInRange_iff : q.ackInRange n = true ↔ ∃ e ∈ q.entries, e.sent = true ∧ e.seq = n := by
  simp [ReportQueue.ackInRange]

/-- The entries newer than the oldest one numbered n are left (R111 step 1). -/
theorem dropThrough_append {gone kept : List ReportEntry} {e : ReportEntry} (he : e.seq = n) (hgone : ∀ x ∈ gone, x.seq ≠ n) :
    dropThrough n (gone ++ e :: kept) = kept := by
  induction gone with
  | nil => exact if_pos he
  | cons x gone ih =>
    obtain ⟨hx, hrest⟩ := List.forall_mem_cons.1 hgone
    rw [List.cons_append, dropThrough, if_neg hx, ih hrest]

@[simp] theorem ReportQueue.announceLost_holds (now : Time) : (q.announceLost now).holds = q.holds := by
  unfold ReportQueue.announceLost
  split <;> rfl

/-! ### A hold released (R111 step 3) -/

theorem ReportQueue.releaseHold_none (h : q.holds[g] = none) : q.releaseHold g = q := by
  simp only [ReportQueue.releaseHold, h]

theorem ReportQueue.releaseHold_some {x : Hold} (h : q.holds[g] = some x) :
    q.releaseHold g =
      if hasMove g q.entries then q else (q.setHold g none).appendOrLose (.sliderMove g x.position) x.time := by
  simp only [ReportQueue.releaseHold, h]

/-- A hold stays while a SLIDER_MOVE of its group is in the queue. -/
theorem ReportQueue.releaseHold_of_hasMove (h : hasMove g q.entries = true) : q.releaseHold g = q := by
  cases hg : q.holds[g] with
  | none => exact ReportQueue.releaseHold_none hg
  | some x => rw [ReportQueue.releaseHold_some hg, if_pos h]

/-- A hold whose group has no SLIDER_MOVE left is appended or lost, at its own time. -/
theorem ReportQueue.releaseHold_taken {x : Hold} (hg : q.holds[g] = some x) (h : hasMove g q.entries = false) :
    q.releaseHold g = (q.setHold g none).appendOrLose (.sliderMove g x.position) x.time := by
  rw [ReportQueue.releaseHold_some hg, h, if_neg Bool.false_ne_true]

theorem ReportQueue.releaseHolds_none (gs : List GroupId) (h : ∀ g : GroupId, q.holds[g] = none) :
    gs.foldl ReportQueue.releaseHold q = q := by
  induction gs with
  | nil => rfl
  | cons g gs ih => rw [List.foldl_cons, ReportQueue.releaseHold_none (h g), ih]

end

/-! ### The obligation -/

/-- Settles O59: the removal is `dropThrough`, then `announceLost`, then `releaseHold` over the groups in ascending order. -/
theorem ackRemovesEntries : Obligations.AckRemovesEntries := by
  intro q n now
  refine ⟨ReportQueue.ackInRange_iff, ?_, fun g =>
    ⟨ReportQueue.releaseHold_none, fun hmove => ReportQueue.releaseHold_of_hasMove (hasMove_iff_exists.2 hmove),
      fun h hg hmoves => ReportQueue.releaseHold_taken hg (hasMove_eq_false_iff.2 hmoves)⟩⟩
  intro gone kept e hq he hgone left
  have hleft : ({ q with entries := dropThrough n q.entries } : ReportQueue).announceLost now = left := by
    rw [hq, dropThrough_append he hgone]
    rfl
  have hremove : q.remove n now = allGroups.foldl ReportQueue.releaseHold left := by rw [ReportQueue.remove, hleft]
  refine ⟨hremove, fun hnone => ?_⟩
  have hholds : left.holds = q.holds := by rw [← hleft, ReportQueue.announceLost_holds]
  rw [hremove, ReportQueue.releaseHolds_none allGroups fun g => by rw [hholds, hnone g]]

end Sys2Proof.Machine
end

