-- ==== Sys2Proof/Proofs/QueueRequests.lean ====
section
/-! SUPPORT. The requests on the report queue: FLUSH_REPORTS (R113) and RESYNC (R133). -/

namespace Sys2Proof.Machine

/-! ### The commands and their runs -/

section
variable (tag : Byte) (p : List Byte) (s : State)

theorem exec_flushReports :
    exec (.flushReports tag p) s = onPart (receiveRequest { tag := tag, code := 0x38, payload := p }) s := rfl

theorem executeRequest_flushReports :
    executeRequest { tag := tag, code := 0x38, payload := p } s = runFlushReports { tag := tag, code := 0x38, payload := p } s := rfl

theorem exec_resync : exec (.resync tag p) s = onPart (receiveRequest { tag := tag, code := 0x40, payload := p }) s := rfl

theorem executeRequest_resync :
    executeRequest { tag := tag, code := 0x40, payload := p } s = runResync { tag := tag, code := 0x40, payload := p } s := rfl

end

/-! ### The queue replaced, and its oldest number -/

/-- A queue replaced with its next sequence number kept starts no ATTN pulse (R156). -/
theorem State.withQueue_of_nextSeq {q : ReportQueue} {s : State} (h : q.nextSeq = s.queue.nextSeq) :
    s.withQueue q = { s with queue := q } := by
  simp [State.withQueue, h]

theorem State.withQueue_flush (s : State) : s.withQueue s.queue.flush = { s with queue := s.queue.flush } :=
  State.withQueue_of_nextSeq rfl

theorem State.withQueue_rewind (s : State) : s.withQueue s.queue.rewind = { s with queue := s.queue.rewind } :=
  State.withQueue_of_nextSeq rfl

theorem ReportQueue.oldestSeq_eq (q : ReportQueue) :
    q.oldestSeq = match q.entries with | [] => q.nextSeq | e :: _ => e.seq := by
  unfold ReportQueue.oldestSeq
  cases q.entries <;> rfl

/-! ### Answers and refusals -/

section
variable {s : State} (h : s.ready = true) (tag : Byte)
include h

/-- An accepted FLUSH_REPORTS: the queue emptied, its next sequence number kept, and the ack timer stopped (R113, R132). -/
theorem flushReports_accepted :
    exec (.flushReports tag []) s = .next (State.answered
      (responseTo tag 0x38 .ok (byte1 s.queue.entries.length ++ le16 s.queue.lost))
      { s with queue := s.queue.flush, delivery := { s.delivery with ackTimer := none } }) := by
  rw [exec_flushReports]
  refine onPart_request_effect h ((executeRequest_flushReports ..).trans ((checked_accept rfl rfl rfl).trans ?_)) rfl rfl rfl rfl
  rw [State.withQueue_flush]
  rfl

/-- An accepted RESYNC: every entry UNSENT, the ack timer stopped, no retry counted, and the link ACTIVE (R133). -/
theorem resync_accepted :
    exec (.resync tag []) s = .next (State.answered
      (responseTo tag 0x40 .ok (le16 s.queue.oldestSeq.toNat ++ byte1 s.queue.entries.length))
      { s with queue := s.queue.rewind, delivery := { s.delivery with ackTimer := none, retries := 0, link := .active } }) := by
  rw [exec_resync]
  refine onPart_request_effect h ((executeRequest_resync ..).trans ((checked_accept rfl rfl rfl).trans ?_)) rfl rfl rfl rfl
  rw [State.withQueue_rewind]
  rfl

theorem flushReports_badLength (p : List Byte) (hp : p ≠ []) :
    exec (.flushReports tag p) s = .next (s.answered (responseTo tag 0x38 .badLength (byte1 p.length))) := by
  rw [exec_flushReports]
  exact onPart_request_reply h ((executeRequest_flushReports ..).trans
    (checked_badLength (beq_false_of_ne (mt List.eq_nil_of_length_eq_zero hp))))

theorem resync_badLength (p : List Byte) (hp : p ≠ []) :
    exec (.resync tag p) s = .next (s.answered (responseTo tag 0x40 .badLength (byte1 p.length))) := by
  rw [exec_resync]
  exact onPart_request_reply h ((executeRequest_resync ..).trans
    (checked_badLength (beq_false_of_ne (mt List.eq_nil_of_length_eq_zero hp))))

end

/-! ### The obligation -/

/-- Settles O28: the flushed and the rewound queue are written out in the statement, the oldest number as a match. -/
theorem flushAndResyncTakeEffect : Obligations.FlushAndResyncTakeEffect := by
  intro tag p s h
  refine ⟨flushReports_accepted h tag, ?_, fun hp => ⟨flushReports_badLength h tag p hp, resync_badLength h tag p hp⟩⟩
  rw [resync_accepted h tag, ReportQueue.oldestSeq_eq]
  rfl

end Sys2Proof.Machine
end

