-- ==== Sys2Proof/Proofs/FlowFrames.lean ====
section
/-! SUPPORT. A flow frame at a part at rest: what its ack and its window leave alone, and that they leave nothing due (R126 to R128). -/

namespace Sys2Proof.Machine

/-! ### What an ack and a window leave alone -/

section
variable (n : Word) (w : Byte) (s : State)

@[simp] theorem takeWindow_queue : (takeWindow w s).queue = s.queue := by
  unfold takeWindow
  split <;> rfl

@[simp] theorem takeWindow_ackTimer : (takeWindow w s).delivery.ackTimer = s.delivery.ackTimer := by
  unfold takeWindow
  split <;> rfl

/-- A window above 8 is out of range and leaves the one that stands (R128). -/
theorem takeWindow_window :
    (takeWindow w s).delivery.window = if w.toNat ≤ 8 then w.toNat else s.delivery.window := by
  unfold takeWindow
  split <;> rfl

/-- An acknowledgement in range changes the queue, an ATTN pulse and the delivery state (R127). -/
theorem takeAckInRange_eq {q : ReportQueue} (hq : s.queue.remove n s.uptime = q) :
    takeAckInRange n s = { s with
      queue := q
      attnPulse := s.attnPulse || (decide (s.outputs.attnMode = .pulse) && decide (q.nextSeq ≠ s.queue.nextSeq))
      delivery := { s.delivery with
        ackTimer := ackTimerAfter q s.linkCfg.settings s.uptime
        retries := 0
        link := .active } } := by
  subst hq
  simp only [takeAckInRange, State.withQueue]

@[simp] theorem takeAck_window : (takeAck n s).delivery.window = s.delivery.window := by
  unfold takeAck
  split <;> rfl

end

/-! ### Nothing is due after them -/

section
variable {s : State}

/-- The idle timer of a part at rest that has reports in its queue stands at 0 (R162). -/
theorem State.idle_of_entries (h : s.idleSettled = true) (hq : s.queue.entries ≠ []) : s.doze.idle = 0 := by
  have hcond : s.entryConditions = false := by simp [State.entryConditions, hq]
  rcases (State.idleSettled_iff s).1 h with hidle | ⟨-, hruns | ⟨-, hentry⟩⟩
  · exact hidle
  · simp [State.idleRuns, hcond] at hruns
  · simp [hcond] at hentry

/-- A change that keeps the engine, the claims, the handler and the transmitter of a part at rest, with the idle timer then 0, makes
nothing due. -/
theorem State.rested_of_idle {t : State} (h : s.rested = true) (he : t.engine = s.engine) (hc : t.claims = s.claims)
    (hh : t.handler = s.handler) (htx : t.tx = s.tx) (hidle : t.doze.idle = 0) : t.rested = true := by
  obtain ⟨hgrant, htake, hreply, -⟩ := (State.rested_iff s).1 h
  refine (State.rested_iff t).2 ⟨?_, ?_, ?_, (State.idleSettled_iff t).2 (.inl hidle)⟩
  · rw [State.canGrant_congr he hc, hgrant]
  · rw [← htake, State.canTake, State.canTake, hh, htx]
  · rw [← hreply, State.canReply, State.canReply, hh, htx]

theorem takeWindow_rested (w : Byte) (h : s.rested = true) : (takeWindow w s).rested = true := by
  rw [← h]
  unfold takeWindow
  split <;> rfl

/-- An acknowledgement may empty the queue, and with it meet the last condition of the idle timer; but it names an entry, beside which
the idle timer stands at 0. -/
theorem takeAck_rested (n : Word) (h : s.rested = true) : (takeAck n s).rested = true := by
  obtain ⟨-, -, -, hsettled⟩ := (State.rested_iff s).1 h
  unfold takeAck
  split
  case isTrue hrange =>
    have hq : s.queue.entries ≠ [] := by
      obtain ⟨e, he, -⟩ := ReportQueue.ackInRange_iff.1 hrange
      exact List.ne_nil_of_mem he
    have hidle : s.doze.idle = 0 := State.idle_of_entries hsettled hq
    rw [takeAckInRange_eq n s rfl]
    exact State.rested_of_idle h rfl rfl rfl rfl hidle
  case isFalse => exact h

theorem takeFlow_rested (flags : Byte) (n : Word) (w : Byte) (h : s.rested = true) : (takeFlow flags n w s).rested = true := by
  have hack : (if flags.getLsbD 0 then takeAck n s else s).rested = true := by
    split
    · exact takeAck_rested n h
    · exact h
  unfold takeFlow
  dsimp only
  split
  · exact takeWindow_rested w hack
  · exact hack

end

/-! ### The frame -/

section
variable (flags : Byte) (n : Word) (w : Byte) (s : State)

theorem exec_flowFrame : exec (.flowFrame flags n w) s = onLink (receiveFlow flags n w) s := rfl

/-- A flow frame of the correct shape that a receiver takes with no reset pending (R119, R120, R149; log entry 6). -/
theorem receiveFlow_taken (hrx : s.rx.state ≠ .disabled) (hreset : s.handler.pendingReset = none) (hf : flags.toNat < 4) :
    receiveFlow flags n w s = takeFlow flags n w (searchAgain s) := by
  simp [receiveFlow, receiving, passFlow, hrx, hreset, Nat.not_le.2 hf]

/-- A flow frame at a part at rest takes its fields, and then the arbiter may start a report. -/
theorem exec_flowFrame_taken (hp : s.phase = .running) (h : s.rested = true) (hrx : s.rx.state ≠ .disabled)
    (hreset : s.handler.pendingReset = none) (hf : flags.toNat < 4) :
    exec (.flowFrame flags n w) s = .next (startIfFree (takeFlow flags n w (searchAgain s))) := by
  have hsearch : (searchAgain s).rested = true := h
  rw [exec_flowFrame, onLink, if_pos hp, receiveFlow_taken flags n w s hrx hreset hf,
    finish_of_rested (takeFlow_rested flags n w hsearch)]

/-! ### The fields each flag asks for (R126) -/

theorem takeFlow_neither : takeFlow 0 n w s = s := rfl

theorem takeFlow_ack : takeFlow 1 n w s = takeAck n s := rfl

theorem takeFlow_window : takeFlow 2 n w s = takeWindow w s := rfl

theorem takeFlow_both : takeFlow 3 n w s = takeWindow w (takeAck n s) := rfl

end

/-! ### The obligation -/

/-- Settles O14: the four shapes of `takeFlow` after `exec_flowFrame_taken`; where no field is taken no report becomes ready. -/
theorem flowFrameTaken : Obligations.FlowFrameTaken := by
  intro flags ack window s h hrx hreset u
  obtain ⟨hp, -, -, -, hstart, -⟩ := (State.runs_iff s).1 h
  have hexec (hf : flags.toNat < 4) :
      exec (.flowFrame flags ack window) s = .next (startIfFree (takeFlow flags ack window u)) :=
    exec_flowFrame_taken flags ack window s hp (State.rested_of_runs h) hrx hreset hf
  have hidle : startIfFree u = u := startIfFree_of_settled hstart
  refine ⟨?_, ?_, ?_, ?_, takeWindow_queue window s, takeWindow_ackTimer window s, ?_⟩
  · rintro rfl
    rw [hexec (by decide), takeFlow_neither, hidle]
  · rintro rfl
    rw [hexec (by decide), takeFlow_ack]
  · rintro rfl
    rw [hexec (by decide), takeFlow_window]
  · rintro rfl
    rw [hexec (by decide), takeFlow_both]
  · rw [takeWindow_window, takeAck_window]

end Sys2Proof.Machine
end

