-- ==== Sys2Proof/Proofs/PartRequests.lean ====
section
/-! SUPPORT. The requests that read the part: IDENTIFY (R146) and READ_STATUS (R147). -/

namespace Sys2Proof.Machine

/-! ### The commands and their runs -/

section
variable (tag : Byte) (p : List Byte) (s : State)

theorem exec_identify : exec (.identify tag p) s = onPart (receiveRequest { tag := tag, code := 0x01, payload := p }) s := rfl

theorem executeRequest_identify :
    executeRequest { tag := tag, code := 0x01, payload := p } s = runIdentify { tag := tag, code := 0x01, payload := p } s := rfl

theorem exec_readStatus : exec (.readStatus tag p) s = onPart (receiveRequest { tag := tag, code := 0x02, payload := p }) s := rfl

theorem executeRequest_readStatus :
    executeRequest { tag := tag, code := 0x02, payload := p } s = runReadStatus { tag := tag, code := 0x02, payload := p } s := rfl

end

/-! ### The SENT and the UNSENT entries (Table 8-5) -/

theorem ReportQueue.length_eq_sent_add_unsent (q : ReportQueue) :
    q.entries.length = (q.entries.countP fun e => e.sent) + q.entries.countP fun e => !e.sent := by
  simpa using q.entries.length_eq_countP_add_countP fun e => e.sent

/-- READ_STATUS' UNSENT byte, a difference in `statusReply`, counts the UNSENT entries. -/
theorem ReportQueue.length_sub_sentCount (q : ReportQueue) :
    q.entries.length - q.sentCount = q.entries.countP fun e => !e.sent := by
  rw [ReportQueue.sentCount, q.length_eq_sent_add_unsent, Nat.add_sub_cancel_left]

/-! ### Answers and refusals -/

section
variable {s : State} (h : s.ready = true) (tag : Byte)
include h

theorem identify_answered : exec (.identify tag []) s = .next (s.answered (responseTo tag 0x01 .ok Config.identity)) := by
  rw [exec_identify]
  exact onPart_request_reply h ((executeRequest_identify ..).trans (checked_accept rfl rfl rfl))

/-- The status is the one of the part before the arrival: the idle timer and the handler, which the arrival changes, are not in it. -/
theorem readStatus_answered : exec (.readStatus tag []) s = .next (s.answered (responseTo tag 0x02 .ok (statusReply s))) := by
  rw [exec_readStatus]
  exact onPart_request_reply h ((executeRequest_readStatus ..).trans (checked_accept rfl rfl rfl))

theorem identify_badLength (p : List Byte) (hp : p ≠ []) :
    exec (.identify tag p) s = .next (s.answered (responseTo tag 0x01 .badLength (byte1 p.length))) := by
  have hlength : p.length ≠ 0 := mt List.eq_nil_of_length_eq_zero hp
  rw [exec_identify]
  exact onPart_request_reply h ((executeRequest_identify ..).trans (checked_badLength (beq_false_of_ne hlength)))

theorem readStatus_badLength (p : List Byte) (hp : p ≠ []) :
    exec (.readStatus tag p) s = .next (s.answered (responseTo tag 0x02 .badLength (byte1 p.length))) := by
  have hlength : p.length ≠ 0 := mt List.eq_nil_of_length_eq_zero hp
  rw [exec_readStatus]
  exact onPart_request_reply h ((executeRequest_readStatus ..).trans (checked_badLength (beq_false_of_ne hlength)))

end

/-! ### The obligation -/

/-- Settles O17: the status is written out in the statement, its UNSENT byte as a count. -/
theorem identifyAndReadStatusAnswered : Obligations.IdentifyAndReadStatusAnswered := by
  intro tag p s h
  refine ⟨identify_answered h tag, ?_, fun hp => ⟨identify_badLength h tag p hp, readStatus_badLength h tag p hp⟩,
    s.queue.length_eq_sent_add_unsent⟩
  rw [readStatus_answered h tag, statusReply, ReportQueue.length_sub_sentCount]
  rfl

end Sys2Proof.Machine
end

