-- ==== Sys2Proof/Proofs/OutputRequests.lean ====
section
/-! SUPPORT. The requests on the output lines: SET_OUTPUTS (R157) and GET_OUTPUTS (R158). -/

namespace Sys2Proof.Machine

/-! ### Output settings read back as they were written (Tables 9-1 and 9-2) -/

theorem LineEntry.code_lt (e : LineEntry) : e.code < 256 := by
  cases e with
  | key k => exact k.isLt.trans (by decide)
  | group g => simp only [LineEntry.code]; omega
  | none => decide

@[simp] theorem LineEntry.ofCode_code (e : LineEntry) : LineEntry.ofCode e.code = some e := by
  cases e with
  | key k => simp [LineEntry.ofCode, LineEntry.code]
  | group g => simp [LineEntry.ofCode, LineEntry.code, show ¬64 + g.val < 32 by omega, show 64 + g.val < 72 by omega]
  | none => rfl

/-- An entry's byte on the link (Table 9-1) names that entry. -/
theorem LineEntry.ofCode_byte (e : LineEntry) : LineEntry.ofCode (BitVec.ofNat 8 e.code).toNat = some e := by
  rw [toNat_byte e.code_lt, LineEntry.ofCode_code]

theorem Polarity.ofCode_byte (x : Polarity) : Polarity.ofCode (BitVec.ofNat 8 x.code).toNat = some x := by
  cases x <;> rfl

theorem AttnMode.ofCode_byte (m : AttnMode) : AttnMode.ofCode (BitVec.ofNat 8 m.code).toNat = some m := by
  cases m <;> rfl

section
variable (o : OutputSettings) (n : Fin 4)

theorem OutputSettings.ofCode_bank0 : LineEntry.ofCode (byteAt o.bytes n.val) = some o.bank0[n] := by
  fin_cases n <;> exact LineEntry.ofCode_byte _

theorem OutputSettings.ofCode_bank1 : LineEntry.ofCode (byteAt o.bytes (4 + n.val)) = some o.bank1[n] := by
  fin_cases n <;> exact LineEntry.ofCode_byte _

theorem OutputSettings.ofCode_polarity : Polarity.ofCode (byteAt o.bytes 8) = some o.polarity := Polarity.ofCode_byte _

theorem OutputSettings.ofCode_attnMode : AttnMode.ofCode (byteAt o.bytes 9) = some o.attnMode := AttnMode.ofCode_byte _

end

theorem vecOf_getElem {α : Type} {n : Nat} (v : Vector α n) : (vecOf fun i => v[i]) = v := by
  ext i hi
  simp [vecOf]

/-- Output settings read back as they were written. -/
theorem readOutputs_bytes (o : OutputSettings) : readOutputs o.bytes = o := by
  simp only [readOutputs, OutputSettings.ofCode_bank0, OutputSettings.ofCode_bank1, OutputSettings.ofCode_polarity,
    OutputSettings.ofCode_attnMode, Option.getD_some, vecOf_getElem]

/-- Output settings pass the checks of SET_OUTPUTS as they were written (R157). -/
theorem setOutputsChecks_bytes (o : OutputSettings) : firstBad (setOutputsChecks o.bytes) = none := by
  have hentry : ∀ i < 8, (LineEntry.ofCode (byteAt o.bytes i)).isSome = true := fun i hi => by
    rcases Nat.lt_or_ge i 4 with hlow | hhigh
    · rw [o.ofCode_bank0 ⟨i, hlow⟩, Option.isSome_some]
    · obtain ⟨j, rfl⟩ := Nat.exists_eq_add_of_le hhigh
      rw [o.ofCode_bank1 ⟨j, by omega⟩, Option.isSome_some]
  rw [setOutputsChecks, firstBad_append_iff]
  refine ⟨(firstBad_eq_none_iff _).2 fun c hc => ?_, by simp [o.ofCode_polarity, o.ofCode_attnMode]⟩
  obtain ⟨i, hi, rfl⟩ := List.mem_map.1 hc
  exact hentry i (List.mem_range.1 hi)

/-! ### The active lines (R158) -/

/-- The bits of a finite family added up, each at its place, are the number with those bits. -/
theorem sum_finRange_eq_ofBits {n : Nat} (f : Fin n → Bool) :
    ((List.finRange n).map fun i => if f i then 2 ^ i.val else 0).sum = Nat.ofBits f := by
  induction n with
  | zero => rfl
  | succ n ih =>
    calc
      _ = (f 0).toNat + ((List.finRange n).map fun i => 2 * if (f ∘ Fin.succ) i then 2 ^ i.val else 0).sum := by
        simp [List.finRange_succ, Function.comp_def, Nat.pow_succ', Bool.toNat, Bool.cond_eq_ite]
      _ = Nat.ofBits f := by rw [List.sum_map_mul_left, ih, Nat.ofBits_succ, Nat.add_comm]

theorem State.activeLines_eq_ofBits (s : State) : s.activeLines = Nat.ofBits s.lineActive := sum_finRange_eq_ofBits _

theorem State.activeLines_lt (s : State) : s.activeLines < 16 := by
  rw [State.activeLines_eq_ofBits]
  exact Nat.ofBits_lt_two_pow _

theorem State.activeLines_testBit (s : State) (n : Fin 4) : s.activeLines.testBit n.val = s.lineActive n := by
  rw [State.activeLines_eq_ofBits, Nat.testBit_ofBits_lt _ _ n.isLt]

/-! ### The commands and their runs -/

section
variable (tag : Byte) (p : List Byte) (s : State)

theorem exec_setOutputs : exec (.setOutputs tag p) s = onPart (receiveRequest { tag := tag, code := 0x48, payload := p }) s := rfl

theorem executeRequest_setOutputs :
    executeRequest { tag := tag, code := 0x48, payload := p } s = runSetOutputs { tag := tag, code := 0x48, payload := p } s := rfl

theorem exec_getOutputs : exec (.getOutputs tag p) s = onPart (receiveRequest { tag := tag, code := 0x49, payload := p }) s := rfl

theorem executeRequest_getOutputs :
    executeRequest { tag := tag, code := 0x49, payload := p } s = runGetOutputs { tag := tag, code := 0x49, payload := p } s := rfl

end

/-! ### Answers and refusals -/

section
variable {s : State} (h : s.ready = true) (tag : Byte)
include h

theorem setOutputs_accepted (o : OutputSettings) :
    exec (.setOutputs tag o.bytes) s = .next (State.answered (responseTo tag 0x48 .ok []) (setOutputSettings o s)) := by
  rw [exec_setOutputs]
  refine onPart_request_effect h ((executeRequest_setOutputs ..).trans
    ((checked_accept rfl rfl (setOutputsChecks_bytes o)).trans ?_)) rfl rfl rfl rfl
  simp only [readOutputs_bytes]
  rfl

/-- The levels are those of the part before the arrival: neither the receiver, the idle timer nor the handler is in them. -/
theorem getOutputs_answered :
    exec (.getOutputs tag []) s = .next (s.answered (responseTo tag 0x49 .ok
      (s.outputs.bytes ++ boolByte s.pins.bselHigh ++ byte1 s.activeLines ++ boolByte s.attnLow))) := by
  rw [exec_getOutputs]
  exact onPart_request_reply h ((executeRequest_getOutputs ..).trans (checked_accept rfl rfl rfl))

theorem getOutputs_badLength (p : List Byte) (hp : p ≠ []) :
    exec (.getOutputs tag p) s = .next (s.answered (responseTo tag 0x49 .badLength (byte1 p.length))) := by
  have hlength : p.length ≠ 0 := mt List.eq_nil_of_length_eq_zero hp
  rw [exec_getOutputs]
  exact onPart_request_reply h ((executeRequest_getOutputs ..).trans (checked_badLength (beq_false_of_ne hlength)))

end

/-! ### The obligation -/

/-- Settles O30: the ten bytes are those of the settings, which pass the checks and read back; the active lines byte is the number whose
bits are the activity of the lines. -/
theorem outputsRequestsTakeEffect : Obligations.OutputsRequestsTakeEffect := by
  intro tag o s h bytes
  have hbytes (x : OutputSettings) : bytes x = x.bytes := rfl
  rw [hbytes, hbytes]
  exact ⟨setOutputs_accepted h tag o, getOutputs_answered h tag, getOutputs_badLength h tag, s.activeLines_lt, s.activeLines_testBit⟩

end Sys2Proof.Machine
end

