-- ==== Sys2Proof/Proofs/WakeResults.lean ====
section
/-! SUPPORT. A wake result (spec/10, section 10.4): the record it leaves, by the outcome and the baseline, and the wake it begins
(section 10.5). -/

namespace Sys2Proof.Machine

/-! ### The wake set record after a result (R166) -/

section
variable {d : DozeSettings} {c : Nat} {w : WakeRecord}

theorem WakeRecord.sampled_calibrating (hb : w.baseline = none) (hn : w.calCount + 1 ≠ d.calSamples) :
    w.sampled d c = ({ w with faultStreak := 0, signal := some c, calSum := w.calSum + c, calCount := w.calCount + 1 }, false) := by
  simp only [WakeRecord.sampled, hb, if_neg hn]

theorem WakeRecord.sampled_calibrated (hb : w.baseline = none) (hn : w.calCount + 1 = d.calSamples) :
    w.sampled d c = ({ w with
      faultStreak := 0
      signal := some c
      baseline := some ((w.calSum + c) / d.calSamples)
      calSum := 0
      calCount := 0
      touchStreak := 0
      driftCount := 0 }, false) := by
  simp only [WakeRecord.sampled, hb, if_pos hn]

theorem WakeRecord.sampled_touching {b : Nat} (hb : w.baseline = some b) (hc : b + d.threshold ≤ c)
    (hn : w.touchStreak + 1 ≠ d.debounce) :
    w.sampled d c = ({ w with faultStreak := 0, signal := some c, touchStreak := w.touchStreak + 1 }, false) := by
  simp only [WakeRecord.sampled, hb, if_pos hc, decide_eq_false hn]

theorem WakeRecord.sampled_touched {b : Nat} (hb : w.baseline = some b) (hc : b + d.threshold ≤ c)
    (hn : w.touchStreak + 1 = d.debounce) :
    w.sampled d c = ({ w with faultStreak := 0, signal := some c, touchStreak := w.touchStreak + 1 }, true) := by
  simp only [WakeRecord.sampled, hb, if_pos hc, decide_eq_true hn]

theorem WakeRecord.sampled_below {b : Nat} (hb : w.baseline = some b) (hc : c < b + d.threshold) (hn : w.driftCount + 1 ≠ 8) :
    w.sampled d c =
      ({ w with faultStreak := 0, signal := some c, touchStreak := 0, driftCount := w.driftCount + 1 }, false) := by
  simp only [WakeRecord.sampled, hb, if_neg (Nat.not_le.2 hc), if_neg hn]

theorem WakeRecord.sampled_drifted {b : Nat} (hb : w.baseline = some b) (hc : c < b + d.threshold) (hn : w.driftCount + 1 = 8) :
    w.sampled d c = ({ w with
      faultStreak := 0
      signal := some c
      touchStreak := 0
      driftCount := 0
      baseline := some (stepTowards b c) }, false) := by
  simp only [WakeRecord.sampled, hb, if_neg (Nat.not_le.2 hc), if_pos hn]

end

/-! ### The result (R166) -/

section
variable (o : MeasureOutcome) (c : Nat) {s : State}

theorem wakeResult_discarded (h : s.doze.state ≠ .dozing) : wakeResult o c s = s := if_pos h

theorem wakeResult_aborted (s : State) : wakeResult .aborted c s = s := ite_id _

/-- A LIMIT or SHORT result writes the record, and begins a wake when the fault streak becomes 4. -/
theorem wakeResult_fault (h : s.doze.state = .dozing) (ho : o = .limit ∨ o = .short) :
    wakeResult o c s =
      let failed := s.setWake { s.doze.wake with faultStreak := s.doze.wake.faultStreak + 1, touchStreak := 0 }
      if s.doze.wake.faultStreak + 1 = 4 then beginWake .fault failed else failed := by
  rcases ho with rfl | rfl <;> simp [wakeResult, WakeRecord.failed, h]

/-- A VALID result writes the record, and begins a wake when the record says that the debounce is complete. -/
theorem wakeResult_valid (h : s.doze.state = .dozing) {w : WakeRecord} {wakes : Bool}
    (hw : s.doze.wake.sampled s.doze.settings c = (w, wakes)) :
    wakeResult .valid c s = if wakes then beginWake .touch (s.setWake w) else s.setWake w := by
  simp only [wakeResult, h, hw, ne_eq, not_true_eq_false, if_false]

end

/-! ### The wake it begins (R167) -/

theorem requestAbort_eq (kind : OwnerKind) (s : State) :
    requestAbort kind s =
      { s with engine := if s.engine.phase ≠ .idle ∧ s.engine.ownerKind = kind then s.engine.aborted else s.engine } := by
  unfold requestAbort
  split <;> rfl

theorem beginWake_eq (cause : WakeCause) (s : State) :
    beginWake cause s = { s with
      doze := { s.doze with cause := some cause, interval := none, state := .waking }
      claims := { s.claims with wake := false }
      engine := if s.engine.phase ≠ .idle ∧ s.engine.ownerKind = .wake then s.engine.aborted else s.engine } :=
  requestAbort_eq ..

/-! ### The obligation -/

/-- Settles O45: in DOZING a result follows the rule of its outcome, a VALID one that of the baseline; only a complete debounce or a
fault streak of 4 begins a wake. -/
theorem wakeResultTaken : Obligations.WakeResultTaken := by
  intro s c o w d valid
  refine ⟨wakeResult_discarded o c, fun h => ?_, fun cause => beginWake_eq cause s⟩
  have hvalid := @wakeResult_valid c s h
  exact ⟨wakeResult_aborted c s,
    fun ho =>
      have hfault := wakeResult_fault o c h ho
      ⟨fun hn => hfault.trans (if_pos hn), fun hn => hfault.trans (if_neg hn)⟩,
    fun hb hn => hvalid (WakeRecord.sampled_calibrating hb hn),
    fun hb hn => hvalid (WakeRecord.sampled_calibrated hb hn),
    fun _ hb hc hn => hvalid (WakeRecord.sampled_touching hb hc hn),
    fun _ hb hc hn => hvalid (WakeRecord.sampled_touched hb hc hn),
    fun _ hb hc hn => hvalid (WakeRecord.sampled_below hb hc hn),
    fun _ hb hc hn => hvalid (WakeRecord.sampled_drifted hb hc hn)⟩

end Sys2Proof.Machine
end

