-- ==== Sys2Proof/Proofs/ProfileRequests.lean ====
section
/-! SUPPORT. The requests on the profile store: PROFILE_SAVE (R171), PROFILE_LOAD (R175, R176) and PROFILE_INFO (R177). -/

namespace Sys2Proof.Machine

/-! ### The commands and their runs -/

section
variable (tag : Byte) (p : List Byte) (s : State)

theorem exec_profileSave : exec (.profileSave tag p) s = onPart (receiveRequest { tag := tag, code := 0x58, payload := p }) s := rfl

theorem executeRequest_profileSave :
    executeRequest { tag := tag, code := 0x58, payload := p } s = runProfileSave { tag := tag, code := 0x58, payload := p } s := rfl

theorem exec_profileLoad : exec (.profileLoad tag p) s = onPart (receiveRequest { tag := tag, code := 0x59, payload := p }) s := rfl

theorem executeRequest_profileLoad :
    executeRequest { tag := tag, code := 0x59, payload := p } s = runProfileLoad { tag := tag, code := 0x59, payload := p } s := rfl

theorem exec_profileInfo : exec (.profileInfo tag p) s = onPart (receiveRequest { tag := tag, code := 0x5A, payload := p }) s := rfl

theorem executeRequest_profileInfo :
    executeRequest { tag := tag, code := 0x5A, payload := p } s = runProfileInfo { tag := tag, code := 0x5A, payload := p } s := rfl

end

/-! ### What a save chooses (R171), and what PROFILE_INFO shows (R177) -/

section
variable (st : Store)

theorem Store.saveTarget_eq :
    st.saveTarget = match st.newest with | some .a => SlotId.b | some .b => .a | none => .a := by
  rcases h : st.newest with _ | _ | _ <;> simp only [Store.saveTarget, h] <;> rfl

theorem Store.newestGeneration_succ :
    st.newestGeneration + 1 = match st.newest with | some i => (st.slot i).generation + 1 | none => 1 := by
  cases h : st.newest <;> simp only [Store.newestGeneration, h] <;> rfl

theorem Store.shownTarget_eq :
    st.shownTarget = match st.staged with | some x => x.target | none => st.saveTarget := by
  cases h : st.staged <;> simp only [Store.shownTarget, h] <;> rfl

/-- A save begun erases its target slot and leaves the other alone (R171, R172). -/
theorem Store.beginSave_eq (im : Image) :
    st.beginSave im =
      { slotA := if st.saveTarget = .a then { state := .empty, cells := .torn } else st.slotA
        slotB := if st.saveTarget = .b then { state := .empty, cells := .torn } else st.slotB
        save := .erasing
        staged := some { image := im, target := st.saveTarget, generation := st.newestGeneration + 1 } } := by
  cases h : st.saveTarget <;> simp only [Store.beginSave, h] <;> rfl

end

theorem Slot.generation_eq (x : Slot) : x.generation = match x.content with | some w => w.generation | none => 0 := by
  cases h : x.content <;> simp only [Slot.generation, h] <;> rfl

theorem Slot.autostart_eq (x : Slot) : x.autostart = match x.content with | some w => w.image.autostart | none => false := by
  cases h : x.content <;> simp only [Slot.autostart, h] <;> rfl

/-! ### The slot a load chooses (R175) -/

/-- The store with a slot found to fail its check. -/
def Store.spoil (st : Store) (i : SlotId) : Store := st.setSlot i { st.slot i with state := .invalid }

section
variable {st : Store} {i j : SlotId} {w v : Written}

theorem SlotId.other_eq_of_ne : ∀ {i j : SlotId}, i ≠ j → i.other = j
  | .a, .a, h => absurd rfl h
  | .a, .b, _ => rfl
  | .b, .a, _ => rfl
  | .b, .b, h => absurd rfl h

theorem Store.slot_spoil_other (st : Store) (i : SlotId) : (st.spoil i).slot i.other = st.slot i.other := by cases i <;> rfl

theorem Store.slot_spoil_of_ne (h : i ≠ j) : (st.spoil i).slot j = st.slot j :=
  SlotId.other_eq_of_ne h ▸ st.slot_spoil_other i

theorem Store.checkSlot_of_notValid (h : (st.slot i).content = none) : st.checkSlot i = (st, none) := by
  simp only [Store.checkSlot, h]

theorem Store.checkSlot_of_sound (h : (st.slot i).content = some w) (hw : w.checksum = slotChecksum w.generation w.image) :
    st.checkSlot i = (st, some (i, w)) := by
  simp only [Store.checkSlot, h, Written.sound, decide_eq_true hw, if_true]

theorem Store.checkSlot_of_unsound (h : (st.slot i).content = some w) (hw : w.checksum ≠ slotChecksum w.generation w.image) :
    st.checkSlot i = (st.spoil i, none) := by
  simp only [Store.checkSlot, h, Written.sound, decide_eq_false hw, Bool.false_eq_true, if_false, Store.spoil]

theorem Store.chooseSlot_code (st : Store) (i : SlotId) : st.chooseSlot i.code = st.checkSlot i := by cases i <;> rfl

theorem Store.chooseSlot_newest (st : Store) : st.chooseSlot 2 = st.checkNewest := rfl

theorem Store.checkNewest_of_none (h : st.newest = none) : st.checkNewest = (st, none) := by
  simp only [Store.checkNewest, h]

theorem Store.checkNewest_of_sound (hn : st.newest = some i) (h : (st.slot i).content = some w)
    (hw : w.checksum = slotChecksum w.generation w.image) : st.checkNewest = (st, some (i, w)) := by
  simp only [Store.checkNewest, hn, Store.checkSlot_of_sound h hw]

/-- The other slot is tried where the newest fails its check. -/
theorem Store.checkNewest_of_unsound (hij : i ≠ j) (hn : st.newest = some i) (h : (st.slot i).content = some w)
    (hw : w.checksum ≠ slotChecksum w.generation w.image) : st.checkNewest = (st.spoil i).checkSlot j := by
  simp only [Store.checkNewest, hn, Store.checkSlot_of_unsound h hw, SlotId.other_eq_of_ne hij]

theorem Store.checkNewest_of_both_unsound (ha : (st.slot .a).content = some w) (hb : (st.slot .b).content = some v)
    (hw : w.checksum ≠ slotChecksum w.generation w.image) (hv : v.checksum ≠ slotChecksum v.generation v.image) :
    st.checkNewest = ((st.spoil .a).spoil .b, none) := by
  have hab : SlotId.a ≠ SlotId.b := nofun
  rcases hn : st.newest with _ | _ | _
  case none =>
    change st.slotA.content = some w at ha
    change st.slotB.content = some v at hb
    simp only [Store.newest, ha, hb] at hn
    split at hn <;> cases hn
  case a =>
    rw [Store.checkNewest_of_unsound hab hn ha hw]
    exact Store.checkSlot_of_unsound (by rwa [Store.slot_spoil_of_ne hab]) hv
  case b =>
    rw [Store.checkNewest_of_unsound hab.symm hn hb hv]
    exact Store.checkSlot_of_unsound (by rwa [Store.slot_spoil_of_ne hab.symm]) hw

end

/-! ### The answer that orders what follows it -/

/-- A request whose effect leaves the handler, the transmitter, the engine and the claims alone leaves the part with that effect and
answered, with what is to follow the response ordered. -/
theorem onPart_request_effectThen {s u : State} {r : Request} {a : AfterSend} {c : ResultCode} {p : List Byte} (h : s.ready = true)
    (hex : executeRequest r (s.inExecution r) = respondThen a r c p (u.inExecution r)) (hh : u.handler = s.handler)
    (htx : u.tx = s.tx) (he : u.engine = s.engine) (hc : u.claims = s.claims) :
    onPart (receiveRequest r) s =
      .next (u.answered { tag := r.tag, code := r.code, result := c, payload := p, after := a }) := by
  obtain ⟨-, -, hinbox, hnone, -, hslot, hgrant, -⟩ := (State.ready_iff s).1 h
  have hidle : ({ (u.inExecution r).handler with executing := none } : Handler) = u.handler :=
    Handler.executing_none (hh ▸ hnone)
  rw [onPart_request_answered h hex ⟨(congrArg Handler.inbox hh).trans hinbox, (congrArg Tx.respSlot htx).trans hslot,
    (State.canGrant_congr he hc).trans hgrant, rfl, rfl⟩, hidle]
  rfl

/-! ### PROFILE_SAVE and PROFILE_INFO -/

section
variable (tag : Byte) (autostart : Bool) (s : State)

theorem checked_profileSave (accept : State → State) :
    checked { tag := tag, code := 0x58, payload := boolByte autostart } ((boolByte autostart).length == 1) true
      [(1, inRange 0 1 (byteAt (boolByte autostart) 0))] accept s = accept s := by
  refine checked_accept rfl rfl ?_
  cases autostart <;> rfl

theorem runProfileSave_busy (hs : s.store.save ≠ .idle) :
    runProfileSave { tag := tag, code := 0x58, payload := boolByte autostart } s =
      respond { tag := tag, code := 0x58, payload := boolByte autostart } .busy [] s :=
  (checked_profileSave ..).trans (if_pos hs)

theorem runProfileSave_exhausted (hs : s.store.save = .idle) (hg : s.store.newestGeneration = Config.generationMax) :
    runProfileSave { tag := tag, code := 0x58, payload := boolByte autostart } s =
      respond { tag := tag, code := 0x58, payload := boolByte autostart } .state [] s :=
  (checked_profileSave ..).trans ((if_neg (not_not_intro hs)).trans (if_pos hg))

theorem runProfileSave_accepted (hs : s.store.save = .idle) (hg : s.store.newestGeneration ≠ Config.generationMax) :
    runProfileSave { tag := tag, code := 0x58, payload := boolByte autostart } s =
      acceptSave { tag := tag, code := 0x58, payload := boolByte autostart } s :=
  (checked_profileSave ..).trans ((if_neg (not_not_intro hs)).trans (if_neg hg))

end

section
variable {s : State} (h : s.ready = true) (tag : Byte) (autostart : Bool)
include h

theorem profileSave_busy (hs : s.store.save ≠ .idle) :
    exec (.profileSave tag (boolByte autostart)) s = .next (s.answered (responseTo tag 0x58 .busy [])) := by
  rw [exec_profileSave]
  exact onPart_request_reply h ((executeRequest_profileSave ..).trans (runProfileSave_busy _ _ _ hs))

theorem profileSave_exhausted (hs : s.store.save = .idle) (hg : s.store.newestGeneration = Config.generationMax) :
    exec (.profileSave tag (boolByte autostart)) s = .next (s.answered (responseTo tag 0x58 .state [])) := by
  rw [exec_profileSave]
  exact onPart_request_reply h ((executeRequest_profileSave ..).trans (runProfileSave_exhausted _ _ _ hs hg))

/-- The image is that of the part before the arrival, which changes no configuration. -/
theorem profileSave_accepted (hs : s.store.save = .idle) (hg : s.store.newestGeneration ≠ Config.generationMax) :
    exec (.profileSave tag (boolByte autostart)) s = .next (State.answered
      (responseTo tag 0x58 .accepted (byte1 s.store.saveTarget.code ++ le32 (s.store.newestGeneration + 1)))
      { s with store := s.store.beginSave (s.image autostart) }) := by
  have hflag : (byteAt (boolByte autostart) 0 == 1) = autostart := boolByte_toNat_beq autostart
  rw [exec_profileSave]
  refine onPart_request_effect h ((executeRequest_profileSave ..).trans
    ((runProfileSave_accepted tag autostart (s.inExecution _) hs hg).trans ?_)) rfl rfl rfl rfl
  rw [acceptSave, hflag]
  rfl

theorem profileInfo_answered :
    exec (.profileInfo tag []) s = .next (s.answered (responseTo tag 0x5A .ok (profileInfo s.store))) := by
  rw [exec_profileInfo]
  exact onPart_request_reply h ((executeRequest_profileInfo ..).trans (checked_accept rfl rfl rfl))

theorem profileInfo_badLength (p : List Byte) (hp : p ≠ []) :
    exec (.profileInfo tag p) s = .next (s.answered (responseTo tag 0x5A .badLength (byte1 p.length))) := by
  rw [exec_profileInfo]
  exact onPart_request_reply h ((executeRequest_profileInfo ..).trans
    (checked_badLength (beq_false_of_ne (mt List.eq_nil_of_length_eq_zero hp))))

end

/-! ### PROFILE_LOAD -/

section
variable {r : Request} {s : State} {st : Store}

theorem loadChosen_of_none (hc : s.store.chooseSlot (byteAt r.payload 0) = (st, none)) :
    loadChosen r s = respond r .noProfile [] { s with store := st } := by
  simp only [loadChosen, hc]

theorem loadChosen_of_some {i : SlotId} {w : Written} (hc : s.store.chooseSlot (byteAt r.payload 0) = (st, some (i, w))) :
    loadChosen r s = respondThen (s.baudOrder w.image.link.baud) r .ok (byte1 i.code ++ le32 w.generation)
      (loadImage w.image { s with store := st }) := by
  simp only [loadChosen, hc]

end

section
variable {n : Nat} (hn : n ≤ 2) (tag : Byte) {s : State}
include hn

theorem byteAt_slotChoice : byteAt (byte1 n) 0 = n := toNat_byte (by omega)

/-- A slot choice in range passes the checks in STOPPED. -/
theorem checked_profileLoad (hrun : s.seq.runState = .stopped) (accept : State → State) :
    checked { tag := tag, code := 0x59, payload := byte1 n } ((byte1 n).length == 1) (decide (s.seq.runState = .stopped))
      [(1, inRange 0 2 (byteAt (byte1 n) 0))] accept s = accept s := by
  refine checked_accept rfl (decide_eq_true hrun) ?_
  rw [byteAt_slotChoice hn, firstBad_cons_iff, inRange_iff]
  exact ⟨⟨n.zero_le, hn⟩, rfl⟩

theorem runProfileLoad_busy (hrun : s.seq.runState = .stopped) (hs : s.store.save ≠ .idle) :
    runProfileLoad { tag := tag, code := 0x59, payload := byte1 n } s =
      respond { tag := tag, code := 0x59, payload := byte1 n } .busy [] s :=
  (checked_profileLoad hn tag hrun _).trans (if_pos hs)

theorem runProfileLoad_idle (hrun : s.seq.runState = .stopped) (hs : s.store.save = .idle) :
    runProfileLoad { tag := tag, code := 0x59, payload := byte1 n } s =
      loadChosen { tag := tag, code := 0x59, payload := byte1 n } s :=
  (checked_profileLoad hn tag hrun _).trans (if_neg (not_not_intro hs))

end

section
variable {s : State} (h : s.ready = true) (hrun : s.seq.runState = .stopped) {n : Nat} (hn : n ≤ 2) (tag : Byte)
include h hrun hn

theorem profileLoad_busy (hs : s.store.save ≠ .idle) :
    exec (.profileLoad tag (byte1 n)) s = .next (s.answered (responseTo tag 0x59 .busy [])) := by
  rw [exec_profileLoad]
  exact onPart_request_reply h ((executeRequest_profileLoad ..).trans (runProfileLoad_busy hn tag hrun hs))

/-- No slot passes its check: what the check found of the slots is all that changes. -/
theorem profileLoad_refused (hs : s.store.save = .idle) {st : Store} (hc : s.store.chooseSlot n = (st, none)) :
    exec (.profileLoad tag (byte1 n)) s =
      .next (State.answered (responseTo tag 0x59 .noProfile []) { s with store := st }) := by
  rw [exec_profileLoad]
  have hchosen : s.store.chooseSlot (byteAt (byte1 n) 0) = (st, none) := by rwa [byteAt_slotChoice hn]
  exact onPart_request_effect h ((executeRequest_profileLoad ..).trans
    ((runProfileLoad_idle (s := s.inExecution _) hn tag hrun hs).trans (loadChosen_of_none hchosen))) rfl rfl rfl rfl

/-- A slot passes its check: its image replaces the running configuration (R176). -/
theorem profileLoad_loaded (hs : s.store.save = .idle) {st : Store} {i : SlotId} {w : Written}
    (hc : s.store.chooseSlot n = (st, some (i, w))) :
    exec (.profileLoad tag (byte1 n)) s = .next (State.answered
      { tag := tag, code := 0x59, result := .ok, payload := byte1 i.code ++ le32 w.generation
        after := s.baudOrder w.image.link.baud }
      (loadImage w.image { s with store := st })) := by
  rw [exec_profileLoad]
  have hchosen : s.store.chooseSlot (byteAt (byte1 n) 0) = (st, some (i, w)) := by rwa [byteAt_slotChoice hn]
  exact onPart_request_effectThen h ((executeRequest_profileLoad ..).trans
    ((runProfileLoad_idle (s := s.inExecution _) hn tag hrun hs).trans (loadChosen_of_some hchosen))) rfl rfl rfl rfl

end

/-! ### The obligations -/

/-- Settles O33: the statement writes out the target, the generation and the image of a save, and the fourteen bytes of PROFILE_INFO. -/
theorem profileSaveTakesEffect : Obligations.ProfileSaveTakesEffect := by
  intro tag autostart s h p info target generation image
  have htarget : s.store.saveTarget = target := s.store.saveTarget_eq
  have hgeneration : s.store.newestGeneration + 1 = generation := s.store.newestGeneration_succ
  have himage : s.image autostart = image := by
    simp only [State.image, image]
    cases s.seq.pendingPlan <;> rfl
  have hinfo (x : Slot) : info x = byte1 x.state.code ++ le32 x.generation ++ boolByte x.autostart := by
    simp only [info, Slot.generation_eq, Slot.autostart_eq, boolByte]
    cases x.content <;> rfl
  refine ⟨profileSave_busy h tag autostart, fun hs hg => profileSave_exhausted h tag autostart hs ?_, fun hs hg => ?_, ?_,
    profileInfo_badLength h tag⟩
  · rw [Config.generationMax]
    omega
  · have hgreatest : s.store.newestGeneration ≠ Config.generationMax := by
      rw [Config.generationMax]
      omega
    have haccepted := profileSave_accepted h tag autostart hs hgreatest
    rwa [Store.beginSave_eq, htarget, hgeneration, himage] at haccepted
  · have hbytes : profileInfo s.store =
        info s.store.slotA ++ info s.store.slotB ++ byte1 s.store.save.code ++ byte1 s.store.shownTarget.code := by
      simp only [profileInfo, hinfo, List.append_assoc]
    have hanswer := profileInfo_answered h tag
    rwa [hbytes, Store.shownTarget_eq, htarget] at hanswer

/-- Settles O34: the slot chosen decides the answer, and each clause on the slots says which is chosen. -/
theorem profileLoadTakesEffect : Obligations.ProfileLoadTakesEffect := by
  intro tag s h hrun spoilt loaded refused
  have hcode (i : SlotId) : i.code ≤ 2 := by cases i <;> decide
  have hrefused {n : Nat} {st : Store} (hn : n ≤ 2) (hs : s.store.save = .idle) (hc : s.store.chooseSlot n = (st, none)) :
      exec (.profileLoad tag (byte1 n)) s = .next (refused st) := profileLoad_refused h hrun hn tag hs hc
  have hloaded {n : Nat} {st : Store} {i : SlotId} {w : Written} (hn : n ≤ 2) (hs : s.store.save = .idle)
      (hc : s.store.chooseSlot n = (st, some (i, w))) : exec (.profileLoad tag (byte1 n)) s = .next (loaded i w st) :=
    profileLoad_loaded h hrun hn tag hs hc
  have hof := s.store.chooseSlot_code
  have hnewest := s.store.chooseSlot_newest
  refine ⟨fun c => profileLoad_busy h hrun (by omega) tag,
    fun i hs hi => hrefused (hcode i) hs ((hof i).trans (Store.checkSlot_of_notValid hi)),
    fun i w hs hi hw => hrefused (hcode i) hs ((hof i).trans (Store.checkSlot_of_unsound hi hw)),
    fun i w hs hi hw => hloaded (hcode i) hs ((hof i).trans (Store.checkSlot_of_sound hi hw)),
    fun hs hnew => hrefused le_rfl hs (hnewest.trans (Store.checkNewest_of_none hnew)),
    fun i w hs hnew hi hw => hloaded le_rfl hs (hnewest.trans (Store.checkNewest_of_sound hnew hi hw)),
    fun i j w v hij hs hnew hi hw hj hv => hloaded le_rfl hs (hnewest.trans ?_),
    fun i j w hij hs hnew hi hw hj => hrefused le_rfl hs (hnewest.trans ?_),
    fun w v hs ha hb hw hv => hrefused le_rfl hs (hnewest.trans (Store.checkNewest_of_both_unsound ha hb hw hv))⟩
  · have hother : ((s.store.spoil i).slot j).content = some v := by rwa [Store.slot_spoil_of_ne hij]
    exact (Store.checkNewest_of_unsound hij hnew hi hw).trans (Store.checkSlot_of_sound hother hv)
  · have hother : ((s.store.spoil i).slot j).content = none := by rwa [Store.slot_spoil_of_ne hij]
    exact (Store.checkNewest_of_unsound hij hnew hi hw).trans (Store.checkSlot_of_notValid hother)

end Sys2Proof.Machine
end

