-- ==== Sys2Proof/Proofs/StepFrame.lean ====
section
/-! SUPPORT. What every command keeps (spec/00, section 0.7; spec/06): the queue of waiting commands, the phase of the part but for a
reset, and a sound report queue. One lemma for each operation, then one for each request and each event. -/

namespace Sys2Proof.Machine

/-- The second state has the waiting commands and the phase of the first, and a sound report queue where the first has one. -/
structure State.Keeps (s t : State) : Prop where
  pending : t.pending = s.pending
  phase : t.phase = s.phase
  queue : s.queue.sound = true → t.queue.sound = true

namespace State.Keeps

theorem refl (s : State) : s.Keeps s := ⟨rfl, rfl, id⟩

theorem trans {s t u : State} (h : s.Keeps t) (k : t.Keeps u) : s.Keeps u :=
  ⟨k.pending.trans h.pending, k.phase.trans h.phase, k.queue ∘ h.queue⟩

theorem after {s t u : State} (k : t.Keeps u) (h : s.Keeps t) : s.Keeps u := h.trans k

theorem ite {s t u : State} {c : Prop} [Decidable c] (h : s.Keeps t) (k : s.Keeps u) : s.Keeps (if c then t else u) := by
  split <;> assumption

theorem foldl {α : Type} {f : State → α → State} (h : ∀ (s : State) (a : α), s.Keeps (f s a)) (l : List α) (s : State) :
    s.Keeps (l.foldl f s) := by
  induction l generalizing s with
  | nil => exact refl s
  | cons a l ih => exact (h s a).trans (ih _)

end State.Keeps

/-! ### The single changes -/

section
variable (s : State)

theorem setRt_keeps (k : KeyId) (r : KeyRuntime) : s.Keeps (s.setRt k r) := ⟨rfl, rfl, id⟩

theorem modRt_keeps (k : KeyId) (f : KeyRuntime → KeyRuntime) : s.Keeps (s.modRt k f) := ⟨rfl, rfl, id⟩

theorem setRef_keeps (r : RefRuntime) : s.Keeps (s.setRef r) := ⟨rfl, rfl, id⟩

theorem setGroup_keeps (g : GroupId) (x : Group) : s.Keeps (s.setGroup g x) := ⟨rfl, rfl, id⟩

theorem setWake_keeps (w : WakeRecord) : s.Keeps (s.setWake w) := ⟨rfl, rfl, id⟩

theorem count_keeps (f : Counters → Counters) : s.Keeps (s.count f) := ⟨rfl, rfl, id⟩

theorem withQueue_keeps {q : ReportQueue} (h : s.queue.sound = true → q.sound = true) : s.Keeps (s.withQueue q) := ⟨rfl, rfl, h⟩

theorem offer_keeps (rep : Report) : s.Keeps (offer rep s) := withQueue_keeps s fun h => ReportQueue.offer_sound h rep s.uptime

theorem clearHolder_keeps (k : KeyId) : s.Keeps (clearHolder k s) := ⟨rfl, rfl, id⟩

theorem respondThen_keeps (a : AfterSend) (r : Request) (c : ResultCode) (p : List Byte) : s.Keeps (respondThen a r c p s) :=
  ⟨rfl, rfl, id⟩

theorem respond_keeps (r : Request) (c : ResultCode) (p : List Byte) : s.Keeps (respond r c p s) := respondThen_keeps ..

theorem answerLong_keeps (code : Byte) (c : ResultCode) (p : List Byte) : s.Keeps (answerLong code c p s) := by
  unfold answerLong
  split
  · exact .ite (respond_keeps ..) (.refl s)
  · exact .refl s

theorem settleIdle_keeps : s.Keeps s.settleIdle := .ite (.refl s) ⟨rfl, rfl, id⟩

theorem clearEntryRequest_keeps : s.Keeps (clearEntryRequest s) := .ite ⟨rfl, rfl, id⟩ (.refl s)

theorem requestAbort_keeps (kind : OwnerKind) : s.Keeps (requestAbort kind s) := .ite ⟨rfl, rfl, id⟩ (.refl s)

theorem grant_keeps : s.Keeps (grant s) := by
  unfold grant grantPlan
  repeat' split
  all_goals exact ⟨rfl, rfl, id⟩

/-! ### Touches and groups -/

theorem beginTouch_keeps (k : KeyId) : s.Keeps (beginTouch k s) := by
  unfold beginTouch
  exact .ite ((modRt_keeps ..).trans ((offer_keeps ..).trans (modRt_keeps ..))) ((modRt_keeps ..).trans (modRt_keeps ..))

theorem endTouch_keeps (k : KeyId) (cause : UpCause) : s.Keeps (endTouch k cause s) := by
  unfold endTouch
  exact (State.Keeps.ite ((offer_keeps ..).trans (modRt_keeps ..)) (.refl s)).trans (clearHolder_keeps ..)

theorem endIfTouching_keeps (k : KeyId) (cause : UpCause) : s.Keeps (endIfTouching k cause s) :=
  .ite (endTouch_keeps s k cause) (.refl s)

theorem decideExclusive_keeps (g : GroupId) (k : KeyId) : s.Keeps (decideExclusive g k s) := by
  unfold decideExclusive setHolder placeHeld
  split
  · exact (setGroup_keeps ..).trans (beginTouch_keeps ..)
  · exact .ite ((endTouch_keeps ..).trans ((modRt_keeps ..).trans ((setGroup_keeps ..).trans (beginTouch_keeps ..)))) (modRt_keeps ..)

theorem claimTouch_keeps (k : KeyId) : s.Keeps (claimTouch k s) := by
  unfold claimTouch
  split
  · exact decideExclusive_keeps ..
  · exact beginTouch_keeps ..

theorem evaluateFull_keeps (g : GroupId) : s.Keeps (evaluateFull g s) := by
  unfold evaluateFull
  dsimp only
  have offered (rep : Report) (x : Group) : s.Keeps ((offer rep s).setGroup g x) := (offer_keeps ..).trans (setGroup_keeps ..)
  exact .ite (.ite (.ite (offered ..) (.refl s)) (offered ..)) (.ite (offered ..) (.refl s))

theorem evaluateTouchOnly_keeps (g : GroupId) : s.Keeps (evaluateTouchOnly s g) :=
  .ite ((offer_keeps ..).trans (setGroup_keeps ..)) (.refl s)

theorem evaluateAll_keeps : s.Keeps (evaluateAll s) := .foldl evaluateTouchOnly_keeps _ s

theorem evaluateSliderOf_keeps (k : KeyId) : s.Keeps (evaluateSliderOf k s) := by
  unfold evaluateSliderOf
  split
  · exact evaluateTouchOnly_keeps ..
  · exact .refl s

/-! ### Plan results -/

theorem faultResult_keeps (k : KeyId) (o : MeasureOutcome) (c : Nat) : s.Keeps (faultResult k o c s) := by
  unfold faultResult enterFaulted
  exact .ite ((modRt_keeps ..).trans ((endIfTouching_keeps ..).trans ((modRt_keeps ..).trans
    ((clearHolder_keeps ..).trans (offer_keeps ..))))) (modRt_keeps ..)

theorem sampleFaulted_keeps (k : KeyId) : s.Keeps (sampleFaulted k s) := by
  unfold sampleFaulted
  exact .ite ((modRt_keeps ..).trans ((offer_keeps ..).trans (modRt_keeps ..))) (modRt_keeps ..)

theorem trackReleased_keeps (k : KeyId) : s.Keeps (trackReleased k s) := by
  unfold trackReleased
  exact .ite (.ite ((modRt_keeps ..).trans (offer_keeps ..)) (modRt_keeps ..)) (modRt_keeps ..)

theorem releaseKey_keeps (k : KeyId) : s.Keeps (releaseKey k s) := (endTouch_keeps ..).trans (modRt_keeps ..)

theorem sampleReleased_keeps (k : KeyId) : s.Keeps (sampleReleased k s) := by
  unfold sampleReleased
  exact .ite (.ite ((modRt_keeps ..).trans (claimTouch_keeps ..)) (modRt_keeps ..)) (trackReleased_keeps ..)

theorem samplePressing_keeps (k : KeyId) : s.Keeps (samplePressing k s) := by
  unfold samplePressing
  exact .ite (.ite ((modRt_keeps ..).trans (claimTouch_keeps ..)) (modRt_keeps ..)) (modRt_keeps ..)

theorem sampleHeld_keeps (k : KeyId) : s.Keeps (sampleHeld k s) := .ite (claimTouch_keeps ..) (modRt_keeps ..)

theorem sampleTouched_keeps (k : KeyId) : s.Keeps (sampleTouched k s) := by
  unfold sampleTouched
  exact .ite (.refl s) (.ite ((modRt_keeps ..).trans (releaseKey_keeps ..)) (modRt_keeps ..))

theorem sampleLifting_keeps (k : KeyId) : s.Keeps (sampleLifting k s) := by
  unfold sampleLifting
  exact .ite (modRt_keeps ..) (.ite ((modRt_keeps ..).trans (releaseKey_keeps ..)) (modRt_keeps ..))

theorem sampleByState_keeps (k : KeyId) (c : Nat) : s.Keeps (sampleByState k c s) := by
  have pushed : s.Keeps (pushSample k c s) := modRt_keeps ..
  unfold sampleByState
  split
  · exact sampleFaulted_keeps s k
  · exact modRt_keeps ..
  · exact pushed.trans (sampleReleased_keeps ..)
  · exact pushed.trans (samplePressing_keeps ..)
  · exact pushed.trans (sampleHeld_keeps ..)
  · exact pushed.trans (sampleTouched_keeps ..)
  · exact pushed.trans (sampleLifting_keeps ..)
  · exact .refl s

theorem outcomeAndState_keeps (k : KeyId) (o : MeasureOutcome) (c : Nat) : s.Keeps (outcomeAndState k o c s) := by
  unfold outcomeAndState
  split
  · exact (modRt_keeps ..).trans (sampleByState_keeps ..)
  · exact faultResult_keeps ..

theorem maxOnCheck_keeps (k : KeyId) : s.Keeps (maxOnCheck k s) := by
  unfold maxOnCheck stickKey
  exact .ite ((endTouch_keeps ..).trans ((offer_keeps ..).trans (modRt_keeps ..))) (.refl s)

theorem sliderCheck_keeps (k : KeyId) : s.Keeps (sliderCheck k s) := by
  unfold sliderCheck
  split
  · exact evaluateFull_keeps ..
  · exact .refl s

theorem refResult_keeps (v : Word) (o : MeasureOutcome) (c : Nat) : s.Keeps (refResult v o c s) := by
  unfold refResult
  refine .ite (.refl s) ?_
  split <;> exact .ite ((setRef_keeps ..).trans (offer_keeps ..)) (setRef_keeps ..)

theorem trackResult_keeps (e : PlanEntry) (v : Word) (o : MeasureOutcome) (c : Nat) : s.Keeps (trackResult e v o c s) := by
  unfold trackResult keyResult processKey
  split
  · exact .ite (.refl s) ((outcomeAndState_keeps ..).trans ((maxOnCheck_keeps ..).trans (sliderCheck_keeps ..)))
  · exact refResult_keeps ..

/-! ### Effects from outside -/

theorem refPlanChange_keeps (es : List PlanEntry) : s.Keeps (refPlanChange es s) := .ite (.refl s) (setRef_keeps ..)

theorem reconfigure_keeps (k : KeyId) : s.Keeps (reconfigure k s) :=
  (endIfTouching_keeps ..).trans ((setRt_keeps ..).trans (clearHolder_keeps ..))

theorem quiesce_keeps (cause : UpCause) (k : KeyId) : s.Keeps (quiesce cause s k) := by
  unfold quiesce
  split
  · exact .refl s
  · exact modRt_keeps ..
  · exact modRt_keeps ..
  · exact (endIfTouching_keeps ..).trans ((modRt_keeps ..).trans (clearHolder_keeps ..))

theorem hostRecal_keeps (k : KeyId) : s.Keeps (hostRecal s k) := by
  unfold hostRecal
  exact .ite (.refl s) ((endIfTouching_keeps ..).trans ((setRt_keeps ..).trans ((clearHolder_keeps ..).trans (offer_keeps ..))))

/-! ### The sequencer and the doze controller -/

theorem enterDoze_keeps (x : Recorded) : s.Keeps (enterDoze x s) :=
  State.Keeps.trans (t := { s with
    seq := { s.seq with timerOn := false, elapsed := false, position := 0, runState := .dozing }
    doze := { s.doze with recorded := x, request := none, idle := 0, state := .entering }
    rx := { state := .disabled, len := 0, bytes := [] } }) ⟨rfl, rfl, id⟩ (answerLong_keeps ..)

theorem refuseDoze_keeps : s.Keeps (refuseDoze s) := (clearEntryRequest_keeps s).trans (answerLong_keeps ..)

theorem raiseRequest_keeps (source : EntrySource) : s.Keeps (raiseRequest source s) := by
  have raised (d : Doze) : s.Keeps { s with doze := d } := ⟨rfl, rfl, id⟩
  unfold raiseRequest decideStopped
  exact .ite ((raised _).trans (.ite (enterDoze_keeps ..) (refuseDoze_keeps _))) (raised _)

theorem beginWake_keeps (cause : WakeCause) : s.Keeps (beginWake cause s) := by
  rw [beginWake_eq]
  exact ⟨rfl, rfl, id⟩

theorem wakeResult_keeps (o : MeasureOutcome) (c : Nat) : s.Keeps (wakeResult o c s) := by
  have taken (cause : WakeCause) (w : WakeRecord) (wakes : Bool) :
      s.Keeps (if wakes then beginWake cause (s.setWake w) else s.setWake w) :=
    .ite ((setWake_keeps ..).trans (beginWake_keeps ..)) (setWake_keeps ..)
  unfold wakeResult
  refine .ite (.refl s) ?_
  split
  · exact .refl s
  · exact taken ..
  · exact taken ..

theorem cycleStart_keeps : s.Keeps (cycleStart s) := by
  unfold cycleStart
  dsimp only
  split <;> exact ⟨rfl, rfl, id⟩

theorem startScanning_keeps : s.Keeps (startScanning s) := State.Keeps.trans (t := startEffect s) ⟨rfl, rfl, id⟩ (cycleStart_keeps _)

theorem planSwap_keeps : s.Keeps (planSwap s) := by
  unfold planSwap
  split
  · exact .refl s
  · have quieted (keys : List KeyId) (u : State) : u.Keeps (keys.foldl (quiesce .unplanned) u) :=
      .foldl (fun u k => quiesce_keeps u .unplanned k) keys u
    exact (refPlanChange_keeps ..).after ((evaluateAll_keeps _).after ((quieted ..).after ⟨rfl, rfl, id⟩))

theorem cycleBoundary_keeps : s.Keeps (cycleBoundary s) := by
  unfold cycleBoundary boundaryDecision
  exact (planSwap_keeps s).trans (.ite (.ite (enterDoze_keeps ..) ((refuseDoze_keeps _).trans (cycleStart_keeps _))) (cycleStart_keeps _))

theorem reachEntry_keeps (position : Nat) : s.Keeps (reachEntry position s) := by
  unfold reachEntry lastEntryDone
  split
  · exact ⟨rfl, rfl, id⟩
  · exact .ite ((cycleBoundary_keeps _).after ⟨rfl, rfl, id⟩) ⟨rfl, rfl, id⟩

theorem promotePlan_keeps : s.Keeps (promotePlan s) := by
  unfold promotePlan
  split
  · exact .refl s
  · exact (refPlanChange_keeps ..).after ⟨rfl, rfl, id⟩

theorem completeStop_keeps : s.Keeps (completeStop s) := by
  unfold completeStop
  have quieted : s.Keeps (allKeys.foldl (quiesce .stopped) s) := .foldl (fun u k => quiesce_keeps u .stopped k) allKeys s
  have cleared := quieted.trans ((evaluateAll_keeps _).trans ((promotePlan_keeps _).trans (clearEntryRequest_keeps _)))
  have placed (u : State) (x : Sequencer) : u.Keeps { u with seq := x } := ⟨rfl, rfl, id⟩
  exact cleared.trans ((placed _ _).trans (answerLong_keeps ..))

theorem deliver_keeps (owner : Owner) (o : MeasureOutcome) (c : Nat) : s.Keeps (deliver owner o c s) := by
  unfold deliver planResult hostResult
  repeat' split
  · exact (trackResult_keeps ..).trans (reachEntry_keeps ..)
  · exact (trackResult_keeps ..).trans (completeStop_keeps _)
  · exact .refl s
  · exact answerLong_keeps ..
  · exact wakeResult_keeps ..

theorem endMeasurement_keeps (o : MeasureOutcome) (c : Nat) : s.Keeps (endMeasurement o c s) := by
  unfold endMeasurement
  split
  · exact (deliver_keeps ..).after ⟨rfl, rfl, id⟩
  · exact .refl s

/-! ### The transmitter and the delivery state -/

theorem startOldest_keeps : s.Keeps (startOldest s) := by
  unfold startOldest
  split
  · exact ⟨rfl, rfl, ReportQueue.markSent_sound⟩
  · exact .refl s

theorem startFrame_keeps : s.Keeps (startFrame s) := by
  unfold startFrame
  repeat' split
  · exact ⟨rfl, rfl, id⟩
  · exact ⟨rfl, rfl, id⟩
  · exact startOldest_keeps s

theorem startIfFree_keeps : s.Keeps (startIfFree s) := .ite (startFrame_keeps s) (.refl s)

theorem reportFirst_keeps (waiting : Bool) : s.Keeps (reportFirst waiting s) := .ite (startOldest_keeps s) (.refl s)

theorem takeAck_keeps (n : Word) : s.Keeps (takeAck n s) := by
  have removed : s.Keeps (s.withQueue (s.queue.remove n s.uptime)) := withQueue_keeps s fun h => ReportQueue.remove_sound h n s.uptime
  have delivered (u : State) (d : Delivery) : u.Keeps { u with delivery := d } := ⟨rfl, rfl, id⟩
  exact .ite (removed.trans (delivered ..)) (count_keeps ..)

theorem takeWindow_keeps (w : Byte) : s.Keeps (takeWindow w s) := .ite ⟨rfl, rfl, id⟩ (count_keeps ..)

theorem takeFlow_keeps (flags : Byte) (n : Word) (w : Byte) : s.Keeps (takeFlow flags n w s) := by
  have acked : s.Keeps (if flags.getLsbD 0 then takeAck n s else s) := .ite (takeAck_keeps ..) (.refl s)
  exact .ite (acked.trans (takeWindow_keeps ..)) acked

theorem joinInbox_keeps (r : Request) : s.Keeps (joinInbox r s) := by
  rw [joinInbox_eq]
  exact ⟨rfl, rfl, id⟩

theorem takeRequestFrame_keeps (r : Request) : s.Keeps (takeRequestFrame r s) :=
  .ite (joinInbox_keeps ..) (.ite ⟨rfl, rfl, id⟩ (count_keeps ..))

theorem passRequest_keeps (r : Request) : s.Keeps (passRequest r s) :=
  .ite (.refl s) ((startIfFree_keeps s).trans (takeRequestFrame_keeps ..))

theorem passFlow_keeps (flags : Byte) (n : Word) (w : Byte) : s.Keeps (passFlow flags n w s) :=
  .ite (count_keeps ..) (.ite (.refl s) (takeFlow_keeps ..))

theorem passBody_keeps (body : List Byte) : s.Keeps (passBody body s) := by
  unfold passBody
  split
  · exact passRequest_keeps ..
  · exact passFlow_keeps ..
  · exact count_keeps ..

theorem checkFrame_keeps (body : List Byte) (crc : Word) : s.Keeps (checkFrame body crc s) :=
  .ite (passBody_keeps ..) (count_keeps ..)

theorem takeByte_keeps (b : Byte) : s.Keeps (takeByte b s) := by
  have counted (f : Counters → Counters) : s.Keeps ((searchAgain s).count f) := ⟨rfl, rfl, id⟩
  unfold takeByte
  split
  · exact .refl s
  · exact .ite ⟨rfl, rfl, id⟩ (count_keeps ..)
  · exact .ite ⟨rfl, rfl, id⟩ (counted _)
  · exact ⟨rfl, rfl, id⟩
  · exact .ite ((checkFrame_keeps ..).after ⟨rfl, rfl, id⟩) ⟨rfl, rfl, id⟩

theorem takeGap_keeps : s.Keeps (takeGap s) := by
  unfold takeGap
  split <;> exact ⟨rfl, rfl, id⟩

theorem expireAck_keeps : s.Keeps (expireAck s) := by
  unfold expireAck
  exact .ite ⟨rfl, rfl, ReportQueue.rewind_sound⟩ ⟨rfl, rfl, id⟩

/-! ### The requests -/

theorem checked_keeps {r : Request} {l st : Bool} {f : List (Nat × Bool)} {accept : State → State} (h : s.Keeps (accept s)) :
    s.Keeps (checked r l st f accept s) := by
  unfold checked
  refine .ite (respond_keeps ..) (.ite (respond_keeps ..) ?_)
  split
  · exact respond_keeps ..
  · exact h

/-- A request that answers after a change. -/
theorem respond_after {s t : State} (h : s.Keeps t) (r : Request) (c : ResultCode) (p : List Byte) : s.Keeps (respond r c p t) :=
  h.trans (respond_keeps ..)

theorem runSetKey_keeps (r : Request) : s.Keeps (runSetKey r s) := by
  refine checked_keeps s (respond_after ?_ ..)
  exact (evaluateSliderOf_keeps ..).after ((reconfigure_keeps ..).after ⟨rfl, rfl, id⟩)

theorem runSetRef_keeps (r : Request) : s.Keeps (runSetRef r s) := checked_keeps s ⟨rfl, rfl, id⟩

theorem runSetPlan_keeps (r : Request) : s.Keeps (runSetPlan r s) := by
  refine checked_keeps s (.ite (respond_after ?_ ..) ⟨rfl, rfl, id⟩)
  exact (refPlanChange_keeps ..).after ⟨rfl, rfl, id⟩

theorem runStartScan_keeps (r : Request) : s.Keeps (runStartScan r s) :=
  checked_keeps s (.ite (respond_keeps ..) (respond_after (startScanning_keeps s) ..))

theorem runStopScan_keeps (r : Request) : s.Keeps (runStopScan r s) := by
  refine checked_keeps s ?_
  unfold acceptStopScan
  split
  · exact .ite ((requestAbort_keeps ..).after ⟨rfl, rfl, id⟩) ((completeStop_keeps _).after ⟨rfl, rfl, id⟩)
  · exact completeStop_keeps s
  · exact respond_keeps ..

theorem runRecalibrate_keeps (r : Request) : s.Keeps (runRecalibrate r s) := by
  have recalibrated (keys : List KeyId) : s.Keeps (evaluateAll (keys.foldl hostRecal s)) :=
    (State.Keeps.foldl hostRecal_keeps keys s).trans (evaluateAll_keeps _)
  have answered (u : State) : u.Keeps (recalibrateRef u) := setRef_keeps ..
  exact checked_keeps s (respond_after (.ite ((recalibrated _).trans (answered _)) (recalibrated _)) ..)

theorem runFlushReports_keeps (r : Request) : s.Keeps (runFlushReports r s) :=
  checked_keeps s ⟨rfl, rfl, fun _ => ReportQueue.flush_sound s.queue⟩

theorem runResync_keeps (r : Request) : s.Keeps (runResync r s) := checked_keeps s ⟨rfl, rfl, ReportQueue.rewind_sound⟩

theorem runReadLinkStats_keeps (r : Request) : s.Keeps (runReadLinkStats r s) :=
  checked_keeps s (respond_after (.ite (count_keeps ..) (.refl s)) ..)

theorem runSetDoze_keeps (r : Request) : s.Keeps (runSetDoze r s) := by
  have cleared : s.Keeps (if s.doze.request = some .auto then clearEntryRequest s else s) :=
    .ite (clearEntryRequest_keeps s) (.refl s)
  have placed (u : State) (d : Doze) : u.Keeps { u with doze := d } := ⟨rfl, rfl, id⟩
  exact checked_keeps s (respond_after (cleared.trans (placed ..)) ..)

theorem runEnterDoze_keeps (r : Request) : s.Keeps (runEnterDoze r s) :=
  checked_keeps s (.ite (raiseRequest_keeps ..) (respond_keeps ..))

theorem runProfileSave_keeps (r : Request) : s.Keeps (runProfileSave r s) :=
  checked_keeps s (.ite (respond_keeps ..) (.ite (respond_keeps ..) ⟨rfl, rfl, id⟩))

theorem runProfileLoad_keeps (r : Request) : s.Keeps (runProfileLoad r s) := by
  refine checked_keeps s (.ite (respond_keeps ..) ?_)
  unfold loadChosen
  dsimp only
  split <;> exact ⟨rfl, rfl, id⟩

theorem executeRequest_keeps (r : Request) : s.Keeps (executeRequest r s) := by
  unfold executeRequest
  split
  case h_4 => exact runSetKey_keeps ..
  case h_6 => exact runSetRef_keeps ..
  case h_10 => exact runSetPlan_keeps ..
  case h_12 => exact runStartScan_keeps ..
  case h_13 => exact runStopScan_keeps ..
  case h_15 => exact runRecalibrate_keeps ..
  case h_17 => exact runFlushReports_keeps ..
  case h_18 => exact runResync_keeps ..
  case h_20 => exact runReadLinkStats_keeps ..
  case h_23 => exact runSetDoze_keeps ..
  case h_24 => exact runEnterDoze_keeps ..
  case h_26 => exact runProfileSave_keeps ..
  case h_27 => exact runProfileLoad_keeps ..
  case h_29 => exact respond_keeps ..
  all_goals exact checked_keeps s ⟨rfl, rfl, id⟩

/-! ### The end of an event -/

theorem takeRequest_keeps : s.Keeps (takeRequest s) := by
  unfold takeRequest
  split
  · exact .refl s
  · exact (executeRequest_keeps ..).after ⟨rfl, rfl, id⟩

theorem settleOnce_keeps : s.Keeps (settleOnce s) :=
  .ite (grant_keeps s) (.ite (takeRequest_keeps s) (.ite (startFrame_keeps s) (.refl s)))

theorem settleMany_keeps (n : Nat) : s.Keeps (settleMany n s) := by
  induction n generalizing s with
  | zero => exact .refl s
  | succ n ih => exact (settleOnce_keeps s).trans (ih _)

theorem finish_keeps : s.Keeps (finish s) := (settleMany_keeps s settleSteps).trans (settleIdle_keeps _)

/-! ### The events that are no reset -/

theorem receiving_keeps {f : State → State} (h : ∀ u : State, u.Keeps (f u)) : s.Keeps (receiving (fun u => f (searchAgain u)) s) :=
  .ite (.refl s) ((h _).after ⟨rfl, rfl, id⟩)

theorem receiveRequest_keeps (r : Request) : s.Keeps (receiveRequest r s) := receiving_keeps s (passRequest_keeps · r)

theorem receiveFlow_keeps (flags : Byte) (n : Word) (w : Byte) : s.Keeps (receiveFlow flags n w s) :=
  receiving_keeps s (passFlow_keeps · flags n w)

theorem receiveFrame_keeps (body : List Byte) (crc : Word) : s.Keeps (receiveFrame body crc s) :=
  receiving_keeps s (checkFrame_keeps · body crc)

theorem ackExpires_keeps : s.Keeps (ackExpires s) := by
  unfold ackExpires
  split
  · exact .refl s
  · exact .ite (expireAck_keeps s) (.refl s)

theorem endDischarge_keeps : s.Keeps (endDischarge s) := .ite (.ite (endMeasurement_keeps ..) ⟨rfl, rfl, id⟩) (.refl s)

theorem endCharge_keeps : s.Keeps (endCharge s) := .ite ⟨rfl, rfl, id⟩ (.refl s)

theorem endTransfer_keeps (trip : Option Nat) : s.Keeps (endTransfer trip s) := by
  unfold endTransfer
  split
  · exact .ite ((endMeasurement_keeps ..).after ⟨rfl, rfl, id⟩) (.refl s)
  · exact .refl s

theorem periodExpires_keeps : s.Keeps (periodExpires s) := by
  refine .ite ?_ (.refl s)
  unfold takePeriod
  split
  · exact ⟨rfl, rfl, id⟩
  · exact cycleBoundary_keeps s
  · exact .refl s

theorem idleExpires_keeps : s.Keeps (idleExpires s) := .ite (raiseRequest_keeps ..) (.refl s)

theorem grantIfFree_keeps : s.Keeps (grantIfFree s) := .ite (grant_keeps s) (.refl s)

theorem endEntering_keeps : s.Keeps (endEntering s) :=
  .ite (.ite ⟨rfl, rfl, id⟩ ((beginWake_keeps ..).after ((grantIfFree_keeps _).after ⟨rfl, rfl, id⟩))) (.refl s)

theorem claimWake_keeps : s.Keeps (claimWake s) := .ite (.refl s) ⟨rfl, rfl, id⟩

theorem intervalExpires_keeps : s.Keeps (intervalExpires s) := by
  unfold intervalExpires
  split
  · exact .ite ((claimWake_keeps _).after ⟨rfl, rfl, id⟩) (.refl s)
  · exact .refl s

theorem wakeLineFalls_keeps : s.Keeps (wakeLineFalls s) := .ite (beginWake_keeps ..) (.refl s)

theorem offerWake_keeps : s.Keeps (offerWake s) := by
  unfold offerWake
  split
  · exact offer_keeps ..
  · exact .refl s

theorem resumeRunState_keeps : s.Keeps (resumeRunState s) := by
  unfold resumeRunState
  split
  · exact ⟨rfl, rfl, id⟩
  · exact startScanning_keeps s

theorem completeWake_keeps : s.Keeps (completeWake s) := by
  have awoken (u : State) (d : Doze) : u.Keeps { u with doze := d } := ⟨rfl, rfl, id⟩
  have told (rx : Receiver) : s.Keeps (offerWake { s with rx := rx }) := (offerWake_keeps _).after ⟨rfl, rfl, id⟩
  exact .ite ((told _).trans ((setWake_keeps ..).trans ((resumeRunState_keeps _).trans (awoken ..)))) (.refl s)

theorem endVerifying_keeps (matched : Bool) : s.Keeps (endVerifying matched s) := by
  unfold endVerifying offerDone
  split
  · exact .ite ⟨rfl, rfl, id⟩ ((offer_keeps ..).after ⟨rfl, rfl, id⟩)
  · exact .refl s

theorem endCommitting_keeps (mark : Bool) : s.Keeps (endCommitting mark s) := by
  unfold endCommitting offerDone
  split
  · exact (offer_keeps ..).after ⟨rfl, rfl, id⟩
  · exact .refl s

end
end Sys2Proof.Machine
end

