-- ==== Sys2Proof/Proofs/Commands.lean ====
section
/-! SUPPORT. What the meanings of the commands are, once: an event given to the part, to a part whose pins have changed, or to the
arbiter, the frame boundary, or a reset. With it what every command keeps (O2, O6). -/

namespace Sys2Proof.Machine

/-- The events that the commands give to a part that runs, but for the end of a frame, which may reset the part. -/
inductive IsEvent : (State → State) → Prop
  | request (r : Request) : IsEvent (receiveRequest r)
  | flow (flags : Byte) (n : Word) (w : Byte) : IsEvent (receiveFlow flags n w)
  | frame (body : List Byte) (crc : Word) : IsEvent (receiveFrame body crc)
  | byte (b : Byte) : IsEvent (takeByte b)
  | gap : IsEvent takeGap
  | ackTimer : IsEvent ackExpires
  | discharge : IsEvent endDischarge
  | charge : IsEvent endCharge
  | transfer (trip : Option Nat) : IsEvent (endTransfer trip)
  | period : IsEvent periodExpires
  | idleTimer : IsEvent idleExpires
  | entering : IsEvent endEntering
  | interval : IsEvent intervalExpires
  | hwake : IsEvent wakeLineFalls
  | nothing : IsEvent id
  | wake : IsEvent completeWake
  | erasing : IsEvent fun s => { s with store := s.store.endErasing }
  | programming : IsEvent fun s => { s with store := s.store.endProgramming }
  | verifying (matched : Bool) : IsEvent (endVerifying matched)
  | committing (mark : Bool) : IsEvent (endCommitting mark)
  | pulse : IsEvent fun s => { s with attnPulse := false }

/-- What a command does to a state. -/
inductive State.Meaning (s : State) : Host.Outcome State Fault Refusal → Prop
  | onPart {f : State → State} (hf : IsEvent f) : s.Meaning (onPart f s)
  | onQueue {f : State → State} (hf : IsEvent f) : s.Meaning (onQueue f s)
  | onLink {f : State → State} (hf : IsEvent f) : s.Meaning (onLink f s)
  | onPins (pins : Pins) {f : State → State} (hf : IsEvent f) : s.Meaning (onPins pins f s)
  | boundary : s.Meaning (Machine.onLink endFrame s)
  | powerOn : s.Meaning (.next (powerUp s))
  | resetLow : s.Meaning (.next (lineReset s))
  | boot : s.Meaning (.next (endReset s))

theorem exec_hwakeFall_meaning (s : State) : s.Meaning (execHwakeFall s) := by
  unfold execHwakeFall
  split
  · exact .onPins _ .hwake
  · exact .onPart .nothing

theorem exec_hwakeRise_meaning (s : State) : s.Meaning (execHwakeRise s) := by
  unfold execHwakeRise
  split
  · exact .onPart .nothing
  · exact .onPins _ .nothing

theorem exec_bselEdge (s : State) : exec .bselEdge s = onPins { s.pins with bselHigh := !s.pins.bselHigh } id s := rfl

theorem exec_erasingEnd (s : State) : exec .erasingEnd s = onPart (fun s => { s with store := s.store.endErasing }) s := rfl

theorem exec_programmingEnd (s : State) :
    exec .programmingEnd s = onPart (fun s => { s with store := s.store.endProgramming }) s := rfl

theorem exec_attnPulseEnd (s : State) : exec .attnPulseEnd s = onPart (fun s => { s with attnPulse := false }) s := rfl

/-- Every command does one of these things. -/
theorem exec_meaning (c : Instr) (s : State) : s.Meaning (exec c s) := by
  cases c
  case flowFrame => exact .onLink (.flow ..)
  case frameDiscard => exact .onLink (.frame ..)
  case strayByte => exact .onLink (.byte _)
  case gap => exact .onPart .gap
  case frameBoundary => exact .boundary
  case ackTimerExpiry => exact .onQueue .ackTimer
  case dischargeEnd => exact .onQueue .discharge
  case chargeEnd => exact .onPart .charge
  case transferEnd => exact .onQueue (.transfer _)
  case periodTimerExpiry => exact .onQueue .period
  case idleTimerExpiry => exact .onPart .idleTimer
  case enteringEnd => exact .onPart .entering
  case intervalTimerExpiry => exact .onPart .interval
  case hwakeFall => exact exec_hwakeFall_meaning s
  case hwakeRise => exact exec_hwakeRise_meaning s
  case wakeComplete => exact .onQueue .wake
  case erasingEnd => exact exec_erasingEnd s ▸ .onPart .erasing
  case programmingEnd => exact exec_programmingEnd s ▸ .onPart .programming
  case verifyingEnd => exact .onQueue (.verifying _)
  case committingEnd => exact .onQueue (.committing _)
  case attnPulseEnd => exact exec_attnPulseEnd s ▸ .onPart .pulse
  case bselEdge => exact exec_bselEdge s ▸ .onPins _ .nothing
  case powerOn => exact .powerOn
  case resetLow => exact .resetLow
  case boot => exact .boot
  all_goals exact .onPart (.request _)

theorem IsEvent.keeps {f : State → State} (hf : IsEvent f) (s : State) : s.Keeps (f s) := by
  cases hf with
  | request r => exact receiveRequest_keeps ..
  | flow flags n w => exact receiveFlow_keeps ..
  | frame body crc => exact receiveFrame_keeps ..
  | byte b => exact takeByte_keeps ..
  | gap => exact takeGap_keeps s
  | ackTimer => exact ackExpires_keeps s
  | discharge => exact endDischarge_keeps s
  | charge => exact endCharge_keeps s
  | transfer trip => exact endTransfer_keeps ..
  | period => exact periodExpires_keeps s
  | idleTimer => exact idleExpires_keeps s
  | entering => exact endEntering_keeps s
  | interval => exact intervalExpires_keeps s
  | hwake => exact wakeLineFalls_keeps s
  | nothing => exact .refl s
  | wake => exact completeWake_keeps s
  | verifying matched => exact endVerifying_keeps ..
  | committing mark => exact endCommitting_keeps ..
  | erasing => exact ⟨rfl, rfl, id⟩
  | programming => exact ⟨rfl, rfl, id⟩
  | pulse => exact ⟨rfl, rfl, id⟩

/-! ### The resets -/

/-- The second state has the waiting commands of the first, and a sound report queue where the first has one. -/
structure State.KeepsQueues (s t : State) : Prop where
  pending : t.pending = s.pending
  queue : s.queue.sound = true → t.queue.sound = true

theorem State.Keeps.queues {s t : State} (h : s.Keeps t) : s.KeepsQueues t := ⟨h.pending, h.queue⟩

theorem State.KeepsQueues.trans {s t u : State} (h : s.KeepsQueues t) (k : t.KeepsQueues u) : s.KeepsQueues u :=
  ⟨k.pending.trans h.pending, k.queue ∘ h.queue⟩

theorem State.KeepsQueues.ite {s t u : State} {c : Prop} [Decidable c] (h : s.KeepsQueues t) (k : s.KeepsQueues u) :
    s.KeepsQueues (if c then t else u) := by
  split <;> assumption

section
variable (s : State)

theorem ReportQueue.afterReset_sound : ReportQueue.afterReset.sound = true := ReportQueue.afterReset.flush_sound

theorem enterReset_queues (cause : ResetCause) (im : Image) : s.KeepsQueues (enterReset cause im s) :=
  ⟨rfl, fun _ => ReportQueue.afterReset_sound⟩

theorem bootPart_queues : s.KeepsQueues (bootPart s) := by
  have written (im : Image) (u : State) : u.KeepsQueues (writeConfiguration im u) := ⟨rfl, fun _ => ReportQueue.afterReset_sound⟩
  have started (im : Image) (u : State) : u.KeepsQueues (autostart im u) := .ite (startScanning_keeps u).queues (State.Keeps.refl u).queues
  have examined : s.KeepsQueues (examineStore s) := ⟨rfl, id⟩
  exact examined.trans ((written ..).trans ((offer_keeps ..).queues.trans (started ..)))

theorem endFrame_queues : s.KeepsQueues (endFrame s) := by
  have after (a : AfterSend) (u : State) : u.KeepsQueues (afterSend a u) := by
    cases a with
    | nothing => exact (State.Keeps.refl u).queues
    | baud b => exact ⟨rfl, id⟩
    | reset m => exact enterReset_queues ..
  have freed : s.KeepsQueues { s with tx := { s.tx with sending := none } } := ⟨rfl, id⟩
  unfold endFrame
  split
  · exact (State.Keeps.refl s).queues
  · dsimp only
    split
    · exact freed.trans (after ..)
    · exact freed

end

/-- Every command gives a next state, and keeps both queues. -/
theorem State.Meaning.queues {s : State} {o : Host.Outcome State Fault Refusal} (h : s.Meaning o) :
    ∃ t, o = .next t ∧ s.KeepsQueues t := by
  have part (f : State → State) (u : State) (hf : ∀ u : State, u.KeepsQueues (f u)) :
      ∃ t, Machine.onPart f u = .next t ∧ u.KeepsQueues t :=
    ⟨_, rfl, .ite ((startIfFree_keeps u).queues.trans ((hf _).trans (finish_keeps _).queues)) ⟨rfl, id⟩⟩
  have link (f : State → State) (hf : s.KeepsQueues (f s)) : ∃ t, Machine.onLink f s = .next t ∧ s.KeepsQueues t :=
    ⟨_, rfl, .ite (hf.trans ((finish_keeps _).trans (startIfFree_keeps _)).queues) ⟨rfl, id⟩⟩
  cases h with
  | onPart hf => exact part _ s fun u => (hf.keeps u).queues
  | onQueue hf =>
    exact ⟨_, rfl, .ite ((hf.keeps s).trans ((reportFirst_keeps ..).trans (finish_keeps _))).queues ⟨rfl, id⟩⟩
  | onLink hf => exact link _ (hf.keeps s).queues
  | onPins pins hf =>
    obtain ⟨t, ht, hq⟩ := part _ { s with pins := pins } fun u => (hf.keeps u).queues
    exact ⟨t, ht, ⟨hq.pending, hq.queue⟩⟩
  | boundary => exact link _ (endFrame_queues s)
  | powerOn => exact ⟨_, rfl, enterReset_queues ..⟩
  | resetLow =>
    have lowered (im : Image) (u : State) (hu : s.KeepsQueues u) : s.KeepsQueues (enterReset .line im u) :=
      hu.trans (enterReset_queues ..)
    exact ⟨_, rfl, .ite ⟨rfl, id⟩ (lowered _ _ ⟨rfl, id⟩)⟩
  | boot =>
    have raised (u : State) (hu : s.KeepsQueues u) : s.KeepsQueues (grantIfFree (bootPart u)) :=
      hu.trans ((bootPart_queues u).trans (grantIfFree_keeps _).queues)
    exact ⟨_, rfl, .ite ⟨rfl, id⟩ (raised _ ⟨rfl, id⟩)⟩

/-! ### The step on an empty queue -/

theorem idleStep_queue (s : State) (h : s.queue.sound = true) : (idleStep s).queue.sound = true := by
  have passed (u : State) : u.Keeps (passTime u) := ⟨rfl, rfl, id⟩
  unfold idleStep
  split
  · exact h
  · exact h
  · split
    · exact h
    · exact ((startIfFree_keeps s).trans ((passed _).trans (finish_keeps _))).queue h

/-! ### The obligations -/

/-- Settles O2: every meaning gives a next state and keeps the waiting commands. -/
theorem commandGivesNextState : Obligations.CommandGivesNextState := by
  intro c s
  obtain ⟨t, ht, hkept⟩ := (exec_meaning c s).queues
  exact ⟨t, ht, hkept.pending⟩

/-- Settles O6: a step is a command, which keeps the queue sound, or the passing of time. -/
theorem stepKeepsQueueSound : Obligations.StepKeepsQueueSound := by
  intro s t h hstep
  unfold step at hstep
  split at hstep
  · obtain rfl := Host.Outcome.next.inj hstep
    exact idleStep_queue s h
  case h_2 c rest hpending =>
    obtain ⟨u, hu, hkept⟩ := (exec_meaning c { s with pending := rest }).queues
    obtain rfl := Host.Outcome.next.inj (hu.symm.trans hstep)
    exact hkept.queue h

end Sys2Proof.Machine
end

