-- ==== Sys2Proof/Proofs/Sequencing.lean ====
section
/-! SUPPORT. What the sequencer's operations leave alone: the receiver, the transmitter, the handler, the engine and the
configuration. A long request that they answer (R144). -/

namespace Sys2Proof.Machine

/-- The second state differs from the first in its runtime records, its groups, its report queue, its ATTN pulse, its claims, its
sequencer and its doze controller alone. -/
def State.Sequences (s t : State) : Prop :=
  t = { s with track := t.track, groups := t.groups, queue := t.queue, attnPulse := t.attnPulse, claims := t.claims,
               seq := t.seq, doze := t.doze }

theorem State.Sequences.refl (s : State) : s.Sequences s := rfl

theorem State.Sequences.trans {s t u : State} (h : s.Sequences t) (k : t.Sequences u) : s.Sequences u := by
  unfold State.Sequences at *
  rw [k, h]

theorem State.Sequences.ite {s t u : State} {c : Prop} [Decidable c] (h : s.Sequences t) (k : s.Sequences u) :
    s.Sequences (if c then t else u) := by
  split <;> assumption

theorem State.Tracks.sequences {s t : State} (h : s.Tracks t) : s.Sequences t := by
  unfold State.Tracks at h
  rw [h]
  rfl

section
variable {s t : State} (h : s.Sequences t)
include h

theorem State.Sequences.engine : t.engine = s.engine := by rw [h]

theorem State.Sequences.tx : t.tx = s.tx := by rw [h]

theorem State.Sequences.handler : t.handler = s.handler := by rw [h]

theorem State.Sequences.rx : t.rx = s.rx := by rw [h]

end

/-! ### The operations -/

section
variable (s : State)

theorem clearEntryRequest_sequences : s.Sequences (clearEntryRequest s) := .ite rfl (.refl s)

theorem cycleStart_sequences : s.Sequences (cycleStart s) := by
  unfold cycleStart
  dsimp only
  split <;> rfl

theorem startScanning_sequences : s.Sequences (startScanning s) := (startEffect_tracks s).sequences.trans (cycleStart_sequences _)

theorem promotePlan_sequences : s.Sequences (promotePlan s) := by
  have planned (x : Sequencer) : s.Sequences { s with seq := x } := rfl
  unfold promotePlan
  split
  · exact .refl s
  · exact (planned _).trans (refPlanChange_tracks ..).sequences

/-- A stop as it stands before its request is answered (R52). -/
def stopEffect (s : State) : State :=
  let t := clearEntryRequest (promotePlan (evaluateAll (allKeys.foldl (quiesce .stopped) s)))
  { t with seq := { t.seq with position := 0, elapsed := false, timerOn := false, runState := .stopped } }

theorem completeStop_eq : completeStop s = answerLong stopScanCode .ok [] (stopEffect s) := rfl

theorem quiesceAll_tracks (cause : UpCause) (keys : List KeyId) : s.Tracks (keys.foldl (quiesce cause) s) :=
  .foldl (quiesce_tracks cause) keys s

theorem stopEffect_sequences : s.Sequences (stopEffect s) := by
  have quieted := (quiesceAll_tracks s .stopped allKeys).trans (evaluateAll_tracks _)
  have placed (u : State) (x : Sequencer) : u.Sequences { u with seq := x } := rfl
  exact quieted.sequences.trans ((promotePlan_sequences _).trans ((clearEntryRequest_sequences _).trans (placed ..)))

/-- Doze as it is entered before an ENTER_DOZE is answered (R164). -/
def dozeEffect (recorded : Recorded) (s : State) : State :=
  { s with
    seq := { s.seq with timerOn := false, elapsed := false, position := 0, runState := .dozing }
    doze := { s.doze with recorded := recorded, request := none, idle := 0, state := .entering }
    rx := { state := .disabled, len := 0, bytes := [] } }

theorem enterDoze_eq (recorded : Recorded) : enterDoze recorded s = answerLong enterDozeCode .ok [] (dozeEffect recorded s) := rfl

end

/-! ### A long request answered (R144) -/

section
variable {s : State} {r : Request}

theorem answerLong_of_executing (he : s.handler.executing = some r) {code : Byte} (hc : r.code = code) (c : ResultCode)
    (p : List Byte) : answerLong code c p s = respond r c p s := by
  simp [answerLong, he, hc]

theorem answerLong_of_none (he : s.handler.executing = none) (code : Byte) (c : ResultCode) (p : List Byte) :
    answerLong code c p s = s := by
  simp [answerLong, he]

theorem completeStop_answers (he : s.handler.executing = some r) (hc : r.code = stopScanCode) :
    completeStop s = respond r .ok [] (stopEffect s) := by
  rw [completeStop_eq]
  exact answerLong_of_executing (by rw [(stopEffect_sequences s).handler, he]) hc ..

theorem enterDoze_answers (he : s.handler.executing = some r) (hc : r.code = enterDozeCode) (recorded : Recorded) :
    enterDoze recorded s = respond r .ok [] (dozeEffect recorded s) := by
  rw [enterDoze_eq]
  exact answerLong_of_executing (s := dozeEffect recorded s) he hc ..

theorem refuseDoze_answers (he : s.handler.executing = some r) (hc : r.code = enterDozeCode) :
    refuseDoze s = respond r .state [] (clearEntryRequest s) :=
  answerLong_of_executing (by rw [(clearEntryRequest_sequences s).handler, he]) hc ..

end

end Sys2Proof.Machine
end

