-- ==== Sys2Proof/Proofs/Settling.lean ====
section
/-! SUPPORT. The end of every event (R14, R123, R140, R162): four rounds settle whatever is due, from every state, since a grant leaves the engine
busy, a reply leaves the transmitter SENDING, and a request taken is in execution or answered. -/

namespace Sys2Proof.Machine

/-! ### The execution of a request -/

/-- What the execution of a request leaves: the frame on the line, a busy engine busy, and the request in execution or its response
in the response slot. -/
structure State.Executes (s t : State) : Prop where
  sending : t.tx.sending = s.tx.sending
  engine : s.engine.phase ≠ .idle → t.engine.phase ≠ .idle
  busy : t.handler.executing ≠ none ∨ t.tx.respSlot ≠ none

theorem State.Executes.ite {s t u : State} {c : Prop} [Decidable c] (h : s.Executes t) (k : s.Executes u) :
    s.Executes (if c then t else u) := by
  split <;> assumption

section
variable {s : State}

theorem respondThen_executes {u : State} (htx : u.tx = s.tx) (he : u.engine = s.engine) (a : AfterSend) (r : Request)
    (c : ResultCode) (p : List Byte) : s.Executes (respondThen a r c p u) :=
  ⟨by rw [respondThen_tx, htx], by rw [respondThen_engine, he]; exact id, .inr (by simp)⟩

theorem respond_executes {u : State} (htx : u.tx = s.tx) (he : u.engine = s.engine) (r : Request) (c : ResultCode)
    (p : List Byte) : s.Executes (respond r c p u) :=
  respondThen_executes htx he ..

theorem State.Sequences.respond_executes {u : State} (h : s.Sequences u) (r : Request) (c : ResultCode) (p : List Byte) :
    s.Executes (respond r c p u) :=
  Machine.respond_executes h.tx h.engine ..

theorem checked_executes {r : Request} {l st : Bool} {f : List (Nat × Bool)} {accept : State → State}
    (h : s.Executes (accept s)) : s.Executes (checked r l st f accept s) := by
  unfold checked
  refine .ite (respond_executes rfl rfl ..) (.ite (respond_executes rfl rfl ..) ?_)
  split
  · exact respond_executes rfl rfl ..
  · exact h

theorem Engine.aborted_busy {e : Engine} (h : e.phase ≠ .idle) : e.aborted.phase ≠ .idle := by
  cases hp : e.phase <;> simp_all [Engine.aborted]

theorem requestAbort_busy {kind : OwnerKind} (h : s.engine.phase ≠ .idle) : (requestAbort kind s).engine.phase ≠ .idle := by
  rw [requestAbort_eq]
  dsimp only
  split
  · exact Engine.aborted_busy h
  · exact h

theorem runSetKey_executes (r : Request) : s.Executes (runSetKey r s) := by
  have stored (u : State) : u.Sequences (evaluateSliderOf (keyOf r.payload) (reconfigure (keyOf r.payload) u)) :=
    ((reconfigure_tracks ..).trans (evaluateSliderOf_tracks ..)).sequences
  refine checked_executes (respond_executes ?_ ?_ ..)
  · exact (stored _).tx.trans rfl
  · exact (stored _).engine.trans rfl

theorem runSetPlan_executes (r : Request) : s.Executes (runSetPlan r s) := by
  have planned (x : Sequencer) : s.Sequences { s with seq := x } := rfl
  have placed (u : State) := (refPlanChange_tracks (readPlan r.payload).entries u).sequences
  exact checked_executes (.ite (((planned _).trans (placed _)).respond_executes ..) ((planned _).respond_executes ..))

theorem runStartScan_executes (r : Request) : s.Executes (runStartScan r s) :=
  checked_executes (.ite (respond_executes rfl rfl ..)
    ((startScanning_sequences s).respond_executes ..))

theorem runStopScan_executes {r : Request} (he : s.handler.executing = some r) (hc : r.code = stopScanCode) :
    s.Executes (runStopScan r s) := by
  have stopped (u : State) (htx : u.tx = s.tx) (hu : u.engine = s.engine) (hh : u.handler.executing = some r) :
      s.Executes (completeStop u) := by
    rw [completeStop_answers hh hc]
    exact respond_executes ((stopEffect_sequences u).tx.trans htx) ((stopEffect_sequences u).engine.trans hu) ..
  refine checked_executes ?_
  unfold acceptStopScan
  split
  · refine .ite ?_ (stopped _ rfl rfl he)
    exact ⟨by rw [requestAbort_eq], fun h => requestAbort_busy (by exact h), .inl (by rw [requestAbort_eq]; simp [he])⟩
  · exact stopped _ rfl rfl he
  · exact respond_executes rfl rfl ..

theorem runMeasure_executes {r : Request} (he : s.handler.executing = some r) : s.Executes (runMeasure r s) :=
  checked_executes ⟨rfl, id, .inl (by simp [he])⟩

theorem runRecalibrate_executes (r : Request) : s.Executes (runRecalibrate r s) := by
  have recalibrated (keys : List KeyId) : s.Tracks (evaluateAll (keys.foldl hostRecal s)) :=
    (State.Tracks.foldl hostRecal_tracks keys s).trans (evaluateAll_tracks _)
  have flagged (u : State) : u.Tracks (recalibrateRef u) := setRef_tracks ..
  refine checked_executes (State.Sequences.respond_executes (State.Tracks.sequences ?_) ..)
  exact .ite ((recalibrated _).trans (flagged _)) (recalibrated _)

theorem runReadLinkStats_executes (r : Request) : s.Executes (runReadLinkStats r s) := by
  refine checked_executes (respond_executes ?_ ?_ ..) <;> split <;> rfl

theorem runSetDoze_executes (r : Request) : s.Executes (runSetDoze r s) := by
  have cleared : s.Sequences (if s.doze.request = some .auto then clearEntryRequest s else s) :=
    .ite (clearEntryRequest_sequences s) (.refl s)
  have placed (u : State) (d : Doze) : u.Sequences { u with doze := d } := rfl
  exact checked_executes ((cleared.trans (placed ..)).respond_executes ..)

theorem runEnterDoze_executes {r : Request} (he : s.handler.executing = some r) (hc : r.code = enterDozeCode) :
    s.Executes (runEnterDoze r s) := by
  have decided (u : State) (hu : s.Sequences u) : s.Executes (decideStopped u) := by
    have heu : u.handler.executing = some r := by rw [hu.handler, he]
    unfold decideStopped
    rw [enterDoze_answers heu hc, refuseDoze_answers heu hc]
    have entered : s.Executes (respond r .ok [] (dozeEffect .stopped u)) := respond_executes (u := dozeEffect .stopped u) hu.tx hu.engine ..
    exact .ite entered ((hu.trans (clearEntryRequest_sequences u)).respond_executes ..)
  exact checked_executes (.ite (.ite (decided _ rfl) ⟨rfl, id, .inl (by simp [he])⟩) (respond_executes rfl rfl ..))

theorem runProfileSave_executes (r : Request) : s.Executes (runProfileSave r s) :=
  checked_executes (.ite (respond_executes rfl rfl ..) (.ite (respond_executes rfl rfl ..) ⟨rfl, id, .inr (Option.some_ne_none _)⟩))

theorem runProfileLoad_executes (r : Request) : s.Executes (runProfileLoad r s) := by
  refine checked_executes (.ite (respond_executes rfl rfl ..) ?_)
  unfold loadChosen
  dsimp only
  split
  · exact ⟨rfl, id, .inr (Option.some_ne_none _)⟩
  · exact ⟨rfl, id, .inr (Option.some_ne_none _)⟩

/-- Every request is in execution or answered once it has been executed. -/
theorem executeRequest_executes {r : Request} (he : s.handler.executing = some r) : s.Executes (executeRequest r s) := by
  have code {n : Byte} (h : r.code.toNat = n.toNat) : r.code = n := BitVec.eq_of_toNat_eq h
  unfold executeRequest
  split
  case h_4 => exact runSetKey_executes r
  case h_10 => exact runSetPlan_executes r
  case h_12 => exact runStartScan_executes r
  case h_13 h => exact runStopScan_executes he (code h)
  case h_14 => exact runMeasure_executes he
  case h_15 => exact runRecalibrate_executes r
  case h_20 => exact runReadLinkStats_executes r
  case h_23 => exact runSetDoze_executes r
  case h_24 h => exact runEnterDoze_executes he (code h)
  case h_26 => exact runProfileSave_executes r
  case h_27 => exact runProfileLoad_executes r
  case h_29 => exact respond_executes rfl rfl ..
  all_goals exact checked_executes ⟨rfl, id, .inr (Option.some_ne_none _)⟩

end

/-! ### What can still be due -/

/-- The most that can still be due at the end of an event: a grant to an IDLE engine; a reply while the transmitter is IDLE, and a
request taken after it; and a request taken by a handler that is free. -/
def State.dueAtMost (s : State) : Nat :=
  (if s.engine.phase = .idle then 1 else 0) + (if s.tx.sending = none then 2 else 0) +
    (if s.handler.executing = none ∧ s.tx.respSlot = none then 1 else 0)

theorem State.dueAtMost_le (s : State) : s.dueAtMost ≤ settleSteps := by
  unfold State.dueAtMost settleSteps
  split <;> split <;> split <;> omega

theorem grantPlan_engine (c : PlanClaim) (s : State) :
    (grantPlan c s).engine.phase = .discharge ∧ (grantPlan c s).tx = s.tx ∧ (grantPlan c s).handler = s.handler := by
  unfold grantPlan
  split <;> exact ⟨rfl, rfl, rfl⟩

theorem grant_engine {s : State} (h : s.canGrant = true) :
    (grant s).engine.phase ≠ .idle ∧ (grant s).tx = s.tx ∧ (grant s).handler = s.handler := by
  simp only [State.canGrant, State.nextGrant, Bool.and_eq_true, decide_eq_true_eq] at h
  unfold grant State.nextGrant
  cases hp : s.claims.plan with
  | none => cases hh : s.claims.host <;> cases hw : s.claims.wake <;> simp_all [beginMeasurement]
  | some c =>
    have granted (u : State) (htx : u.tx = s.tx) (hu : u.handler = s.handler) :
        (grantPlan c u).engine.phase ≠ .idle ∧ (grantPlan c u).tx = s.tx ∧ (grantPlan c u).handler = s.handler := by
      obtain ⟨hphase, hsame, hhandler⟩ := grantPlan_engine c u
      simp [hphase, hsame, hhandler, htx, hu]
    cases hh : s.claims.host with
    | none => simpa using granted { s with claims := { s.claims with plan := none } } rfl rfl
    | some d =>
      by_cases hl : s.engine.lastOwner = .plan
      · simp [hl, beginMeasurement]
      · simpa [hl] using granted { s with claims := { s.claims with plan := none } } rfl rfl

theorem grant_dueAtMost {s : State} (h : s.canGrant = true) : (grant s).dueAtMost < s.dueAtMost := by
  obtain ⟨hbusy, htx, hhandler⟩ := grant_engine h
  have hidle : s.engine.phase = .idle := by simp_all [State.canGrant]
  simp [State.dueAtMost, hbusy, htx, hhandler, hidle]

theorem takeRequest_dueAtMost {s : State} (h : s.canTake = true) : (takeRequest s).dueAtMost < s.dueAtMost := by
  simp only [State.canTake, Bool.and_eq_true, Option.isNone_iff_eq_none] at h
  obtain ⟨⟨⟨hexecuting, -⟩, hslot⟩, hinbox⟩ := h
  unfold takeRequest
  split
  case h_1 hempty => simp [hempty] at hinbox
  case h_2 r rest _ =>
    obtain ⟨hsending, hengine, hbusy⟩ := executeRequest_executes (r := r)
      (s := { s with handler := { s.handler with inbox := rest, executing := some r } }) rfl
    simp only [State.dueAtMost, hsending, hexecuting, hslot]
    have hnot (u : State) (hu : u.handler.executing ≠ none ∨ u.tx.respSlot ≠ none) :
        ¬(u.handler.executing = none ∧ u.tx.respSlot = none) := by tauto
    rw [if_neg (hnot _ hbusy)]
    split <;> split <;> simp_all

theorem startFrame_reply {s : State} (h : s.canReply = true) :
    (startFrame s).tx.sending ≠ none ∧ (startFrame s).engine = s.engine := by
  simp only [State.canReply, Bool.and_eq_true, Bool.or_eq_true] at h
  unfold startFrame
  repeat' split
  · exact ⟨Option.some_ne_none _, rfl⟩
  · exact ⟨Option.some_ne_none _, rfl⟩
  · simp_all

theorem startFrame_dueAtMost {s : State} (h : s.canReply = true) : (startFrame s).dueAtMost < s.dueAtMost := by
  obtain ⟨hsending, hengine⟩ := startFrame_reply h
  have hidle : s.tx.sending = none := by simp_all [State.canReply]
  simp only [State.dueAtMost, hsending, hengine, hidle]
  split <;> split <;> split <;> simp_all <;> omega

/-- A part in which nothing more can be due is settled. -/
theorem settled_of_dueAtMost {s : State} (h : s.dueAtMost = 0) : s.settled = true := by
  simp only [State.dueAtMost, Nat.add_eq_zero_iff, ite_eq_right_iff, one_ne_zero, imp_false, OfNat.ofNat_ne_zero] at h
  obtain ⟨⟨hengine, hsending⟩, hbusy⟩ := h
  cases he : s.handler.executing <;> cases ht : s.tx.sending <;>
    simp_all [State.settled, State.canGrant, State.canTake, State.canReply, Option.isSome_iff_ne_none]

/-- Rounds enough for what can be due leave nothing due. -/
theorem settleMany_settled {n : Nat} {s : State} (h : s.dueAtMost ≤ n) : (settleMany n s).settled = true := by
  induction n generalizing s with
  | zero => exact settled_of_dueAtMost (Nat.le_zero.1 h)
  | succ n ih =>
    by_cases hs : s.settled = true
    · simp only [State.settled, Bool.and_eq_true, Bool.not_eq_true'] at hs
      obtain ⟨⟨hg, ht⟩, hr⟩ := hs
      rw [settleMany_of_settled hg ht hr]
      simp [State.settled, hg, ht, hr]
    · have hless : (settleOnce s).dueAtMost < s.dueAtMost := by
        unfold settleOnce
        split
        case isTrue hg => exact grant_dueAtMost hg
        case isFalse hg =>
          split
          case isTrue ht => exact takeRequest_dueAtMost ht
          case isFalse ht =>
            split
            case isTrue hr => exact startFrame_dueAtMost hr
            case isFalse hr => simp_all [State.settled]
      exact ih (by omega)

theorem State.settleIdle_settled (s : State) : s.settleIdle.settled = s.settled := by
  unfold State.settleIdle
  split <;> rfl

/-- The idle timer is as it may be after it has been settled, in a part that runs or whose timer stands at 0. -/
theorem State.settleIdle_idleSettled {s : State} (h : s.phase = .running ∨ s.doze.idle = 0) :
    s.settleIdle.idleSettled = true := by
  unfold State.settleIdle
  split
  · rw [State.idleSettled_iff]
    rcases h with h | h <;> simp_all
  · simp [State.idleSettled]

/-- The end of an event leaves a part that runs at rest. -/
theorem finish_rested {s : State} (h : s.phase = .running) : (finish s).rested = true := by
  have hsettled : (settleMany settleSteps s).settleIdle.settled = true := by
    rw [State.settleIdle_settled, settleMany_settled s.dueAtMost_le]
  have hphase : (settleMany settleSteps s).phase = .running := (settleMany_keeps s settleSteps).phase.trans h
  simp [State.rested, finish, hsettled, State.settleIdle_idleSettled (.inl hphase)]

end Sys2Proof.Machine
end

