-- ==== Sys2Proof/Proofs/Rest.lean ====
section
/-! SUPPORT. Every step leaves the part at rest (R14, R123, R140, R162): after the end of an event, after a report started, after a reset and after a
boot. -/

namespace Sys2Proof.Machine

theorem idleSettled_of_idle {s : State} (h : s.doze.idle = 0) : s.idleSettled = true := by simp [State.idleSettled, h]

/-- A report started leaves a part at rest as it was. -/
theorem startIfFree_rested {s : State} (h : s.rested = true) : (startIfFree s).rested = true := by
  unfold startIfFree
  split
  case isFalse => exact h
  case isTrue hs =>
    obtain ⟨e, hold, hsend, hslot, hover, hreset, hstart⟩ := startFrame_of_rested h hs
    obtain ⟨hgrant, htake, -, hidle⟩ := (State.rested_iff s).1 h
    have hentries : s.queue.entries ≠ [] := by
      intro hnil
      simp [ReportQueue.oldestUnsent, hnil] at hold
    have hzero := State.idle_of_entries hidle hentries
    rw [hstart]
    refine (State.rested_iff _).2 ⟨hgrant ▸ State.canGrant_congr rfl rfl, htake, ?_, idleSettled_of_idle hzero⟩
    simp [State.canReply, startReport, sendFrame]

theorem enterReset_rested (cause : ResetCause) (im : Image) (s : State) : (enterReset cause im s).rested = true := by
  obtain ⟨hsettled, hidle⟩ := enterReset_settled cause im s
  simp [State.rested, hsettled, idleSettled_of_idle hidle]

/-- What the state after a boot has of what could be due: nothing but a claim. -/
theorem bootPart_idle (s : State) :
    (bootPart s).handler = .afterReset ∧ (bootPart s).tx = .idle ∧ (bootPart s).doze.idle = 0 := by
  unfold bootPart bootFrom autostart startScanning cycleStart
  dsimp only
  repeat' split
  all_goals exact ⟨rfl, rfl, rfl⟩

theorem grantIfFree_canGrant (s : State) : (grantIfFree s).canGrant = false := by
  unfold grantIfFree
  split
  case isTrue h => simp [State.canGrant, (grant_engine h).1]
  case isFalse h => simpa using h

theorem endReset_rested {s : State} (h : s.rested = true) : (endReset s).rested = true := by
  unfold endReset
  split
  · exact h
  · generalize hu : bootPart _ = u
    obtain ⟨hhandler, htx, hidle⟩ : u.handler = .afterReset ∧ u.tx = .idle ∧ u.doze.idle = 0 := hu ▸ bootPart_idle _
    have hkept : (grantIfFree u).handler = u.handler ∧ (grantIfFree u).tx = u.tx ∧ (grantIfFree u).doze.idle = u.doze.idle := by
      unfold grantIfFree grant grantPlan
      repeat' split
      all_goals exact ⟨rfl, rfl, rfl⟩
    obtain ⟨hh, ht, hi⟩ := hkept
    refine (State.rested_iff _).2 ⟨grantIfFree_canGrant u, ?_, ?_, idleSettled_of_idle (hi.trans hidle)⟩
    · simp [State.canTake, hh, hhandler, Handler.afterReset]
    · simp [State.canReply, ht, htx, Tx.idle]

/-- The end of a frame leaves the part running, or in a reset at rest. -/
theorem endFrame_running {s : State} (h : s.phase = .running) :
    (endFrame s).phase = .running ∨ ∃ cause im u, endFrame s = enterReset cause im u := by
  unfold endFrame
  split
  · exact .inl h
  · dsimp only
    split
    case h_1 r _ =>
      cases r.after with
      | nothing => exact .inl h
      | baud b => exact .inl h
      | reset m => exact .inr ⟨_, _, _, rfl⟩
    case h_2 => exact .inl h

/-- Every command leaves a part at rest at rest. -/
theorem State.Meaning.rested {s t : State} {o : Host.Outcome State Fault Refusal} (h : s.Meaning o) (hs : s.rested = true)
    (ho : o = .next t) : t.rested = true := by
  have part {f : State → State} (hf : IsEvent f) {u : State} (hu : u.phase ≠ .running → u.rested = true)
      (hft : Machine.onPart f u = .next t) : t.rested = true := by
    obtain rfl := Host.Outcome.next.inj hft
    split
    case isTrue hp => exact finish_rested ((hf.keeps _).phase.trans ((startIfFree_keeps u).phase.trans hp))
    case isFalse hp => exact hu hp
  cases h with
  | onPart hf => exact part hf (fun _ => hs) ho
  | onQueue hf =>
    obtain rfl := Host.Outcome.next.inj ho
    split
    case isTrue hp => exact finish_rested ((reportFirst_keeps ..).phase.trans ((hf.keeps s).phase.trans hp))
    case isFalse => exact hs
  | onLink hf =>
    obtain rfl := Host.Outcome.next.inj ho
    split
    case isTrue hp => exact startIfFree_rested (finish_rested ((hf.keeps s).phase.trans hp))
    case isFalse => exact hs
  | onPins pins hf =>
    refine part hf (u := { s with pins := pins }) (fun hp => ?_) ho
    obtain ⟨hgrant, htake, hreply, hidle⟩ := (State.rested_iff s).1 hs
    have hzero : s.doze.idle = 0 := by
      rcases (State.idleSettled_iff s).1 hidle with hz | ⟨hrun, -⟩
      · exact hz
      · exact absurd hrun hp
    exact (State.rested_iff _).2 ⟨hgrant, htake, hreply, idleSettled_of_idle hzero⟩
  | boundary =>
    obtain rfl := Host.Outcome.next.inj ho
    split
    case isTrue hp =>
      refine startIfFree_rested ?_
      rcases endFrame_running hp with hrun | ⟨cause, im, u, hu⟩
      · exact finish_rested hrun
      · rw [hu, finish_enterReset]
        exact enterReset_rested ..
    case isFalse => exact hs
  | powerOn =>
    obtain rfl := Host.Outcome.next.inj ho
    exact enterReset_rested ..
  | resetLow =>
    obtain rfl := Host.Outcome.next.inj ho
    unfold lineReset
    split
    · exact hs
    · exact enterReset_rested ..
  | boot =>
    obtain rfl := Host.Outcome.next.inj ho
    exact endReset_rested hs

/-- The commands that wait do not matter to what is due. -/
theorem State.rested_pending (s : State) (l : List Instr) : ({ s with pending := l } : State).rested = s.rested := rfl

theorem idleStep_rested {s : State} (h : s.rested = true) : (idleStep s).rested = true := by
  unfold idleStep
  split
  · exact h
  · exact h
  case h_3 hp =>
    split
    · exact h
    · have passed : (passTime (startIfFree s)).phase = .running := (startIfFree_keeps s).phase.trans hp
      exact (State.rested_pending ..).trans (finish_rested passed)

/-- Settles O5: the end of every event leaves the part at rest, and so does what comes after it. -/
theorem stepLeavesNothingDue : Obligations.StepLeavesNothingDue := by
  intro s t h hstep
  unfold step at hstep
  split at hstep
  · obtain rfl := Host.Outcome.next.inj hstep
    exact idleStep_rested h
  case h_2 c rest hpending =>
    exact (exec_meaning c _).rested ((State.rested_pending ..).trans h) hstep

end Sys2Proof.Machine
end

