-- ==== Sys2Proof/Proofs/ScanFrame.lean ====
section
/-! SUPPORT. What the scan invariant looks at (Tables 3-2 and 10-3), and the operations, requests and events that leave it alone. -/

namespace Sys2Proof.Machine

/-- No request waits or is in execution. -/
def Handler.Empty (h : Handler) : Prop := h.inbox = [] ∧ h.executing = none

/-- The second state has of the sequencer, the engine and the doze controller what the first has. While the receiver is DISABLED a
handler with nothing to do gets nothing to do. -/
structure State.SameScan (s t : State) : Prop where
  claim : t.claims.plan = s.claims.plan
  engine : t.engine = s.engine
  run : t.seq.runState = s.seq.runState
  position : t.seq.position = s.seq.position
  timer : t.seq.timerOn = s.seq.timerOn
  plan : s.seq.runState = .scanning → t.seq.plan = s.seq.plan
  dozeState : t.doze.state = s.doze.state
  request : t.doze.request = s.doze.request
  rx : t.rx.state = .disabled ↔ s.rx.state = .disabled
  empty : s.rx.state = .disabled → s.handler.Empty → t.handler.Empty

namespace State.SameScan

theorem of_eq {s t : State} (claim : t.claims.plan = s.claims.plan) (engine : t.engine = s.engine) (seq : t.seq = s.seq)
    (dozeState : t.doze.state = s.doze.state) (request : t.doze.request = s.doze.request) (rx : t.rx = s.rx)
    (handler : t.handler = s.handler) : s.SameScan t :=
  ⟨claim, engine, by rw [seq], by rw [seq], by rw [seq], fun _ => by rw [seq], dozeState, request, by rw [rx], fun _ => by rw [handler]; exact id⟩

theorem refl (s : State) : s.SameScan s := of_eq rfl rfl rfl rfl rfl rfl rfl

theorem trans {s t u : State} (h : s.SameScan t) (k : t.SameScan u) : s.SameScan u where
  claim := k.claim.trans h.claim
  engine := k.engine.trans h.engine
  run := k.run.trans h.run
  position := k.position.trans h.position
  timer := k.timer.trans h.timer
  plan hs := (k.plan (h.run.trans hs)).trans (h.plan hs)
  dozeState := k.dozeState.trans h.dozeState
  request := k.request.trans h.request
  rx := k.rx.trans h.rx
  empty hd he := k.empty (h.rx.2 hd) (h.empty hd he)

theorem after {s t u : State} (k : t.SameScan u) (h : s.SameScan t) : s.SameScan u := h.trans k

theorem ite {s t u : State} {c : Prop} [Decidable c] (h : s.SameScan t) (k : s.SameScan u) : s.SameScan (if c then t else u) := by
  split <;> assumption

end State.SameScan

theorem State.Tracks.sameScan {s t : State} (h : s.Tracks t) : s.SameScan t := by
  unfold State.Tracks at h
  rw [h]
  exact .of_eq rfl rfl rfl rfl rfl rfl rfl

/-! ### Operations -/

section
variable (s : State)

theorem count_sameScan (f : Counters → Counters) : s.SameScan (s.count f) := .of_eq rfl rfl rfl rfl rfl rfl rfl

theorem offer_sameScan (rep : Report) : s.SameScan (offer rep s) := (offer_tracks rep s).sameScan

theorem respondThen_sameScan (a : AfterSend) (r : Request) (c : ResultCode) (p : List Byte) : s.SameScan (respondThen a r c p s) :=
  ⟨rfl, rfl, rfl, rfl, rfl, fun _ => rfl, rfl, rfl, .rfl, fun _ h => ⟨h.1, rfl⟩⟩

theorem respond_sameScan (r : Request) (c : ResultCode) (p : List Byte) : s.SameScan (respond r c p s) := respondThen_sameScan ..

theorem answerLong_sameScan (code : Byte) (c : ResultCode) (p : List Byte) : s.SameScan (answerLong code c p s) := by
  unfold answerLong
  split
  · exact .ite (respond_sameScan ..) (.refl s)
  · exact .refl s

theorem settleIdle_sameScan : s.SameScan s.settleIdle := .ite (.refl s) (.of_eq rfl rfl rfl rfl rfl rfl rfl)

theorem startOldest_sameScan : s.SameScan (startOldest s) := by
  unfold startOldest
  split
  · exact .of_eq rfl rfl rfl rfl rfl rfl rfl
  · exact .refl s

theorem startFrame_sameScan : s.SameScan (startFrame s) := by
  unfold startFrame
  repeat' split
  · exact .of_eq rfl rfl rfl rfl rfl rfl rfl
  · exact .of_eq rfl rfl rfl rfl rfl rfl rfl
  · exact startOldest_sameScan s

theorem startIfFree_sameScan : s.SameScan (startIfFree s) := .ite (startFrame_sameScan s) (.refl s)

theorem reportFirst_sameScan (waiting : Bool) : s.SameScan (reportFirst waiting s) := .ite (startOldest_sameScan s) (.refl s)

/-! ### Requests -/

/-- A request whose effect the scan does not see, once it is answered. -/
theorem respond_after_sameScan {t : State} (h : s.SameScan t) (r : Request) (c : ResultCode) (p : List Byte) :
    s.SameScan (respond r c p t) :=
  h.trans (respond_sameScan ..)

theorem checked_sameScan {r : Request} {l st : Bool} {f : List (Nat × Bool)} {accept : State → State}
    (h : s.SameScan (accept s)) : s.SameScan (checked r l st f accept s) := by
  unfold checked
  refine .ite (respond_sameScan ..) (.ite (respond_sameScan ..) ?_)
  split
  · exact respond_sameScan ..
  · exact h

theorem runSetKey_sameScan (r : Request) : s.SameScan (runSetKey r s) := by
  have stored : s.SameScan (storeKey (keyOf r.payload) (readKeyRecord r.payload 1) s) := .of_eq rfl rfl rfl rfl rfl rfl rfl
  exact checked_sameScan s (respond_after_sameScan s
    (stored.trans ((reconfigure_tracks ..).trans (evaluateSliderOf_tracks ..)).sameScan) ..)

/-- In STOPPED the plan is no plan being scanned. -/
theorem runSetPlan_sameScan (r : Request) : s.SameScan (runSetPlan r s) := by
  refine checked_sameScan s ?_
  unfold acceptSetPlan
  split
  case isTrue h =>
    have planned (p : Plan) : s.SameScan { s with seq := { s.seq with plan := p, pendingPlan := none } } :=
      ⟨rfl, rfl, rfl, rfl, rfl, fun hs => (nomatch h.symm.trans hs), rfl, rfl, .rfl, fun _ => id⟩
    exact respond_after_sameScan s ((planned _).trans (refPlanChange_tracks ..).sameScan) ..
  case isFalse =>
    have deferred (p : Plan) : s.SameScan { s with seq := { s.seq with pendingPlan := some p } } :=
      ⟨rfl, rfl, rfl, rfl, rfl, fun _ => rfl, rfl, rfl, .rfl, fun _ => id⟩
    exact respond_after_sameScan s (deferred _) ..

theorem runRecalibrate_sameScan (r : Request) : s.SameScan (runRecalibrate r s) := by
  have recalibrated (keys : List KeyId) : s.Tracks (evaluateAll (keys.foldl hostRecal s)) :=
    (State.Tracks.foldl hostRecal_tracks keys s).trans (evaluateAll_tracks _)
  have flagged (u : State) : u.Tracks (recalibrateRef u) := setRef_tracks ..
  refine checked_sameScan s (respond_after_sameScan s (State.Tracks.sameScan ?_) ..)
  exact .ite ((recalibrated _).trans (flagged _)) (recalibrated _)

theorem runReadLinkStats_sameScan (r : Request) : s.SameScan (runReadLinkStats r s) :=
  checked_sameScan s (respond_after_sameScan s (.ite (count_sameScan ..) (.refl s)) ..)

theorem runSoftReset_sameScan (r : Request) : s.SameScan (runSoftReset r s) := by
  have ordered (m : ResetMode) : s.SameScan { s with handler := { s.handler with pendingReset := some m } } :=
    ⟨rfl, rfl, rfl, rfl, rfl, fun _ => rfl, rfl, rfl, .rfl, fun _ => id⟩
  exact checked_sameScan s ((ordered _).trans (respondThen_sameScan ..))

theorem runMeasure_sameScan (r : Request) : s.SameScan (runMeasure r s) :=
  checked_sameScan s (.of_eq rfl rfl rfl rfl rfl rfl rfl)

theorem runProfileSave_sameScan (r : Request) : s.SameScan (runProfileSave r s) := by
  have staged (x : Store) : s.SameScan { s with store := x } := .of_eq rfl rfl rfl rfl rfl rfl rfl
  exact checked_sameScan s (.ite (respond_sameScan ..) (.ite (respond_sameScan ..) (respond_after_sameScan s (staged _) ..)))

theorem runSetLink_sameScan (r : Request) : s.SameScan (runSetLink r s) := by
  have settled (l : LinkCfg) (d : Delivery) : s.SameScan { s with linkCfg := l, delivery := d } := .of_eq rfl rfl rfl rfl rfl rfl rfl
  exact checked_sameScan s ((settled ..).trans (respondThen_sameScan ..))

/-- A load, in a part that is STOPPED and AWAKE with no entry request. -/
theorem loadImage_sameScan (hrun : s.seq.runState = .stopped) (hstate : s.doze.state = .awake) (hrequest : s.doze.request = none)
    (im : Image) : s.SameScan (loadImage im s) :=
  ⟨rfl, rfl, rfl, rfl, rfl, fun hs => (nomatch hrun.symm.trans hs), hstate.symm, hrequest.symm, .rfl, fun _ => id⟩

/-! ### Events -/

theorem joinInbox_sameScan (hrx : s.rx.state ≠ .disabled) (r : Request) : s.SameScan (joinInbox r s) := by
  rw [joinInbox_eq]
  exact ⟨rfl, rfl, rfl, rfl, rfl, fun _ => rfl, rfl, rfl, .rfl, fun h => absurd h hrx⟩

theorem passRequest_sameScan (hrx : s.rx.state ≠ .disabled) (r : Request) : s.SameScan (passRequest r s) := by
  have started := startIfFree_sameScan s
  have joined (u : State) (hu : u.rx.state ≠ .disabled) : u.SameScan (takeRequestFrame r u) :=
    .ite (joinInbox_sameScan u hu r) (.ite (.of_eq rfl rfl rfl rfl rfl rfl rfl) (count_sameScan ..))
  exact .ite (.refl s) (started.trans (joined _ fun h => hrx (started.rx.1 h)))

theorem takeFlow_sameScan (flags : Byte) (n : Word) (w : Byte) : s.SameScan (takeFlow flags n w s) := by
  have delivered (u : State) (d : Delivery) : u.SameScan { u with delivery := d } := .of_eq rfl rfl rfl rfl rfl rfl rfl
  have removed (q : ReportQueue) : s.SameScan (s.withQueue q) := .of_eq rfl rfl rfl rfl rfl rfl rfl
  have acked : s.SameScan (takeAck n s) := .ite ((removed _).trans (delivered ..)) (count_sameScan ..)
  have windowed (u : State) : u.SameScan (takeWindow w u) := .ite (.of_eq rfl rfl rfl rfl rfl rfl rfl) (count_sameScan ..)
  have taken : s.SameScan (if flags.getLsbD 0 then takeAck n s else s) := .ite acked (.refl s)
  exact .ite (taken.trans (windowed _)) taken

theorem passFlow_sameScan (flags : Byte) (n : Word) (w : Byte) : s.SameScan (passFlow flags n w s) :=
  .ite (count_sameScan ..) (.ite (.refl s) (takeFlow_sameScan ..))

theorem checkFrame_sameScan (hrx : s.rx.state ≠ .disabled) (body : List Byte) (crc : Word) : s.SameScan (checkFrame body crc s) := by
  refine .ite ?_ (count_sameScan ..)
  unfold passBody
  split
  · exact passRequest_sameScan s hrx _
  · exact passFlow_sameScan ..
  · exact count_sameScan ..

/-- The receiver moves among the states in which it is enabled. -/
theorem rx_sameScan (hrx : s.rx.state ≠ .disabled) {x : Receiver} (hx : x.state ≠ .disabled) : s.SameScan { s with rx := x } :=
  ⟨rfl, rfl, rfl, rfl, rfl, fun _ => rfl, rfl, rfl, ⟨fun h => absurd h hx, fun h => absurd h hrx⟩, fun h => absurd h hrx⟩

theorem searchAgain_enabled : (searchAgain s).rx.state ≠ .disabled := by simp [searchAgain, Receiver.searching]

theorem searchAgain_sameScan (hrx : s.rx.state ≠ .disabled) : s.SameScan (searchAgain s) := rx_sameScan s hrx nofun

theorem receiving_sameScan {f : State → State} (h : ∀ u : State, u.rx.state ≠ .disabled → u.SameScan (f u)) :
    s.SameScan (receiving (fun u => f (searchAgain u)) s) := by
  unfold receiving
  split
  case isTrue => exact .refl s
  case isFalse hrx => exact (searchAgain_sameScan s hrx).trans (h _ (searchAgain_enabled s))

theorem takeByte_sameScan (b : Byte) : s.SameScan (takeByte b s) := by
  unfold takeByte
  split
  · exact .refl s
  case h_2 hs =>
    exact .ite (rx_sameScan s (by rw [hs]; nofun) nofun) (count_sameScan ..)
  case h_3 hs =>
    have hrx : s.rx.state ≠ .disabled := by rw [hs]; nofun
    exact .ite (rx_sameScan s hrx nofun) ((searchAgain_sameScan s hrx).trans (count_sameScan ..))
  case h_4 hs =>
    refine rx_sameScan s (by rw [hs]; nofun) ?_
    dsimp only
    split <;> nofun
  case h_5 hs =>
    have hrx : s.rx.state ≠ .disabled := by rw [hs]; nofun
    exact .ite ((searchAgain_sameScan s hrx).trans (checkFrame_sameScan _ (searchAgain_enabled s) ..)) (rx_sameScan s hrx hrx)

theorem takeGap_sameScan : s.SameScan (takeGap s) := by
  have gone (hrx : s.rx.state ≠ .disabled) : s.SameScan ((searchAgain s).count Counters.addGap) :=
    (searchAgain_sameScan s hrx).trans (count_sameScan ..)
  unfold takeGap
  split
  case h_1 h => exact gone (by rw [h]; nofun)
  case h_2 h => exact gone (by rw [h]; nofun)
  case h_3 h => exact gone (by rw [h]; nofun)
  case h_4 => exact .refl s

theorem ackExpires_sameScan : s.SameScan (ackExpires s) := by
  have expired : s.SameScan (expireAck s) := .ite (.of_eq rfl rfl rfl rfl rfl rfl rfl) (.of_eq rfl rfl rfl rfl rfl rfl rfl)
  unfold ackExpires
  split
  · exact .refl s
  · exact .ite expired (.refl s)

theorem intervalExpires_sameScan : s.SameScan (intervalExpires s) := by
  have claimed (u : State) : u.SameScan (claimWake u) := .ite (.refl u) (.of_eq rfl rfl rfl rfl rfl rfl rfl)
  have restarted (t : Time) : s.SameScan { s with doze := { s.doze with interval := some t } } := .of_eq rfl rfl rfl rfl rfl rfl rfl
  unfold intervalExpires
  split
  · exact .ite ((restarted _).trans (claimed _)) (.refl s)
  · exact .refl s

theorem endVerifying_sameScan (matched : Bool) : s.SameScan (endVerifying matched s) := by
  have stored (x : Store) : s.SameScan { s with store := x } := .of_eq rfl rfl rfl rfl rfl rfl rfl
  unfold endVerifying offerDone
  split
  · exact .ite (stored _) ((stored _).trans (offer_sameScan ..))
  · exact .refl s

theorem endCommitting_sameScan (mark : Bool) : s.SameScan (endCommitting mark s) := by
  have stored (x : Store) : s.SameScan { s with store := x } := .of_eq rfl rfl rfl rfl rfl rfl rfl
  unfold endCommitting offerDone
  split
  · exact (stored _).trans (offer_sameScan ..)
  · exact .refl s

end

end Sys2Proof.Machine
end

