-- ==== Sys2Proof/Proofs/ScanSound.lean ====
section
/-! SUPPORT. Every step keeps the scan sound (R39, Tables 3-2 and 10-3): what the invariant says part by part, the sequencer with no plan
claim and no plan measurement, the results, the grants, the requests and the events. -/

namespace Sys2Proof.Machine

/-! ### What the invariant says -/

theorem State.scanSound_iff {s : State} :
    s.scanSound = true ↔ s.runStateSound = true ∧ s.engine.sound = true ∧ s.dozeSound = true := by
  simp [State.scanSound, and_assoc]

/-- Table 10-3 with its note 1, part by part. -/
theorem State.dozeSound_iff {s : State} :
    s.dozeSound = true ↔ (s.doze.state = .requested → s.seq.runState ≠ .stopped) ∧
      (s.doze.asleep = true ↔ s.seq.runState = .dozing) ∧ (s.rx.state = .disabled ↔ s.doze.asleep = true) ∧
      (s.doze.asleep = true → s.handler.Empty) ∧ (s.doze.request.isSome = true ↔ s.doze.state = .requested) := by
  cases ha : s.doze.asleep <;> cases hr : s.doze.request.isSome <;>
    simp [State.dozeSound, Handler.Empty, ha, hr, and_assoc, imp_iff_not_or]

theorem Engine.sound_iff {e : Engine} :
    e.sound = true ↔ (e.phase = .idle ↔ e.job = none) ∧ (e.abort = true → e.phase = .discharge) ∧ (e.cut = true → e.abort = true) := by
  cases hj : e.job <;> cases ha : e.abort <;> cases hc : e.cut <;> simp [Engine.sound, hj, ha, hc]

/-- No plan claim waits, no plan measurement is in flight, and the engine is sound. -/
structure State.Unclaimed (s : State) : Prop where
  claim : s.claims.plan = none
  owner : s.engine.ownerKind ≠ .plan
  engine : s.engine.sound = true

/-- The part is not asleep, its receiver is enabled, and an entry request is raised exactly in REQUESTED. -/
structure State.Awake (s : State) : Prop where
  asleep : s.doze.asleep = false
  rx : s.rx.state ≠ .disabled
  request : s.doze.request.isSome = true ↔ s.doze.state = .requested

section
variable {s t : State}

/-- A frame of the scan keeps it sound. -/
theorem State.SameScan.sound (h : s.SameScan t) (hs : s.scanSound = true) : t.scanSound = true := by
  obtain ⟨hrun, hengine, hdoze⟩ := State.scanSound_iff.1 hs
  obtain ⟨hstopped, hdozing, hrx, hempty, hrequest⟩ := State.dozeSound_iff.1 hdoze
  have hasleep : t.doze.asleep = s.doze.asleep := by simp only [Doze.asleep, h.dozeState]
  refine State.scanSound_iff.2 ⟨?_, by rw [h.engine, hengine], State.dozeSound_iff.2 ⟨?_, ?_, ?_, ?_, ?_⟩⟩
  · revert hrun
    simp only [State.runStateSound, State.planClaimed, State.planInFlight, State.planAtPosition, State.atPosition, h.claim,
      h.engine, h.run, h.position, h.timer]
    cases hr : s.seq.runState
    case scanning =>
      rw [h.plan hr]
      exact id
    all_goals exact id
  · rwa [h.dozeState, h.run]
  · rwa [hasleep, h.run]
  · rw [h.rx, hasleep, hrx]
  · exact fun ha => h.empty (hrx.2 (hasleep ▸ ha)) (hempty (hasleep ▸ ha))
  · rwa [h.request, h.dozeState]

/-- A part that does not doze is awake. -/
theorem State.awake_of_sound (hs : s.scanSound = true) (hrun : s.seq.runState ≠ .dozing) : s.Awake := by
  obtain ⟨-, -, hdoze⟩ := State.scanSound_iff.1 hs
  obtain ⟨-, hdozing, hrx, -, hrequest⟩ := State.dozeSound_iff.1 hdoze
  exact ⟨by simpa using mt hdozing.1 hrun, fun h => hrun (hdozing.1 (hrx.1 h)), hrequest⟩

theorem State.Awake.dozeSound (h : s.Awake) (hrun : s.seq.runState ≠ .dozing)
    (hstopped : s.doze.state = .requested → s.seq.runState ≠ .stopped) : s.dozeSound = true :=
  State.dozeSound_iff.2 ⟨hstopped, by simp [h.asleep, hrun], by simp [h.asleep, h.rx], by simp [h.asleep], h.request⟩

/-- Outside SCANNING and STOPPING no plan claim waits, no plan measurement is in flight, and the period timer runs in CYCLE_WAIT
alone. -/
theorem State.unclaimed_of_sound (hs : s.scanSound = true) (hscan : s.seq.runState ≠ .scanning) (hstop : s.seq.runState ≠ .stopping) :
    s.Unclaimed ∧ s.seq.timerOn = decide (s.seq.runState = .cycleWait) := by
  obtain ⟨hrun, hengine, -⟩ := State.scanSound_iff.1 hs
  simp only [State.runStateSound, State.planClaimed, State.planInFlight] at hrun
  cases hr : s.seq.runState <;> simp_all <;> exact ⟨hrun.1.1, hrun.1.2, hengine⟩

/-- A sequencer with no plan claim and no plan measurement is sound in STOPPED, CYCLE_WAIT and DOZING. -/
theorem State.Unclaimed.runStateSound (h : s.Unclaimed) (hscan : s.seq.runState ≠ .scanning) (hstop : s.seq.runState ≠ .stopping)
    (htimer : s.seq.timerOn = decide (s.seq.runState = .cycleWait)) : s.runStateSound = true := by
  obtain ⟨hclaim, howner, -⟩ := h
  cases hr : s.seq.runState <;> simp_all [State.runStateSound, State.planClaimed, State.planInFlight]

theorem State.Tracks.unclaimed (h : s.Tracks t) (hs : s.Unclaimed) : t.Unclaimed := by
  rw [h]
  exact ⟨hs.claim, hs.owner, hs.engine⟩

end

/-! ### Claims, cycles and stops -/

section
variable {s : State}

/-- The entry found is in the list, at its index. -/
theorem firstMeasured_getElem? {keys : Vector KeyRecord 32} {l : List PlanEntry} {i : Nat} {c : PlanClaim}
    (h : firstMeasured keys l i = some c) : ∃ j, c.index = i + j ∧ l[j]? = some c.subject := by
  induction l generalizing i with
  | nil => cases h
  | cons e rest ih =>
    cases e with
    | ref =>
      cases h
      exact ⟨0, rfl, rfl⟩
    | key k =>
      simp only [firstMeasured] at h
      split at h
      · cases h
        exact ⟨0, rfl, rfl⟩
      · obtain ⟨j, hindex, hentry⟩ := ih h
        exact ⟨j + 1, by omega, hentry⟩

theorem State.nextClaim_entry {position : Nat} {c : PlanClaim} (h : s.nextClaim position = some c) :
    s.seq.plan.entries[c.index]? = some c.subject := by
  obtain ⟨j, hindex, hentry⟩ := firstMeasured_getElem? h
  rw [List.getElem?_drop] at hentry
  rwa [hindex]

theorem Engine.planJob_of_ownerKind {e : Engine} (h : e.ownerKind ≠ .plan) {j : Job} (hj : e.job = some j) (index : Nat)
    (subject : PlanEntry) (version : Word) : j.owner ≠ .plan index subject version := by
  intro ho
  simp [Engine.ownerKind, hj, ho, Owner.kind] at h

/-- The claim of an entry of the plan in SCANNING. -/
theorem claimEntry_runStateSound (h : s.Unclaimed) (hrun : s.seq.runState = .scanning) (htimer : s.seq.timerOn = true) {c : PlanClaim}
    (hc : s.seq.plan.entries[c.index]? = some c.subject) : (claimEntry c s).runStateSound = true := by
  have hjob : (match s.engine.job with
      | some { owner := .plan index subject _, .. } => (claimEntry c s).atPosition index subject
      | _ => true) = true := by
    split
    case h_1 hj => exact absurd rfl (Engine.planJob_of_ownerKind h.owner hj _ _ _)
    case h_2 => rfl
  simp only [State.runStateSound, claimEntry, hrun, State.planClaimed, State.planInFlight, State.planAtPosition]
  simp only [claimEntry] at hjob
  simp [h.owner, htimer, State.atPosition, hc]
  exact hjob

theorem enterCycleWait_runStateSound (h : s.Unclaimed) (htimer : s.seq.timerOn = true) : (enterCycleWait s).runStateSound = true :=
  State.Unclaimed.runStateSound (s := enterCycleWait s) ⟨h.claim, h.owner, h.engine⟩ nofun nofun htimer

/-- What a cycle start leaves: a sound sequencer, in SCANNING or CYCLE_WAIT. -/
theorem cycleStart_runStateSound (h : s.Unclaimed) :
    (cycleStart s).runStateSound = true ∧ ((cycleStart s).seq.runState = .scanning ∨ (cycleStart s).seq.runState = .cycleWait) := by
  have started (x : Sequencer) : ({ s with seq := x } : State).Unclaimed := ⟨h.claim, h.owner, h.engine⟩
  unfold cycleStart
  dsimp only
  split
  case h_1 c hc => exact ⟨claimEntry_runStateSound (started _) rfl rfl (State.nextClaim_entry hc), .inl rfl⟩
  case h_2 => exact ⟨enterCycleWait_runStateSound (started _) rfl, .inr rfl⟩

theorem State.Sequences.awake {t : State} (h : s.Sequences t) (hdoze : t.doze = s.doze) (hs : s.Awake) : t.Awake :=
  ⟨by rw [hdoze, hs.asleep], by rw [h.rx]; exact hs.rx, by rw [hdoze]; exact hs.request⟩

theorem cycleStart_doze : (cycleStart s).doze = s.doze := by
  unfold cycleStart
  dsimp only
  split <;> rfl

theorem cycleStart_sound (h : s.Unclaimed) (ha : s.Awake) : (cycleStart s).scanSound = true := by
  obtain ⟨hrun, hwhich⟩ := cycleStart_runStateSound h
  have hawake := (cycleStart_sequences s).awake cycleStart_doze ha
  refine State.scanSound_iff.2 ⟨hrun, by rw [(cycleStart_sequences s).engine, h.engine], hawake.dozeSound ?_ fun _ => ?_⟩ <;>
    rcases hwhich with hw | hw <;> rw [hw] <;> nofun

/-- Doze is entered by a sequencer with no plan claim and no plan measurement, when no request but an ENTER_DOZE is there. -/
theorem enterDoze_sound (h : s.Unclaimed) (hquiet : s.requestsQuiet = true) (recorded : Recorded) :
    (enterDoze recorded s).scanSound = true := by
  rw [enterDoze_eq]
  have hentered : (dozeEffect recorded s).Unclaimed := ⟨h.claim, h.owner, h.engine⟩
  generalize hu : answerLong enterDozeCode .ok [] (dozeEffect recorded s) = u
  have hsame : (dozeEffect recorded s).SameScan u := hu ▸ answerLong_sameScan ..
  have hempty : u.handler.Empty := by
    simp only [State.requestsQuiet, Bool.and_eq_true, List.isEmpty_iff] at hquiet
    obtain ⟨hinbox, hexec⟩ := hquiet
    subst hu
    cases he : s.handler.executing with
    | none => exact ⟨by rw [answerLong_of_none (s := dozeEffect recorded s) he]; exact hinbox,
        by rw [answerLong_of_none (s := dozeEffect recorded s) he]; exact he⟩
    | some r =>
      rw [answerLong_of_executing (s := dozeEffect recorded s) he (by simpa [he] using hexec)]
      exact ⟨hinbox, rfl⟩
  refine State.scanSound_iff.2 ⟨?_, by rw [hsame.engine]; exact h.engine, State.dozeSound_iff.2 ⟨?_, ?_, ?_, fun _ => hempty, ?_⟩⟩
  · refine State.Unclaimed.runStateSound ⟨hsame.claim.trans h.claim, by rw [hsame.engine]; exact h.owner, by rw [hsame.engine]; exact h.engine⟩ ?_ ?_ ?_ <;>
      simp [hsame.run, hsame.timer, dozeEffect]
  · simp [hsame.dozeState, dozeEffect]
  · simp [Doze.asleep, hsame.dozeState, hsame.run, dozeEffect]
  · simp [Doze.asleep, hsame.dozeState, hsame.rx, dozeEffect]
  · simp [hsame.dozeState, hsame.request, dozeEffect]

/-- An entry request cleared leaves the part AWAKE. -/
theorem clearEntryRequest_awake (h : s.Awake) : (clearEntryRequest s).Awake ∧ (clearEntryRequest s).doze.state = .awake := by
  obtain ⟨hasleep, hrx, hrequest⟩ := h
  unfold clearEntryRequest
  split
  case isTrue => exact ⟨⟨rfl, hrx, by simp⟩, rfl⟩
  case isFalse hno =>
    refine ⟨⟨hasleep, hrx, hrequest⟩, ?_⟩
    have hnot : s.doze.state ≠ .requested := mt hrequest.2 hno
    cases hd : s.doze.state <;> simp_all [Doze.asleep]

theorem State.Sequences.unclaimed {t : State} (h : s.Sequences t) (hclaims : t.claims.plan = s.claims.plan) (hs : s.Unclaimed) : t.Unclaimed :=
  ⟨hclaims.trans hs.claim, by rw [h.engine]; exact hs.owner, by rw [h.engine]; exact hs.engine⟩

theorem clearEntryRequest_claims : (clearEntryRequest s).claims = s.claims := by
  unfold clearEntryRequest
  split <;> rfl

theorem refuseDoze_unclaimed (h : s.Unclaimed) : (refuseDoze s).Unclaimed := by
  have hsame := answerLong_sameScan (clearEntryRequest s) enterDozeCode .state []
  have hcleared := (clearEntryRequest_sequences s).unclaimed (by rw [clearEntryRequest_claims]) h
  exact ⟨hsame.claim.trans hcleared.claim, by rw [refuseDoze, hsame.engine]; exact hcleared.owner, by rw [refuseDoze, hsame.engine]; exact hcleared.engine⟩

theorem State.SameScan.awake {t : State} (h : s.SameScan t) (hs : s.Awake) : t.Awake :=
  ⟨by simpa only [Doze.asleep, h.dozeState] using hs.asleep, mt h.rx.1 hs.rx, by rw [h.dozeState, h.request]; exact hs.request⟩

theorem refuseDoze_awake (h : s.Awake) : (refuseDoze s).Awake := (answerLong_sameScan ..).awake (clearEntryRequest_awake h).1

/-- The second state differs from the first in its runtime records, its groups, its report queue, its ATTN pulse and its plans
alone. -/
def State.Plans (s t : State) : Prop :=
  t = { s with track := t.track, groups := t.groups, queue := t.queue, attnPulse := t.attnPulse,
               seq := { s.seq with plan := t.seq.plan, pendingPlan := t.seq.pendingPlan } }

theorem State.Plans.trans {t u : State} (h : s.Plans t) (k : t.Plans u) : s.Plans u := by
  unfold State.Plans at *
  rw [k, h]

theorem State.Tracks.plans {t : State} (h : s.Tracks t) : s.Plans t := by
  unfold State.Tracks at h
  rw [h]
  rfl

theorem State.Plans.unclaimed {t : State} (h : s.Plans t) (hs : s.Unclaimed) : t.Unclaimed := by
  rw [h]
  exact ⟨hs.claim, hs.owner, hs.engine⟩

theorem State.Plans.awake {t : State} (h : s.Plans t) (hs : s.Awake) : t.Awake := by
  rw [h]
  exact ⟨hs.asleep, hs.rx, hs.request⟩

theorem planSwap_plans : s.Plans (planSwap s) := by
  have planned (p : Plan) : s.Plans { s with seq := { s.seq with plan := p, pendingPlan := none } } := rfl
  unfold planSwap
  split
  · exact (State.Tracks.refl s).plans
  · exact (planned _).trans ((quiesceAll_tracks ..).trans ((evaluateAll_tracks _).trans (refPlanChange_tracks ..))).plans

theorem promotePlan_plans : s.Plans (promotePlan s) := by
  have planned (p : Plan) : s.Plans { s with seq := { s.seq with plan := p, pendingPlan := none } } := rfl
  unfold promotePlan
  split
  · exact (State.Tracks.refl s).plans
  · exact (planned _).trans (refPlanChange_tracks ..).plans

theorem State.requestsQuiet_of_entryConditions (h : s.entryConditions = true) : s.requestsQuiet = true := by
  simp only [State.entryConditions, Bool.and_eq_true] at h
  exact h.1.1.1.2

theorem cycleBoundary_sound (h : s.Unclaimed) (ha : s.Awake) : (cycleBoundary s).scanSound = true := by
  have hu := planSwap_plans.unclaimed h
  have hawake := planSwap_plans.awake ha
  unfold cycleBoundary boundaryDecision
  split
  · split
    case isTrue hc => exact enterDoze_sound hu (State.requestsQuiet_of_entryConditions hc) _
    case isFalse => exact cycleStart_sound (refuseDoze_unclaimed hu) (refuseDoze_awake hawake)
  · exact cycleStart_sound hu hawake

/-- The next entry in SCANNING. -/
theorem reachEntry_sound (h : s.Unclaimed) (ha : s.Awake) (hrun : s.seq.runState = .scanning) (htimer : s.seq.timerOn = true)
    (position : Nat) : (reachEntry position s).scanSound = true := by
  unfold reachEntry lastEntryDone
  split
  case h_1 c hc =>
    refine State.scanSound_iff.2 ⟨claimEntry_runStateSound h hrun htimer (State.nextClaim_entry hc), h.engine, ?_⟩
    have hclaimed : (claimEntry c s).Awake := ⟨ha.asleep, ha.rx, ha.request⟩
    have hscanning : (claimEntry c s).seq.runState = .scanning := hrun
    refine hclaimed.dozeSound ?_ fun _ => ?_ <;> rw [hscanning] <;> nofun
  case h_2 =>
    split
    · exact cycleBoundary_sound ⟨h.claim, h.owner, h.engine⟩ ⟨ha.asleep, ha.rx, ha.request⟩
    · refine State.scanSound_iff.2 ⟨enterCycleWait_runStateSound h htimer, h.engine, ?_⟩
      exact State.Awake.dozeSound (s := enterCycleWait s) ⟨ha.asleep, ha.rx, ha.request⟩ nofun fun _ => nofun

theorem completeStop_sound (h : s.Unclaimed) (ha : s.Awake) : (completeStop s).scanSound = true := by
  rw [completeStop_eq]
  refine (answerLong_sameScan ..).sound ?_
  have hplans : s.Plans (promotePlan (evaluateAll (allKeys.foldl (quiesce .stopped) s))) :=
    ((quiesceAll_tracks ..).trans (evaluateAll_tracks _)).plans.trans promotePlan_plans
  unfold stopEffect
  generalize promotePlan _ = u at hplans ⊢
  obtain ⟨hawake, hstate⟩ := clearEntryRequest_awake (hplans.awake ha)
  have hu := (clearEntryRequest_sequences u).unclaimed (by rw [clearEntryRequest_claims]) (hplans.unclaimed h)
  generalize clearEntryRequest u = v at hawake hstate hu ⊢
  refine State.scanSound_iff.2 ⟨State.Unclaimed.runStateSound ⟨hu.claim, hu.owner, hu.engine⟩ nofun nofun rfl, hu.engine, ?_⟩
  refine State.Awake.dozeSound ⟨hawake.asleep, hawake.rx, hawake.request⟩ nofun fun hr => ?_
  exact nomatch hstate.symm.trans hr

/-! ### The engine -/

/-- Another phase of the same measurement, with an abort kept. -/
theorem engine_sound (hs : s.scanSound = true) {e : Engine} (hjob : e.job = s.engine.job)
    (habort : s.engine.abort = true → e.abort = true) (he : e.sound = true) : ({ s with engine := e } : State).scanSound = true := by
  obtain ⟨hrun, -, hdoze⟩ := State.scanSound_iff.1 hs
  have howner : e.ownerKind = s.engine.ownerKind := by rw [Engine.ownerKind, hjob, Engine.ownerKind]
  refine State.scanSound_iff.2 ⟨?_, he, hdoze⟩
  simp only [State.runStateSound, State.planClaimed, State.planInFlight, State.planAtPosition, State.atPosition, hjob, howner] at hrun ⊢
  cases hr : s.seq.runState
  case stopping => simp_all
  all_goals simpa only [hr] using hrun

/-- A measurement that is none of the plan, or none at all, in the place of another such. -/
theorem unplanned_sound (hs : s.scanSound = true) (howner : s.engine.ownerKind ≠ .plan) {e : Engine} (hnew : e.ownerKind ≠ .plan)
    (he : e.sound = true) : ({ s with engine := e } : State).scanSound = true := by
  obtain ⟨hrun, -, hdoze⟩ := State.scanSound_iff.1 hs
  refine State.scanSound_iff.2 ⟨?_, he, hdoze⟩
  have hjob : (match e.job with
      | some { owner := .plan index subject _, .. } => ({ s with engine := e } : State).atPosition index subject
      | _ => true) = true := by
    split
    case h_1 hj => exact absurd rfl (Engine.planJob_of_ownerKind hnew hj _ _ _)
    case h_2 => rfl
  simp only [State.runStateSound, State.planClaimed, State.planInFlight, State.planAtPosition, howner, hnew] at hrun ⊢
  cases hr : s.seq.runState
  case scanning =>
    simp only [hr, Bool.and_eq_true] at hrun ⊢
    obtain ⟨⟨hclaimed, hplace, -⟩, htimer⟩ := hrun
    exact ⟨⟨hclaimed, hplace, hjob⟩, htimer⟩
  all_goals simp_all

/-- The engine IDLE after a measurement that was none of the plan. -/
theorem freed_sound (hs : s.scanSound = true) (howner : s.engine.ownerKind ≠ .plan) :
    ({ s with engine := s.engine.freed } : State).scanSound = true :=
  unplanned_sound hs howner (e := s.engine.freed) nofun rfl

/-- A plan measurement is in flight in SCANNING and STOPPING alone, with no plan claim waiting. -/
theorem State.run_of_planOwner (hs : s.scanSound = true) (howner : s.engine.ownerKind = .plan) :
    s.claims.plan = none ∧ ((s.seq.runState = .scanning ∧ s.seq.timerOn = true) ∨ s.seq.runState = .stopping) := by
  obtain ⟨hrun, -, -⟩ := State.scanSound_iff.1 hs
  simp only [State.runStateSound, State.planClaimed, State.planInFlight, howner] at hrun
  cases hr : s.seq.runState <;> simp_all

/-- A doze controller that is asleep changes to one that is asleep. -/
theorem asleep_sound (hs : s.scanSound = true) (ha : s.doze.asleep = true) {d : Doze} (hd : d.asleep = true)
    (hr : d.request = s.doze.request) : ({ s with doze := d } : State).scanSound = true := by
  obtain ⟨hrun, hengine, hdoze⟩ := State.scanSound_iff.1 hs
  obtain ⟨-, hdozing, hrx, hempty, hrequest⟩ := State.dozeSound_iff.1 hdoze
  have awake (x : Doze) (hx : x.asleep = true) : x.state ≠ .requested := by
    intro h
    simp [Doze.asleep, h] at hx
  refine State.scanSound_iff.2 ⟨hrun, hengine, State.dozeSound_iff.2 ⟨fun h => absurd h (awake d hd), ?_, ?_, fun _ => hempty ha, ?_⟩⟩
  · simpa [hd, ha] using hdozing
  · simpa [hd, ha] using hrx
  · simp only [awake d hd, awake _ ha, hr, iff_false] at hrequest ⊢
    exact hrequest

theorem Engine.aborted_sound {e : Engine} (h : e.sound = true) : e.aborted.sound = true := by
  obtain ⟨hidle, habort, hcut⟩ := Engine.sound_iff.1 h
  rw [Engine.sound_iff]
  cases hp : e.phase <;> simp_all [Engine.aborted]

theorem Engine.aborted_abort {e : Engine} (h : e.phase ≠ .idle) : e.aborted.abort = true := by
  cases hp : e.phase <;> simp_all [Engine.aborted]

theorem requestAbort_sound (hs : s.scanSound = true) (kind : OwnerKind) : (requestAbort kind s).scanSound = true := by
  unfold requestAbort
  split
  case isTrue h =>
    exact engine_sound hs (Engine.aborted_job _) (fun _ => Engine.aborted_abort h.1) (Engine.aborted_sound (State.scanSound_iff.1 hs).2.1)
  case isFalse => exact hs

theorem beginWake_sound (hs : s.scanSound = true) (hd : s.doze.state = .dozing) (cause : WakeCause) :
    (beginWake cause s).scanSound = true := by
  have waking := asleep_sound hs (by simp [Doze.asleep, hd])
    (d := { s.doze with cause := some cause, interval := none, state := .waking }) rfl rfl
  have withdrawn (u : State) (w : Bool) : u.SameScan { u with claims := { u.claims with wake := w } } :=
    .of_eq rfl rfl rfl rfl rfl rfl rfl
  exact requestAbort_sound ((withdrawn _ false).sound waking) _

theorem setWake_sameScan (w : WakeRecord) : s.SameScan (s.setWake w) := .of_eq rfl rfl rfl rfl rfl rfl rfl

theorem wakeResult_sound (hs : s.scanSound = true) (o : MeasureOutcome) (c : Nat) : (wakeResult o c s).scanSound = true := by
  unfold wakeResult
  split
  · exact hs
  case isFalse hd =>
    have kept (w : WakeRecord) : (s.setWake w).scanSound = true := (setWake_sameScan w).sound hs
    have taken (cause : WakeCause) (w : WakeRecord) (wakes : Bool) :
        (if wakes then beginWake cause (s.setWake w) else s.setWake w).scanSound = true := by
      split
      · exact beginWake_sound (kept w) (not_not.1 hd) cause
      · exact kept w
    split
    · exact hs
    · exact taken ..
    · exact taken ..

/-- A measurement that ends keeps the scan sound, whoever its owner is. -/
theorem endMeasurement_sound (hs : s.scanSound = true) (o : MeasureOutcome) (c : Nat) :
    (endMeasurement o c s).scanSound = true := by
  unfold endMeasurement
  split
  case h_2 => exact hs
  case h_1 j hj =>
    have hkind : s.engine.ownerKind = j.owner.kind := by simp [Engine.ownerKind, hj]
    cases howner : j.owner with
    | plan index subject version =>
      rw [howner] at hkind
      obtain ⟨hclaim, hrun⟩ := State.run_of_planOwner hs hkind
      have hawake : s.Awake := State.awake_of_sound hs (by rcases hrun with ⟨h, -⟩ | h <;> rw [h] <;> nofun)
      have hfreed : ({ s with engine := s.engine.freed } : State).Unclaimed := ⟨hclaim, nofun, rfl⟩
      have htrack := trackResult_tracks subject version o c { s with engine := s.engine.freed }
      have hu := htrack.unclaimed hfreed
      have ha := htrack.sameScan.awake (s := { s with engine := s.engine.freed }) ⟨hawake.asleep, hawake.rx, hawake.request⟩
      simp only [deliver, planResult]
      rcases hrun with ⟨hscan, htimer⟩ | hstop
      · rw [hscan]
        exact reachEntry_sound hu ha (htrack.sameScan.run.trans hscan) (htrack.sameScan.timer.trans htimer) _
      · rw [hstop]
        exact completeStop_sound hu ha
    | host r =>
      rw [howner] at hkind
      exact (answerLong_sameScan ..).sound (freed_sound hs (by rw [hkind]; nofun))
    | wake =>
      rw [howner] at hkind
      exact wakeResult_sound (freed_sound hs (by rw [hkind]; nofun)) ..

/-! ### The end of an event -/

/-- A measurement begun for another owner than the plan at an IDLE engine. -/
theorem beginMeasurement_sound (hs : s.scanSound = true) (hidle : s.engine.phase = .idle) {o : Owner} (ho : o.kind ≠ .plan)
    (x : Target) (m : MeasureParams) : (beginMeasurement o x m s).scanSound = true := by
  have hjob : s.engine.job = none := (Engine.sound_iff.1 (State.scanSound_iff.1 hs).2.1).1.1 hidle
  exact unplanned_sound hs (by simp [Engine.ownerKind, hjob]) ho rfl

/-- A plan claim granted at an IDLE engine. -/
theorem grantPlan_sound (hs : s.scanSound = true) (hidle : s.engine.phase = .idle) {c : PlanClaim} (hc : s.claims.plan = some c) :
    (grantPlan c { s with claims := { s.claims with plan := none } }).scanSound = true := by
  obtain ⟨hrun, hengine, hdoze⟩ := State.scanSound_iff.1 hs
  have hscan : s.seq.runState = .scanning := by
    simp only [State.runStateSound, State.planClaimed, hc] at hrun
    cases hr : s.seq.runState <;> simp_all
  have hjob : s.engine.job = none := (Engine.sound_iff.1 hengine).1.1 hidle
  simp only [State.runStateSound, State.planAtPosition, hscan, hc, hjob, Bool.and_eq_true] at hrun
  obtain ⟨⟨-, hplace, -⟩, htimer⟩ := hrun
  have began (v : Word) (x : Target) (m : MeasureParams) :
      (beginMeasurement (.plan c.index c.subject v) x m { s with claims := { s.claims with plan := none } }).scanSound = true := by
    refine State.scanSound_iff.2 ⟨?_, rfl, hdoze⟩
    simp only [State.runStateSound, State.planAtPosition, beginMeasurement, hscan]
    exact Bool.and_eq_true_iff.2 ⟨Bool.and_eq_true_iff.2 ⟨rfl, hplace⟩, htimer⟩
  unfold grantPlan
  split <;> exact began ..

theorem grant_sound (hs : s.scanSound = true) (h : s.canGrant = true) : (grant s).scanSound = true := by
  have hidle : s.engine.phase = .idle := by simp_all [State.canGrant]
  have claimed (x : Claims) (hx : x.plan = s.claims.plan) : ({ s with claims := x } : State).scanSound = true :=
    State.SameScan.sound (.of_eq hx rfl rfl rfl rfl rfl rfl) hs
  unfold grant
  split
  · split
    case h_1 c hc => exact grantPlan_sound hs hidle hc
    case h_2 => exact hs
  · split
    case h_1 c _ => exact beginMeasurement_sound (o := .host c.request) (claimed _ rfl) hidle nofun ..
    case h_2 => exact hs
  · exact beginMeasurement_sound (o := .wake) (claimed _ rfl) hidle nofun ..
  · exact hs

/-! ### Requests -/

/-- A request to a part that is not asleep, accepted where its state check allows it. -/
theorem checked_sound {r : Request} {l st : Bool} {f : List (Nat × Bool)} {accept : State → State} (hs : s.scanSound = true)
    (h : st = true → (accept s).scanSound = true) : (checked r l st f accept s).scanSound = true := by
  have refused (c : ResultCode) (p : List Byte) : (respond r c p s).scanSound = true := (respond_sameScan ..).sound hs
  unfold checked
  split
  · exact refused ..
  · split
    · exact refused ..
    · split
      · exact refused ..
      · exact h (by simp_all)

theorem startScanning_sound (hs : s.scanSound = true) (hrun : s.seq.runState = .stopped) : (startScanning s).scanSound = true := by
  have hunclaimed := (State.unclaimed_of_sound hs (by rw [hrun]; nofun) (by rw [hrun]; nofun)).1
  have hawake := State.awake_of_sound hs (by rw [hrun]; nofun)
  exact cycleStart_sound ((startEffect_tracks s).unclaimed hunclaimed) ((startEffect_tracks s).sameScan.awake hawake)

theorem runStartScan_sound (hs : s.scanSound = true) (r : Request) : (runStartScan r s).scanSound = true := by
  refine checked_sound hs fun hst => ?_
  split
  · exact (respond_sameScan ..).sound hs
  · exact (respond_sameScan ..).sound (startScanning_sound hs (of_decide_eq_true hst))

theorem stopScanning_sound (hs : s.scanSound = true) (hrun : s.seq.runState = .scanning) : (stopScanning s).scanSound = true := by
  obtain ⟨hscan, hengine, hdoze⟩ := State.scanSound_iff.1 hs
  have hawake : s.Awake := State.awake_of_sound hs (by rw [hrun]; nofun)
  unfold stopScanning
  split
  case isTrue h =>
    obtain ⟨hclaim, howner⟩ := h
    have hclaimed : s.claims.plan = none := Option.isNone_iff_eq_none.1 hclaim
    have hbusy : s.engine.phase ≠ .idle := fun hidle => by
      have hjob := (Engine.sound_iff.1 hengine).1.1 hidle
      simp [Engine.ownerKind, hjob] at howner
    rw [requestAbort_eq]
    dsimp only
    rw [if_pos ⟨hbusy, howner⟩]
    have hkind : s.engine.aborted.ownerKind = .plan := by rw [Engine.ownerKind, Engine.aborted_job]; exact howner
    refine State.scanSound_iff.2 ⟨?_, Engine.aborted_sound hengine, ?_⟩
    · simp [State.runStateSound, State.planClaimed, State.planInFlight, hclaimed, hkind, Engine.aborted_abort hbusy]
    · exact State.Awake.dozeSound ⟨hawake.asleep, hawake.rx, hawake.request⟩ nofun fun _ => nofun
  case isFalse h =>
    have hfree : s.engine.ownerKind ≠ .plan := by
      simp only [State.runStateSound, State.planClaimed, State.planInFlight, hrun] at hscan
      intro howner
      cases hc : s.claims.plan <;> simp_all
    exact completeStop_sound ⟨rfl, hfree, hengine⟩ ⟨hawake.asleep, hawake.rx, hawake.request⟩

theorem runStopScan_sound (hs : s.scanSound = true) (r : Request) : (runStopScan r s).scanSound = true := by
  refine checked_sound hs fun _ => ?_
  unfold acceptStopScan
  split
  case h_1 hrun => exact stopScanning_sound hs hrun
  case h_2 hrun =>
    exact completeStop_sound (State.unclaimed_of_sound hs (by rw [hrun]; nofun) (by rw [hrun]; nofun)).1
      (State.awake_of_sound hs (by rw [hrun]; nofun))
  case h_3 => exact (respond_sameScan ..).sound hs

theorem clearEntryRequest_sound (hs : s.scanSound = true) : (clearEntryRequest s).scanSound = true := by
  obtain ⟨hrun, hengine, hdoze⟩ := State.scanSound_iff.1 hs
  obtain ⟨-, hdozing, -, -, hrequest⟩ := State.dozeSound_iff.1 hdoze
  unfold clearEntryRequest
  split
  case isTrue h =>
    have hrequested := hrequest.1 h
    have hnot : s.seq.runState ≠ .dozing := fun hd => by simp [Doze.asleep, hrequested] at hdozing; exact hdozing hd
    have hawake := State.awake_of_sound hs hnot
    exact State.scanSound_iff.2 ⟨hrun, hengine, State.Awake.dozeSound ⟨rfl, hawake.rx, by simp⟩ hnot nofun⟩
  case isFalse => exact hs

theorem runSetDoze_sound (hs : s.scanSound = true) (r : Request) : (runSetDoze r s).scanSound = true := by
  have cleared : (if s.doze.request = some .auto then clearEntryRequest s else s).scanSound = true := by
    split
    · exact clearEntryRequest_sound hs
    · exact hs
  have settled (u : State) (d : DozeSettings) (w : WakeRecord) :
      u.SameScan { u with doze := { u.doze with settings := d, wake := w, idle := 0 } } := .of_eq rfl rfl rfl rfl rfl rfl rfl
  exact checked_sound hs fun _ => (respond_sameScan ..).sound ((settled ..).sound cleared)

/-- An entry request raised while the entry conditions hold. -/
theorem raiseRequest_sound (hs : s.scanSound = true) (ha : s.doze.asleep = false) (hc : s.entryConditions = true)
    (source : EntrySource) : (raiseRequest source s).scanSound = true := by
  obtain ⟨hrun, hengine, hdoze⟩ := State.scanSound_iff.1 hs
  obtain ⟨-, hdozing, hrx, -, -⟩ := State.dozeSound_iff.1 hdoze
  unfold raiseRequest
  split
  case isTrue h =>
    have hunclaimed := (State.unclaimed_of_sound hs (by rw [h]; nofun) (by rw [h]; nofun)).1
    unfold decideStopped
    rw [if_pos (show State.entryConditions { s with doze := { s.doze with request := some source } } = true from hc)]
    exact enterDoze_sound ⟨hunclaimed.claim, hunclaimed.owner, hunclaimed.engine⟩ (State.requestsQuiet_of_entryConditions hc) _
  case isFalse h =>
    have hnot : s.seq.runState ≠ .dozing := fun hd => by simp [hdozing.2 hd] at ha
    exact State.scanSound_iff.2 ⟨hrun, hengine, State.Awake.dozeSound ⟨rfl, by simpa [ha] using hrx, by simp⟩ hnot fun _ => h⟩

theorem runEnterDoze_sound (hs : s.scanSound = true) (ha : s.doze.asleep = false) (r : Request) :
    (runEnterDoze r s).scanSound = true := by
  refine checked_sound hs fun _ => ?_
  split
  case isTrue hc => exact raiseRequest_sound hs ha hc .host
  case isFalse => exact (respond_sameScan ..).sound hs

theorem runProfileLoad_sound (hs : s.scanSound = true) (r : Request) : (runProfileLoad r s).scanSound = true := by
  refine checked_sound hs fun hst => ?_
  have hrun : s.seq.runState = .stopped := of_decide_eq_true hst
  obtain ⟨-, -, hdoze⟩ := State.scanSound_iff.1 hs
  obtain ⟨hstopped, -, -, -, hrequest⟩ := State.dozeSound_iff.1 hdoze
  have hnot : s.doze.state ≠ .requested := fun h => hstopped h hrun
  have hawake : s.doze.state = .awake := by
    have := (State.awake_of_sound hs (by rw [hrun]; nofun)).asleep
    cases hd : s.doze.state <;> simp_all [Doze.asleep]
  have hnone : s.doze.request = none := by
    cases hr : s.doze.request with
    | none => rfl
    | some x => exact absurd (hrequest.1 (by rw [hr]; rfl)) hnot
  have stored (x : Store) : s.SameScan { s with store := x } := .of_eq rfl rfl rfl rfl rfl rfl rfl
  split
  · exact (respond_sameScan ..).sound hs
  · unfold loadChosen
    dsimp only
    split
    · exact ((stored _).trans (respond_sameScan ..)).sound hs
    · have loaded (x : Store) (im : Image) : s.SameScan (loadImage im { s with store := x }) :=
        (stored x).trans (loadImage_sameScan { s with store := x } hrun hawake hnone im)
      exact ((loaded ..).trans (respondThen_sameScan ..)).sound hs

/-- A request executed by a part that is not asleep keeps the scan sound. -/
theorem executeRequest_sound (hs : s.scanSound = true) (ha : s.doze.asleep = false) (r : Request) :
    (executeRequest r s).scanSound = true := by
  unfold executeRequest
  split
  case h_3 => exact (runSoftReset_sameScan s r).sound hs
  case h_4 => exact (runSetKey_sameScan s r).sound hs
  case h_10 => exact (runSetPlan_sameScan s r).sound hs
  case h_12 => exact runStartScan_sound hs r
  case h_13 => exact runStopScan_sound hs r
  case h_14 => exact (runMeasure_sameScan s r).sound hs
  case h_15 => exact (runRecalibrate_sameScan s r).sound hs
  case h_19 => exact (runSetLink_sameScan s r).sound hs
  case h_20 => exact (runReadLinkStats_sameScan s r).sound hs
  case h_23 => exact runSetDoze_sound hs r
  case h_24 => exact runEnterDoze_sound hs ha r
  case h_26 => exact (runProfileSave_sameScan s r).sound hs
  case h_27 => exact runProfileLoad_sound hs r
  case h_29 => exact (respond_sameScan ..).sound hs
  all_goals
    exact (checked_sameScan s ⟨rfl, rfl, rfl, rfl, rfl, fun _ => rfl, rfl, rfl, .rfl, fun _ h => ⟨h.1, rfl⟩⟩).sound hs

theorem takeRequest_sound (hs : s.scanSound = true) : (takeRequest s).scanSound = true := by
  unfold takeRequest
  split
  case h_1 => exact hs
  case h_2 r rest hinbox =>
    obtain ⟨hrun, hengine, hdoze⟩ := State.scanSound_iff.1 hs
    obtain ⟨-, hdozing, -, hempty, -⟩ := State.dozeSound_iff.1 hdoze
    have ha : s.doze.asleep = false := by
      by_contra h
      simp [(hempty (by simpa using h)).1] at hinbox
    have hnot : s.seq.runState ≠ .dozing := fun hd => by simp [hdozing.2 hd] at ha
    have hawake := State.awake_of_sound hs hnot
    refine executeRequest_sound (s := { s with handler := { s.handler with inbox := rest, executing := some r } })
      (State.scanSound_iff.2 ⟨hrun, hengine, ?_⟩) ha r
    exact State.Awake.dozeSound ⟨ha, hawake.rx, hawake.request⟩ hnot (State.dozeSound_iff.1 hdoze).1

theorem settleMany_sound (hs : s.scanSound = true) (n : Nat) : (settleMany n s).scanSound = true := by
  induction n generalizing s with
  | zero => exact hs
  | succ n ih =>
    refine ih ?_
    unfold settleOnce
    split
    case isTrue h => exact grant_sound hs h
    case isFalse =>
      split
      · exact takeRequest_sound hs
      · split
        · exact (startFrame_sameScan s).sound hs
        · exact hs

theorem finish_sound (hs : s.scanSound = true) : (finish s).scanSound = true :=
  (settleIdle_sameScan _).sound (settleMany_sound hs _)

theorem grantIfFree_sound (hs : s.scanSound = true) : (grantIfFree s).scanSound = true := by
  unfold grantIfFree
  split
  case isTrue h => exact grant_sound hs h
  case isFalse => exact hs

/-! ### Events -/

theorem endDischarge_sound (hs : s.scanSound = true) : (endDischarge s).scanSound = true := by
  obtain ⟨-, hengine, -⟩ := State.scanSound_iff.1 hs
  unfold endDischarge
  split
  case isTrue hd =>
    split
    case isTrue => exact endMeasurement_sound hs ..
    case isFalse ha =>
      refine engine_sound hs (e := { s.engine with phase := .charge }) rfl id ?_
      rw [Engine.sound_iff] at hengine ⊢
      simp_all
  case isFalse => exact hs

theorem endCharge_sound (hs : s.scanSound = true) : (endCharge s).scanSound = true := by
  obtain ⟨-, hengine, -⟩ := State.scanSound_iff.1 hs
  unfold endCharge
  split
  case isTrue hc =>
    refine engine_sound hs (e := { s.engine with phase := .transfer, count := 0 }) rfl id ?_
    obtain ⟨hjob, habort, hcut⟩ := Engine.sound_iff.1 hengine
    have hclear : s.engine.abort = false := by simpa [hc] using habort
    rw [Engine.sound_iff]
    simp_all
  case isFalse => exact hs

theorem endTransfer_sound (hs : s.scanSound = true) (trip : Option Nat) : (endTransfer trip s).scanSound = true := by
  have counted (c : Nat) : ({ s with engine := { s.engine with count := c } } : State).scanSound = true :=
    engine_sound hs (e := { s.engine with count := c }) rfl id (State.scanSound_iff.1 hs).2.1
  unfold endTransfer
  split
  · split
    · exact endMeasurement_sound (counted _) ..
    · exact hs
  · exact hs

theorem periodExpires_sound (hs : s.scanSound = true) : (periodExpires s).scanSound = true := by
  have marked : s.SameScan { s with seq := { s.seq with elapsed := true } } :=
    ⟨rfl, rfl, rfl, rfl, rfl, fun _ => rfl, rfl, rfl, .rfl, fun _ => id⟩
  unfold periodExpires takePeriod
  split
  · split
    case h_1 => exact marked.sound hs
    case h_2 hrun =>
      exact cycleBoundary_sound (State.unclaimed_of_sound hs (by rw [hrun]; nofun) (by rw [hrun]; nofun)).1
        (State.awake_of_sound hs (by rw [hrun]; nofun))
    case h_3 => exact hs
  · exact hs

theorem idleExpires_sound (hs : s.scanSound = true) : (idleExpires s).scanSound = true := by
  unfold idleExpires
  split
  case isTrue h =>
    simp only [State.idleOver, State.idleRuns, Bool.and_eq_true, decide_eq_true_eq] at h
    obtain ⟨⟨⟨hawake, -⟩, hc⟩, -⟩ := h
    exact raiseRequest_sound hs (by simp [Doze.asleep, hawake]) hc .auto
  case isFalse => exact hs

theorem grant_doze : (grant s).doze = s.doze := by
  unfold grant grantPlan
  repeat' split
  all_goals rfl

theorem endEntering_sound (hs : s.scanSound = true) : (endEntering s).scanSound = true := by
  unfold endEntering
  split
  case isTrue h =>
    simp only [State.enteringOver, Bool.and_eq_true, decide_eq_true_eq] at h
    obtain ⟨⟨hentering, -⟩, -⟩ := h
    have claimed (u : State) : u.SameScan { u with claims := { u.claims with wake := true } } := .of_eq rfl rfl rfl rfl rfl rfl rfl
    have dozing : (beginDozing s).scanSound = true :=
      (claimed _).sound (asleep_sound hs (by simp [Doze.asleep, hentering])
        (d := { s.doze with state := .dozing, interval := some s.uptime }) rfl rfl)
    split
    · exact dozing
    · refine beginWake_sound (grantIfFree_sound dozing) ?_ .line
      unfold grantIfFree
      split
      · rw [grant_doze]
        rfl
      · rfl
  case isFalse => exact hs

theorem wakeLineFalls_sound (hs : s.scanSound = true) : (wakeLineFalls s).scanSound = true := by
  unfold wakeLineFalls
  split
  case isTrue h => exact beginWake_sound hs h .line
  case isFalse => exact hs

theorem offerWake_tracks : s.Tracks (offerWake s) := by
  unfold offerWake
  split
  · exact offer_tracks ..
  · exact .refl s

/-- The run state that a part returns to from doze: sound, and not DOZING. -/
theorem resumeRunState_runStateSound (h : s.Unclaimed) (htimer : s.seq.timerOn = false) :
    (resumeRunState s).runStateSound = true ∧ (resumeRunState s).seq.runState ≠ .dozing := by
  unfold resumeRunState
  split
  · exact ⟨State.Unclaimed.runStateSound ⟨h.claim, h.owner, h.engine⟩ nofun nofun htimer, nofun⟩
  · obtain ⟨hsound, hrun⟩ := cycleStart_runStateSound ((startEffect_tracks s).unclaimed h)
    exact ⟨hsound, by rcases hrun with hr | hr <;> rw [startScanning, hr] <;> nofun⟩

theorem resumeRunState_sequences : s.Sequences (resumeRunState s) := by
  unfold resumeRunState
  split
  · rfl
  · exact startScanning_sequences s

theorem startScanning_doze : (startScanning s).doze = s.doze := cycleStart_doze

theorem resumeRunState_doze : (resumeRunState s).doze = s.doze := by
  unfold resumeRunState
  split
  · rfl
  · exact startScanning_doze

theorem completeWake_sound (hs : s.scanSound = true) : (completeWake s).scanSound = true := by
  unfold completeWake
  split
  case isFalse => exact hs
  case isTrue hw =>
    obtain ⟨-, -, hdoze⟩ := State.scanSound_iff.1 hs
    obtain ⟨-, hdozing, -, -, hrequest⟩ := State.dozeSound_iff.1 hdoze
    have hrun : s.seq.runState = .dozing := hdozing.1 (by simp [Doze.asleep, hw])
    obtain ⟨hunclaimed, htimer⟩ := State.unclaimed_of_sound hs (by rw [hrun]; nofun) (by rw [hrun]; nofun)
    have htold := offerWake_tracks (s := { s with rx := .searching })
    dsimp only
    generalize offerWake { s with rx := .searching } = u at htold ⊢
    have hu := htold.unclaimed ⟨hunclaimed.claim, hunclaimed.owner, hunclaimed.engine⟩
    have hrx : u.rx = .searching := by rw [htold]
    have hnone : u.doze.request.isSome = false := by
      rw [htold]
      simpa [hw] using hrequest
    have hstop : u.seq.timerOn = false := by
      rw [htold]
      simpa [hrun] using htimer
    generalize u.doze.wake.afterWake u.doze.cause = w
    obtain ⟨hsound, hnot⟩ := resumeRunState_runStateSound (s := u.setWake w) ⟨hu.claim, hu.owner, hu.engine⟩ hstop
    have hsame := resumeRunState_sequences (s := u.setWake w)
    have hkept := resumeRunState_doze (s := u.setWake w)
    generalize resumeRunState (u.setWake w) = v at hsound hnot hsame hkept ⊢
    refine State.scanSound_iff.2 ⟨hsound, hsame.engine ▸ hu.engine, State.Awake.dozeSound ⟨rfl, ?_, ?_⟩ hnot nofun⟩
    · change v.rx.state ≠ .disabled
      rw [hsame.rx]
      simp [State.setWake, hrx, Receiver.searching]
    · change v.doze.request.isSome = true ↔ _
      rw [hkept]
      simp [State.setWake, hnone]

end

theorem IsEvent.sound {f : State → State} (hf : IsEvent f) {s : State} (hs : s.scanSound = true) : (f s).scanSound = true := by
  have same {t : State} (h : s.SameScan t) : t.scanSound = true := h.sound hs
  cases hf with
  | request r => exact same (receiving_sameScan s (passRequest_sameScan · · r))
  | flow flags n w => exact same (receiving_sameScan s fun u _ => passFlow_sameScan u flags n w)
  | frame body crc => exact same (receiving_sameScan s (checkFrame_sameScan · · body crc))
  | byte b => exact same (takeByte_sameScan s b)
  | gap => exact same (takeGap_sameScan s)
  | ackTimer => exact same (ackExpires_sameScan s)
  | discharge => exact endDischarge_sound hs
  | charge => exact endCharge_sound hs
  | transfer trip => exact endTransfer_sound hs trip
  | period => exact periodExpires_sound hs
  | idleTimer => exact idleExpires_sound hs
  | entering => exact endEntering_sound hs
  | interval => exact same (intervalExpires_sameScan s)
  | hwake => exact wakeLineFalls_sound hs
  | nothing => exact hs
  | wake => exact completeWake_sound hs
  | verifying matched => exact same (endVerifying_sameScan s matched)
  | committing mark => exact same (endCommitting_sameScan s mark)
  | erasing => exact same (.of_eq rfl rfl rfl rfl rfl rfl rfl)
  | programming => exact same (.of_eq rfl rfl rfl rfl rfl rfl rfl)
  | pulse => exact same (.of_eq rfl rfl rfl rfl rfl rfl rfl)

/-! ### Resets -/

theorem resetBlocks_sound (im : Image) (s : State) : (resetBlocks im s).scanSound = true := rfl

theorem enterReset_sound (cause : ResetCause) (im : Image) (s : State) : (enterReset cause im s).scanSound = true := rfl

theorem bootPart_sound (s : State) : (bootPart s).scanSound = true := by
  have written (im : Image) (u : State) (rep : Report) : (offer rep (writeConfiguration im u)).scanSound = true := rfl
  have stopped (im : Image) (u : State) (rep : Report) : (offer rep (writeConfiguration im u)).seq.runState = .stopped := rfl
  unfold bootPart bootFrom autostart
  split
  · exact startScanning_sound (written ..) (stopped ..)
  · exact written ..

theorem endFrame_sound {s : State} (hs : s.scanSound = true) : (endFrame s).scanSound = true := by
  have freed : s.SameScan { s with tx := { s.tx with sending := none } } := .of_eq rfl rfl rfl rfl rfl rfl rfl
  have changed (u : State) (b : Baud) : u.SameScan (changeRate b u) := by
    refine ⟨rfl, rfl, rfl, rfl, rfl, fun _ => rfl, rfl, rfl, ?_, fun _ => id⟩
    unfold changeRate
    dsimp only
    split
    · rfl
    case isFalse h => simp [Receiver.searching, h]
  unfold endFrame
  split
  · exact hs
  · dsimp only
    split
    case h_1 r _ =>
      cases r.after with
      | nothing => exact freed.sound hs
      | baud b => exact (freed.trans (changed ..)).sound hs
      | reset m => exact enterReset_sound ..
    case h_2 => exact freed.sound hs

/-- Every command keeps the scan sound. -/
theorem State.Meaning.sound {s t : State} {o : Host.Outcome State Fault Refusal} (h : s.Meaning o) (hs : s.scanSound = true)
    (ho : o = .next t) : t.scanSound = true := by
  have part {f : State → State} (hf : IsEvent f) {u : State} (hu : u.scanSound = true) (hft : Machine.onPart f u = .next t) :
      t.scanSound = true := by
    obtain rfl := Host.Outcome.next.inj hft
    split
    · exact finish_sound (hf.sound ((startIfFree_sameScan u).sound hu))
    · exact hu
  have link {f : State → State} (hf : (f s).scanSound = true) (hft : Machine.onLink f s = .next t) : t.scanSound = true := by
    obtain rfl := Host.Outcome.next.inj hft
    split
    · exact (startIfFree_sameScan _).sound (finish_sound hf)
    · exact hs
  cases h with
  | onPart hf => exact part hf hs ho
  | onQueue hf =>
    obtain rfl := Host.Outcome.next.inj ho
    split
    · exact finish_sound ((reportFirst_sameScan ..).sound (hf.sound hs))
    · exact hs
  | onLink hf => exact link (hf.sound hs) ho
  | onPins pins hf =>
    have placed : s.SameScan { s with pins := pins } := .of_eq rfl rfl rfl rfl rfl rfl rfl
    exact part hf (placed.sound hs) ho
  | boundary => exact link (endFrame_sound hs) ho
  | powerOn =>
    obtain rfl := Host.Outcome.next.inj ho
    exact enterReset_sound ..
  | resetLow =>
    obtain rfl := Host.Outcome.next.inj ho
    unfold lineReset
    split
    · exact hs
    · exact enterReset_sound ..
  | boot =>
    obtain rfl := Host.Outcome.next.inj ho
    unfold endReset
    split
    · exact hs
    · exact grantIfFree_sound (bootPart_sound _)

theorem passTime_sound {s : State} (hs : s.scanSound = true) : (passTime s).scanSound = true := by
  obtain ⟨-, hengine, -⟩ := State.scanSound_iff.1 hs
  have hcut : ({ s.engine with cut := false } : Engine).sound = true := by
    rw [Engine.sound_iff] at hengine ⊢
    exact ⟨hengine.1, hengine.2.1, nofun⟩
  have hpast := engine_sound hs (e := { s.engine with cut := false }) rfl id hcut
  refine State.SameScan.sound (s := { s with engine := { s.engine with cut := false } }) (.of_eq rfl rfl rfl ?_ ?_ rfl rfl) hpast <;>
  · rw [passTime_doze]
    split <;> rfl

/-- The commands that wait do not matter to the scan. -/
theorem State.scanSound_pending (s : State) (l : List Instr) : ({ s with pending := l } : State).scanSound = s.scanSound := rfl

theorem idleStep_sound {s : State} (hs : s.scanSound = true) : (idleStep s).scanSound = true := by
  unfold idleStep
  split
  · exact hs
  · exact hs
  · split
    · exact hs
    · exact (State.scanSound_pending ..).trans (finish_sound (passTime_sound ((startIfFree_sameScan s).sound hs)))

/-- Settles O7: each command and the passing of time keep the run state, the engine and the doze state sound. -/
theorem stepKeepsScanSound : Obligations.StepKeepsScanSound := by
  intro s t hs hstep
  unfold step at hstep
  split at hstep
  · obtain rfl := Host.Outcome.next.inj hstep
    exact idleStep_sound hs
  case h_2 c rest hpending => exact (exec_meaning c _).sound ((State.scanSound_pending ..).trans hs) hstep

end Sys2Proof.Machine
end

