-- ==== Sys2Proof/Proofs/Steps.lean ====
section
/-! SUPPORT. A step on an empty queue and the timers that are due (log entries 1, 2, 3, 10), a part in reset (R148, R178), and the levels
on the pins (R153 to R156, Table 10-3). -/

namespace Sys2Proof.Machine

/-! ### The passing of time -/

section
variable {s : State}

/-- The timers that are due, one after the other. -/
theorem State.mem_dueTimers_iff (c : Instr) :
    c ∈ s.dueTimers ↔ (c = .idleTimerExpiry ∧ s.idleOver = true) ∨
      (c = .ackTimerExpiry ∧ ∃ t : AckTimer, s.delivery.ackTimer = some t ∧ s.expired t.start t.span = true) ∨
      (c = .periodTimerExpiry ∧ s.seq.timerOn = true ∧ s.expired s.seq.cycleStart s.seq.plan.period = true ∧
        (s.seq.runState = .cycleWait ∨ (s.seq.runState = .scanning ∧ s.seq.elapsed = false))) ∨
      (c = .intervalTimerExpiry ∧ s.doze.state = .dozing ∧
        ∃ t : Time, s.doze.interval = some t ∧ s.expired t s.doze.settings.interval = true) := by
  unfold State.dueTimers
  simp only [List.mem_append, or_assoc]
  refine or_congr (by simp [and_comm]) (or_congr ?_ (or_congr ?_ ?_))
  · cases s.delivery.ackTimer <;> simp [and_comm]
  · simp only [List.mem_ite_nil_right, List.mem_singleton, Bool.and_eq_true, Bool.or_eq_true, decide_eq_true_eq, Bool.not_eq_true']
    tauto
  · cases s.doze.state <;> cases s.doze.interval <;> simp [and_comm]

theorem State.idleOver_iff : s.idleOver = true ↔ s.idleRuns = true ∧ s.doze.settings.idleTime * 1000 ≤ s.doze.idle := by
  rw [State.idleOver, Bool.and_eq_true, decide_eq_true_iff, State.idleTarget]

/-- A running idle timer runs on. -/
theorem passTime_idleRuns (h : s.idleRuns = true) : (passTime s).idleRuns = true := by
  have hdoze : (passTime s).doze = { s.doze with idle := min (s.doze.idle + 1) s.idleTarget } := (passTime_doze s).trans (if_pos h)
  unfold State.idleRuns
  rw [hdoze]
  exact h

/-- The passing of time leaves nothing due. -/
theorem passTime_rested (hp : s.phase = .running) (h : s.rested = true) : (passTime s).rested = true := by
  obtain ⟨hgrant, htake, hreply, hidle⟩ := (State.rested_iff s).1 h
  refine (State.rested_iff _).2 ⟨hgrant, htake, hreply, ?_⟩
  by_cases hr : s.idleRuns = true
  · exact (State.idleSettled_iff _).2 (.inr ⟨hp, .inl (passTime_idleRuns hr)⟩)
  · have hdoze : (passTime s).doze = s.doze := (passTime_doze s).trans (if_neg hr)
    refine (State.idleSettled_iff _).2 ?_
    rcases (State.idleSettled_iff s).1 hidle with hz | ⟨-, hrun | ⟨hstate, hc⟩⟩
    · exact .inl (by rw [hdoze, hz])
    · exact absurd hrun hr
    · exact .inr ⟨hp, .inr ⟨by rw [hdoze, hstate], hc⟩⟩

/-- The step of a part at rest on an empty queue. -/
theorem idleStep_of_runs (h : s.runs = true) (hover : s.enteringOver = false) :
    idleStep s = { passTime s with pending := (passTime s).dueTimers } := by
  obtain ⟨hp, -, -, -, hstart, -⟩ := (State.runs_iff s).1 h
  have hfinish := finish_of_rested (passTime_rested hp (State.rested_of_runs h))
  simp only [idleStep, hp, hover, startIfFree_of_settled hstart, hfinish]
  rfl

end

/-- Settles O1: the definition of a step. -/
theorem stepTakesFrontCommand : Obligations.StepTakesFrontCommand := by
  intro c rest s h
  rw [step, h]

/-- Settles O3: a step on an empty queue by the phase, and each timer that is due. -/
theorem idleStepPassesTime : Obligations.IdleStepPassesTime := by
  intro s
  refine ⟨fun hpending => ?_, ?_, ?_, ?_, ?_⟩
  · have hstep : step s = .next (idleStep s) := by rw [step, hpending]
    refine ⟨fun hp => ?_, fun hp => ?_, fun hp hover => ?_, fun hruns hover => ?_⟩
    · simp only [hstep, idleStep, hp]
    · simp only [hstep, idleStep, hp]
    · simp only [hstep, idleStep, hp, hover, if_true]
    · rw [hstep, idleStep_of_runs hruns hover]
      rfl
  · simp [State.mem_dueTimers_iff, State.idleOver_iff]
  · simp [State.mem_dueTimers_iff, State.expired_iff]
  · simp [State.mem_dueTimers_iff, State.expired_iff]
  · simp [State.mem_dueTimers_iff, State.expired_iff]

/-- Settles O8: each invariant evaluated at the state after reset. -/
theorem resetMeetsInvariants : Obligations.ResetMeetsInvariants := by
  exact ⟨rfl, by decide, rfl⟩

/-! ### A part in reset -/

theorem exec_resetLow (s : State) : exec .resetLow s = .next (lineReset s) := rfl

theorem onPins_of_reset {s : State} (h : s.phase ≠ .running) (pins : Pins) (f : State → State) :
    onPins pins f s = .next { s with pins := pins } := by simp [onPins, onPart, h]

theorem lineReset_of_held {s : State} (h : s.phase = .held) : lineReset s = s := if_pos h

/-- Settles O4: a command other than the supply, the end of the reset, RESET going low and a pin is given to a part that runs alone. -/
theorem heldPartDoesNothing : Obligations.HeldPartDoesNothing := by
  intro s hp
  refine ⟨fun c hpower hboot hreset hbsel hfall hrise => ?_, fun hheld => ?_, ?_, ?_, ?_⟩
  · cases c
    case powerOn => exact absurd rfl hpower
    case boot => exact absurd rfl hboot
    case resetLow => exact absurd rfl hreset
    case bselEdge => exact absurd rfl hbsel
    case hwakeFall => exact absurd rfl hfall
    case hwakeRise => exact absurd rfl hrise
    case flowFrame => exact onLink_of_reset hp _
    case frameDiscard => exact onLink_of_reset hp _
    case strayByte => exact onLink_of_reset hp _
    case frameBoundary => exact onLink_of_reset hp _
    case ackTimerExpiry => exact onQueue_of_reset hp _
    case dischargeEnd => exact onQueue_of_reset hp _
    case transferEnd => exact onQueue_of_reset hp _
    case periodTimerExpiry => exact onQueue_of_reset hp _
    case wakeComplete => exact onQueue_of_reset hp _
    case verifyingEnd => exact onQueue_of_reset hp _
    case committingEnd => exact onQueue_of_reset hp _
    case erasingEnd => rw [exec_erasingEnd, onPart_of_reset hp]
    case programmingEnd => rw [exec_programmingEnd, onPart_of_reset hp]
    case attnPulseEnd => rw [exec_attnPulseEnd, onPart_of_reset hp]
    all_goals exact onPart_of_reset hp _
  · rw [exec_resetLow, lineReset_of_held hheld]
  · rw [exec_bselEdge]
    exact onPins_of_reset hp _ id
  · change execHwakeFall s = _
    have hpart := onPart_of_reset hp id
    unfold execHwakeFall
    split
    case isTrue => exact onPins_of_reset hp _ wakeLineFalls
    case isFalse h =>
      have hpins : { s.pins with hwakeHigh := false } = s.pins := by
        cases hs : s.pins
        simp_all
      rw [hpart, hpins]
  · change execHwakeRise s = _
    have hpart := onPart_of_reset hp id
    unfold execHwakeRise
    split
    case isTrue h =>
      have hpins : { s.pins with hwakeHigh := true } = s.pins := by
        cases hs : s.pins
        simp_all
      rw [hpart, hpins]
    case isFalse => exact onPins_of_reset hp _ id

/-! ### The levels on the pins -/

section
variable {s : State}

theorem State.groupTouched_iff_touching {g : GroupId} :
    s.groupTouched g = true ↔ ∃ k ∈ s.groups[g].config.members, s.touching k = true := by
  rw [State.groupTouched, List.any_eq_true]

/-- A line is active by the entry of the selected bank (R153). -/
theorem State.lineActive_iff {n : Fin 4} :
    s.lineActive n = true ↔ (∃ k, s.lineEntry n = .key k ∧ s.touching k = true) ∨
      ∃ g, s.lineEntry n = .group g ∧ ∃ k ∈ s.groups[g].config.members, s.touching k = true := by
  unfold State.lineActive
  split
  case h_1 k he => simp [he]
  case h_2 g he => simp [he, State.groupTouched_iff_touching]
  case h_3 he => simp [he]

theorem State.lineHigh_eq (n : Fin 4) :
    s.lineHigh n = if s.outputs.polarity = .activeLow then !(decide (s.phase = .running) && s.lineActive n)
      else decide (s.phase = .running) && s.lineActive n := by
  unfold State.lineHigh State.outputsDriven
  cases hq : s.outputs.polarity <;> simp

/-- ATTN while the part runs, by its mode (R155, R156). -/
theorem State.attnLow_of_running (hp : s.phase = .running) :
    s.attnLow = true ↔ (s.outputs.attnMode = .level ∧ ((∃ e ∈ s.queue.entries, e.sent = false) ∨ s.delivery.link = .stalled)) ∨
      (s.outputs.attnMode = .pulse ∧ s.attnPulse = true) := by
  unfold State.attnLow State.outputsDriven
  cases hm : s.outputs.attnMode <;> simp [hp, ReportQueue.hasUnsent]

/-- A job joins its target and its load trim alone. -/
theorem State.joined_of_job {j : Job} (hj : s.engine.job = some j) :
    s.trimJoined = some j.meas.trim ∧
      (∀ set : PadSet, j.target = .pads set → s.refJoined = false ∧ ∀ n : Fin 24, s.padJoined n = set.getLsbD n.val) ∧
      (j.target = .ref → s.refJoined = true ∧ ∀ n : Fin 24, s.padJoined n = false) := by
  obtain ⟨owner, target, meas, slow⟩ := j
  cases target <;> simp [State.trimJoined, State.refJoined, State.padJoined, hj]

end

/-- Settles O48: each level read off its definition, and the two edges that change nothing else. -/
theorem linesFollowState : Obligations.LinesFollowState := by
  intro s
  refine ⟨fun hruns => ⟨?_, ?_⟩, fun n => ⟨?_, fun hp => ?_, fun hp => ?_⟩, State.attnLow_of_running, fun hp => ?_, fun n => ⟨rfl, ?_⟩,
    rfl, ?_, fun hj => ?_, fun j hj => State.joined_of_job hj, ?_, rfl⟩
  · have hedge : ({ s with pins := { s.pins with bselHigh := !s.pins.bselHigh } } : State).runs = s.runs := rfl
    rw [exec_bselEdge]
    exact onPart_of_runs (s := { s with pins := { s.pins with bselHigh := !s.pins.bselHigh } }) (hedge.trans hruns) id
      (hedge.trans hruns)
  · have hended : ({ s with attnPulse := false } : State).runs = s.runs := rfl
    rw [exec_attnPulseEnd]
    exact onPart_of_runs hruns (fun s => { s with attnPulse := false }) (hended.trans hruns)
  · simp only [State.lineActive_iff, State.touching_iff]
    rfl
  · simp [State.lineHigh_eq, hp]
  · simp [State.lineHigh_eq, hp]
  · simp [State.attnLow, State.outputsDriven, hp]
  · simp [State.linePin, State.outputsDriven]
  · simp [State.attnPin, State.outputsDriven]
  · simp [State.padJoined, State.refJoined, State.trimJoined, hj]
  · unfold State.fastOscillator
    cases hd : s.doze.state <;> simp

end Sys2Proof.Machine
end

