-- ==== Sys2Proof/Proofs/Reception.lean ====
section
/-! SUPPORT. The receiver (spec/07, section 7.3): each byte and each gap by its state, a frame checked, and a REQUEST frame taken by the
inbox. -/

namespace Sys2Proof.Machine

/-! ### Acknowledgements and windows (R127, R128) -/

theorem ReportQueue.sentCount_eq_zero_iff (q : ReportQueue) : q.sentCount = 0 ↔ q.entries.any (fun e => e.sent) = false := by
  rw [ReportQueue.sentCount, List.countP_eq_zero, List.any_eq_false]

theorem ackTimerAfter_eq (q : ReportQueue) (l : LinkSettings) (now : Time) :
    ackTimerAfter q l now = if q.entries.any (fun e => e.sent) then some { start := now, span := l.ackTimeout } else none := by
  unfold ackTimerAfter
  by_cases h : q.entries.any (fun e => e.sent) = true
  · rw [if_neg (by rw [q.sentCount_eq_zero_iff]; simpa using h), if_pos h]
  · rw [if_pos (by rw [q.sentCount_eq_zero_iff]; simpa using h), if_neg h]

/-- Settles O15: an ack field out of range and in range, and a window field. -/
theorem ackAndWindowTaken : Obligations.AckAndWindowTaken := by
  intro n w s
  refine ⟨fun h => if_neg (by simp [h]), fun h => ?_, fun h => if_pos h, fun h => if_neg (by omega)⟩
  rw [takeAck, if_pos h, takeAckInRange_eq n s rfl, ackTimerAfter_eq]

/-! ### Bytes (R119) -/

theorem exec_strayByte (b : Byte) (s : State) : exec (.strayByte b) s = onLink (takeByte b) s := rfl

theorem exec_gap (s : State) : exec .gap s = onPart takeGap s := rfl

theorem exec_frameDiscard (body : List Byte) (crc : Word) (s : State) :
    exec (.frameDiscard body crc) s = onLink (receiveFrame body crc) s := rfl

/-- Nothing is due after a change of the receiver and the error counters alone. -/
theorem State.runs_received (s : State) (x : Receiver) (c : Counters) : ({ s with rx := x, counters := c } : State).runs = s.runs := rfl

section
variable {s : State} (b : Byte)

theorem takeByte_start (h : s.rx.state = .searching) :
    takeByte 0x5A#8 s = { s with rx := { state := .length, len := 0, bytes := [] } } := by
  simp [takeByte, h]

theorem takeByte_noise (h : s.rx.state = .searching) (hb : b ≠ 0x5A#8) : takeByte b s = s.count Counters.addNoise := by
  simp [takeByte, h, hb]

theorem takeByte_length (h : s.rx.state = .length) (hlo : 3 ≤ b.toNat) (hhi : b.toNat ≤ 250) :
    takeByte b s = { s with rx := { state := .body, len := b.toNat, bytes := [] } } := by
  simp [takeByte, h, hlo, hhi]

theorem takeByte_badLength (h : s.rx.state = .length) (hb : b.toNat < 3 ∨ 250 < b.toNat) :
    takeByte b s = (searchAgain s).count Counters.addLength := by
  unfold takeByte
  simp only [h]
  exact if_neg (by omega)

theorem takeByte_body (h : s.rx.state = .body) (hb : s.rx.bytes.length + 1 < s.rx.len) :
    takeByte b s = { s with rx := { s.rx with bytes := s.rx.bytes ++ [b] } } := by
  simp [takeByte, h, Nat.not_le.2 hb]

theorem takeByte_lastBody (h : s.rx.state = .body) (hb : s.rx.bytes.length + 1 = s.rx.len) :
    takeByte b s = { s with rx := { s.rx with state := .crc, bytes := s.rx.bytes ++ [b] } } := by
  simp [takeByte, h, hb]

theorem takeByte_firstCrc (h : s.rx.state = .crc) (hb : s.rx.bytes.length = s.rx.len) :
    takeByte b s = { s with rx := { s.rx with bytes := s.rx.bytes ++ [b] } } := by
  simp [takeByte, h, hb]

/-- The two bytes after a body, as a number. -/
theorem le16At_after (body : List Byte) (lo hi : Byte) : le16At (body ++ [lo] ++ [hi]) body.length = lo.toNat + 256 * hi.toNat := by
  simp [le16At, byteAt]

/-- The second CRC byte completes the frame, which is checked as a whole (R120). -/
theorem takeByte_lastCrc (h : s.rx.state = .crc) {body : List Byte} {lo : Byte} (hlen : body.length = s.rx.len)
    (hbytes : s.rx.bytes = body ++ [lo]) :
    takeByte b s = checkFrame body (BitVec.ofNat 16 (lo.toNat + 256 * b.toNat)) (searchAgain s) := by
  have hcrc := le16At_after body lo b
  unfold takeByte
  simp only [h, hbytes, ← hlen, hcrc]
  simp

theorem takeByte_disabled (h : s.rx.state = .disabled) : takeByte b s = s := by simp [takeByte, h]

theorem takeGap_partial (h : s.rx.state = .length ∨ s.rx.state = .body ∨ s.rx.state = .crc) :
    takeGap s = (searchAgain s).count Counters.addGap := by
  rcases h with h | h | h <;> simp [takeGap, h]

theorem takeGap_nothing (h : s.rx.state = .searching ∨ s.rx.state = .disabled) : takeGap s = s := by
  rcases h with h | h <;> simp [takeGap, h]

theorem receiveFrame_enabled (h : s.rx.state ≠ .disabled) (body : List Byte) (crc : Word) :
    receiveFrame body crc s = checkFrame body crc (searchAgain s) := if_neg h

end

/-- Settles O11: each state of the receiver takes a byte and a gap by its own lemma. -/
theorem strayByteTaken : Obligations.StrayByteTaken := by
  intro b s hruns
  have hp := ((State.runs_iff s).1 hruns).1
  have taken (x : Receiver) (c : Counters) (h : takeByte b s = { s with rx := x, counters := c }) :
      exec (.strayByte b) s = .next { s with rx := x, counters := c } := by
    rw [exec_strayByte, onLink_of_runs hp _ (by rw [h]; exact hruns), h]
  refine ⟨fun h hb => ?_, fun h hb => ?_, fun h hlo hhi => ?_, fun h hb => ?_, fun h hb => ?_, fun h hb => ?_, fun h hb => ?_,
    fun h lo body hlen hbytes => ?_, fun h => ?_, fun h => ?_, fun h => ?_⟩
  · subst hb
    exact taken _ _ (takeByte_start h)
  · exact taken _ _ (takeByte_noise b h hb)
  · exact taken _ _ (takeByte_length b h hlo hhi)
  · exact taken _ _ (takeByte_badLength b h hb)
  · exact taken _ _ (takeByte_body b h hb)
  · exact taken _ _ (takeByte_lastBody b h hb)
  · exact taken _ _ (takeByte_firstCrc b h hb)
  · rw [exec_strayByte, exec_frameDiscard, onLink, onLink, takeByte_lastCrc b h hlen hbytes, receiveFrame_enabled (by rw [h]; nofun)]
  · exact taken _ _ (takeByte_disabled b h)
  · rw [exec_gap, onPart_of_runs hruns _ (by rw [takeGap_partial h]; exact hruns), takeGap_partial h]
    rfl
  · rw [exec_gap, onPart_of_runs hruns _ (by rw [takeGap_nothing h]; exact hruns), takeGap_nothing h]

/-! ### Whole frames (R117, R119, R120) -/

/-- The bytes of a body, taken one after the other from any point of it. -/
theorem takeByte_foldl_body {L : Nat} (s : State) (got rest : List Byte) (hrest : rest ≠ []) (hlen : got.length + rest.length = L) :
    rest.foldl (fun s b => takeByte b s) { s with rx := { state := .body, len := L, bytes := got } } =
      { s with rx := { state := .crc, len := L, bytes := got ++ rest } } := by
  induction rest generalizing got with
  | nil => exact absurd rfl hrest
  | cons b rest ih =>
    rw [List.foldl_cons]
    cases rest with
    | nil => rw [takeByte_lastBody b rfl (by simpa using hlen)]; rfl
    | cons c rest =>
      rw [takeByte_body b rfl (by simp only [List.length_cons] at hlen ⊢; omega)]
      refine (ih (got ++ [b]) nofun (by simp only [List.length_append, List.length_cons, List.length_nil] at hlen ⊢; omega)).trans ?_
      rw [List.append_assoc, List.singleton_append]

/-- The two CRC bytes after a whole body. -/
theorem takeByte_crc (s : State) (body : List Byte) (lo hi : Byte) :
    takeByte hi (takeByte lo { s with rx := { state := .crc, len := body.length, bytes := body } }) =
      checkFrame body (BitVec.ofNat 16 (lo.toNat + 256 * hi.toNat)) (searchAgain s) := by
  rw [takeByte_firstCrc (s := { s with rx := { state := .crc, len := body.length, bytes := body } }) lo rfl rfl]
  exact takeByte_lastCrc (s := { s with rx := { state := .crc, len := body.length, bytes := body ++ [lo] } }) hi rfl rfl rfl

theorem word_of_bytes (c : Word) :
    BitVec.ofNat 16 ((BitVec.ofNat 8 c.toNat).toNat + 256 * (BitVec.ofNat 8 (c.toNat / 256)).toNat) = c := by
  apply BitVec.eq_of_toNat_eq
  simp only [BitVec.toNat_ofNat]
  omega

/-- Settles O9: start byte and length, the body by induction, and the two CRC bytes, which match. -/
theorem receiverTakesBuiltFrame : Obligations.ReceiverTakesBuiltFrame := by
  intro body s hlo hhi hrx
  have hbyte : (BitVec.ofNat 8 body.length).toNat = body.length := toNat_byte (by omega)
  have hlength : ({ s with rx := { state := .length, len := 0, bytes := [] } } : State).rx.state = .length := rfl
  simp only [frameBytes, byte1, le16, List.foldl_append, List.foldl_cons, List.foldl_nil]
  rw [takeByte_start (by rw [hrx]; rfl), takeByte_length _ hlength (by rw [hbyte]; exact hlo) (by rw [hbyte]; exact hhi), hbyte,
    takeByte_foldl_body s [] body (by rintro rfl; simp at hlo) (by simp), List.nil_append, takeByte_crc, word_of_bytes, checkFrame, if_pos rfl]
  congr 1
  rw [searchAgain, ← hrx]

/-! ### A frame that is discarded (R120) -/

section
variable {s : State}

/-- A body of another class, or of class FLOW in another shape. -/
theorem passBody_class {cls : Byte} {rest : List Byte} (hrequest : cls ≠ 0x01)
    (hflow : cls ≠ 0x04 ∨ rest.length ≠ 4 ∨ 4 ≤ byteAt rest 0) : passBody (cls :: rest) s = s.count Counters.addClass := by
  unfold passBody
  split
  case h_1 h => exact absurd (List.cons.inj h).1 hrequest
  case h_2 flags a0 a1 w h =>
    obtain ⟨rfl, rfl⟩ := List.cons.inj h
    have hflags : 4 ≤ flags.toNat := by simpa [byteAt] using hflow
    exact if_pos hflags
  case h_3 => rfl

/-- Settles O12: a bad CRC is counted first, and then the class. -/
theorem badFrameCounted : Obligations.BadFrameCounted := by
  intro body crc s hruns hrx
  have hp := ((State.runs_iff s).1 hruns).1
  have counted (f : Counters → Counters) (h : checkFrame body crc (searchAgain s) = (searchAgain s).count f) :
      exec (.frameDiscard body crc) s = .next { s with rx := .searching, counters := f s.counters } := by
    rw [exec_frameDiscard, onLink_of_runs hp _ (by rw [receiveFrame_enabled hrx, h]; exact hruns), receiveFrame_enabled hrx, h]
    rfl
  refine ⟨fun hcrc => counted Counters.addCrc (if_neg hcrc), fun hcrc cls rest hbody hrequest hflow => ?_⟩
  exact counted Counters.addClass (by rw [checkFrame, if_pos hcrc, hbody, passBody_class hrequest hflow])

end

/-! ### A REQUEST frame (R121, R140) -/

section
variable {s : State} {r : Request}

theorem exec_requestFrame (tag code : Byte) (p : List Byte) (s : State) :
    exec (.requestFrame tag code p) s = onPart (receiveRequest { tag := tag, code := code, payload := p }) s := rfl

theorem receiveRequest_taken (hrx : s.rx.state ≠ .disabled) (hreset : s.handler.pendingReset = none) (hstart : s.canStart = false) :
    receiveRequest r s = takeRequestFrame r (searchAgain s) := by
  have hsettled : startIfFree (searchAgain s) = searchAgain s := startIfFree_of_settled hstart
  rw [receiveRequest, receiving, if_neg hrx, passRequest, if_neg (by simp [searchAgain, hreset]), hsettled]

/-- One round more, at the end. -/
theorem settleMany_succ (n : Nat) (s : State) : settleMany (n + 1) s = settleOnce (settleMany n s) := by
  induction n generalizing s with
  | zero => rfl
  | succ n ih => exact ih (settleOnce s)

theorem settleOnce_of_settled (h : s.settled = true) : settleOnce s = s := by
  simp only [State.settled, Bool.and_eq_true, Bool.not_eq_true'] at h
  obtain ⟨⟨hg, ht⟩, hr⟩ := h
  exact settleMany_of_settled hg ht hr 1

/-- A request that has been executed is answered or in execution, so that three rounds do what is due. -/
theorem settleMany_executed (he : s.handler.executing = some r) : settleMany 3 (executeRequest r s) = settleMany 4 (executeRequest r s) := by
  have hless : (executeRequest r s).dueAtMost ≤ 3 := by
    have hbusy := (executeRequest_executes he).busy
    have hnot : ¬((executeRequest r s).handler.executing = none ∧ (executeRequest r s).tx.respSlot = none) := by tauto
    simp only [State.dueAtMost, if_neg hnot]
    split <;> split <;> omega
  rw [settleMany_succ 3, settleOnce_of_settled (settleMany_settled hless)]

/-- A reply that an event hands over is started at its end. -/
theorem finish_reply {t : State} (hgrant : s.canGrant = false) (htake : s.canTake = false) (hreply : s.canReply = true)
    (hstart : startFrame s = t) (ht : t.rested = true) : finish s = t := by
  obtain ⟨hg, hk, hr, hidle⟩ := (State.rested_iff t).1 ht
  have hfirst : settleOnce s = t := by simp [settleOnce, hgrant, htake, hreply, hstart]
  have hmany : settleMany settleSteps s = t := (congrArg (settleMany 3) hfirst).trans (settleMany_of_settled hg hk hr 3)
  rw [finish, hmany, State.settleIdle_of_settled hidle]

end

/-- Settles O13: a handler that is not free leaves the frame to the inbox, the overflow reply slot or the counter. -/
theorem requestFrameTakenByInbox : Obligations.RequestFrameTakenByInbox := by
  intro tag code p s r
  refine ⟨fun hruns hrx hreset hbusy => ?_, fun hready => ?_⟩
  · obtain ⟨hp, hgrant, htake, hreply, hstart, hidle⟩ := (State.runs_iff s).1 hruns
    have hexec : exec (.requestFrame tag code p) s = .next (finish (takeRequestFrame r (searchAgain s))) := by
      rw [exec_requestFrame, onPart_of_settled hp hstart, receiveRequest_taken hrx hreset hstart]
    have hnotake (u : State) (htx : u.tx.respSlot = s.tx.respSlot) (hu : u.handler.executing = s.handler.executing) :
        u.canTake = false := by
      rcases hbusy with hb | hb <;> simp [State.canTake, htx, hu, Option.isSome_iff_ne_none.1 hb]
    refine ⟨fun hroom => ?_, fun hfull hslot => ?_, fun hfull hslot => ?_⟩
    · have htaken : takeRequestFrame r (searchAgain s) =
          { s with rx := .searching, handler := { s.handler with inbox := s.handler.inbox ++ [r] }, doze := { s.doze with idle := 0 } } :=
        (if_pos hroom).trans (joinInbox_eq r _)
      rw [hexec, htaken, finish_of_rested]
      exact (State.rested_iff _).2 ⟨hgrant, hnotake _ rfl rfl, hreply, idleSettled_of_idle rfl⟩
    · have hzero : s.doze.idle = 0 := by
        have hc := State.entryConditions_of_inbox (s := s) (fun h => by simp [h] at hfull)
        rcases (State.idleSettled_iff s).1 hidle with h | ⟨-, h | ⟨-, h⟩⟩
        · exact h
        · simp [State.idleRuns, hc] at h
        · simp [hc] at h
      have htaken : takeRequestFrame r (searchAgain s) = { s with rx := .searching, tx := { s.tx with overflow := some (r.reply .busy []) } } := by
        refine (if_neg (Nat.not_lt.2 hfull)).trans (if_pos ?_)
        simp [searchAgain, hslot]
      rw [hexec, htaken]
      cases hsend : s.tx.sending with
      | some f =>
        rw [finish_of_rested]
        · rfl
        · exact (State.rested_iff _).2 ⟨hgrant, hnotake _ rfl rfl, by simp [State.canReply, hsend], idleSettled_of_idle hzero⟩
      | none =>
        have hresp : s.tx.respSlot = none := by
          cases hr : s.tx.respSlot <;> simp_all [State.canReply]
        have hbegun : startFrame { s with rx := .searching, tx := { s.tx with overflow := some (r.reply .busy []) } } =
            { s with rx := .searching, tx :=
              { s.tx with sending := some { frame := .response (r.reply .busy []), rate := s.linkCfg.rate } } } := by
          simp [startFrame, sendFrame, hresp, hslot]
        refine congrArg _ (finish_reply (s := { s with rx := .searching, tx := { s.tx with overflow := some (r.reply .busy []) } }) hgrant
          (hnotake _ rfl rfl) (by simp [State.canReply, hsend, hreset]) hbegun ?_)
        exact (State.rested_iff _).2 ⟨hgrant, hnotake _ rfl rfl, by simp [State.canReply], idleSettled_of_idle hzero⟩
    · have htaken : takeRequestFrame r (searchAgain s) = { s with rx := .searching, counters := s.counters.addInboxDrop } := by
        refine (if_neg (Nat.not_lt.2 hfull)).trans (if_neg ?_)
        simpa [searchAgain] using Option.isSome_iff_ne_none.1 hslot
      rw [hexec, htaken, finish_of_rested]
      · rfl
      · exact State.rested_of_runs hruns
  · rw [exec_requestFrame, onPart_request hready, finish, settleSteps, settleMany_executed rfl]

end Sys2Proof.Machine
end

