-- ==== Sys2Proof/Proofs/Transmission.lean ====
section
/-! SUPPORT. The frames on TXD (spec/06, section 6.2; spec/07, sections 7.1 and 7.2): the bodies of Table 7-2, and the levels of bytes sent
back to back (R116). -/

namespace Sys2Proof.Machine

/-! ### Bodies (Table 7-2) -/

/-- The nine bytes before the payload of a report. -/
def ReportEntry.header (e : ReportEntry) : List Byte :=
  byte1 0x03 ++ le16 e.seq.toNat ++ byte1 e.report.kind ++ byte1 e.report.subject ++ le32 e.time.toNat

theorem ReportEntry.body_eq (e : ReportEntry) : (Frame.report e).body = e.header ++ e.report.payload := rfl

theorem ReportEntry.header_length (e : ReportEntry) : e.header.length = 9 := rfl

theorem Report.payload_length_le (r : Report) : r.payload.length ≤ 6 := by
  cases r <;> simp [Report.payload, le16, le32, leS16, byte1]

/-! ### The levels of a byte (R116) -/

theorem byteLevels_length (b : Byte) : (byteLevels b).length = 10 := by simp [byteLevels]

theorem byteLevels_start (b : Byte) : (byteLevels b)[0]? = some false := rfl

theorem byteLevels_data (b : Byte) {n : Nat} (h : n < 8) : (byteLevels b)[1 + n]? = some (b.getLsbD n) := by
  rw [byteLevels, List.cons_append, Nat.add_comm, List.getElem?_cons_succ, List.getElem?_append_left (by simpa using h)]
  simp [h]

theorem byteLevels_stop (b : Byte) : (byteLevels b)[9]? = some true := by
  rw [byteLevels, List.cons_append, List.getElem?_cons_succ, List.getElem?_append_right (by simp)]
  simp

/-- The levels of bytes sent back to back: ten for each. -/
theorem flatMap_byteLevels_length (bs : List Byte) : (bs.flatMap byteLevels).length = 10 * bs.length := by
  induction bs with
  | nil => rfl
  | cons b bs ih => simp only [List.flatMap_cons, List.length_append, byteLevels_length, ih, List.length_cons]; omega

/-- The levels of the byte at a place are where its bit times are. -/
theorem flatMap_byteLevels_getElem? {bs : List Byte} {i j : Nat} {b : Byte} (h : bs[i]? = some b) (hj : j < 10) :
    (bs.flatMap byteLevels)[10 * i + j]? = (byteLevels b)[j]? := by
  induction bs generalizing i with
  | nil => cases h
  | cons c bs ih =>
    rw [List.flatMap_cons]
    cases i with
    | zero =>
      cases h
      rw [List.getElem?_append_left (by rw [byteLevels_length]; omega)]
      congr 1
      omega
    | succ i =>
      rw [List.getElem?_append_right (by rw [byteLevels_length]; omega), byteLevels_length, ← ih h]
      congr 1
      omega

/-! ### The transmitter (R117, R123) -/

section
variable {t : Tx}

theorem Tx.bytesOnLine_of_none (h : t.sending = none) : t.bytesOnLine = [] := by simp [Tx.bytesOnLine, h]

theorem Tx.bytesOnLine_of_some {f : TxFrame} (h : t.sending = some f) : t.bytesOnLine = frameBytes f.frame.body := by
  simp [Tx.bytesOnLine, h]

theorem Tx.levelAt_after {n : Nat} (h : 10 * t.bytesOnLine.length ≤ n) : t.levelAt n = true := by
  rw [Tx.levelAt, Tx.levelsOnLine, List.getD_eq_getElem?_getD, List.getElem?_eq_none (by rw [flatMap_byteLevels_length]; exact h)]
  rfl

theorem Tx.levelAt_byte {i j : Nat} {b : Byte} {x : Bool} (h : t.bytesOnLine[i]? = some b) (hj : j < 10)
    (hx : (byteLevels b)[j]? = some x) : t.levelAt (10 * i + j) = x := by
  rw [Tx.levelAt, Tx.levelsOnLine, List.getD_eq_getElem?_getD, flatMap_byteLevels_getElem? h hj, hx]
  rfl

end

/-! ### The receiver's reading of a byte (section 7.1) -/

/-- The receiver takes the data bits as they are. -/
theorem byteOfLevels_eq {b : Byte} {levels : List Bool} (h : ∀ n, n < 8 → levels.getD (n + 1) true = b.getLsbD n) :
    byteOfLevels levels = b := by
  have hbits : ((List.range 8).map fun i => if levels.getD (i + 1) true then 2 ^ i else 0).sum =
      ((List.finRange 8).map fun i => if b.getLsbD i.val then 2 ^ i.val else 0).sum := by
    have hrange : List.range 8 = (List.finRange 8).map Fin.val := by decide
    rw [hrange, List.map_map]
    refine congrArg List.sum (List.map_congr_left fun i _ => ?_)
    simp only [Function.comp, h i.val i.isLt]
  rw [byteOfLevels, hbits, sum_finRange_eq_ofBits fun i : Fin 8 => b.getLsbD i.val]
  refine BitVec.eq_of_getLsbD_eq fun i hi => ?_
  rw [BitVec.getLsbD_ofNat, Nat.testBit_ofBits_lt _ _ hi]
  simp [hi]

/-- Settles O10: the bodies as they are built, and the bit times of the bytes of a frame. -/
theorem reportFrameLayout : Obligations.ReportFrameLayout := by
  refine ⟨fun e => ⟨e.report.payload_length_le, ?_, ?_, ?_⟩, fun r => ⟨?_, rfl⟩, fun t => ⟨fun h => ?_, fun f h => ?_, fun i b h => ?_, fun n h => ?_⟩,
    fun b levels h => byteOfLevels_eq h⟩
  · rw [e.body_eq, List.length_append, e.header_length]
  · rw [e.body_eq]
    exact List.take_left' e.header_length
  · rw [e.body_eq]
    exact List.drop_left' e.header_length
  · simp [Frame.body, byte1]
    omega
  · exact ⟨Tx.bytesOnLine_of_none h, fun n => Tx.levelAt_after (by simp [Tx.bytesOnLine_of_none h])⟩
  · refine ⟨Tx.bytesOnLine_of_some h, ?_⟩
    simp [Tx.bytesOnLine_of_some h, frameBytes, byte1, le16]
  · refine ⟨Tx.levelAt_byte h (by omega) (byteLevels_start b), fun n hn => ?_, Tx.levelAt_byte h (by omega) (byteLevels_stop b)⟩
    rw [Nat.add_assoc]
    exact Tx.levelAt_byte h (by omega) (byteLevels_data b hn)
  · exact Tx.levelAt_after h

end Sys2Proof.Machine
end

