-- ==== Sys2Proof/Proofs/Refusals.lean ====
section
/-! SUPPORT. The checks of every request (R141, Table 8-2) and its refusals, and the reads of the group table and of the plans. -/

namespace Sys2Proof.Machine

/-! ### The request of a code -/

theorem byte_of_toNat {b : Byte} {n : Nat} (h : b.toNat = n) : b = BitVec.ofNat 8 n := by
  rw [← h, BitVec.ofNat_toNat, BitVec.setWidth_eq]

/-- A request command is the arrival of a REQUEST frame of its code (log entry 5). -/
theorem exec_requestCommand (tag code : Byte) (p : List Byte) (s : State) :
    exec (requestCommand tag code p) s = exec (.requestFrame tag code p) s := by
  unfold requestCommand
  split
  case h_29 => rfl
  all_goals
    rename_i h
    obtain rfl := byte_of_toNat h
    rfl

theorem knownCode_of_lengthAllowed {code : Byte} {p : List Byte} (h : lengthAllowed code p = true) : knownCode code = true := by
  unfold lengthAllowed at h
  split at h
  case h_29 => cases h
  all_goals
    rename_i hc
    rw [knownCode, hc]
    rfl

theorem executeRequest_unknown {r : Request} (h : knownCode r.code = false) (s : State) : executeRequest r s = refuseUnknown r s := by
  unfold executeRequest
  split
  case h_29 => rfl
  all_goals
    rename_i hc
    rw [knownCode, hc] at h
    cases h

/-- The flag of READ_KEYS, which is 0, or 1 with fewer than 27 keys. -/
theorem readKeys_flag (f n : Nat) :
    (inRange 0 1 f && !(f == 1 && n == 27)) = (decide (f = 0) || (decide (f = 1) && decide (n ≠ 27))) := by
  rw [Bool.eq_iff_iff]
  simp [inRange_iff]
  omega

/-- Every request of Table 8-2 goes through the checks of R141: its length, its state and its fields. -/
theorem executeRequest_checked {tag code : Byte} {p : List Byte} (h : knownCode code = true) (s : State) :
    ∃ accept, executeRequest { tag := tag, code := code, payload := p } s =
      checked { tag := tag, code := code, payload := p } (lengthAllowed code p) (stateAllowed code s) (fieldChecks code p s) accept s := by
  unfold executeRequest
  split
  case h_29 =>
    simp only [knownCode, List.contains_cons, List.contains_nil, Bool.or_eq_true, beq_iff_eq, Bool.false_eq_true, or_false] at h
    tauto
  all_goals
    rename_i hc
    simp only [lengthAllowed, stateAllowed, fieldChecks, hc, runIdentify, runReadStatus, runSoftReset, runSetKey, runGetKey, runSetRef,
      runGetRef, runSetGroup, runGetGroup, runSetPlan, runGetPlan, runStartScan, runStopScan, runMeasure, runRecalibrate, runReadKeys,
      readKeys_flag, runFlushReports, runResync, runSetLink, runReadLinkStats, runSetOutputs, runGetOutputs, runSetDoze, runGetDoze,
      runEnterDoze, runProfileSave, runProfileLoad, runProfileInfo]
    exact ⟨_, rfl⟩

theorem checked_state {r : Request} {l st : Bool} {f : List (Nat × Bool)} {g : State → State} {s : State} (hl : l = true)
    (hst : st = false) : checked r l st f g s = respond r .state [] s := by
  simp [checked, hl, hst]

/-- Settles O16: each check in its order, the first that fails answered. -/
theorem refusalsAnswered : Obligations.RefusalsAnswered := by
  intro tag code p s
  refine ⟨exec_requestCommand tag code p s, fun hready => ⟨fun hcode => ?_, fun hcode hlength => ?_, fun hlength hstate => ?_,
    fun hlength hstate i hfield => ?_⟩⟩
  · exact onPart_request_reply hready (executeRequest_unknown hcode _)
  · obtain ⟨accept, hchecked⟩ := executeRequest_checked (tag := tag) (p := p) hcode (s.inExecution { tag := tag, code := code, payload := p })
    rw [exec_requestCommand, exec_requestFrame]
    exact onPart_request_reply hready (hchecked.trans (checked_badLength hlength))
  · obtain ⟨accept, hchecked⟩ := executeRequest_checked (tag := tag) (p := p) (knownCode_of_lengthAllowed hlength)
      (s.inExecution { tag := tag, code := code, payload := p })
    rw [exec_requestCommand, exec_requestFrame]
    exact onPart_request_reply hready (hchecked.trans (checked_state hlength hstate))
  · obtain ⟨accept, hchecked⟩ := executeRequest_checked (tag := tag) (p := p) (knownCode_of_lengthAllowed hlength)
      (s.inExecution { tag := tag, code := code, payload := p })
    rw [exec_requestCommand, exec_requestFrame]
    exact onPart_request_reply hready (hchecked.trans (checked_badField hlength hstate hfield))

/-! ### GET_GROUP and GET_PLAN -/

section
variable (tag : Byte) (p : List Byte) (s : State)

theorem exec_getGroup : exec (.getGroup tag p) s = onPart (receiveRequest { tag := tag, code := 0x19, payload := p }) s := rfl

theorem executeRequest_getGroup :
    executeRequest { tag := tag, code := 0x19, payload := p } s = runGetGroup { tag := tag, code := 0x19, payload := p } s := rfl

theorem exec_getPlan : exec (.getPlan tag p) s = onPart (receiveRequest { tag := tag, code := 0x21, payload := p }) s := rfl

theorem executeRequest_getPlan :
    executeRequest { tag := tag, code := 0x21, payload := p } s = runGetPlan { tag := tag, code := 0x21, payload := p } s := rfl

end

theorem groupOfPayload_byte1_append (g : GroupId) (p : List Byte) : groupOfPayload (byte1 g.val ++ p) = g := by
  rw [groupOfPayload, byteAt_byte1_append (by omega)]
  exact Fin.ext (Nat.mod_eq_of_lt g.isLt)

/-- The bytes of a group's configuration, its members one byte each (Tables 5-2 and 5-3). -/
theorem GroupConfig.bytes_eq (c : GroupConfig) :
    c.bytes = byte1 c.kind.code ++ le16 c.param ++ byte1 c.members.length ++ c.members.map fun k => BitVec.ofNat 8 k.val := by
  rw [List.map_eq_flatMap]
  rfl

section
variable {s : State} (h : s.ready = true) (tag : Byte)
include h

theorem getGroup_answered (g : GroupId) :
    exec (.getGroup tag (byte1 g.val)) s = .next (s.answered (responseTo tag 0x19 .ok (groupReply g s.groups[g]))) := by
  have hg : groupOfPayload (byte1 g.val) = g := groupOfPayload_byte1_append g []
  have hid : firstBad [(1, inRange 0 7 (byteAt (byte1 g.val) 0))] = none := by
    rw [firstBad_cons_iff, inRange_iff, ← List.append_nil (byte1 g.val), byteAt_byte1_append (by omega)]
    exact ⟨by omega, rfl⟩
  rw [exec_getGroup]
  refine onPart_request_reply h ((executeRequest_getGroup ..).trans ((checked_accept rfl rfl hid).trans ?_))
  simp only [hg]
  rfl

theorem getGroup_badField (b : Byte) (hb : 8 ≤ b.toNat) :
    exec (.getGroup tag [b]) s = .next (s.answered (responseTo tag 0x19 .badField (byte1 1))) := by
  have hid : inRange 0 7 (byteAt [b] 0) = false := by
    rw [Bool.eq_false_iff, ne_eq, inRange_iff, byteAt_cons_zero]
    omega
  have hbad : firstBad [(1, inRange 0 7 (byteAt [b] 0))] = some 1 := by rw [hid]; rfl
  rw [exec_getGroup]
  exact onPart_request_reply h ((executeRequest_getGroup ..).trans (checked_badField rfl rfl hbad))

theorem getGroup_badLength (p : List Byte) (hp : p.length ≠ 1) :
    exec (.getGroup tag p) s = .next (s.answered (responseTo tag 0x19 .badLength (byte1 p.length))) := by
  rw [exec_getGroup]
  exact onPart_request_reply h ((executeRequest_getGroup ..).trans (checked_badLength (beq_false_of_ne hp)))

theorem getPlan_answered :
    exec (.getPlan tag []) s =
      .next (s.answered (responseTo tag 0x21 .ok (s.seq.plan.bytes ++ pendingBytes s.seq.pendingPlan))) := by
  rw [exec_getPlan]
  exact onPart_request_reply h ((executeRequest_getPlan ..).trans (checked_accept rfl rfl rfl))

theorem getPlan_badLength (p : List Byte) (hp : p ≠ []) :
    exec (.getPlan tag p) s = .next (s.answered (responseTo tag 0x21 .badLength (byte1 p.length))) := by
  have hlength : p.length ≠ 0 := mt List.eq_nil_of_length_eq_zero hp
  rw [exec_getPlan]
  exact onPart_request_reply h ((executeRequest_getPlan ..).trans (checked_badLength (beq_false_of_ne hlength)))

end

theorem groupReply_eq (g : GroupId) (x : Group) :
    groupReply g x = byte1 g.val ++ byte1 x.config.kind.code ++ le16 x.config.param ++ byte1 x.config.members.length ++
      (x.config.members.map fun k => BitVec.ofNat 8 k.val) ++ byte1 ((x.holder.map Fin.val).getD 0xFF) ++
      byte1 (if x.touched then 1 else 0) ++ le16 x.lastPos := by
  simp only [groupReply, GroupConfig.bytes_eq, boolByte, List.append_assoc]

/-- Settles O19: the bytes of a group record, and of the plans one after the other. -/
theorem groupAndPlanReadsAnswered : Obligations.GroupAndPlanReadsAnswered := by
  intro tag s h
  have hplan (pl : Plan) : pl.bytes = le16 pl.period ++ byte1 pl.entries.length ++ pl.entries.map fun e => BitVec.ofNat 8 e.code :=
    pl.bytes_eq
  refine ⟨fun g => ?_, getGroup_badField h tag, getGroup_badLength h tag, fun hnone => ?_, fun pl hsome => ?_, getPlan_badLength h tag⟩
  · rw [getGroup_answered h, groupReply_eq]
    cases s.groups[g].holder <;> rfl
  · rw [getPlan_answered h, hnone, hplan]
    simp only [List.append_assoc]
    rfl
  · rw [getPlan_answered h, hsome, hplan]
    simp only [pendingBytes, Option.getD_some, hplan, List.append_assoc]

end Sys2Proof.Machine
end

