-- ==== Sys2Proof/Proofs/RequestEffects.lean ====
section
/-! SUPPORT. A request that a ready part executes (R140), once more: its effect where a claim is granted at its end, where it stays in
execution, and where the receiver is left DISABLED. The requests of the link, the doze and SOFT_RESET. -/

namespace Sys2Proof.Machine

/-! ### The end of the event of a request -/

/-- The end of an event that has handed over a response with an empty inbox and no claim due, whatever the state of the receiver. -/
theorem settle_handedOver {s : State} {resp : Response} (hr : s.tx.respSlot = some resp) (hi : s.handler.inbox = [])
    (hg : s.canGrant = false) (hd : s.doze.idle = 0) (n : Nat) :
    (settleMany (n + 1) s).settleIdle = State.handedOver resp { s with tx := { s.tx with respSlot := none } } := by
  have htake : s.canTake = false := by simp [State.canTake, hr]
  cases hsend : s.tx.sending with
  | some f =>
    have hslot : { s.tx with respSlot := some resp } = s.tx := by
      cases htx : s.tx
      simp_all
    rw [settleMany_of_settled hg htake (by simp [State.canReply, hsend]), State.settleIdle_of_idle hd]
    simp only [State.handedOver, hsend, Option.isNone_some, Bool.false_eq_true, if_false]
    rw [← hsend, hslot]
  | none =>
    have hreply : s.canReply = true := by simp [State.canReply, hsend, hr]
    have hfirst : settleOnce s = startFrame s := by simp [settleOnce, hg, htake, hreply]
    have hstart : startFrame s = State.handedOver resp { s with tx := { s.tx with respSlot := none } } := by
      simp [startFrame, hr, sendFrame, State.handedOver, hsend]
    rw [settleMany, hfirst, hstart, settleMany_of_settled, State.settleIdle_of_idle]
    · exact hd
    · exact hg
    · simp [State.handedOver, State.canTake, hi]
    · simp [State.handedOver, State.canReply, hsend]

/-- A grant does not look at the handler, the transmitter, the receiver and the idle timer. -/
theorem grant_beside (h : Handler) (x : Tx) (y : Receiver) (n : Nat) (s : State) :
    grant { s with handler := h, tx := x, rx := y, doze := { s.doze with idle := n } } =
      { grant s with handler := h, tx := x, rx := y, doze := { (grant s).doze with idle := n } } := by
  have hnext : State.nextGrant { s with handler := h, tx := x, rx := y, doze := { s.doze with idle := n } } = s.nextGrant := rfl
  unfold grant
  rw [hnext]
  split
  · cases s.claims.plan with
    | none => rfl
    | some c =>
      obtain ⟨index, subject⟩ := c
      cases subject <;> rfl
  · cases s.claims.host <;> rfl
  · rfl
  · rfl

theorem grant_frame (s : State) : grant s = { s with engine := (grant s).engine, claims := (grant s).claims } := by
  unfold grant grantPlan
  repeat' split
  all_goals rfl

theorem grant_respondThen (a : AfterSend) (r : Request) (c : ResultCode) (p : List Byte) (s : State) :
    grant (respondThen a r c p s) = respondThen a r c p (grant s) := by
  refine (grant_beside (respondThen a r c p s).handler (respondThen a r c p s).tx s.rx s.doze.idle s).trans ?_
  rw [grant_frame]
  rfl

theorem grant_inExecution (r : Request) (s : State) : grant (s.inExecution r) = (grant s).inExecution r := by
  refine (grant_beside (s.inExecution r).handler s.tx .searching 0 s).trans ?_
  rw [grant_frame]
  rfl

section
variable {s : State} {r : Request}

/-- A request whose execution hands over a response, with no claim due, whatever the state of the receiver. -/
theorem onPart_request_handedOver {u : State} {a : AfterSend} {c : ResultCode} {p : List Byte}
    (h : s.ready = true) (hex : executeRequest r (s.inExecution r) = respondThen a r c p u) (hi : u.handler.inbox = [])
    (hs : u.tx.respSlot = none) (hg : u.canGrant = false) (hd : u.doze.idle = 0) :
    onPart (receiveRequest r) s =
      .next (State.handedOver { tag := r.tag, code := r.code, result := c, payload := p, after := a }
        { u with handler := { u.handler with executing := none } }) := by
  have htx := Tx.respSlot_none hs
  rw [onPart_request h, hex, settle_handedOver (s := respondThen a r c p u) rfl hi hg hd]
  simp only [respondThen, htx]

/-- A request whose execution hands over a response and leaves the handler and the transmitter alone: a claim it has made is granted. -/
theorem onPart_request_granting {u : State} {a : AfterSend} {c : ResultCode} {p : List Byte} (h : s.ready = true)
    (hex : executeRequest r (s.inExecution r) = respondThen a r c p (u.inExecution r)) (hh : u.handler = s.handler) (htx : u.tx = s.tx) :
    onPart (receiveRequest r) s =
      .next ((grantIfFree u).answered { tag := r.tag, code := r.code, result := c, payload := p, after := a }) := by
  obtain ⟨-, -, hinbox, hnone, -, hslot, -⟩ := (State.ready_iff s).1 h
  have hi : u.handler.inbox = [] := (congrArg Handler.inbox hh).trans hinbox
  have hs : u.tx.respSlot = none := (congrArg Tx.respSlot htx).trans hslot
  have hidle : ({ u.handler with executing := none } : Handler) = u.handler := Handler.executing_none (hh ▸ hnone)
  have hslot' : ({ u.tx with respSlot := none } : Tx) = u.tx := Tx.respSlot_none hs
  have hgranted : (grantIfFree u).canGrant = false := grantIfFree_canGrant u
  cases hg : u.canGrant with
  | false =>
    rw [onPart_request_answered h hex ⟨hi, hs, hg, rfl, rfl⟩, grantIfFree, if_neg (by simp [hg])]
    simp only [State.answered, State.inExecution, hidle]
  | true =>
    rw [grantIfFree, if_pos hg] at hgranted ⊢
    have hclaim : (respondThen a r c p (u.inExecution r)).canGrant = true := hg
    have hfirst : settleOnce (respondThen a r c p (u.inExecution r)) = respondThen a r c p ((grant u).inExecution r) := by
      rw [settleOnce, if_pos hclaim, grant_respondThen, grant_inExecution]
    rw [onPart_request h, hex, settleMany, hfirst,
      settle_handedOver (s := respondThen a r c p ((grant u).inExecution r)) rfl (by rw [grant_frame]; exact hi) hgranted rfl, grant_frame]
    simp only [State.answered, respondThen, State.inExecution, hidle, hslot']

/-- A request that stays in execution, with nothing due. -/
theorem settle_inExecution {u : State} (hg : u.canGrant = false) (hr : u.canReply = false) (n : Nat) :
    (settleMany n (u.inExecution r)).settleIdle = u.inExecution r := by
  have htake : (u.inExecution r).canTake = false := by simp [State.canTake, State.inExecution]
  have hreply : (u.inExecution r).canReply = false := hr
  have hgrant : (u.inExecution r).canGrant = false := hg
  rw [settleMany_of_settled hgrant htake hreply, State.settleIdle_of_idle rfl]

theorem onPart_request_waiting {u : State} (h : s.ready = true) (hex : executeRequest r (s.inExecution r) = u.inExecution r)
    (hh : u.handler = s.handler) (htx : u.tx = s.tx) (hg : u.canGrant = false) :
    onPart (receiveRequest r) s = .next (u.inExecution r) := by
  obtain ⟨-, -, -, -, -, -, -, -, hreply, -⟩ := (State.ready_iff s).1 h
  have hnone : u.canReply = false := by rwa [State.canReply, hh, htx]
  rw [onPart_request h, hex, settle_inExecution hg hnone]

/-- A request that claims the engine and stays in execution, its claim granted at once. -/
theorem onPart_request_claiming {u v : State} (h : s.ready = true) (hex : executeRequest r (s.inExecution r) = u)
    (hclaim : u.canGrant = true) (hgrant : grant u = v.inExecution r) (hh : v.handler = s.handler) (htx : v.tx = s.tx)
    (hg : v.canGrant = false) : onPart (receiveRequest r) s = .next (v.inExecution r) := by
  obtain ⟨-, -, -, -, -, -, -, -, hreply, -⟩ := (State.ready_iff s).1 h
  have hnone : v.canReply = false := by rwa [State.canReply, hh, htx]
  have hfirst : settleOnce u = v.inExecution r := by rw [settleOnce, if_pos hclaim, hgrant]
  rw [onPart_request h, hex, settleMany, hfirst, settle_inExecution hg hnone]

end

/-! ### SET_LINK (R135, R136) -/

section
variable (tag : Byte) (p : List Byte) (s : State)

theorem exec_setLink : exec (.setLink tag p) s = onPart (receiveRequest { tag := tag, code := 0x41, payload := p }) s := rfl

theorem executeRequest_setLink :
    executeRequest { tag := tag, code := 0x41, payload := p } s = runSetLink { tag := tag, code := 0x41, payload := p } s := rfl

theorem exec_softReset : exec (.softReset tag p) s = onPart (receiveRequest { tag := tag, code := 0x03, payload := p }) s := rfl

theorem executeRequest_softReset :
    executeRequest { tag := tag, code := 0x03, payload := p } s = runSoftReset { tag := tag, code := 0x03, payload := p } s := rfl

theorem exec_setDoze : exec (.setDoze tag p) s = onPart (receiveRequest { tag := tag, code := 0x50, payload := p }) s := rfl

theorem executeRequest_setDoze :
    executeRequest { tag := tag, code := 0x50, payload := p } s = runSetDoze { tag := tag, code := 0x50, payload := p } s := rfl

theorem exec_getDoze : exec (.getDoze tag p) s = onPart (receiveRequest { tag := tag, code := 0x52, payload := p }) s := rfl

theorem executeRequest_getDoze :
    executeRequest { tag := tag, code := 0x52, payload := p } s = runGetDoze { tag := tag, code := 0x52, payload := p } s := rfl

theorem exec_enterDoze : exec (.enterDoze tag p) s = onPart (receiveRequest { tag := tag, code := 0x51, payload := p }) s := rfl

theorem executeRequest_enterDoze :
    executeRequest { tag := tag, code := 0x51, payload := p } s = runEnterDoze { tag := tag, code := 0x51, payload := p } s := rfl

end

theorem LinkSettings.inRange_iff (l : LinkSettings) :
    l.inRange = true ↔ (20 ≤ l.ackTimeout ∧ l.ackTimeout ≤ 2000) ∧ (1 ≤ l.retryLimit ∧ l.retryLimit ≤ 15) ∧ l.window ≤ 8 := by
  simp [LinkSettings.inRange, Machine.inRange_iff, and_assoc]

theorem Baud.ofCode_byte (b : Baud) : Baud.ofCode (BitVec.ofNat 8 b.code).toNat = some b := by cases b <;> rfl

section
variable {l : LinkSettings} (h : l.inRange = true)
include h

/-- The fields of SET_LINK read back. -/
theorem LinkSettings.fields :
    Baud.ofCode (byteAt l.bytes 0) = some l.baud ∧ le16At l.bytes 1 = l.ackTimeout ∧ byteAt l.bytes 3 = l.retryLimit ∧
      byteAt l.bytes 4 = l.window := by
  obtain ⟨hack, hretry, hwindow⟩ := l.inRange_iff.1 h
  have hsecond : le16At l.bytes 1 = l.ackTimeout := le16At_cons_cons (by omega) (byte1 l.retryLimit ++ byte1 l.window)
  exact ⟨Baud.ofCode_byte _, hsecond, toNat_byte (by omega), toNat_byte (by omega)⟩

theorem readLink_bytes : readLink l.bytes = l := by
  obtain ⟨hbaud, hack, hretry, hwindow⟩ := LinkSettings.fields h
  simp [readLink, hbaud, hack, hretry, hwindow]

theorem setLinkChecks_bytes : firstBad (setLinkChecks l.bytes) = none := by
  obtain ⟨hbaud, hack, hretry, hwindow⟩ := LinkSettings.fields h
  simp only [setLinkChecks, hbaud, hack, hretry, hwindow, firstBad_cons_iff, inRange_iff, firstBad_nil, and_true]
  have := l.inRange_iff.1 h
  simp
  omega

end

theorem State.orderedRate_of_noResponse {s : State} (h : s.tx.respSlot = none) :
    s.orderedRate = match s.tx.sending with
      | some { frame := .response { after := .baud b, .. }, .. } => b
      | _ => s.linkCfg.rate := by
  rw [State.orderedRate, h] <;> rfl

/-- Settles O29: the five bytes read back, and the order of a rate with the response. -/
theorem setLinkTakesEffect : Obligations.SetLinkTakesEffect := by
  intro tag l s h hl ordered
  obtain ⟨-, -, -, -, -, hslot, -⟩ := (State.ready_iff s).1 h
  have hordered : s.orderedRate = ordered := (State.orderedRate_of_noResponse hslot)
  change exec (.setLink tag l.bytes) s = _
  rw [exec_setLink]
  refine onPart_request_effectThen h ((executeRequest_setLink ..).trans ((checked_accept rfl rfl (setLinkChecks_bytes hl)).trans ?_))
    rfl rfl rfl rfl
  have horder : (s.inExecution { tag := tag, code := 0x41, payload := l.bytes }).baudOrder l.baud =
      if l.baud = ordered then .nothing else .baud l.baud := by
    rw [← hordered]
    rfl
  rw [acceptSetLink, readLink_bytes hl, horder]
  rfl

/-! ### SOFT_RESET (R149) -/

section
variable {s : State}

theorem softReset_accepted (h : s.ready = true) (tag : Byte) {m : Byte} (hm : m.toNat ≤ 1) :
    exec (.softReset tag [m]) s = .next (State.answered
      { tag := tag, code := 0x03, result := .ok, payload := [], after := .reset (readMode [m]) }
      { s with handler := { s.handler with pendingReset := some (readMode [m]) } }) := by
  obtain ⟨-, -, hinbox, hnone, -, hslot, hgrant, -⟩ := (State.ready_iff s).1 h
  have hfield : firstBad [(1, inRange 0 1 (byteAt [m] 0))] = none := by simp [inRange_iff, hm]
  rw [exec_softReset, onPart_request_answered h ((executeRequest_softReset ..).trans (checked_accept rfl rfl hfield))
    ⟨hinbox, hslot, hgrant, rfl, rfl⟩]
  have hhandler := Handler.executing_none hnone
  simp only [State.answered, State.handedOver, State.inExecution, hnone]
  rfl

theorem softReset_badField (h : s.ready = true) (tag : Byte) {m : Byte} (hm : 2 ≤ m.toNat) :
    exec (.softReset tag [m]) s = .next (s.answered (responseTo tag 0x03 .badField (byte1 1))) := by
  have hbad : firstBad [(1, inRange 0 1 (byteAt [m] 0))] = some 1 := by
    have hflag : inRange 0 1 (byteAt [m] 0) = false := by
      rw [Bool.eq_false_iff, ne_eq, inRange_iff, byteAt_cons_zero]
      omega
    rw [hflag]
    rfl
  rw [exec_softReset]
  exact onPart_request_reply h ((executeRequest_softReset ..).trans (checked_badField rfl rfl hbad))

/-- Settles O35: the two modes, and the frames that go to no destination while a reset is pending. -/
theorem softResetTakesEffect : Obligations.SoftResetTakesEffect := by
  intro tag s
  refine ⟨fun h m => ⟨?_, ?_, softReset_badField h tag⟩, fun hruns hrx hreset => ⟨fun code p => ?_, fun flags n w hflags => ?_⟩⟩
  · rintro rfl
    exact softReset_accepted h tag (by decide)
  · rintro rfl
    exact softReset_accepted h tag (by decide)
  · have hpassed : receiveRequest { tag := tag, code := code, payload := p } s = searchAgain s := by
      rw [receiveRequest, receiving, if_neg hrx, passRequest]
      exact if_pos hreset
    rw [exec_requestFrame, onPart_of_runs hruns _ (by rw [hpassed]; exact hruns), hpassed]
    rfl
  · have hpassed : receiveFlow flags n w s = searchAgain s := by
      rw [receiveFlow, receiving, if_neg hrx, passFlow, if_neg (by omega)]
      exact if_pos hreset
    rw [exec_flowFrame, onLink_of_runs ((State.runs_iff s).1 hruns).1 _ (by rw [hpassed]; exact hruns), hpassed]
    rfl

end

/-! ### SET_DOZE and GET_DOZE (R160, R161) -/

theorem DozeSettings.inRange_iff (d : DozeSettings) :
    d.inRange = true ↔ d.idleTime ≤ 255 ∧ (16 ≤ d.interval ∧ d.interval ≤ 2000) ∧ d.padSet ≠ 0 ∧
      (d.meas.clock = .s1 ∨ d.meas.clock = .s4) ∧ d.meas.inRange = true ∧ (1 ≤ d.threshold ∧ d.threshold ≤ 2047) ∧
      (1 ≤ d.debounce ∧ d.debounce ≤ 7) ∧ (4 ≤ d.calSamples ∧ d.calSamples ≤ 32) := by
  simp only [DozeSettings.inRange, Bool.and_eq_true, Bool.or_eq_true, Machine.inRange_iff, decide_eq_true_eq, and_assoc, Nat.zero_le,
    true_and]

theorem DozeSettings.bytes_eq (d : DozeSettings) :
    d.bytes = BitVec.ofNat 8 d.idleTime :: BitVec.ofNat 8 d.interval :: BitVec.ofNat 8 (d.interval / 256) ::
      BitVec.ofNat 8 d.padSet.toNat :: BitVec.ofNat 8 (d.padSet.toNat / 256) :: BitVec.ofNat 8 (d.padSet.toNat / 65536) ::
      (d.meas.bytes ++ (le16 d.threshold ++ byte1 d.debounce ++ byte1 d.calSamples)) := rfl

section
variable {d : DozeSettings} (h : d.inRange = true)
include h

/-- The seventeen bytes read back. -/
theorem readDoze_bytes : readDoze d.bytes = d := by
  obtain ⟨hidle, hinterval, -, -, hmeas, hthreshold, hdebounce, hcal⟩ := d.inRange_iff.1 h
  simp (disch := omega) only [DozeSettings.bytes_eq, readDoze, byte1, le16, List.cons_append, List.nil_append, byteAt_cons_zero,
    byteAt_cons_succ, le16At_cons_succ, readPads_cons_succ, readMeas_cons_succ, byteAt_meas_append, le16At_meas_append,
    readPads_cons_cons_cons, readMeas_bytes hmeas, toNat_byte, le16At_cons_cons]

end

/-- Codes 5 and 6 are those of the slow clocks. -/
theorem Clock.slow_iff (n : Nat) :
    (5 ≤ n ∧ n ≤ 6) ↔ (Clock.ofCode n).isSome = true ∧
      ((Clock.ofCode n).getD .f8 = .s1 ∨ (Clock.ofCode n).getD .f8 = .s4) := by
  match n with
  | 0 | 1 | 2 | 3 | 4 | 5 | 6 => decide
  | n + 7 => simp [Clock.ofCode]

/-- Every field of a SET_DOZE passes its check exactly when the clock has a code and the settings read are in range (R160). -/
theorem setDozeChecks_iff (p : List Byte) :
    firstBad (setDozeChecks p) = none ↔ (Clock.ofCode (byteAt p 6)).isSome = true ∧ (readDoze p).inRange = true := by
  rw [DozeSettings.inRange_iff, MeasureParams.inRange_iff]
  simp only [setDozeChecks, firstBad_cons_iff, firstBad_nil, inRange_iff, Clock.slow_iff, bne_iff_ne, ne_eq, decide_eq_true_eq,
    Nat.zero_le, true_and, and_true, readDoze, readMeas, readPads_eq_zero_iff]
  tauto

theorem setDozeChecks_bytes {d : DozeSettings} (h : d.inRange = true) : firstBad (setDozeChecks d.bytes) = none := by
  refine (setDozeChecks_iff _).2 ⟨?_, by rwa [readDoze_bytes h]⟩
  rw [DozeSettings.bytes_eq]
  simp only [byteAt_cons_succ, byteAt_meas_zero, Clock.ofCode_code, Option.isSome_some]

section
variable {s : State} (h : s.ready = true) (tag : Byte)
include h

theorem setDoze_accepted {d : DozeSettings} (hd : d.inRange = true) :
    exec (.setDoze tag d.bytes) s = .next (State.answered (responseTo tag 0x50 .ok [])
      { s with doze := { s.doze with
        settings := d
        wake := .afterReset
        idle := 0
        request := if s.doze.request = some .auto then none else s.doze.request
        state := if s.doze.request = some .auto then .awake else s.doze.state } }) := by
  refine onPart_request_effect h ((executeRequest_setDoze ..).trans ((checked_accept rfl rfl (setDozeChecks_bytes hd)).trans ?_))
    rfl rfl rfl rfl
  have hrequest : (s.inExecution { tag := tag, code := 0x50, payload := d.bytes }).doze.request = s.doze.request := rfl
  rw [acceptSetDoze, readDoze_bytes hd, hrequest]
  by_cases hauto : s.doze.request = some .auto
  · have hsome : (s.inExecution { tag := tag, code := 0x50, payload := d.bytes }).doze.request.isSome = true := by
      rw [hrequest, hauto]
      rfl
    simp only [if_pos hauto, clearEntryRequest, if_pos hsome]
    rfl
  · simp only [if_neg hauto]
    rfl

theorem getDoze_answered :
    exec (.getDoze tag []) s = .next (s.answered (responseTo tag 0x52 .ok (dozeReply { s with doze := { s.doze with idle := 0 } }))) :=
  onPart_request_reply h ((executeRequest_getDoze ..).trans (checked_accept rfl rfl rfl))

theorem getDoze_badLength (p : List Byte) (hp : p ≠ []) :
    exec (.getDoze tag p) s = .next (s.answered (responseTo tag 0x52 .badLength (byte1 p.length))) :=
  onPart_request_reply h ((executeRequest_getDoze ..).trans (checked_badLength (beq_eq_false_iff_ne.2 (by simpa using hp))))

end

theorem entryRequestCode_eq (request : Option EntrySource) :
    entryRequestCode request = match request with | none => 0 | some .auto => 1 | some .host => 2 := by
  cases request with
  | none => rfl
  | some source => cases source <;> rfl

/-- Settles O31: the settings read back, and the thirty bytes of GET_DOZE with an idle timer of 0. -/
theorem dozeSettingsRequestsTakeEffect : Obligations.DozeSettingsRequestsTakeEffect := by
  intro tag d s h
  refine ⟨setDoze_accepted h tag, ?_, getDoze_badLength h tag⟩
  rw [getDoze_answered h tag, dozeReply, entryRequestCode_eq]
  rfl

/-! ### ENTER_DOZE (R163) -/

/-- An entry request raised in STOPPED, its conditions holding, enters doze at once. -/
theorem raiseRequest_stopped {s : State} (hstate : s.seq.runState = .stopped) (hc : s.entryConditions = true) (source : EntrySource) :
    raiseRequest source s = enterDoze .stopped { s with doze := { s.doze with request := some source } } := by
  have hraised : State.entryConditions { s with doze := { s.doze with request := some source } } = true := hc
  rw [raiseRequest, if_pos hstate, decideStopped, if_pos hraised]

theorem raiseRequest_running {s : State} (hstate : s.seq.runState ≠ .stopped) (source : EntrySource) :
    raiseRequest source s = { s with doze := { s.doze with request := some source, state := .requested } } := if_neg hstate

section
variable {s : State} (h : s.ready = true) (tag : Byte)
include h

/-- The ENTER_DOZE in execution breaks no entry condition. -/
theorem State.entryConditions_inExecution (p : List Byte) :
    (s.inExecution { tag := tag, code := enterDozeCode, payload := p }).entryConditions = s.entryConditions := by
  obtain ⟨-, -, -, hnone, -⟩ := (State.ready_iff s).1 h
  have hquiet : (s.inExecution { tag := tag, code := enterDozeCode, payload := p }).requestsQuiet = s.requestsQuiet := by
    simp only [State.requestsQuiet, State.inExecution, hnone, decide_true]
  simp only [State.entryConditions, hquiet]
  rfl

theorem runEnterDoze_inExecution :
    executeRequest { tag := tag, code := enterDozeCode, payload := [] } (s.inExecution { tag := tag, code := enterDozeCode, payload := [] }) =
      if s.entryConditions then raiseRequest .host (s.inExecution { tag := tag, code := enterDozeCode, payload := [] })
      else respond { tag := tag, code := enterDozeCode, payload := [] } .state []
        (s.inExecution { tag := tag, code := enterDozeCode, payload := [] }) := by
  have hrun := (executeRequest_enterDoze tag [] (s.inExecution { tag := tag, code := enterDozeCode, payload := [] })).trans
    (checked_accept rfl rfl rfl)
  rw [State.entryConditions_inExecution h] at hrun
  exact hrun

end

/-- Settles O32: refused where an entry condition fails, doze entered at once from STOPPED, and the entry request raised. -/
theorem enterDozeTakesEffect : Obligations.EnterDozeTakesEffect := by
  intro tag s h
  obtain ⟨-, -, hinbox, hnone, -, hslot, hgrant, -⟩ := (State.ready_iff s).1 h
  have hrun := runEnterDoze_inExecution h tag
  refine ⟨fun hc => ?_, fun hc hstopped => ?_, fun hc hrunning => ?_⟩
  · rw [hc] at hrun
    exact onPart_request_reply h hrun
  · rw [if_pos hc] at hrun
    have hstate : (s.inExecution { tag := tag, code := enterDozeCode, payload := [] }).seq.runState = .stopped := hstopped
    rw [raiseRequest_stopped hstate ((State.entryConditions_inExecution h tag []).trans hc),
      enterDoze_answers (r := { tag := tag, code := enterDozeCode, payload := [] }) rfl rfl] at hrun
    refine (onPart_request_handedOver h hrun hinbox hslot hgrant rfl).trans ?_
    have hkept : ({ s.handler with executing := none } : Handler) = s.handler := Handler.executing_none hnone
    simp only [dozeEffect, State.inExecution, hkept]
    rfl
  · rw [if_pos hc] at hrun
    have hstate : (s.inExecution { tag := tag, code := enterDozeCode, payload := [] }).seq.runState ≠ .stopped := by
      rcases hrunning with hr | hr <;> exact fun hs => nomatch hs.symm.trans hr
    rw [raiseRequest_running hstate] at hrun
    exact onPart_request_waiting (u := { s with doze := { s.doze with request := some .host, state := .requested } }) h hrun rfl rfl
      hgrant

end Sys2Proof.Machine
end

