-- ==== Sys2Proof/Proofs/ScanRequests.lean ====
section
/-! SUPPORT. The requests that reach the sequencer and the engine: START_SCAN (R50), STOP_SCAN (R51, R52) and MEASURE (R18); and
the entry of a plan that is measured next (R41). -/

namespace Sys2Proof.Machine

/-! ### The first entry to be measured (R41) -/

/-- An entry that needs a measurement: REF, or a key whose enabled field is yes. -/
def PlanEntry.Measured (keys : Vector KeyRecord 32) (e : PlanEntry) : Prop := e = .ref ∨ ∃ k : KeyId, e = .key k ∧ keys[k].enabled = true

section
variable {keys : Vector KeyRecord 32} {e : PlanEntry} {before : List PlanEntry}

theorem firstMeasured_measured (h : e.Measured keys) (after : List PlanEntry) (i : Nat) :
    firstMeasured keys (e :: after) i = some { index := i, subject := e } := by
  rcases h with rfl | ⟨k, rfl, hk⟩
  · rfl
  · exact if_pos hk

theorem firstMeasured_skipped (h : ¬e.Measured keys) (after : List PlanEntry) (i : Nat) :
    firstMeasured keys (e :: after) i = firstMeasured keys after (i + 1) := by
  cases e with
  | ref => exact absurd (.inl rfl) h
  | key k => exact if_neg fun hk => h (.inr ⟨k, rfl, hk⟩)

theorem firstMeasured_append (h : ∀ x ∈ before, ¬x.Measured keys) (l : List PlanEntry) (i : Nat) :
    firstMeasured keys (before ++ l) i = firstMeasured keys l (i + before.length) := by
  induction before generalizing i with
  | nil => rfl
  | cons x before ih =>
    obtain ⟨hx, hbefore⟩ := List.forall_mem_cons.1 h
    rw [List.cons_append, firstMeasured_skipped hx, ih hbefore, List.length_cons, Nat.add_assoc, Nat.add_comm 1]

theorem firstMeasured_none (h : ∀ x ∈ before, ¬x.Measured keys) (i : Nat) : firstMeasured keys before i = none := by
  have := firstMeasured_append h [] i
  rwa [List.append_nil] at this

end

section
variable {s : State} {position : Nat}

theorem State.nextClaim_measured {before after : List PlanEntry} {e : PlanEntry}
    (hplan : s.seq.plan.entries.drop position = before ++ e :: after) (he : e.Measured s.table.keys)
    (hbefore : ∀ x ∈ before, ¬x.Measured s.table.keys) :
    s.nextClaim position = some { index := position + before.length, subject := e } := by
  rw [State.nextClaim, hplan, firstMeasured_append hbefore, firstMeasured_measured he]

theorem State.nextClaim_none (h : ∀ x ∈ s.seq.plan.entries.drop position, ¬x.Measured s.table.keys) :
    s.nextClaim position = none := firstMeasured_none h _

end

/-! ### START_SCAN (R50) -/

section
variable (tag : Byte) (p : List Byte) (s : State)

theorem exec_startScan : exec (.startScan tag p) s = onPart (receiveRequest { tag := tag, code := 0x22, payload := p }) s := rfl

theorem executeRequest_startScan :
    executeRequest { tag := tag, code := 0x22, payload := p } s = runStartScan { tag := tag, code := 0x22, payload := p } s := rfl

theorem exec_stopScan : exec (.stopScan tag p) s = onPart (receiveRequest { tag := tag, code := 0x23, payload := p }) s := rfl

theorem executeRequest_stopScan :
    executeRequest { tag := tag, code := 0x23, payload := p } s = runStopScan { tag := tag, code := 0x23, payload := p } s := rfl

theorem exec_measure : exec (.measure tag p) s = onPart (receiveRequest { tag := tag, code := 0x28, payload := p }) s := rfl

theorem executeRequest_measure :
    executeRequest { tag := tag, code := 0x28, payload := p } s = runMeasure { tag := tag, code := 0x28, payload := p } s := rfl

end

/-- A cycle starts with the sequencer's timer, mark and start at the current uptime (R40). -/
def Sequencer.started (q : Sequencer) (now : Time) : Sequencer := { q with cycleStart := now, elapsed := false, timerOn := true }

section
variable {s : State}

theorem cycleStart_of_claim {c : PlanClaim} (h : s.nextClaim 0 = some c) :
    cycleStart s = claimEntry c { s with seq := { s.seq.started s.uptime with position := 0, runState := .scanning } } := by
  have hnext : State.nextClaim { s with seq := { s.seq.started s.uptime with position := 0, runState := .scanning } } 0 = some c := h
  unfold cycleStart
  simp only [Sequencer.started] at hnext ⊢
  rw [hnext]

theorem cycleStart_of_none (h : s.nextClaim 0 = none) :
    cycleStart s = enterCycleWait { s with seq := { s.seq.started s.uptime with position := 0, runState := .scanning } } := by
  have hnext : State.nextClaim { s with seq := { s.seq.started s.uptime with position := 0, runState := .scanning } } 0 = none := h
  unfold cycleStart
  simp only [Sequencer.started] at hnext ⊢
  rw [hnext]

theorem cycleStart_claims {before after : List PlanEntry} {e : PlanEntry} (hplan : s.seq.plan.entries = before ++ e :: after)
    (he : e.Measured s.table.keys) (hbefore : ∀ x ∈ before, ¬x.Measured s.table.keys) :
    cycleStart s = { s with
      seq := { s.seq.started s.uptime with position := before.length, runState := .scanning }
      claims := { s.claims with plan := some { index := before.length, subject := e } } } := by
  have hnext := State.nextClaim_measured (position := 0) hplan he hbefore
  rw [Nat.zero_add] at hnext
  exact cycleStart_of_claim hnext

theorem cycleStart_waits (h : ∀ x ∈ s.seq.plan.entries, ¬x.Measured s.table.keys) :
    cycleStart s = { s with
      seq := { s.seq.started s.uptime with position := s.seq.plan.entries.length, runState := .cycleWait } } :=
  cycleStart_of_none (State.nextClaim_none h)

/-- The run of START_SCAN in STOPPED. -/
theorem runStartScan_stopped (hstate : s.seq.runState = .stopped) (tag : Byte) :
    executeRequest { tag := tag, code := 0x22, payload := [] } s =
      if s.seq.plan.entries.isEmpty then respond { tag := tag, code := 0x22, payload := [] } .noPlan [] s
      else respond { tag := tag, code := 0x22, payload := [] } .ok [] (startScanning s) :=
  (executeRequest_startScan ..).trans (checked_accept rfl (decide_eq_true hstate) rfl)

end

/-- Settles O24: the refusal without a plan, the claim of the first entry to be measured, and the cycle done at once without one. -/
theorem startScanTakesEffect : Obligations.StartScanTakesEffect := by
  intro tag s h hstate measured track seq
  let r : Request := { tag := tag, code := 0x22, payload := [] }
  have hrun : executeRequest r (s.inExecution r) = if s.seq.plan.entries.isEmpty then respond r .noPlan [] (s.inExecution r)
      else respond r .ok [] (startScanning (s.inExecution r)) := runStartScan_stopped (s := s.inExecution r) hstate tag
  refine ⟨fun hempty => ?_, fun before e after hplan he hbefore => ?_, fun hplan hnone => ?_⟩
  · rw [if_pos (List.isEmpty_iff.2 hempty)] at hrun
    exact onPart_request_reply h hrun
  · rw [if_neg (by simp [hplan]), startScanning, cycleStart_claims (s := startEffect (s.inExecution r)) hplan he hbefore] at hrun
    exact onPart_request_granting (u := { s with
      track := track
      seq := { seq with position := before.length, runState := .scanning }
      claims := { s.claims with plan := some { index := before.length, subject := e } } }) h hrun rfl rfl
  · rw [if_neg (by simpa using hplan), startScanning, cycleStart_waits (s := startEffect (s.inExecution r)) hnone] at hrun
    exact onPart_request_effect (u := { s with
      track := track, seq := { seq with position := s.seq.plan.entries.length, runState := .cycleWait } }) h hrun rfl rfl rfl rfl

/-! ### MEASURE (R18) -/

/-- What an IDLE engine has nothing to grant to: no claim waits (R14). -/
theorem State.nextGrant_eq_none_iff {s : State} :
    s.nextGrant = .none ↔ s.claims.plan = none ∧ s.claims.host = none ∧ s.claims.wake = false := by
  unfold State.nextGrant
  cases s.claims.plan <;> cases s.claims.host <;> cases s.claims.wake <;> simp <;> split <;> simp

theorem State.unclaimed_of_idle {s : State} (hg : s.canGrant = false) (hidle : s.engine.phase = .idle) :
    s.claims.plan = none ∧ s.claims.host = none ∧ s.claims.wake = false := by
  simpa [State.canGrant, hidle, State.nextGrant_eq_none_iff] using hg

theorem State.canGrant_of_busy {s : State} (h : s.engine.phase ≠ .idle) : s.canGrant = false := by simp [State.canGrant, h]

theorem State.canGrant_of {s : State} {kind : OwnerKind} (hidle : s.engine.phase = .idle) (hnext : s.nextGrant = kind)
    (hkind : kind ≠ .none) : s.canGrant = true := by simp [State.canGrant, hidle, hnext, hkind]

/-- The payload of a MEASURE (Table 1-6). -/
def measurePayload (ref : Bool) (set : PadSet) (m : MeasureParams) : List Byte :=
  byte1 (if ref then 1 else 0) ++ le24 set.toNat ++ m.bytes

section
variable {ref : Bool} {set : PadSet} {m : MeasureParams}

theorem measurePayload_eq : measurePayload ref set m =
    BitVec.ofNat 8 (if ref then 1 else 0) :: BitVec.ofNat 8 set.toNat :: BitVec.ofNat 8 (set.toNat / 256) ::
      BitVec.ofNat 8 (set.toNat / 65536) :: (m.bytes ++ []) := rfl

theorem readTarget_measurePayload : readTarget (measurePayload ref set m) = if ref then .ref else .pads set := by
  rw [measurePayload_eq, readTarget, byteAt_cons_zero, readPads_cons_succ, readPads_cons_cons_cons]
  cases ref <;> rfl

theorem readMeas_measurePayload (hm : m.inRange = true) : readMeas (measurePayload ref set m) 4 = m := by
  rw [measurePayload_eq, readMeas_cons_succ, readMeas_cons_succ, readMeas_cons_succ, readMeas_cons_succ, readMeas_bytes hm]

theorem measureChecks_measurePayload (hm : m.inRange = true) (htarget : ref = true ∨ set ≠ 0) :
    firstBad (measureChecks (measurePayload ref set m)) = none := by
  have hkind : byteAt (measurePayload ref set m) 0 = if ref then 1 else 0 := by cases ref <;> rfl
  have hpads : readPads (measurePayload ref set m) 1 = set := by
    rw [measurePayload_eq, readPads_cons_succ, readPads_cons_cons_cons]
  have hclock : byteAt (measurePayload ref set m) 4 = m.clock.code := byteAt_meas_zero m []
  have hset : ref = true ∨ le24At (measurePayload ref set m) 1 ≠ 0 :=
    htarget.imp_right fun hne h0 => hne (hpads ▸ (readPads_eq_zero_iff ..).2 h0)
  simp only [measureChecks, firstBad_append_iff, firstBad_cons_iff, firstBad_nil, measChecks_iff, hclock, Clock.ofCode_code,
    readMeas_measurePayload hm, hm, hkind, inRange_iff, Bool.or_eq_true, bne_iff_ne, ne_eq]
  cases ref <;> simp_all

end

/-- Settles O26: the claim granted at an IDLE engine, and the claim that waits. -/
theorem measureTakesEffect : Obligations.MeasureTakesEffect := by
  intro tag set ref m s h hm htarget p r target
  obtain ⟨-, -, -, -, -, -, hgrant, -⟩ := (State.ready_iff s).1 h
  have hclaim : measureClaim r = { request := r, target := target, meas := m } := by
    have htarget' : readTarget r.payload = target := readTarget_measurePayload
    have hmeas : readMeas r.payload 4 = m := readMeas_measurePayload hm
    rw [measureClaim, htarget', hmeas]
  let claimed : HostClaim → State := fun c => { s with claims := { s.claims with host := some c } }
  have hrun : executeRequest r (s.inExecution r) =
      (claimed { request := r, target := target, meas := m }).inExecution r :=
    (executeRequest_measure tag p _).trans ((checked_accept rfl rfl (measureChecks_measurePayload hm htarget)).trans
      (congrArg (fun c => (claimed c).inExecution r) hclaim))
  refine ⟨fun hidle => ?_, fun hbusy => ?_⟩
  · obtain ⟨hplan, -, -⟩ := State.unclaimed_of_idle hgrant hidle
    have hnext : ((claimed { request := r, target := target, meas := m }).inExecution r).nextGrant = .host := by
      simp [State.nextGrant, State.inExecution, claimed, hplan]
    refine onPart_request_claiming h hrun (State.canGrant_of hidle hnext OwnerKind.noConfusion) ?_ rfl rfl (State.canGrant_of_busy (by simp))
    rw [grant, hnext]
    rfl
  · exact onPart_request_waiting h hrun rfl rfl (State.canGrant_of_busy hbusy)

/-! ### STOP_SCAN (R51, R52) -/

section
variable (r : Request) (s : State)

theorem quiesce_inExecution (cause : UpCause) (k : KeyId) : quiesce cause (s.inExecution r) k = (quiesce cause s k).inExecution r := by
  have hrt : (s.inExecution r).rt k = s.rt k := rfl
  rw [quiesce, quiesce, hrt, endIfTouching_inExecution]
  split <;> rfl

theorem promotePlan_inExecution : promotePlan (s.inExecution r) = (promotePlan s).inExecution r := by
  have hpending : (s.inExecution r).seq.pendingPlan = s.seq.pendingPlan := rfl
  rw [promotePlan, promotePlan, hpending]
  split
  · rfl
  · rw [refPlanChange_eq, refPlanChange_eq]
    rfl

theorem clearEntryRequest_inExecution : clearEntryRequest (s.inExecution r) = (clearEntryRequest s).inExecution r := by
  have hrequest : (s.inExecution r).doze.request = s.doze.request := rfl
  rw [clearEntryRequest, clearEntryRequest, hrequest]
  split <;> rfl

theorem quiesceAll_inExecution (cause : UpCause) :
    evaluateAll (allKeys.foldl (quiesce cause) (s.inExecution r)) = (evaluateAll (allKeys.foldl (quiesce cause) s)).inExecution r := by
  rw [evaluateAll, evaluateAll,
    List.foldl_hom (State.inExecution r) (g₁ := quiesce cause) (g₂ := quiesce cause) (H := fun s k => quiesce_inExecution r s cause k),
    List.foldl_hom (State.inExecution r) (g₁ := evaluateTouchOnly) (g₂ := evaluateTouchOnly) (H := evaluateTouchOnly_inExecution r)]

theorem stopEffect_inExecution : stopEffect (s.inExecution r) = (stopEffect s).inExecution r := by
  rw [stopEffect, stopEffect, quiesceAll_inExecution, promotePlan_inExecution, clearEntryRequest_inExecution]
  generalize clearEntryRequest _ = v
  rfl

theorem stopEffect_claims : (stopEffect s).claims = s.claims := by
  have hplans : s.Plans (promotePlan (evaluateAll (allKeys.foldl (quiesce .stopped) s))) :=
    ((quiesceAll_tracks ..).trans (evaluateAll_tracks _)).plans.trans promotePlan_plans
  unfold stopEffect
  generalize promotePlan _ = u at hplans ⊢
  have hkept : u.claims = s.claims := by rw [hplans]
  exact clearEntryRequest_claims.trans hkept

end

/-- An abort that finds its measurement, by the phase it finds (R6 to R8, R11). -/
theorem Engine.aborted_eq {e : Engine} (h : e.phase ≠ .idle) :
    e.aborted = if e.phase = .discharge then { e with abort := true }
      else { e with phase := .discharge, abort := true, count := 0, cut := decide (e.phase = .transfer) } := by
  unfold Engine.aborted
  cases hp : e.phase with
  | idle => exact absurd hp h
  | discharge | charge | transfer => rfl

section
variable {s : State} (tag : Byte)

theorem runStopScan_accepted (u : State) :
    executeRequest { tag := tag, code := stopScanCode, payload := [] } u =
      acceptStopScan { tag := tag, code := stopScanCode, payload := [] } u :=
  (executeRequest_stopScan ..).trans (checked_accept rfl rfl rfl)

theorem completeStop_inExecution (u : State) :
    completeStop (u.inExecution { tag := tag, code := stopScanCode, payload := [] }) =
      respond { tag := tag, code := stopScanCode, payload := [] } .ok []
        ((stopEffect u).inExecution { tag := tag, code := stopScanCode, payload := [] }) := by
  rw [completeStop_answers rfl rfl, stopEffect_inExecution]

theorem acceptStopScan_stopped {u : State} (hstate : u.seq.runState = .stopped) (r : Request) :
    acceptStopScan r u = respond r .ok [] u := by rw [acceptStopScan, hstate]

theorem acceptStopScan_cycleWait {u : State} (hstate : u.seq.runState = .cycleWait) (r : Request) :
    acceptStopScan r u = completeStop u := by rw [acceptStopScan, hstate]

theorem acceptStopScan_scanning {u : State} (hstate : u.seq.runState = .scanning) (r : Request) :
    acceptStopScan r u = stopScanning u := by rw [acceptStopScan, hstate]

/-- A stop that completes in the event of its request, with no claim left to grant. -/
theorem stopScan_completes (h : s.ready = true) {u : State} (hh : u.handler = s.handler) (htx : u.tx = s.tx) (hg : u.canGrant = false)
    (hrun : acceptStopScan { tag := tag, code := stopScanCode, payload := [] }
        (s.inExecution { tag := tag, code := stopScanCode, payload := [] }) =
      completeStop (u.inExecution { tag := tag, code := stopScanCode, payload := [] })) :
    exec (.stopScan tag []) s = .next ((stopEffect u).answered (responseTo tag 0x23 .ok [])) := by
  have heffect := stopEffect_sequences u
  have hungranted : (stopEffect u).canGrant = false := (State.canGrant_congr heffect.engine (stopEffect_claims u)).trans hg
  refine (onPart_request_granting (u := stopEffect u) h ((runStopScan_accepted tag _).trans (hrun.trans (completeStop_inExecution tag u)))
    (heffect.handler.trans hh) (heffect.tx.trans htx)).trans ?_
  rw [grantIfFree, if_neg (by simp [hungranted])]
  rfl

end

/-- Settles O25: the stop by the run state, and what a completed stop does, step by step. -/
theorem stopScanTakesEffect : Obligations.StopScanTakesEffect := by
  intro tag s h stopped
  obtain ⟨-, -, -, -, -, -, hgrant, -⟩ := (State.ready_iff s).1 h
  have hstopped (u : State) : stopped u = stopEffect u := rfl
  clear_value stopped
  simp only [hstopped]
  refine ⟨fun hstate => ?_, fun hstate => ?_, fun hstate hclaim => ?_, fun hstate hclaim hbusy howner => ?_, by decide, by decide,
    fun u => ⟨rfl, fun hnone => ?_, fun pl hpl => ?_, fun hnone => ?_, fun hsome => ?_, fun x hx hcode => ?_⟩⟩
  · exact onPart_request_reply h ((runStopScan_accepted tag _).trans (acceptStopScan_stopped (u := s.inExecution _) hstate _))
  · exact stopScan_completes tag h rfl rfl hgrant (acceptStopScan_cycleWait (u := s.inExecution _) hstate _)
  · have hbusy : s.engine.phase ≠ .idle := fun hidle => by simp [(State.unclaimed_of_idle hgrant hidle).1] at hclaim
    refine stopScan_completes (u := { s with claims := { s.claims with plan := none } }) tag h rfl rfl (State.canGrant_of_busy hbusy)
      ((acceptStopScan_scanning (u := s.inExecution _) hstate _).trans (if_neg fun hnone => ?_))
    have hunclaimed : s.claims.plan = none := Option.isNone_iff_eq_none.1 hnone.1
    simp [hunclaimed] at hclaim
  · let r : Request := { tag := tag, code := stopScanCode, payload := [] }
    have hflight : (s.inExecution r).claims.plan.isNone ∧ (s.inExecution r).engine.ownerKind = .plan :=
      ⟨Option.isNone_iff_eq_none.2 hclaim, howner⟩
    have hrun : acceptStopScan r (s.inExecution r) = State.inExecution r { s with
        seq := { s.seq with timerOn := false, runState := .stopping }
        engine := s.engine.aborted } := by
      rw [acceptStopScan_scanning (u := s.inExecution r) hstate, stopScanning, if_pos hflight]
      exact if_pos ⟨hbusy, howner⟩
    rw [Engine.aborted_eq hbusy] at hrun
    refine onPart_request_waiting h ((runStopScan_accepted tag _).trans hrun) rfl rfl (State.canGrant_of_busy ?_)
    rw [← Engine.aborted_eq hbusy]
    exact Engine.aborted_busy hbusy
  · rw [promotePlan, hnone]
  · rw [promotePlan, hpl]
    exact refPlanChange_eq ..
  · exact if_neg (by simp [hnone])
  · exact if_pos hsome
  · rw [completeStop_answers hx hcode, respond, respondThen, hcode]
    rfl

end Sys2Proof.Machine
end

