-- ==== Sys2Proof/Proofs/SetGroup.lean ====
section
/-! SUPPORT. SET_GROUP (spec/05_exclusive_sets_and_sliders.md, section 5.2): its members read back, its checks, and its effect. -/

namespace Sys2Proof.Machine

/-! ### The payload read back (Table 5-2) -/

/-- The payload of a SET_GROUP (Table 5-2). -/
def groupPayload (g : GroupId) (kind : GroupKind) (param : Nat) (ks : List KeyId) : List Byte :=
  byte1 g.val ++ byte1 kind.code ++ le16 param ++ byte1 ks.length ++ ks.map fun k => BitVec.ofNat 8 k.val

/-- The kinds, parameters and members that SET_GROUP takes (R88). -/
def GroupAllowed (kind : GroupKind) (param : Nat) (ks : List KeyId) : Prop :=
  (kind = .none ∧ param = 0 ∧ ks = []) ∨ (kind = .exclusive ∧ param ≤ 2047 ∧ 2 ≤ ks.length ∧ ks.length ≤ 16) ∨
    (kind = .slider ∧ 1 ≤ param ∧ param ≤ 64 ∧ 2 ≤ ks.length ∧ ks.length ≤ 8)

theorem GroupAllowed.small {kind : GroupKind} {param : Nat} {ks : List KeyId} (h : GroupAllowed kind param ks) :
    param < 65536 ∧ ks.length < 256 := by
  rcases h with ⟨-, rfl, rfl⟩ | ⟨-, hparam, -, hlen⟩ | ⟨-, -, hparam, -, hlen⟩
  · decide
  · omega
  · omega

theorem GroupAllowed.checked {kind : GroupKind} {param : Nat} {ks : List KeyId} (h : GroupAllowed kind param ks) :
    groupParamOk kind param = true ∧ groupCountOk kind ks.length = true := by
  rcases h with ⟨rfl, rfl, rfl⟩ | ⟨rfl, hparam, hlo, hhi⟩ | ⟨rfl, hone, hparam, hlo, hhi⟩
  · decide
  · simp [groupParamOk, groupCountOk, inRange_iff, hparam, hlo, hhi]
  · simp [groupParamOk, groupCountOk, inRange_iff, hone, hparam, hlo, hhi]

theorem GroupKind.ofCode_byte (kind : GroupKind) : GroupKind.ofCode (BitVec.ofNat 8 kind.code).toNat = some kind := by
  cases kind <;> rfl

section
variable {g : GroupId} {kind : GroupKind} {param : Nat} {ks : List KeyId}

theorem groupPayload_eq : groupPayload g kind param ks =
    BitVec.ofNat 8 g.val :: BitVec.ofNat 8 kind.code :: BitVec.ofNat 8 param :: BitVec.ofNat 8 (param / 256) ::
      BitVec.ofNat 8 ks.length :: ks.map fun k => BitVec.ofNat 8 k.val := rfl

theorem groupPayload_length : (groupPayload g kind param ks).length = 5 + ks.length := by
  simp only [groupPayload_eq, List.length_cons, List.length_map]
  omega

theorem byteAt_groupPayload_id : byteAt (groupPayload g kind param ks) 0 = g.val := toNat_byte (by omega)

theorem ofCode_groupPayload : GroupKind.ofCode (byteAt (groupPayload g kind param ks) 1) = some kind := GroupKind.ofCode_byte kind

theorem le16At_groupPayload (h : param < 65536) : le16At (groupPayload g kind param ks) 2 = param := by
  rw [groupPayload_eq, le16At_cons_succ, le16At_cons_succ, le16At_cons_cons h]

theorem byteAt_groupPayload_count (h : ks.length < 256) : byteAt (groupPayload g kind param ks) 4 = ks.length := toNat_byte h

theorem byteAt_groupPayload_member {i : Nat} (h : i < ks.length) : byteAt (groupPayload g kind param ks) (5 + i) = (ks[i]).val := by
  rw [groupPayload_eq, Nat.add_comm, byteAt_cons_succ, byteAt_cons_succ, byteAt_cons_succ, byteAt_cons_succ, byteAt_cons_succ]
  simp [byteAt, h]
  omega

theorem memberBytes_groupPayload (h : ks.length < 256) : memberBytes (groupPayload g kind param ks) = ks.map Fin.val := by
  rw [memberBytes, byteAt_groupPayload_count h]
  refine List.ext_getElem (by simp) fun i hi _ => ?_
  have hi' : i < ks.length := by simpa using hi
  simp [byteAt_groupPayload_member hi']

theorem groupOfPayload_groupPayload : groupOfPayload (groupPayload g kind param ks) = g :=
  groupOfPayload_byte1_append g _

theorem readGroup_groupPayload (h : GroupAllowed kind param ks) :
    readGroup (groupPayload g kind param ks) =
      { kind := kind, param := param, members := if kind = .exclusive then allKeys.filter (fun k => ks.contains k) else ks } := by
  obtain ⟨hparam, hlen⟩ := h.small
  have hmem (k : KeyId) : (ks.map Fin.val).contains k.val = ks.contains k := by
    simp [Fin.val_inj]
  have hread : (ks.map Fin.val).map (Fin.ofNat 32) = ks := by simp [List.map_map, Function.comp_def]
  rw [readGroup, ofCode_groupPayload, le16At_groupPayload hparam, memberBytes_groupPayload hlen]
  cases kind with
  | none => simp [hread]
  | exclusive => simp only [Option.getD_some, hmem, if_true]
  | slider => simp [hread]

/-! ### Its checks (R88) -/

theorem memberChecks_groupPayload {groups : Vector Group 8} (hlen : ks.length < 256) (hnodup : ks.Nodup)
    (hother : ∀ k ∈ ks, ∀ j : GroupId, j ≠ g → k ∉ groups[j].config.members) :
    firstBad (memberChecks groups (groupPayload g kind param ks)) = none := by
  rw [firstBad_eq_none_iff, memberChecks, byteAt_groupPayload_count hlen, memberBytes_groupPayload hlen, byteAt_groupPayload_id]
  intro c hc
  obtain ⟨i, hi, rfl⟩ := List.mem_map.1 hc
  rw [List.mem_range] at hi
  have hnew : (ks[i]).val ∉ (ks.map Fin.val).take i := by
    rw [← List.map_take, List.mem_map]
    rintro ⟨k, hk, hsame⟩
    obtain ⟨j, hj, rfl⟩ := List.mem_take_iff_getElem.1 hk
    have := hnodup.getElem_inj_iff.1 (Fin.val_inj.1 hsame)
    omega
  have hfree : inOtherGroup groups g.val (ks[i]).val = false := by
    simp only [inOtherGroup, List.any_eq_false, Bool.and_eq_true, decide_eq_true_eq, List.contains_iff_mem, List.mem_map, not_and]
    rintro j - hj ⟨k, hk, hsame⟩
    obtain rfl := Fin.val_inj.1 hsame
    exact hother _ (List.getElem_mem hi) j (fun h => hj (congrArg Fin.val h)) hk
  simp [byteAt_groupPayload_member hi, hnew, hfree]

theorem setGroupChecks_groupPayload {groups : Vector Group 8} (h : GroupAllowed kind param ks) (hnodup : ks.Nodup)
    (hother : ∀ k ∈ ks, ∀ j : GroupId, j ≠ g → k ∉ groups[j].config.members) :
    firstBad (setGroupChecks groups (groupPayload g kind param ks)) = none := by
  obtain ⟨hparam, hlen⟩ := h.small
  obtain ⟨hp, hc⟩ := h.checked
  rw [setGroupChecks, byteAt_groupPayload_id, ofCode_groupPayload, le16At_groupPayload hparam, byteAt_groupPayload_count hlen,
    firstBad_append_iff]
  refine ⟨?_, memberChecks_groupPayload hlen hnodup hother⟩
  simp [inRange_iff, hp, hc]
  omega

end

/-! ### Its effect (R89) -/

section
variable (tag : Byte) (p : List Byte) (s : State)

theorem exec_setGroup : exec (.setGroup tag p) s = onPart (receiveRequest { tag := tag, code := 0x18, payload := p }) s := rfl

theorem executeRequest_setGroup :
    executeRequest { tag := tag, code := 0x18, payload := p } s = runSetGroup { tag := tag, code := 0x18, payload := p } s := rfl

end

/-- Settles O22: the group read back from its bytes, its checks passed, and its record stored with a fresh runtime part. -/
theorem setGroupTakesEffect : Obligations.SetGroupTakesEffect := by
  intro tag g kind param ks s h hstate hnodup hother hallowed members config
  have hallowed : GroupAllowed kind param ks := hallowed
  have hlength : (decide (5 ≤ (groupPayload g kind param ks).length) &&
      (groupPayload g kind param ks).length == 5 + byteAt (groupPayload g kind param ks) 4) = true := by
    simp [groupPayload_length, byteAt_groupPayload_count hallowed.small.2]
  have hrun := (executeRequest_setGroup tag (groupPayload g kind param ks)
    (s.inExecution { tag := tag, code := 0x18, payload := groupPayload g kind param ks })).trans
    (checked_accept hlength (decide_eq_true hstate) (setGroupChecks_groupPayload hallowed hnodup hother))
  rw [groupOfPayload_groupPayload, readGroup_groupPayload hallowed] at hrun
  exact onPart_request_effect (u := s.setGroup g (.fresh config)) h hrun rfl rfl rfl rfl

end Sys2Proof.Machine
end

