-- ==== Sys2Proof/Proofs/Records.lean ====
section
/-! SUPPORT. The bytes of a payload that passes its checks are those of the record read from it: the other direction of the round
trip of SET_KEY, SET_REF, SET_DOZE, SET_LINK and SET_OUTPUTS. -/

namespace Sys2Proof.Machine

/-! ### The code of what a code names -/

theorem Clock.code_of_ofCode (n : Nat) (c : Clock) (h : Clock.ofCode n = some c) : c.code = n := by
  unfold Clock.ofCode at h
  split at h <;> cases h <;> rfl

theorem Baud.code_of_ofCode (n : Nat) (b : Baud) (h : Baud.ofCode n = some b) : b.code = n := by
  unfold Baud.ofCode at h
  split at h <;> cases h <;> rfl

theorem Polarity.code_of_ofCode (n : Nat) (x : Polarity) (h : Polarity.ofCode n = some x) : x.code = n := by
  unfold Polarity.ofCode at h
  split at h <;> cases h <;> rfl

theorem AttnMode.code_of_ofCode (n : Nat) (m : AttnMode) (h : AttnMode.ofCode n = some m) : m.code = n := by
  unfold AttnMode.ofCode at h
  split at h <;> cases h <;> rfl

theorem LineEntry.code_of_ofCode (n : Nat) (e : LineEntry) (h : LineEntry.ofCode n = some e) : e.code = n := by
  unfold LineEntry.ofCode at h
  split at h
  · cases h
    rfl
  · split at h
    case isTrue hgroup =>
      cases h
      simp only [LineEntry.code, Fin.val_ofNat]
      omega
    case isFalse =>
      split at h
      case isTrue hnone =>
        cases h
        exact hnone.symm
      case isFalse => cases h

/-- A code that names something is the code of what it names, whatever stands for the codes that name nothing. -/
theorem code_getD_ofCode {α : Type} {code : α → Nat} {ofCode : Nat → Option α} (hcode : ∀ n x, ofCode n = some x → code x = n)
    {n : Nat} (h : (ofCode n).isSome = true) (d : α) : code ((ofCode n).getD d) = n := by
  obtain ⟨x, hx⟩ := Option.isSome_iff_exists.1 h
  rw [hx, Option.getD_some, hcode n x hx]

/-! ### The bytes of a field read from a payload -/

section
variable (p : List Byte) (i : Nat)

theorem byte1_byteAt : byte1 (byteAt p i) = [p.getD i 0] := by simp only [byte1, byteAt, BitVec.ofNat_toNat, BitVec.setWidth_eq]

theorem le16_le16At : le16 (le16At p i) = [p.getD i 0, p.getD (i + 1) 0] := by
  have hlow : BitVec.ofNat 8 (le16At p i) = p.getD i 0 := BitVec.eq_of_toNat_eq (by
    simp only [BitVec.toNat_ofNat, le16At, byteAt]
    omega)
  have hhigh : BitVec.ofNat 8 (le16At p i / 256) = p.getD (i + 1) 0 := BitVec.eq_of_toNat_eq (by
    simp only [BitVec.toNat_ofNat, le16At, byteAt]
    omega)
  rw [le16, hlow, hhigh]

theorem le24_readPads : le24 (readPads p i).toNat = [p.getD i 0, p.getD (i + 1) 0, p.getD (i + 2) 0] := by
  have hvalue : (readPads p i).toNat = le24At p i := by
    rw [readPads, BitVec.toNat_ofNat, Nat.mod_eq_of_lt (le24At_lt p i)]
  have hlow : le16 (le24At p i) = le16 (le16At p i) := by
    have hfirst : BitVec.ofNat 8 (le24At p i) = BitVec.ofNat 8 (le16At p i) := BitVec.eq_of_toNat_eq (by
      simp only [BitVec.toNat_ofNat, le24At]
      omega)
    have hsecond : BitVec.ofNat 8 (le24At p i / 256) = BitVec.ofNat 8 (le16At p i / 256) := BitVec.eq_of_toNat_eq (by
      simp only [BitVec.toNat_ofNat, le24At]
      omega)
    rw [le16, le16, hfirst, hsecond]
  have hhigh : le24At p i / 65536 = byteAt p (i + 2) := by
    have := byteAt_lt p i
    have := byteAt_lt p (i + 1)
    simp only [le24At, le16At]
    omega
  rw [hvalue, le24, hlow, hhigh, le16_le16At, byte1_byteAt]
  rfl

variable {p i}

theorem boolByte_byteAt (h : byteAt p i ≤ 1) : boolByte (byteAt p i == 1) = [p.getD i 0] := by
  have hbyte : (if byteAt p i == 1 then 1 else 0) = byteAt p i := by
    split
    case isTrue hone => exact (beq_iff_eq.1 hone).symm
    case isFalse hone =>
      rw [beq_iff_eq] at hone
      omega
  rw [boolByte, hbyte, byte1_byteAt]

theorem bytes_readMeas (h : (Clock.ofCode (byteAt p i)).isSome = true) :
    (readMeas p i).bytes = [p.getD i 0, p.getD (i + 1) 0, p.getD (i + 2) 0, p.getD (i + 3) 0, p.getD (i + 4) 0, p.getD (i + 5) 0,
      p.getD (i + 6) 0] := by
  simp only [readMeas, MeasureParams.bytes, code_getD_ofCode Clock.code_of_ofCode h, byte1_byteAt, le16_le16At, List.cons_append,
    List.nil_append]

/-- A payload is the list of its bytes. -/
theorem eq_map_getD (p : List Byte) : p = (List.range p.length).map fun i => p.getD i 0 :=
  List.ext_getElem (by simp) fun i hi _ => by simp [hi]

end

/-! ### The records (Tables 2-1, 2-3, 7-5, 9-2, 10-1) -/

section
variable {p : List Byte}

theorem bytes_readKeyRecord (hlen : p.length = 29) (h : firstBad (setKeyChecks p) = none) :
    p = byte1 (keyOf p).val ++ (readKeyRecord p 1).bytes := by
  obtain ⟨hkey, henabled, hclock, hcomp, hreports, -⟩ := (setKeyChecks_iff p).1 h
  have hid : (keyOf p).val = byteAt p 0 := Nat.mod_eq_of_lt (by omega)
  refine (eq_map_getD p).trans ?_
  simp only [hlen, hid, readKeyRecord, KeyRecord.bytes, boolByte_byteAt henabled, boolByte_byteAt hcomp, boolByte_byteAt hreports,
    bytes_readMeas hclock, le24_readPads, byte1_byteAt, le16_le16At]
  rfl

theorem bytes_readRefRecord (hlen : p.length = 8) (h : firstBad (setRefChecks p) = none) : p = (readRefRecord p).bytes := by
  obtain ⟨hclock, -⟩ := (setRefChecks_iff p).1 h
  refine (eq_map_getD p).trans ?_
  simp only [hlen, readRefRecord, RefRecord.bytes, bytes_readMeas hclock, byte1_byteAt]
  rfl

theorem bytes_readDoze (hlen : p.length = 17) (h : firstBad (setDozeChecks p) = none) : p = (readDoze p).bytes := by
  obtain ⟨hclock, -⟩ := (setDozeChecks_iff p).1 h
  refine (eq_map_getD p).trans ?_
  simp only [hlen, readDoze, DozeSettings.bytes, bytes_readMeas hclock, byte1_byteAt, le16_le16At, le24_readPads]
  rfl

theorem setLinkChecks_iff : firstBad (setLinkChecks p) = none ↔ (Baud.ofCode (byteAt p 0)).isSome = true ∧ (readLink p).inRange = true := by
  rw [LinkSettings.inRange_iff]
  simp [setLinkChecks, readLink, inRange_iff]

theorem bytes_readLink (hlen : p.length = 5) (h : firstBad (setLinkChecks p) = none) : p = (readLink p).bytes := by
  obtain ⟨hbaud, -⟩ := setLinkChecks_iff.1 h
  refine (eq_map_getD p).trans ?_
  simp only [hlen, readLink, LinkSettings.bytes, code_getD_ofCode Baud.code_of_ofCode hbaud, byte1_byteAt, le16_le16At]
  rfl

theorem setOutputsChecks_iff : firstBad (setOutputsChecks p) = none ↔
    (∀ i < 8, (LineEntry.ofCode (byteAt p i)).isSome = true) ∧ (Polarity.ofCode (byteAt p 8)).isSome = true ∧
      (AttnMode.ofCode (byteAt p 9)).isSome = true := by
  rw [setOutputsChecks, firstBad_append_iff, firstBad_eq_none_iff]
  simp

theorem bytes_readOutputs (hlen : p.length = 10) (h : firstBad (setOutputsChecks p) = none) : p = (readOutputs p).bytes := by
  obtain ⟨hentry, hpolarity, hmode⟩ := setOutputsChecks_iff.1 h
  have hcode (i : Nat) (hi : i < 8) : ((LineEntry.ofCode (byteAt p i)).getD .none).code = byteAt p i :=
    code_getD_ofCode LineEntry.code_of_ofCode (hentry i hi) _
  have hbank0 (n : Fin 4) : (readOutputs p).bank0[n].code = byteAt p n.val := by
    simp [readOutputs, vecOf, hcode n.val (by omega)]
  have hbank1 (n : Fin 4) : (readOutputs p).bank1[n].code = byteAt p (4 + n.val) := by
    simp [readOutputs, vecOf, hcode (4 + n.val) (by omega)]
  have hpol : (readOutputs p).polarity.code = byteAt p 8 := code_getD_ofCode Polarity.code_of_ofCode hpolarity _
  have hattn : (readOutputs p).attnMode.code = byteAt p 9 := code_getD_ofCode AttnMode.code_of_ofCode hmode _
  refine (eq_map_getD p).trans ?_
  simp only [hlen, OutputSettings.bytes, hbank0, hbank1, hpol, hattn, byte1_byteAt]
  rfl

end

/-- Settles O60: each record read back from its bytes, and each payload that passes its checks the bytes of the record read. -/
theorem recordsRoundTrip : Obligations.RecordsRoundTrip :=
  ⟨fun k _ h => ⟨readKeyRecord_byte1_append h k.val, setKeyChecks_bytes k h⟩,
    fun p hlen h => ⟨keyOf p, readKeyRecord p 1, ((setKeyChecks_iff p).1 h).2.2.2.2.2, bytes_readKeyRecord hlen h⟩,
    fun _ h => ⟨readRefRecord_bytes h, setRefChecks_bytes h⟩,
    fun p hlen h => ⟨readRefRecord p, ((setRefChecks_iff p).1 h).2, bytes_readRefRecord hlen h⟩,
    fun _ h => ⟨readDoze_bytes h, setDozeChecks_bytes h⟩,
    fun p hlen h => ⟨readDoze p, ((setDozeChecks_iff p).1 h).2, bytes_readDoze hlen h⟩,
    fun _ h => ⟨readLink_bytes h, setLinkChecks_bytes h⟩,
    fun p hlen h => ⟨readLink p, (setLinkChecks_iff.1 h).2, bytes_readLink hlen h⟩,
    fun o => ⟨readOutputs_bytes o, setOutputsChecks_bytes o⟩,
    fun p hlen h => ⟨readOutputs p, bytes_readOutputs hlen h⟩⟩

end Sys2Proof.Machine
end

