-- ==== Sys2Proof/Proofs/EngineEvents.lean ====
section
/-! SUPPORT. The engine (spec/01_sense_pads_and_the_measurement_engine.md): what the arbiter grants (R14 to R16), the ends of its phases and the
abort (R6 to R11), and where a result goes (R19, R41 to R43). -/

namespace Sys2Proof.Machine

/-! ### Grants (R14, R15) -/

section
variable {s : State}

theorem State.nextGrant_plan (hplan : s.claims.plan.isSome = true) (h : s.claims.host = none ∨ s.engine.lastOwner ≠ .plan) :
    s.nextGrant = .plan := by
  have hnot : ¬(s.claims.host.isSome && decide (s.engine.lastOwner = .plan)) = true := by
    rcases h with h | h <;> simp [h]
  rw [State.nextGrant, if_pos hplan, if_neg hnot]

theorem State.nextGrant_host (hhost : s.claims.host.isSome = true) (h : s.claims.plan = none ∨ s.engine.lastOwner = .plan) :
    s.nextGrant = .host := by
  rcases h with h | h <;> simp [State.nextGrant, h, hhost]

theorem State.nextGrant_wake (hplan : s.claims.plan = none) (hhost : s.claims.host = none) (hwake : s.claims.wake = true) :
    s.nextGrant = .wake := by
  simp [State.nextGrant, hplan, hhost, hwake]

theorem grant_of_plan (hnext : s.nextGrant = .plan) {c : PlanClaim} (hc : s.claims.plan = some c) :
    grant s = grantPlan c { s with claims := { s.claims with plan := none } } := by
  simp only [grant, hnext, hc]

theorem grant_of_host (hnext : s.nextGrant = .host) {c : HostClaim} (hc : s.claims.host = some c) :
    grant s = beginMeasurement (.host c.request) c.target c.meas { s with claims := { s.claims with host := none } } := by
  simp only [grant, hnext, hc]

theorem grant_of_wake (hnext : s.nextGrant = .wake) :
    grant s = beginMeasurement .wake (.pads s.doze.settings.padSet) s.doze.settings.meas { s with claims := { s.claims with wake := false } } := by
  simp only [grant, hnext]

end

/-- Settles O41: each claim that may be granted, and the measurement it begins. -/
theorem arbiterGrants : Obligations.ArbiterGrants := by
  intro s job granted
  refine ⟨State.canGrant_of_busy, fun hplan hhost hwake => ?_, fun hidle => ⟨fun i k hplan hrank => ?_, fun i hplan hrank => ?_,
    fun c hhost hrank => ?_, fun hplan hhost hwake => ?_⟩⟩
  · simp [State.canGrant, State.nextGrant_eq_none_iff.2 ⟨hplan, hhost, hwake⟩]
  · have hnext := State.nextGrant_plan (by simp [hplan]) hrank
    exact ⟨State.canGrant_of hidle hnext nofun, grant_of_plan hnext hplan⟩
  · have hnext := State.nextGrant_plan (by simp [hplan]) hrank
    exact ⟨State.canGrant_of hidle hnext nofun, grant_of_plan hnext hplan⟩
  · have hnext := State.nextGrant_host (by simp [hhost]) hrank
    exact ⟨State.canGrant_of hidle hnext nofun, grant_of_host hnext hhost⟩
  · have hnext := State.nextGrant_wake hplan hhost hwake
    exact ⟨State.canGrant_of hidle hnext nofun, grant_of_wake hnext⟩

/-! ### The phases (R6 to R11) -/

section
variable (s : State)

theorem exec_dischargeEnd : exec .dischargeEnd s = onQueue endDischarge s := rfl

theorem exec_chargeEnd : exec .chargeEnd s = onPart endCharge s := rfl

theorem exec_transferEnd (trip : Option Nat) : exec (.transferEnd trip) s = onQueue (endTransfer trip) s := rfl

end

section
variable {s : State}

theorem onQueue_of_running (h : s.phase = .running) (f : State → State) :
    onQueue f s = .next (finish (reportFirst s.canReport (f s))) := by simp [onQueue, h]

theorem endMeasurement_of_job {j : Job} (hj : s.engine.job = some j) (o : MeasureOutcome) (c : Nat) :
    endMeasurement o c s = deliver j.owner o c { s with engine := s.engine.freed } := by rw [endMeasurement, hj]

theorem endDischarge_of_not (h : s.engine.phase ≠ .discharge) : endDischarge s = s := if_neg h

theorem endDischarge_charge (h : s.engine.phase = .discharge) (ha : s.engine.abort = false) :
    endDischarge s = { s with engine := { s.engine with phase := .charge } } := by
  rw [endDischarge, if_pos h, if_neg (by simp [ha])]

theorem endDischarge_aborted (h : s.engine.phase = .discharge) (ha : s.engine.abort = true) :
    endDischarge s = endMeasurement .aborted 0 s := by
  rw [endDischarge, if_pos h, if_pos ha]

/-- A busy engine in another phase has nothing due either. -/
theorem State.rested_engine (h : s.rested = true) (e : Engine) (he : e.phase ≠ .idle) : State.rested { s with engine := e } = true := by
  obtain ⟨-, htake, hreply, hidle⟩ := (State.rested_iff s).1 h
  exact (State.rested_iff _).2 ⟨State.canGrant_of_busy he, htake, hreply, hidle⟩

theorem State.runs_engine (h : s.runs = true) (e : Engine) (he : e.phase ≠ .idle) : State.runs { s with engine := e } = true := by
  obtain ⟨hp, -, htake, hreply, hstart, hidle⟩ := (State.runs_iff s).1 h
  exact (State.runs_iff _).2 ⟨hp, State.canGrant_of_busy he, htake, hreply, hstart, hidle⟩

theorem requestAbort_of_not {kind : OwnerKind} (h : s.engine.phase = .idle ∨ s.engine.ownerKind ≠ kind) : requestAbort kind s = s :=
  if_neg fun hfound => h.elim hfound.1 fun hk => hk hfound.2

theorem requestAbort_found {kind : OwnerKind} (hkind : s.engine.ownerKind = kind) (h : s.engine.phase ≠ .idle) :
    requestAbort kind s = { s with engine := s.engine.aborted } := if_pos ⟨h, hkind⟩

end

/-- Settles O39: the ends of DISCHARGE and CHARGE, and the abort by the phase it finds. -/
theorem enginePhasesEnd : Obligations.EnginePhasesEnd := by
  intro s
  refine ⟨fun hp h => ⟨fun hphase ha => ?_, fun j hphase ha hj => ?_, fun hphase => ?_⟩,
    fun h => ⟨fun hphase => ?_, fun hphase => ?_⟩, fun kind => ⟨requestAbort_of_not, fun hkind hphase => ?_, fun hkind hphase => ?_,
      fun hkind hphase => ?_⟩⟩
  · have hend := endDischarge_charge hphase ha
    rw [exec_dischargeEnd, onQueue_of_rested hp _ (by rw [hend]; exact State.rested_engine h _ nofun), hend]
  · rw [exec_dischargeEnd, onQueue_of_running hp, endDischarge_aborted hphase ha, endMeasurement_of_job hj]
    rfl
  · have hend := endDischarge_of_not hphase
    rw [exec_dischargeEnd, onQueue_of_rested hp _ (by rwa [hend]), hend]
  · have hend : endCharge s = { s with engine := { s.engine with phase := .transfer, count := 0 } } := if_pos hphase
    rw [exec_chargeEnd, onPart_of_runs h _ (by rw [hend]; exact State.runs_engine h _ nofun), hend]
  · have hend : endCharge s = s := if_neg hphase
    rw [exec_chargeEnd, onPart_of_runs h _ (by rwa [hend]), hend]
  all_goals
    have hbusy : s.engine.phase ≠ .idle := by simp [hphase]
    simp only [requestAbort_found hkind hbusy, Engine.aborted, hphase]

/-! ### The end of TRANSFER (R8, R9) -/

section
variable {s : State} {j : Job}

theorem transferOutcome_tripped {m : MeasureParams} {c : Nat} (h : c < m.limit) :
    transferOutcome m (some c) = (if m.floor ≤ c then .valid else .short, c) := if_pos h

theorem transferOutcome_late {m : MeasureParams} {c : Nat} (h : m.limit ≤ c) : transferOutcome m (some c) = (.limit, m.limit) :=
  if_neg (by omega)

theorem exec_transferEnd_taken (hp : s.phase = .running) (hj : s.engine.job = some j)
    (h : s.engine.phase = .transfer ∨ s.engine.cut = true) {trip : Option Nat} {o : MeasureOutcome} {c : Nat}
    (ho : transferOutcome j.meas trip = (o, c)) :
    exec (.transferEnd trip) s = .next (finish (reportFirst s.canReport (deliver j.owner o c
      { s with engine := { s.engine with phase := .idle, job := none, abort := false, cut := false, count := c } }))) := by
  rw [exec_transferEnd, onQueue_of_running hp, endTransfer_of hj h, ho, 
    endMeasurement_of_job (s := { s with engine := { s.engine with count := c } }) hj]
  rfl

theorem exec_transferEnd_nothing (hp : s.phase = .running) (hr : s.rested = true) (h : s.engine.phase ≠ .transfer)
    (hcut : s.engine.cut = false) (trip : Option Nat) : exec (.transferEnd trip) s = .next s := by
  have hend := endTransfer_of_not (s := s) (by simp [h, hcut]) trip
  rw [exec_transferEnd, onQueue_of_rested hp _ (by rwa [hend]), hend]

end

/-! ### The next entry (R41 to R43) -/

section
variable {s : State} {position : Nat}

theorem reachEntry_claims {c : PlanClaim} (h : s.nextClaim position = some c) : reachEntry position s = claimEntry c s := by
  rw [reachEntry, h]

theorem reachEntry_last (h : s.nextClaim position = none) : reachEntry position s = lastEntryDone s := by rw [reachEntry, h]

theorem lastEntryDone_waits (h : s.seq.elapsed = false) : lastEntryDone s = enterCycleWait s := if_neg (by simp [h])

theorem lastEntryDone_overruns (h : s.seq.elapsed = true) :
    lastEntryDone s = cycleBoundary { s with seq :=
      { s.seq with position := s.seq.plan.entries.length, overruns := satSucc Config.countMax s.seq.overruns } } := if_pos h

end

/-- Settles O40: the outcome of TRANSFER, the owner's share, and the next entry. -/
theorem transferEnds : Obligations.TransferEnds := by
  refine ⟨fun s j hp _ h hj => ⟨fun c hc hfloor => ?_, fun c hc hfloor => ?_, fun c hc => ?_, ?_⟩,
    fun s trip hp hr h hcut => exec_transferEnd_nothing hp hr h hcut trip,
    fun u o c => ⟨fun i subject v hstate => ?_, fun i subject v hstate => ?_, fun r x hx hcode => ?_, rfl, ?_⟩⟩
  · exact exec_transferEnd_taken hp hj h ((transferOutcome_tripped hc).trans (by rw [if_pos hfloor]))
  · exact exec_transferEnd_taken hp hj h ((transferOutcome_tripped hc).trans (by rw [if_neg (by omega)]))
  · exact exec_transferEnd_taken hp hj h (transferOutcome_late hc)
  · exact exec_transferEnd_taken hp hj h rfl
  · rw [deliver, planResult, hstate]
  · rw [deliver, planResult, hstate]
  · rw [deliver, hostResult, answerLong_of_executing hx (code := measureCode) hcode, respond, respondThen, hcode]
    rfl
  · intro measured last position
    refine ⟨fun before e after hplan he hbefore => ?_, fun hnone => ⟨fun helapsed => ?_, fun helapsed => ?_⟩⟩
    · exact reachEntry_claims (State.nextClaim_measured hplan he hbefore)
    · exact (reachEntry_last (State.nextClaim_none hnone)).trans (lastEntryDone_waits helapsed)
    · exact (reachEntry_last (State.nextClaim_none hnone)).trans (lastEntryDone_overruns helapsed)

end Sys2Proof.Machine
end

