-- ==== Sys2Proof/Proofs/Timers.lean ====
section
/-! SUPPORT. The period timer and the cycle boundary (spec/03_scan_plan_and_sequencer.md, sections 3.3, 3.4 and 3.7), and the ack timer
(spec/07_the_host_link.md, section 7.7). -/

namespace Sys2Proof.Machine

section
variable (s : State)

theorem exec_periodTimerExpiry : exec .periodTimerExpiry s = onQueue periodExpires s := rfl

theorem exec_ackTimerExpiry : exec .ackTimerExpiry s = onQueue ackExpires s := rfl

end

section
variable {s : State}

/-- An event that may offer a report and changes nothing, given to a part that runs with nothing due. -/
theorem onQueue_nothing (hp : s.phase = .running) (h : s.rested = true) {f : State → State} (hf : f s = s) :
    onQueue f s = .next s := by
  rw [onQueue_of_rested hp f (by rwa [hf]), hf]

/-! ### The period timer (R44) -/

theorem periodExpires_stopped (h : s.seq.timerOn = false) : periodExpires s = s := if_neg (by simp [h])

theorem periodExpires_early (h : (s.uptime - s.seq.cycleStart).toNat < s.seq.plan.period) : periodExpires s = s := by
  have hexpired : ¬s.expired s.seq.cycleStart s.seq.plan.period = true := by
    rw [State.expired_iff]
    omega
  exact if_neg (by simp [hexpired])

theorem periodExpires_taken (htimer : s.seq.timerOn = true) (h : s.seq.plan.period ≤ (s.uptime - s.seq.cycleStart).toNat) :
    periodExpires s = takePeriod s := by
  have hexpired := (s.expired_iff s.seq.cycleStart s.seq.plan.period).2 h
  exact if_pos (by simp [htimer, hexpired])

theorem takePeriod_scanning (h : s.seq.runState = .scanning) : takePeriod s = { s with seq := { s.seq with elapsed := true } } := by
  rw [takePeriod, h]

theorem takePeriod_cycleWait (h : s.seq.runState = .cycleWait) : takePeriod s = cycleBoundary s := by rw [takePeriod, h]

/-! ### The cycle boundary (R45, R46, R163) -/

theorem planSwap_none (h : s.seq.pendingPlan = none) : planSwap s = s := by rw [planSwap, h]

theorem planSwap_some {pl : Plan} (h : s.seq.pendingPlan = some pl) :
    planSwap s = refPlanChange pl.entries (evaluateAll ((leavingKeys s.seq.plan.entries pl.entries).foldl (quiesce .unplanned)
      { s with seq := { s.seq with plan := pl, pendingPlan := none } })) := by rw [planSwap, h]

theorem planSwap_pendingPlan {pl : Plan} (h : s.seq.pendingPlan = some pl) : (planSwap s).seq.pendingPlan = none := by
  rw [planSwap_some h]
  have htracks := (quiesceAll_tracks { s with seq := { s.seq with plan := pl, pendingPlan := none } } .unplanned
    (leavingKeys s.seq.plan.entries pl.entries)).trans ((evaluateAll_tracks _).trans (refPlanChange_tracks pl.entries _))
  obtain ⟨-, -, -, -, -, -, -, hseq, -⟩ := htracks.fields
  rw [hseq]

theorem cycleBoundary_plain (hplan : s.seq.pendingPlan = none) (h : s.doze.request = none) : cycleBoundary s = cycleStart s := by
  rw [cycleBoundary, planSwap_none hplan, boundaryDecision, if_neg (by simp [h])]

theorem cycleBoundary_dozes (hplan : s.seq.pendingPlan = none) (h : s.doze.request.isSome = true) (hc : s.entryConditions = true) :
    cycleBoundary s = enterDoze .running s := by
  rw [cycleBoundary, planSwap_none hplan, boundaryDecision, if_pos h, if_pos hc]

theorem cycleBoundary_refuses (hplan : s.seq.pendingPlan = none) (h : s.doze.request.isSome = true) (hc : s.entryConditions = false) :
    cycleBoundary s = cycleStart (refuseDoze s) := by
  rw [cycleBoundary, planSwap_none hplan, boundaryDecision, if_pos h, if_neg (by simp [hc])]

/-- A boundary with a pending plan is the boundary after the swap. -/
theorem cycleBoundary_swaps {pl : Plan} (h : s.seq.pendingPlan = some pl) : cycleBoundary s = cycleBoundary (planSwap s) := by
  rw [cycleBoundary, cycleBoundary, planSwap_none (planSwap_pendingPlan h)]

theorem leavingKeys_eq (old new : List PlanEntry) :
    leavingKeys old new = allKeys.filter fun k => decide (PlanEntry.key k ∈ old) && decide (PlanEntry.key k ∉ new) := by
  simp only [leavingKeys, List.contains_eq_mem, decide_not]

/-- A cycle start reaches the entry at position 0 (R40, R41). -/
theorem cycleStart_reaches : cycleStart s = reachEntry 0 { s with seq :=
    { s.seq with cycleStart := s.uptime, elapsed := false, timerOn := true, position := 0, runState := .scanning } } := by
  let started : State := { s with seq := { s.seq.started s.uptime with position := 0, runState := .scanning } }
  cases hnext : s.nextClaim 0 with
  | some c => exact (cycleStart_of_claim hnext).trans (reachEntry_claims (s := started) hnext).symm
  | none =>
    have hreached := (reachEntry_last (s := started) hnext).trans (lastEntryDone_waits (s := started) rfl)
    exact (cycleStart_of_none hnext).trans hreached.symm

end

/-- Settles O42: the mark and the boundary, and what the boundary does, by the pending plan and the entry request. -/
theorem periodTimerExpiryTaken : Obligations.PeriodTimerExpiryTaken := by
  intro s answered
  have hanswered (c : ResultCode) (u : State) (hu : u.handler = s.handler) : answerLong enterDozeCode c [] u = answered c u := by
    cases hx : s.handler.executing with
    | none =>
      have hsame : answered c u = u := by simp only [answered, hx]
      rw [answerLong_of_none (hu ▸ hx), hsame]
    | some r =>
      have hsome : answered c u = if r.code = 0x51 then respond r c [] u else u := by
        simp only [answered, hx]
        split
        case isTrue hcode => rw [respond, respondThen, hcode]
                             rfl
        case isFalse => rfl
      rw [answerLong, hu, hx, hsome]
      rfl
  refine ⟨fun hp h htimer => ?_, fun hp h hearly => ?_, fun hp h htimer hlate => ⟨fun hstate => ?_, fun hstate => ?_⟩,
    fun hplan hrequest => cycleBoundary_plain hplan hrequest, fun hplan hrequest hc => ?_, fun hplan hrequest hc => ?_,
    fun pl hpl => ?_, cycleStart_reaches⟩
  · exact onQueue_nothing hp h (periodExpires_stopped htimer)
  · exact onQueue_nothing hp h (periodExpires_early hearly)
  · have htaken := (periodExpires_taken htimer hlate).trans (takePeriod_scanning hstate)
    rw [exec_periodTimerExpiry, onQueue_of_rested hp _ (by rw [htaken]; exact h), htaken]
  · rw [exec_periodTimerExpiry, onQueue_of_running hp, periodExpires_taken htimer hlate, takePeriod_cycleWait hstate]
  · rw [cycleBoundary_dozes hplan hrequest hc, enterDoze_eq]
    exact hanswered .ok (dozeEffect .running s) rfl
  · rw [cycleBoundary_refuses hplan hrequest hc, refuseDoze, clearEntryRequest, if_pos hrequest]
    exact congrArg cycleStart (hanswered .state _ rfl)
  · intro leaving swapped
    have hswapped : planSwap s = refPlanChange pl.entries swapped := by rw [planSwap_some hpl, leavingKeys_eq]
    clear_value swapped
    rw [cycleBoundary_swaps hpl, hswapped, refPlanChange_eq]
    split <;> rfl

/-! ### The ack timer (R125, R129) -/

section
variable {s : State}

theorem ackExpires_stopped (h : s.delivery.ackTimer = none) : ackExpires s = s := by rw [ackExpires, h]

theorem ackExpires_early {t : AckTimer} (h : s.delivery.ackTimer = some t) (hearly : (s.uptime - t.start).toNat < t.span) :
    ackExpires s = s := by
  have hexpired : ¬s.expired t.start t.span = true := by
    rw [State.expired_iff]
    omega
  simp only [ackExpires, h, if_neg hexpired]

theorem ackExpires_taken {t : AckTimer} (h : s.delivery.ackTimer = some t) (hlate : t.span ≤ (s.uptime - t.start).toNat) :
    ackExpires s = expireAck s := by
  simp only [ackExpires, h, if_pos ((s.expired_iff t.start t.span).2 hlate)]

/-- The state after a rewind by the ack timer. -/
def State.rewound (s : State) : State :=
  { s with
    queue := s.queue.rewind
    delivery := { s.delivery with ackTimer := none, retries := s.delivery.retries + 1 } }

theorem expireAck_below (h : s.delivery.retries + 1 < s.linkCfg.settings.retryLimit) : expireAck s = s.rewound := by
  rw [expireAck, if_pos h]
  simp [State.withQueue, State.rewound, ReportQueue.rewind]

theorem expireAck_stalls (h : s.linkCfg.settings.retryLimit ≤ s.delivery.retries + 1) :
    expireAck s = { s with delivery := { s.delivery with ackTimer := none, retries := s.delivery.retries + 1, link := .stalled } } := by
  rw [expireAck, if_neg (by omega)]

theorem ReportQueue.ackInRange_rewind (q : ReportQueue) (n : Word) : q.rewind.ackInRange n = false := by
  simp [ReportQueue.ackInRange, ReportQueue.rewind]

theorem State.rewound_rested (h : s.rested = true) : s.rewound.rested = true := by
  have hentries : s.rewound.queue.entries.isEmpty = s.queue.entries.isEmpty := List.isEmpty_map
  have hconditions : s.rewound.entryConditions = s.entryConditions := by
    rw [State.entryConditions, hentries]
    rfl
  have hidle : s.rewound.idleRuns = s.idleRuns := by
    rw [State.idleRuns, hconditions]
    rfl
  obtain ⟨hgrant, htake, hreply, hsettled⟩ := (State.rested_iff s).1 h
  refine (State.rested_iff _).2 ⟨hgrant, htake, hreply, ?_⟩
  rw [State.idleSettled, hidle, hconditions]
  exact hsettled

theorem takeAck_outOfRange {n : Word} (h : s.queue.ackInRange n = false) : takeAck n s = s.count Counters.addAckRange :=
  if_neg (by simp [h])

/-! ### A frame boundary with no frame on the line -/

theorem exec_frameBoundary (s : State) : exec .frameBoundary s = onLink endFrame s := rfl

theorem endFrame_of_none (h : s.tx.sending = none) : endFrame s = s := by rw [endFrame, h]

theorem onLink_of_running (h : s.phase = .running) (f : State → State) : onLink f s = .next (startIfFree (finish (f s))) := by
  simp [onLink, h]

theorem frameBoundary_nothing (hp : s.phase = .running) (h : s.rested = true) (hsend : s.tx.sending = none) :
    exec .frameBoundary s = .next (startIfFree s) := by
  rw [exec_frameBoundary, onLink_of_running hp, endFrame_of_none hsend, finish_of_rested h]

end

/-- Settles O38: the rewind below the retry limit, with what may come next, and the stall at it. -/
theorem ackTimerExpiryTaken : Obligations.AckTimerExpiryTaken := by
  intro s hp h
  refine ⟨fun hstopped => onQueue_nothing hp h (ackExpires_stopped hstopped),
    fun t ht hearly => onQueue_nothing hp h (ackExpires_early ht hearly),
    fun t ht hlate => ⟨fun hbelow => ⟨?_, fun n => ReportQueue.ackInRange_rewind s.queue n, fun hrx hreset n w => ?_, fun trip => ?_,
      fun hsend => ?_⟩, fun hlimit => ?_⟩⟩
  · have htaken := (ackExpires_taken ht hlate).trans (expireAck_below hbelow)
    rw [exec_ackTimerExpiry, onQueue_of_rested hp _ (by rw [htaken]; exact State.rewound_rested h), htaken]
    rfl
  · refine (exec_flowFrame_taken (s := s.rewound) 1 n w hp (State.rewound_rested h) hrx hreset (by decide)).trans ?_
    rw [takeFlow_ack, takeAck_outOfRange (ReportQueue.ackInRange_rewind s.queue n)]
    rfl
  · exact onQueue_of_running (s := s.rewound) hp (endTransfer trip)
  · exact frameBoundary_nothing (s := s.rewound) hp (State.rewound_rested h) hsend
  · have htaken := (ackExpires_taken ht hlate).trans (expireAck_stalls hlimit)
    rw [exec_ackTimerExpiry, onQueue_of_rested hp _ (by rw [htaken]; exact h), htaken]

end Sys2Proof.Machine
end

