-- ==== Sys2Proof/Proofs/DozeEvents.lean ====
section
/-! SUPPORT. The doze (spec/10_doze_and_wake.md): the idle timer, ENTERING and the interval timer, and the wake. -/

namespace Sys2Proof.Machine

section
variable (s : State)

theorem exec_idleTimerExpiry : exec .idleTimerExpiry s = onPart idleExpires s := rfl

theorem exec_enteringEnd : exec .enteringEnd s = onPart endEntering s := rfl

theorem exec_intervalTimerExpiry : exec .intervalTimerExpiry s = onPart intervalExpires s := rfl

theorem exec_hwakeFall : exec .hwakeFall s =
    if s.pins.hwakeHigh then onPins { s.pins with hwakeHigh := false } wakeLineFalls s else onPart id s := rfl

theorem exec_hwakeRise : exec .hwakeRise s =
    if s.pins.hwakeHigh then onPart id s else onPins { s.pins with hwakeHigh := true } id s := rfl

theorem exec_wakeComplete : exec .wakeComplete s = onQueue completeWake s := rfl

end

/-! ### The end of an event that leaves no request and no reply due -/

section
variable {s : State}

theorem onPart_taken {t : State} (h : s.runs = true) {f : State → State} (hf : f s = t) (ht : t.runs = true) :
    onPart f s = .next t := by
  rw [onPart_of_runs h f (by rwa [hf]), hf]

theorem onPart_nothing (h : s.runs = true) {f : State → State} (hf : f s = s) : onPart f s = .next s := onPart_taken h hf h

theorem grantIfFree_frame (s : State) : grantIfFree s = { s with engine := (grantIfFree s).engine, claims := (grantIfFree s).claims } := by
  rw [grantIfFree]
  split
  · exact grant_frame s
  · rfl

theorem finish_granting (htake : s.canTake = false) (hreply : s.canReply = false) : finish s = (grantIfFree s).settleIdle := by
  have hframe := grantIfFree_frame s
  have htake' : (grantIfFree s).canTake = false := by rw [hframe]; exact htake
  have hreply' : (grantIfFree s).canReply = false := by rw [hframe]; exact hreply
  have hfirst : settleOnce s = grantIfFree s := by simp [settleOnce, grantIfFree, htake, hreply]
  rw [finish, settleSteps, settleMany, hfirst, settleMany_of_settled (grantIfFree_canGrant s) htake' hreply']

/-- An event that claims the engine while it is IDLE, and leaves nothing else due. -/
theorem finish_granted {t : State} (htake : s.canTake = false) (hreply : s.canReply = false) (hg : s.canGrant = true)
    (ht : grant s = t) (hidle : s.doze.idle = 0) : finish s = t := by
  rw [finish_granting htake hreply, grantIfFree, if_pos hg, State.settleIdle_of_idle (by rw [grant_frame]; exact hidle), ht]

theorem State.idle_of_state (h : s.idleSettled = true) (hawake : s.doze.state ≠ .awake) (hrequested : s.doze.state ≠ .requested) :
    s.doze.idle = 0 := by
  rcases s.idleSettled_iff.1 h with hidle | ⟨-, hruns | hraised⟩
  · exact hidle
  · simp [State.idleRuns, hawake] at hruns
  · exact absurd hraised.1 hrequested

/-! ### The idle timer (R162, R163) -/

theorem State.idleRuns_iff :
    s.idleRuns = true ↔ s.doze.state = .awake ∧ s.doze.settings.idleTime ≠ 0 ∧ s.entryConditions = true := by
  simp [State.idleRuns, and_assoc]

theorem idleExpires_nothing (h : s.idleRuns = false ∨ ¬s.doze.settings.idleTime * 1000 ≤ s.doze.idle) : idleExpires s = s := by
  refine if_neg fun hover => ?_
  obtain ⟨hruns, hreached⟩ := State.idleOver_iff.1 hover
  exact h.elim (fun hstopped => nomatch hruns.symm.trans hstopped) fun hearly => hearly hreached

theorem idleExpires_raises (hruns : s.idleRuns = true) (h : s.doze.settings.idleTime * 1000 ≤ s.doze.idle) :
    idleExpires s = raiseRequest .auto s := if_pos (State.idleOver_iff.2 ⟨hruns, h⟩)

end

/-- Settles O43: nothing before the idle time, doze entered from STOPPED, and the entry request raised. -/
theorem idleTimerExpiryTaken : Obligations.IdleTimerExpiryTaken := by
  intro s h reached
  obtain ⟨hp, hgrant, htake, hreply, hstart, -⟩ := s.runs_iff.1 h
  refine ⟨fun hstopped => onPart_nothing h (idleExpires_nothing (.inl hstopped)),
    fun hearly => onPart_nothing h (idleExpires_nothing (.inr hearly)), fun hruns hreached hnone hstate => ?_,
    fun hruns hreached hstate => ?_, State.idleRuns_iff⟩
  · obtain ⟨-, -, hc⟩ := State.idleRuns_iff.1 hruns
    have htaken : idleExpires s = dozeEffect .stopped s := by
      rw [idleExpires_raises hruns hreached, raiseRequest_stopped hstate hc, enterDoze_eq]
      exact answerLong_of_none (s := dozeEffect .stopped s) hnone ..
    have hrested : (dozeEffect .stopped s).runs = true :=
      (State.runs_iff _).2 ⟨hp, hgrant, htake, hreply, hstart, (State.idleSettled_iff _).2 (.inl rfl)⟩
    exact onPart_taken h htaken hrested
  · obtain ⟨-, -, hc⟩ := State.idleRuns_iff.1 hruns
    have htaken : idleExpires s = { s with doze := { s.doze with request := some .auto, state := .requested } } := by
      rw [idleExpires_raises hruns hreached]
      exact raiseRequest_running (by rcases hstate with hs | hs <;> simp [hs]) _
    have hrested : State.runs { s with doze := { s.doze with request := some .auto, state := .requested } } = true :=
      (State.runs_iff _).2 ⟨hp, hgrant, htake, hreply, hstart, (State.idleSettled_iff _).2 (.inr ⟨hp, .inr ⟨rfl, hc⟩⟩)⟩
    exact onPart_taken h htaken hrested

/-! ### ENTERING and the interval timer (R164, R165) -/

/-- The engine that the grant of a wake claim leaves in DOZING, timed from the slow oscillator (R12). -/
def State.wakeMeasuring (s : State) : Engine :=
  { phase := .discharge
    job := some { owner := .wake, target := .pads s.doze.settings.padSet, meas := s.doze.settings.meas, slowTimed := true }
    abort := false, cut := false, lastOwner := .wake, count := s.engine.count }

/-- A claim for the wake set and no other, at an IDLE engine in DOZING. -/
structure State.WakeClaimed (s : State) : Prop where
  idle : s.engine.phase = .idle
  plan : s.claims.plan = none
  host : s.claims.host = none
  wake : s.claims.wake = true
  dozing : s.doze.state = .dozing

section
variable {s : State}

theorem State.WakeClaimed.nextGrant (h : s.WakeClaimed) : s.nextGrant = .wake := State.nextGrant_wake h.plan h.host h.wake

theorem State.WakeClaimed.canGrant (h : s.WakeClaimed) : s.canGrant = true := State.canGrant_of h.idle h.nextGrant nofun

theorem State.WakeClaimed.grant (h : s.WakeClaimed) :
    Machine.grant s = { s with engine := s.wakeMeasuring, claims := { s.claims with wake := false } } := by
  have hslow : s.fastOscillator = .stopped := by rw [State.fastOscillator, h.dozing]
  have hsame : State.fastOscillator { s with claims := { s.claims with wake := false } } = .stopped := hslow
  rw [grant_of_wake h.nextGrant, beginMeasurement, hsame]
  rfl

theorem Claims.wake_false {c : Claims} (h : c.wake = false) : { c with wake := false } = c := by
  cases c
  simp_all

theorem endEntering_nothing (h : s.doze.state ≠ .entering ∨ s.tx.sending.isSome = true ∨ s.tx.respSlot.isSome = true) :
    endEntering s = s := by
  refine if_neg fun hover => ?_
  simp only [State.enteringOver, Bool.and_eq_true, decide_eq_true_eq, Option.isNone_iff_eq_none] at hover
  obtain ⟨⟨hstate, hsend⟩, hslot⟩ := hover
  simp [hstate, hsend, hslot] at h

theorem State.enteringOver_of (hstate : s.doze.state = .entering) (hsend : s.tx.sending = none) (hslot : s.tx.respSlot = none) :
    s.enteringOver = true := by simp [State.enteringOver, hstate, hsend, hslot]

theorem endEntering_dozes (hover : s.enteringOver = true) (hline : s.pins.hwakeHigh = true) : endEntering s = beginDozing s := by
  rw [endEntering, if_pos hover, if_pos hline]

theorem endEntering_wakes (hover : s.enteringOver = true) (hline : s.pins.hwakeHigh = false) :
    endEntering s = beginWake .line (grantIfFree (beginDozing s)) := by
  rw [endEntering, if_pos hover, if_neg (by simp [hline])]

/-- The wake claim of the beginning of DOZING, at an IDLE engine. -/
theorem beginDozing_wakeClaimed (hgrant : s.canGrant = false) (hidle : s.engine.phase = .idle) : (beginDozing s).WakeClaimed := by
  obtain ⟨hplan, hhost, -⟩ := State.unclaimed_of_idle hgrant hidle
  exact ⟨hidle, hplan, hhost, rfl, rfl⟩

theorem intervalExpires_nothing (h : s.doze.state ≠ .dozing) : intervalExpires s = s := by
  unfold intervalExpires
  split
  case h_1 hstate _ => exact absurd hstate h
  case h_2 => rfl

theorem intervalExpires_early {t : Time} (ht : s.doze.interval = some t) (h : (s.uptime - t).toNat < s.doze.settings.interval) :
    intervalExpires s = s := by
  have hexpired : ¬s.expired t s.doze.settings.interval = true := by
    rw [State.expired_iff]
    omega
  unfold intervalExpires
  split
  case h_1 t' _ ht' =>
    obtain rfl := Option.some.inj (ht.symm.trans ht')
    exact if_neg hexpired
  case h_2 => rfl

/-- The interval timer restarted for the next interval (R165). -/
def State.intervalRestarted (s : State) (t : Time) : State :=
  { s with doze := { s.doze with interval := some (t + BitVec.ofNat 32 s.doze.settings.interval) } }

theorem intervalExpires_taken {t : Time} (hstate : s.doze.state = .dozing) (ht : s.doze.interval = some t)
    (h : s.doze.settings.interval ≤ (s.uptime - t).toNat) : intervalExpires s = claimWake (s.intervalRestarted t) := by
  simp only [intervalExpires, hstate, ht, if_pos ((s.expired_iff t s.doze.settings.interval).2 h)]
  simp only [State.intervalRestarted, hstate]

end

section
variable {s : State} (h : s.runs = true)
include h

/-- The wake set measured from the beginning of DOZING, at an IDLE engine. -/
theorem beginDozing_granted (hidle : s.engine.phase = .idle) :
    (beginDozing s).canGrant = true ∧ grant (beginDozing s) =
      { s with doze := { s.doze with state := .dozing, interval := some s.uptime }, engine := s.wakeMeasuring } := by
  obtain ⟨-, hgrant, -⟩ := s.runs_iff.1 h
  obtain ⟨-, -, hwake⟩ := State.unclaimed_of_idle hgrant hidle
  have hclaimed := beginDozing_wakeClaimed hgrant hidle
  have hclaims : ({ (beginDozing s).claims with wake := false } : Claims) = s.claims := Claims.wake_false hwake
  refine ⟨hclaimed.canGrant, ?_⟩
  rw [hclaimed.grant, hclaims]
  rfl

theorem State.runs_of_idle {t : State} (hp : t.phase = s.phase) (hgrant : t.canGrant = false) (hh : t.handler = s.handler)
    (htx : t.tx = s.tx) (hd : t.delivery = s.delivery) (hq : t.queue = s.queue) (hidle : t.doze.idle = 0) : t.runs = true := by
  obtain ⟨hphase, -, htake, hreply, hstart, -⟩ := s.runs_iff.1 h
  refine t.runs_iff.2 ⟨hp.trans hphase, hgrant, ?_, ?_, ?_, t.idleSettled_iff.2 (.inl hidle)⟩
  · rwa [State.canTake, hh, htx]
  · rwa [State.canReply, hh, htx]
  · simpa only [State.canStart, State.canReply, State.canReport, State.reportReady, hh, htx, hd, hq] using hstart

end

/-- Settles O44: the end of ENTERING with HWAKE high or low and the engine IDLE or busy, and the interval timer. -/
theorem enteringAndIntervalTaken : Obligations.EnteringAndIntervalTaken := by
  intro s h wakeJob measuring
  obtain ⟨hp, hgrant, htake, hreply, hstart, hsettled⟩ := s.runs_iff.1 h
  have hzero (hstate : s.doze.state = .entering ∨ s.doze.state = .dozing) : s.doze.idle = 0 := by
    refine State.idle_of_state hsettled ?_ ?_ <;> rcases hstate with hs | hs <;> simp [hs]
  refine ⟨fun hnot => onPart_nothing h (endEntering_nothing hnot), fun hstate hsend hslot hidle hline => ?_,
    fun hstate hsend hslot hidle hline => ?_, fun hstate hsend hslot hbusy hline => ?_, fun hstate hsend hslot hbusy hline => ?_,
    fun hnot => onPart_nothing h (intervalExpires_nothing hnot), fun t ht hearly => onPart_nothing h (intervalExpires_early ht hearly),
    fun t hstate ht hlate => ⟨fun hwake => ?_, fun hwake hidle hjob => ?_⟩⟩
  · obtain ⟨hclaimed, hgranted⟩ := beginDozing_granted h hidle
    rw [exec_enteringEnd, onPart_of_settled hp hstart, endEntering_dozes (State.enteringOver_of hstate hsend hslot) hline,
      finish_granted (s := beginDozing s) htake hreply hclaimed hgranted (hzero (.inl hstate))]
    rfl
  · obtain ⟨hclaimed, hgranted⟩ := beginDozing_granted h hidle
    obtain ⟨-, -, hwake⟩ := State.unclaimed_of_idle hgrant hidle
    have hclaims := Claims.wake_false hwake
    have hend : endEntering s = { s with
        doze := { s.doze with state := .waking, interval := none, cause := some .line }
        engine := { measuring with abort := true } } := by
      rw [endEntering_wakes (State.enteringOver_of hstate hsend hslot) hline, grantIfFree, if_pos hclaimed, hgranted, beginWake_eq]
      simp only [hclaims]
      rfl
    exact onPart_taken h hend (State.runs_of_idle h rfl (State.canGrant_of_busy nofun) rfl rfl rfl rfl (hzero (.inl hstate)))
  · have hend := endEntering_dozes (State.enteringOver_of hstate hsend hslot) hline
    exact onPart_taken h hend (State.runs_of_idle h rfl (State.canGrant_of_busy hbusy) rfl rfl rfl rfl (hzero (.inl hstate)))
  · have hend : endEntering s = { s with
        doze := { s.doze with state := .waking, interval := none, cause := some .line }
        claims := { s.claims with wake := false }
        engine := if s.engine.ownerKind = .wake then s.engine.aborted else s.engine } := by
      have hnone : (beginDozing s).canGrant = false := State.canGrant_of_busy hbusy
      rw [endEntering_wakes (State.enteringOver_of hstate hsend hslot) hline, grantIfFree, if_neg (by simp [hnone]), beginWake_eq]
      simp only [beginDozing, ne_eq, hbusy, not_false_eq_true, true_and]
    have hstays : State.canGrant { s with
        doze := { s.doze with state := .waking, interval := none, cause := some .line }
        claims := { s.claims with wake := false }
        engine := if s.engine.ownerKind = .wake then s.engine.aborted else s.engine } = false := by
      refine State.canGrant_of_busy ?_
      dsimp only
      split
      · exact Engine.aborted_busy hbusy
      · exact hbusy
    exact onPart_taken h hend (State.runs_of_idle h rfl hstays rfl rfl rfl rfl (hzero (.inl hstate)))
  · have hend : intervalExpires s = s.intervalRestarted t := by
      rw [intervalExpires_taken hstate ht hlate]
      exact if_pos (Bool.or_eq_true_iff.2 (hwake.imp_right decide_eq_true))
    exact onPart_taken h hend (State.runs_of_idle h rfl hgrant rfl rfl rfl rfl (hzero (.inr hstate)))
  · have hend : intervalExpires s = { s.intervalRestarted t with claims := { s.claims with wake := true } } := by
      rw [intervalExpires_taken hstate ht hlate]
      exact if_neg (by simp [State.intervalRestarted, hwake, Engine.ownerKind, hjob])
    obtain ⟨hplan, hhost, -⟩ := State.unclaimed_of_idle hgrant hidle
    have hclaimed : State.WakeClaimed { s.intervalRestarted t with claims := { s.claims with wake := true } } :=
      ⟨hidle, hplan, hhost, rfl, hstate⟩
    have hclaims := Claims.wake_false hwake
    rw [exec_intervalTimerExpiry, onPart_of_settled hp hstart, hend,
      finish_granted (s := { s.intervalRestarted t with claims := { s.claims with wake := true } }) htake hreply hclaimed.canGrant
        hclaimed.grant (hzero (.inr hstate))]
    simp only [hclaims]
    rfl

/-! ### HWAKE and the end of WAKING (R167) -/

section
variable {s : State}

/-- HWAKE low breaks an entry condition. -/
theorem State.entryConditions_of_low (h : s.pins.hwakeHigh = false) : s.entryConditions = false := by
  simp [State.entryConditions, h]

theorem State.settleIdle_of_low (h : s.pins.hwakeHigh = false) : s.settleIdle = { s with doze := { s.doze with idle := 0 } } := by
  have hnot := State.entryConditions_of_low h
  rw [State.settleIdle, if_neg]
  simp [State.idleRuns, hnot]

theorem State.idle_of_low (h : s.idleSettled = true) (hline : s.pins.hwakeHigh = false) : s.doze.idle = 0 := by
  have hnot := State.entryConditions_of_low hline
  simpa [State.idleSettled, State.idleRuns, hnot] using h

theorem reportFirst_of_noReply (h : s.canReply = false) (waiting : Bool) : reportFirst waiting s = s := by
  simp [reportFirst, h]

theorem cycleStart_frame (s : State) : cycleStart s = { s with seq := (cycleStart s).seq, claims := (cycleStart s).claims } := by
  cases hnext : s.nextClaim 0 with
  | some c =>
    rw [cycleStart_of_claim hnext]
    rfl
  | none =>
    rw [cycleStart_of_none hnext]
    rfl

/-- A cycle start does not look at the doze controller. -/
theorem cycleStart_setDoze (d : Doze) (s : State) : cycleStart { s with doze := d } = { cycleStart s with doze := d } := by
  cases hnext : s.nextClaim 0 with
  | some c =>
    rw [cycleStart_of_claim hnext, cycleStart_of_claim (s := { s with doze := d }) hnext]
    rfl
  | none =>
    rw [cycleStart_of_none hnext, cycleStart_of_none (s := { s with doze := d }) hnext]
    rfl

theorem resumeRunState_stopped (h : s.doze.recorded = .stopped) :
    resumeRunState s = { s with seq := { s.seq with runState := .stopped } } := by rw [resumeRunState, h]

theorem resumeRunState_running (h : s.doze.recorded = .running) : resumeRunState s = startScanning s := by rw [resumeRunState, h]

theorem resumeRunState_setDoze {d : Doze} (hd : d.recorded = s.doze.recorded) :
    resumeRunState { s with doze := d } = { resumeRunState s with doze := d } := by
  cases hr : s.doze.recorded with
  | stopped => rw [resumeRunState_stopped hr, resumeRunState_stopped (s := { s with doze := d }) (hd.trans hr)]
  | running =>
    rw [resumeRunState_running hr, resumeRunState_running (s := { s with doze := d }) (hd.trans hr)]
    exact cycleStart_setDoze d (startEffect s)

theorem resumeRunState_setWake (w : WakeRecord) (s : State) : resumeRunState (s.setWake w) = (resumeRunState s).setWake w := by
  refine (resumeRunState_setDoze (d := { s.doze with wake := w }) rfl).trans ?_
  rw [State.setWake, resumeRunState_doze]

theorem resumeRunState_queue (s : State) : (resumeRunState s).queue = s.queue := by
  cases hr : s.doze.recorded with
  | stopped => rw [resumeRunState_stopped hr]
  | running =>
    rw [resumeRunState_running hr, startScanning, cycleStart_frame]
    rfl

/-- The part at the end of WAKING, before what is then due is done (R167). -/
def State.woken (s : State) (c : WakeCause) : State :=
  { resumeRunState (offer (.wake c) { s with rx := .searching }) with
    doze := { s.doze with state := .awake, cause := none, idle := 0, wake := s.doze.wake.afterWake (some c) } }

theorem completeWake_nothing (h : s.doze.state ≠ .waking) : completeWake s = s := if_neg h

theorem completeWake_woken {c : WakeCause} (h : s.doze.state = .waking) (hc : s.doze.cause = some c) :
    completeWake s = s.woken c := by
  have htold : offerWake { s with rx := .searching } = offer (.wake c) { s with rx := .searching } := by
    rw [offerWake, hc]
  have hcause : (offer (.wake c) { s with rx := .searching }).doze.cause = some c := hc
  simp only [completeWake, if_pos h, htold, hcause]
  rw [resumeRunState_setWake, State.setWake, resumeRunState_doze]
  rfl

theorem State.woken_kept (s : State) (c : WakeCause) :
    (s.woken c).phase = s.phase ∧ (s.woken c).tx = s.tx ∧ (s.woken c).handler = s.handler ∧ (s.woken c).outputs = s.outputs ∧
      (s.woken c).queue = s.queue.offer (.wake c) s.uptime := by
  have hframe := resumeRunState_sequences (s := offer (.wake c) { s with rx := .searching })
  have hqueue := resumeRunState_queue (offer (.wake c) { s with rx := .searching })
  refine ⟨?_, hframe.tx, hframe.handler, ?_, hqueue⟩
  · rw [State.woken, hframe]
    rfl
  · rw [State.woken, hframe]
    rfl

theorem finish_of_settled (hgrant : s.canGrant = false) (htake : s.canTake = false) (hreply : s.canReply = false) :
    finish s = s.settleIdle := by rw [finish, settleMany_of_settled hgrant htake hreply]

theorem onPins_of_settled (hp : s.phase = .running) (hstart : s.canStart = false) (pins : Pins) (f : State → State) :
    onPins pins f s = .next (finish (f { s with pins := pins })) := onPart_of_settled (s := { s with pins := pins }) hp hstart f

/-- A wake leaves no claim due where none was: the one it withdraws, if any, waited at a busy engine. -/
theorem beginWake_canGrant (h : s.canGrant = false) (cause : WakeCause) : (beginWake cause s).canGrant = false := by
  by_cases hidle : s.engine.phase = .idle
  · obtain ⟨hplan, hhost, -⟩ := State.unclaimed_of_idle h hidle
    rw [beginWake_eq]
    simp [State.canGrant, State.nextGrant, hplan, hhost]
  · exact State.canGrant_of_busy (requestAbort_busy hidle)

/-- The report of the end of WAKING is UNSENT in the queue, where there is room for it. -/
theorem ReportQueue.offer_wake_unsent {q : ReportQueue} (h : q.entries.length < 32) (c : WakeCause) (now : Time) :
    ∃ e ∈ (q.offer (.wake c) now).entries, e.sent = false := by
  have hroom : q.offer (.wake c) now = q.append (.wake c) now := if_pos h
  exact ⟨{ seq := q.nextSeq, report := .wake c, time := now, sent := false }, by simp [hroom, ReportQueue.append], rfl⟩

theorem wakeComplete_finishes (hp : s.phase = .running) (h : s.rested = true) {c : WakeCause} (hstate : s.doze.state = .waking)
    (hc : s.doze.cause = some c) :
    exec .wakeComplete s = .next (grantIfFree (s.woken c)) ∧ finish (s.woken c) = grantIfFree (s.woken c) := by
  obtain ⟨-, htake, hreply, -⟩ := s.rested_iff.1 h
  obtain ⟨-, htx, hhandler, -, -⟩ := s.woken_kept c
  have htake' : (s.woken c).canTake = false := by rwa [State.canTake, hhandler, htx]
  have hreply' : (s.woken c).canReply = false := by rwa [State.canReply, hhandler, htx]
  have hfinish : finish (s.woken c) = grantIfFree (s.woken c) := by
    rw [finish_granting htake' hreply', State.settleIdle_of_idle]
    rw [grantIfFree_frame]
    rfl
  refine ⟨?_, hfinish⟩
  rw [exec_wakeComplete, onQueue_of_running hp, completeWake_woken hstate hc, reportFirst_of_noReply hreply', hfinish]

end

/-- Settles O46: the edges of HWAKE, and the end of WAKING with its report left UNSENT. -/
theorem hwakeAndWakeTaken : Obligations.HwakeAndWakeTaken := by
  intro s
  refine ⟨fun h => ⟨fun hline => ?_, fun hline hstate => ?_, fun hline hstate => ?_, fun hline => ?_, fun hline => ?_⟩,
    fun hp h hstate => onQueue_nothing hp h (completeWake_nothing hstate), fun c hp h hstate hc => ?_⟩
  · rw [exec_hwakeFall, if_neg (by simp [hline])]
    exact onPart_nothing h rfl
  · obtain ⟨hp, hgrant, htake, hreply, hstart, -⟩ := s.runs_iff.1 h
    let low : State := { s with pins := { s.pins with hwakeHigh := false } }
    have hwake : wakeLineFalls low = beginWake .line low := if_pos hstate
    have hgrant' : (beginWake .line low).canGrant = false := beginWake_canGrant (s := low) hgrant .line
    have htake' : (beginWake .line low).canTake = false := by rw [beginWake_eq]; exact htake
    have hreply' : (beginWake .line low).canReply = false := by rw [beginWake_eq]; exact hreply
    rw [exec_hwakeFall, if_pos hline, onPins_of_settled hp hstart, hwake, finish_of_settled hgrant' htake' hreply',
      beginWake_eq, State.settleIdle_of_low rfl]
  · obtain ⟨hp, hgrant, htake, hreply, hstart, -⟩ := s.runs_iff.1 h
    let low : State := { s with pins := { s.pins with hwakeHigh := false } }
    have hwake : wakeLineFalls low = low := if_neg hstate
    rw [exec_hwakeFall, if_pos hline, onPins_of_settled hp hstart, hwake, finish_of_settled (s := low) hgrant htake hreply,
      State.settleIdle_of_low rfl]
  · obtain ⟨hp, hgrant, htake, hreply, hstart, hsettled⟩ := s.runs_iff.1 h
    let high : State := { s with pins := { s.pins with hwakeHigh := true } }
    have hidle : high.doze.idle = 0 := State.idle_of_low (s := s) hsettled hline
    rw [exec_hwakeRise, if_neg (by simp [hline]), onPins_of_settled hp hstart, id,
      finish_of_settled (s := high) hgrant htake hreply, State.settleIdle_of_idle hidle]
  · rw [exec_hwakeRise, if_pos hline]
    exact onPart_nothing h rfl
  · intro told back t
    obtain ⟨hexec, hfinish⟩ := wakeComplete_finishes hp h hstate hc
    obtain ⟨hphase, htx, -, houtputs, hqueue⟩ := s.woken_kept c
    have hback : resumeRunState told = back := by
      cases hr : s.doze.recorded with
      | stopped => simp only [back, hr, resumeRunState_stopped (s := told) hr]
                   rfl
      | running => simp only [back, hr, resumeRunState_running (s := told) hr]
    have ht : t = grantIfFree (s.woken c) := by
      rw [← hfinish]
      refine congrArg finish ?_
      rw [← hback, State.woken]
      cases c <;> rfl
    rw [ht]
    have hframe := grantIfFree_frame (s.woken c)
    have hkept : (grantIfFree (s.woken c)).queue = s.queue.offer (.wake c) s.uptime := by rw [hframe]; exact hqueue
    have hrunning : (grantIfFree (s.woken c)).phase = .running := by rw [hframe]; exact hphase.trans hp
    have hmode : (grantIfFree (s.woken c)).outputs = s.outputs := by rw [hframe]; exact houtputs
    refine ⟨hexec, hkept, by rw [hframe]; exact htx, fun hroom hlevel => (State.attnLow_of_running hrunning).2 (.inl ⟨?_, .inl ?_⟩)⟩
    · rw [hmode, hlevel]
    · rw [hkept]
      exact ReportQueue.offer_wake_unsent hroom c s.uptime

end Sys2Proof.Machine
end

