-- ==== Sys2Proof/Proofs/SavePhases.lean ====
section
/-! SUPPORT. The phases of a save (spec/11_the_profile_store.md, section 11.3). -/

namespace Sys2Proof.Machine

/-! ### The store at the end of a phase (R172, R173) -/

section
variable {st : Store} {x : Staged}

theorem Store.endErasing_taken (h : st.save = .erasing) (hx : st.staged = some x) :
    st.endErasing = { st.setSlot x.target { state := .invalid, cells := .torn } with save := .programming } := by
  rw [Store.endErasing, h, hx]

theorem Store.endErasing_nothing (h : st.save ≠ .erasing) : st.endErasing = st := by
  unfold Store.endErasing
  split
  case h_1 hsave _ => exact absurd hsave h
  case h_2 => rfl

theorem Store.endProgramming_taken (h : st.save = .programming) (hx : st.staged = some x) :
    st.endProgramming =
      { st.setSlot x.target
          { state := .invalid,
            cells := .written { generation := x.generation, image := x.image,
                                checksum := slotChecksum x.generation x.image, mark := false } } with
        save := .verifying } := by
  rw [Store.endProgramming, h, hx]

theorem Store.endProgramming_nothing (h : st.save ≠ .programming) : st.endProgramming = st := by
  unfold Store.endProgramming
  split
  case h_1 hsave _ => exact absurd hsave h
  case h_2 => rfl

end

section
variable {s : State} {x : Staged}

theorem endVerifying_taken (h : s.store.save = .verifying) (hx : s.store.staged = some x) (matched : Bool) :
    endVerifying matched s =
      if matched then { s with store := s.store.beginCommit } else offerDone x false { s with store := s.store.failVerify x } := by
  rw [endVerifying, h, hx]

theorem endVerifying_nothing (h : s.store.save ≠ .verifying) (matched : Bool) : endVerifying matched s = s := by
  unfold endVerifying
  split
  case h_1 hsave _ => exact absurd hsave h
  case h_2 => rfl

theorem endCommitting_taken (h : s.store.save = .committing) (hx : s.store.staged = some x) (mark : Bool) :
    endCommitting mark s = offerDone x mark { s with store := s.store.endCommit x mark } := by
  rw [endCommitting, h, hx]

theorem endCommitting_nothing (h : s.store.save ≠ .committing) (mark : Bool) : endCommitting mark s = s := by
  unfold endCommitting
  split
  case h_1 hsave _ => exact absurd hsave h
  case h_2 => rfl

theorem exec_verifyingEnd (matched : Bool) (s : State) : exec (.verifyingEnd matched) s = onQueue (endVerifying matched) s := rfl

theorem exec_committingEnd (mark : Bool) (s : State) : exec (.committingEnd mark) s = onQueue (endCommitting mark) s := rfl

/-- A save in flight breaks an entry condition. -/
theorem State.idle_of_saving (h : s.idleSettled = true) (hsave : s.store.save ≠ .idle) : s.doze.idle = 0 := by
  have hnot : s.entryConditions = false := by simp [State.entryConditions, hsave]
  simpa [State.idleSettled, State.idleRuns, hnot] using h

theorem State.runs_of_rested (hp : s.phase = .running) (h : s.rested = true) (hstart : s.canStart = false) : s.runs = true := by
  obtain ⟨hgrant, htake, hreply, hidle⟩ := s.rested_iff.1 h
  exact s.runs_iff.2 ⟨hp, hgrant, htake, hreply, hstart, hidle⟩

/-- The end of a save that offers its report, at a part that has no reply due. -/
theorem onQueue_offers (hp : s.phase = .running) (h : s.rested = true) {f : State → State} {rep : Report} {st : Store}
    (hf : f s = offer rep { s with store := st }) : onQueue f s = .next (finish (offer rep { s with store := st })) := by
  obtain ⟨-, -, hreply, -⟩ := s.rested_iff.1 h
  have hquiet : (offer rep { s with store := st }).canReply = false := hreply
  rw [onQueue_of_running hp, hf, reportFirst_of_noReply hquiet]

end

/-- Settles O47: each phase of a save by the store it leaves, and the phases not in progress. -/
theorem savePhasesEnd : Obligations.SavePhasesEnd := by
  intro s x ok hp h hx written put ends
  obtain ⟨hgrant, htake, hreply, hsettled⟩ := s.rested_iff.1 h
  have stored (hstart : s.canStart = false) (hsave : s.store.save ≠ .idle) (st : Store) : State.runs { s with store := st } = true := by
    have hzero := State.idle_of_saving hsettled hsave
    exact State.runs_of_idle (State.runs_of_rested hp h hstart) rfl hgrant rfl rfl rfl rfl hzero
  have restored (hsave : s.store.save ≠ .idle) (st : Store) : State.rested { s with store := st } = true := by
    have hzero := State.idle_of_saving hsettled hsave
    exact State.rested_of_idle h rfl rfl rfl rfl hzero
  refine ⟨fun hstart hsave => ?_, fun hstart hsave => ?_, fun hstart hsave => ?_, fun hstart hsave => ?_, fun hsave => ?_,
    fun hsave => ?_, fun hsave => ?_, fun hsave => ?_, fun hsave => ?_, fun hsave => ?_⟩
  · rw [exec_erasingEnd, ← Store.endErasing_taken hsave hx]
    exact onPart_taken (State.runs_of_rested hp h hstart) rfl (stored hstart (by simp [hsave]) _)
  · rw [exec_erasingEnd]
    refine onPart_nothing (State.runs_of_rested hp h hstart) ?_
    rw [Store.endErasing_nothing hsave]
  · rw [exec_programmingEnd, ← Store.endProgramming_taken hsave hx]
    exact onPart_taken (State.runs_of_rested hp h hstart) rfl (stored hstart (by simp [hsave]) _)
  · rw [exec_programmingEnd]
    refine onPart_nothing (State.runs_of_rested hp h hstart) ?_
    rw [Store.endProgramming_nothing hsave]
  · have hend : endVerifying true s = { s with store := s.store.beginCommit } := endVerifying_taken hsave hx true
    rw [exec_verifyingEnd, onQueue_of_rested hp _ (by rw [hend]; exact restored (by simp [hsave]) _), hend]
    rfl
  · exact onQueue_offers hp h (endVerifying_taken hsave hx false)
  · exact onQueue_nothing hp h (endVerifying_nothing hsave ok)
  · exact onQueue_offers hp h (endCommitting_taken hsave hx true)
  · exact onQueue_offers hp h (endCommitting_taken hsave hx false)
  · exact onQueue_nothing hp h (endCommitting_nothing hsave ok)

end Sys2Proof.Machine
end

