-- ==== Sys2Proof/Proofs/Resets.lean ====
section
/-! SUPPORT. Resets and boot (spec/08_requests_and_responses.md, sections 8.6 and 8.7; spec/11_the_profile_store.md, section 11.6). -/

namespace Sys2Proof.Machine

/-! ### A reset (R148 to R151) -/

theorem vecMap_apply {α β : Type} {n : Nat} (f : α → β) (v : Vector α n) (i : Fin n) : (vecMap f v)[i] = f v[i] := by
  simp [vecMap, vecOf]

theorem vecOf_apply {α : Type} {n : Nat} (f : Fin n → α) (i : Fin n) : (vecOf f)[i] = f i := by simp [vecOf]

section
variable {s : State}

theorem exec_powerOn (s : State) : exec .powerOn s = .next (powerUp s) := rfl

theorem causeOnReset_running (h : s.phase = .running) (cause : ResetCause) : s.causeOnReset cause = cause := by
  rw [State.causeOnReset, h]

/-- A reset that finds another in progress keeps its cause, unless that was a soft reset (R148, R151). -/
theorem causeOnReset_inReset (h : s.phase ≠ .running) (cause : ResetCause) :
    s.causeOnReset cause = if s.resetCause = .line ∨ s.resetCause = .powerOn then s.resetCause else cause := by
  unfold State.causeOnReset
  split
  case h_1 hp => exact absurd hp h
  case h_2 => cases s.resetCause <;> simp [ResetCause.isSoft]

theorem lineReset_of_not_held (h : s.phase ≠ .held) :
    lineReset s = enterReset .line (s.image false) { s with pins := { s.pins with resetHigh := false } } := if_neg h

theorem endFrame_of_response {f : TxFrame} {r : Response} (hsend : s.tx.sending = some f) (hf : f.frame = .response r) :
    endFrame s = afterSend r.after { s with tx := { s.tx with sending := none } } := by
  simp only [endFrame, hsend, hf]

theorem endFrame_of_report {f : TxFrame} {e : ReportEntry} (hsend : s.tx.sending = some f) (hf : f.frame = .report e) :
    endFrame s = { s with tx := { s.tx with sending := none } } := by
  simp only [endFrame, hsend, hf]

/-- The last stop bit of the response to a SOFT_RESET (R150). -/
theorem frameBoundary_resets (hp : s.phase = .running) {f : TxFrame} {r : Response} {m : ResetMode} (hsend : s.tx.sending = some f)
    (hf : f.frame = .response r) (hr : r.after = .reset m) :
    exec .frameBoundary s = .next (enterReset m.cause (s.image false) { s with tx := { s.tx with sending := none } }) := by
  have hend : endFrame s = enterReset m.cause (s.image false) { s with tx := { s.tx with sending := none } } := by
    rw [endFrame_of_response hsend hf, hr]
    rfl
  rw [exec_frameBoundary, onLink_of_running hp, hend, finish_enterReset, startIfFree_enterReset]

theorem ResetMode.cause_eq (m : ResetMode) : m.cause = match m with | .restart => .softRestart | .defaults => .softDefaults := by
  cases m <;> rfl

end

/-- Settles O49: the values a reset leaves, whichever begins it, and the cause recorded. -/
theorem resetBegins : Obligations.ResetBegins := by
  intro s fresh kept
  have hfresh (cause : ResetCause) (im : Image) (u : State) (hu : u.store = s.store) : fresh (enterReset cause im u) := by
    have hrt (k : KeyId) : (enterReset cause im u).rt k = .afterReset (enterReset cause im u).table.keys[k].enabled :=
      vecMap_apply (fun r : KeyRecord => KeyRuntime.afterReset r.enabled) im.keys k
    have hgroup (g : GroupId) : (enterReset cause im u).groups[g] = .fresh im.groups[g] := vecMap_apply ..
    refine ⟨rfl, rfl, rfl, rfl, rfl, rfl, rfl, rfl, rfl, rfl, rfl, rfl, rfl, rfl, rfl, rfl, rfl, fun k => ⟨vecOf_apply .., hrt k⟩, rfl,
      rfl, fun g => ?_, rfl, rfl, rfl, rfl, rfl, rfl, rfl, rfl, ?_⟩
    · rw [hgroup g]
      exact ⟨rfl, rfl, rfl⟩
    · rw [← hu]
      rfl
  refine ⟨⟨powerUp s, exec_powerOn s, hfresh _ _ s rfl, rfl, rfl, fun hp => causeOnReset_running hp _,
    fun hp => causeOnReset_inReset hp _⟩, fun hheld => ?_, fun hnot => ⟨lineReset s, exec_resetLow s, ?_⟩,
    fun f r m hp hsend hf hr => ⟨_, frameBoundary_resets hp hsend hf hr, hfresh _ _ _ rfl, rfl, rfl, ?_⟩⟩
  · rw [exec_resetLow, lineReset_of_held hheld]
  · rw [lineReset_of_not_held hnot]
    let low : State := { s with pins := { s.pins with resetHigh := false } }
    refine ⟨hfresh _ _ low rfl, rfl, rfl, fun hp => causeOnReset_running (s := low) hp _, fun hp => ?_⟩
    exact causeOnReset_inReset (s := low) (by simp [low, hp]) _
  · exact (causeOnReset_running (s := { s with tx := { s.tx with sending := none } }) hp _).trans m.cause_eq

end Sys2Proof.Machine
end

