-- ==== Sys2Proof/Proofs/Boot.lean ====
section
/-! SUPPORT. Boot: the slots examined, the configuration source, and what a boot offers (spec/11_the_profile_store.md, section
11.6). -/

namespace Sys2Proof.Machine

/-! ### The examination of a slot, and the configuration source (R178) -/

theorem Slot.examine_erased {x : Slot} (h : x.cells = .erased) (n : Nat) : x.examine n = { state := .empty, cells := .erased } := by
  rw [Slot.examine, h]

theorem Slot.examine_written {x : Slot} {w : Written} (h : x.cells = .written w) (n : Nat) :
    x.examine n = { state := if w.mark && w.sound then .valid else .invalid, cells := .written w } := by
  rw [Slot.examine, h]

theorem Slot.examine_torn {x : Slot} (h : x.cells = .torn) (n : Nat) :
    (x.examine n).state = .empty ∨ (x.examine n).state = .invalid := by
  rw [Slot.examine, h]
  dsimp only
  split
  · exact .inl rfl
  · exact .inr rfl

theorem Written.sound_iff (w : Written) : w.sound = true ↔ w.checksum = slotChecksum w.generation w.image := decide_eq_true_iff

/-- A part out of reset with its slots examined, before its configuration is written. -/
def State.examined (s : State) : State := examineStore { s with pins := { s.pins with resetHigh := true } }

section
variable {s : State}

theorem State.bootSource_of_defaults (h : s.resetCause = .softDefaults) : s.bootSource = none := if_pos h

theorem State.bootSource_of_none (ha : s.store.slotA.content = none) (hb : s.store.slotB.content = none) : s.bootSource = none := by
  simp [State.bootSource, Store.newest, ha, hb]

theorem State.bootSource_a (h : s.resetCause ≠ .softDefaults) {w : Written} (ha : s.store.slotA.content = some w)
    (hb : ∀ v, s.store.slotB.content = some v → v.generation < w.generation) : s.bootSource = some (.a, w) := by
  have hnewest : s.store.newest = some .a := by
    rw [Store.newest, ha]
    cases hv : s.store.slotB.content with
    | none => rfl
    | some v => exact if_neg (Nat.lt_asymm (hb v hv))
  rw [State.bootSource, if_neg h, hnewest, Option.bind_some, Store.slot, ha, Option.map_some]

theorem State.bootSource_b (h : s.resetCause ≠ .softDefaults) {v : Written} (hb : s.store.slotB.content = some v)
    (ha : ∀ w, s.store.slotA.content = some w → w.generation < v.generation) : s.bootSource = some (.b, v) := by
  have hnewest : s.store.newest = some .b := by
    rw [Store.newest, hb]
    cases hw : s.store.slotA.content with
    | none => rfl
    | some w => exact if_pos (ha w hw)
  rw [State.bootSource, if_neg h, hnewest, Option.bind_some, Store.slot, hb, Option.map_some]

theorem exec_boot_running (h : s.phase = .running) : exec .boot s = .next s := congrArg Host.Outcome.next (if_pos h)

theorem exec_boot_inReset (h : s.phase ≠ .running) :
    exec .boot s = .next (grantIfFree (bootFrom s.examined.bootSource s.examined)) := congrArg Host.Outcome.next (if_neg h)

end

/-! ### What a boot leaves (R57, R114, R179) -/

theorem autostart_eq (im : Image) (s : State) :
    autostart im s = if im.autostart = true ∧ im.plan.entries ≠ [] then startScanning s else s := by
  simp [autostart]

/-- An autostart touches the sequencer, its claim and the windows alone. -/
theorem autostart_frame (im : Image) (s : State) :
    autostart im s = { s with seq := (autostart im s).seq, claims := (autostart im s).claims, track := (autostart im s).track } := by
  rw [autostart]
  split
  · rw [startScanning, cycleStart_frame]
    rfl
  · rfl

/-- BOOT finds the queue empty: it is entry 0, UNSENT. -/
theorem offer_boot_afterReset (cause : ResetCause) (source : Option SlotId) (generation now : Nat) :
    ReportQueue.afterReset.offer (.boot cause source generation) now =
      { ReportQueue.afterReset with
        entries := [{ seq := 0, report := .boot cause source generation, time := now, sent := false }], nextSeq := 1 } := rfl

/-- The part with its configuration written and BOOT offered. -/
def State.told (src : Option (SlotId × Written)) (s : State) : State :=
  offer (bootReport s.resetCause src) (writeConfiguration (sourceImage src) s)

theorem State.told_entries (src : Option (SlotId × Written)) (s : State) :
    (s.told src).queue.entries = [{ seq := 0, report := bootReport s.resetCause src, time := 0, sent := false }] :=
  congrArg ReportQueue.entries (offer_boot_afterReset ..)

theorem State.told_attnPulse (src : Option (SlotId × Written)) (s : State) :
    (s.told src).attnPulse = decide ((s.told src).outputs.attnMode = .pulse) := Bool.and_true _

theorem State.told_attnLow (src : Option (SlotId × Written)) (s : State) :
    (s.told src).attnLow = decide ((s.told src).outputs.attnMode ≠ .off) := by
  rw [Bool.eq_iff_iff, State.attnLow_of_running rfl, State.told_entries, State.told_attnPulse]
  cases (s.told src).outputs.attnMode <;> simp

/-- A boot that has told of itself may start scanning: the engine, its claims, the sequencer and the windows alone. -/
theorem bootFrom_frame (src : Option (SlotId × Written)) (s : State) :
    ∃ engine claims seq track, grantIfFree (bootFrom src s) =
      { s.told src with engine := engine, claims := claims, seq := seq, track := track } := by
  have hstarted : bootFrom src s = autostart (sourceImage src) (s.told src) := rfl
  rw [grantIfFree_frame, hstarted, autostart_frame]
  exact ⟨_, _, _, _, rfl⟩

/-- What a boot leaves that no configuration source decides: BOOT alone in the queue, and ATTN low unless its mode is OFF. -/
theorem bootFrom_leaves (src : Option (SlotId × Written)) (s : State) :
    let t := grantIfFree (bootFrom src s)
    t.phase = .running ∧ t.uptime = 0 ∧ t.tx.sending = none ∧
      (∃ source generation, t.queue.entries =
        [{ seq := 0, report := .boot s.resetCause source generation, time := 0, sent := false }]) ∧
      t.attnLow = decide (t.outputs.attnMode ≠ .off) := by
  obtain ⟨engine, claims, seq, track, hframe⟩ := bootFrom_frame src s
  intro t
  rw [show t = _ from hframe]
  exact ⟨rfl, rfl, rfl, ⟨_, _, s.told_entries src⟩, s.told_attnLow src⟩

/-- Settles O50: each configuration source, the boot from it, the examination of the slots, and what every boot leaves. -/
theorem bootWritesConfiguration : Obligations.BootWritesConfiguration := by
  intro s a b up boots
  have hboots (hp : s.phase ≠ .running) {src : Option (SlotId × Written)} (hsrc : s.examined.bootSource = src) :
      exec .boot s = boots (sourceImage src) (src.map Prod.fst) ((src.map fun x => x.2.generation).getD 0) := by
    rw [exec_boot_inReset hp, hsrc, bootFrom, autostart_eq]
    rfl
  refine ⟨exec_boot_running, fun hp => ⟨fun h => ?_, fun ha hb => ?_, fun h w ha hb => ?_, fun h v hb ha => ?_, ?_⟩,
    fun x n => ⟨fun h => Slot.examine_erased h n, fun w h hmark hsum => ?_, fun w h hbad => ?_, fun h => Slot.examine_torn h n⟩,
    fun im => ⟨rfl, rfl, rfl, rfl, rfl, rfl, rfl, fun g => ?_, fun k => ?_⟩⟩
  · exact hboots hp (State.bootSource_of_defaults (s := s.examined) h)
  · exact hboots hp (State.bootSource_of_none (s := s.examined) ha hb)
  · exact hboots hp (State.bootSource_a (s := s.examined) h ha hb)
  · exact hboots hp (State.bootSource_b (s := s.examined) h hb ha)
  · exact ⟨_, exec_boot_inReset hp, bootFrom_leaves s.examined.bootSource s.examined⟩
  · rw [Slot.examine_written h, if_pos (by simp [hmark, w.sound_iff.2 hsum])]
  · rw [Slot.examine_written h, if_neg]
    rw [Bool.and_eq_true, w.sound_iff]
    rintro ⟨hmark, hsum⟩
    exact hbad.elim (by simp [hmark]) fun hne => hne hsum
  · exact congrArg Group.config (vecMap_apply Group.fresh im.groups g)
  · exact congrArg KeyRuntime.state (vecMap_apply (fun r : KeyRecord => KeyRuntime.afterReset r.enabled) im.keys k)

end Sys2Proof.Machine
end

