-- ==== Sys2Proof/Proofs/Boundaries.lean ====
section
/-! SUPPORT. The frame boundary: what waited for the end of the frame, and the request that the handler may take after it
(spec/07_the_host_link.md, sections 7.4 and 7.9; spec/08_requests_and_responses.md, section 8.1). -/

namespace Sys2Proof.Machine

section
variable {s : State}

/-! ### The handler takes a request (R140) -/

theorem State.canTake_iff (s : State) : s.canTake = true ↔
    s.handler.executing = none ∧ s.handler.pendingReset = none ∧ s.tx.respSlot = none ∧ s.handler.inbox ≠ [] := by
  simp [State.canTake, and_assoc]

theorem takeRequest_of_cons {r : Request} {rest : List Request} (h : s.handler.inbox = r :: rest) :
    takeRequest s = executeRequest r { s with handler := { s.handler with inbox := rest, executing := some r } } := by
  rw [takeRequest, h]

/-- Rounds past those that can be due change nothing. -/
theorem settleMany_enough {n : Nat} (h : s.dueAtMost ≤ n) (m : Nat) : settleMany (n + m) s = settleMany n s := by
  induction m with
  | zero => rfl
  | succ m ih => rw [← Nat.add_assoc, settleMany_succ, ih, settleOnce_of_settled (settleMany_settled h)]

/-- A request executed while the transmitter is SENDING leaves one grant due at most. -/
theorem executeRequest_dueAtMost {r : Request} (he : s.handler.executing = some r) (hsend : s.tx.sending ≠ none) :
    (executeRequest r s).dueAtMost ≤ 1 := by
  obtain ⟨hsending, -, hbusy⟩ := executeRequest_executes he
  have hnot : ¬((executeRequest r s).handler.executing = none ∧ (executeRequest r s).tx.respSlot = none) := by tauto
  simp only [State.dueAtMost, hsending, if_neg hsend, if_neg hnot]
  split <;> omega

theorem startFrame_response {r : Response} (h : s.tx.respSlot = some r) :
    startFrame s = { s with tx := { s.tx with sending := some { frame := .response r, rate := s.linkCfg.rate }, respSlot := none } } := by
  rw [startFrame, h]
  rfl

/-- An IDLE transmitter starts the response that waited for it, and the handler then takes the next request, in the same event. -/
theorem finish_response_then_request {waiting : Response} {r : Request} {rest : List Request} (hgrant : s.canGrant = false)
    (hsend : s.tx.sending = none) (hslot : s.tx.respSlot = some waiting) (hfree : s.handler.executing = none)
    (hreset : s.handler.pendingReset = none) (hinbox : s.handler.inbox = r :: rest) :
    finish s = finish (executeRequest r { s with
      tx := { s.tx with sending := some { frame := .response waiting, rate := s.linkCfg.rate }, respSlot := none }
      handler := { s.handler with inbox := rest, executing := some r } }) := by
  let started : State := { s with
    tx := { s.tx with sending := some { frame := .response waiting, rate := s.linkCfg.rate }, respSlot := none } }
  have hstart : startFrame s = started := startFrame_response hslot
  have hfirst : settleOnce s = started := by
    simp [settleOnce, hgrant, hstart, State.canTake, State.canReply, hslot, hsend]
  have hsecond : settleOnce started = executeRequest r { started with handler := { s.handler with inbox := rest, executing := some r } } := by
    have htake : started.canTake = true := (State.canTake_iff started).2 ⟨hfree, hreset, rfl, by simp [started, hinbox]⟩
    have hgrant' : started.canGrant = false := hgrant
    simp only [settleOnce, hgrant', htake, Bool.false_eq_true, if_false, if_true]
    exact takeRequest_of_cons hinbox
  have hmany : settleMany 4 s = settleMany 2 (settleOnce (settleOnce s)) := rfl
  have hone := executeRequest_dueAtMost (r := r) (s := { started with handler := { s.handler with inbox := rest, executing := some r } })
    rfl (Option.some_ne_none _)
  rw [finish, finish, settleSteps, hmany, hfirst, hsecond, settleMany_enough hone 1, ← settleMany_enough hone 3]

/-! ### The end of the frame on the line -/

/-- A report, and a response for which nothing waits, leave the transmitter IDLE and nothing else. -/
theorem endFrame_plain {f : TxFrame} (hsend : s.tx.sending = some f)
    (hplain : (∃ e, f.frame = .report e) ∨ ∃ r : Response, f.frame = .response r ∧ r.after = .nothing) :
    endFrame s = { s with tx := { s.tx with sending := none } } := by
  rcases hplain with ⟨e, hf⟩ | ⟨r, hf, hafter⟩
  · exact endFrame_of_report hsend hf
  · rw [endFrame_of_response hsend hf, hafter]
    rfl

end

/-- Settles O36: the end of a frame by what waited for it, and the request the handler takes once its response slot is empty. -/
theorem frameBoundaryTaken : Obligations.FrameBoundaryTaken := by
  intro s
  refine ⟨s.canTake_iff, fun r rest h => takeRequest_of_cons h, frameBoundary_nothing, fun hruns f hsend => ?_⟩
  obtain ⟨hp, hgrant, -⟩ := (State.runs_iff s).1 hruns
  intro free plain
  have hplain (h : plain) : exec .frameBoundary s = .next (startIfFree (finish free)) := by
    rw [exec_frameBoundary, onLink_of_running hp, endFrame_plain hsend h]
  refine ⟨hplain, fun waiting r rest h hslot hfree hreset hinbox => ?_, fun r b hf hafter => ?_, fun r m hf hafter => ?_⟩
  · rw [hplain h, finish_response_then_request (s := free) hgrant rfl hslot hfree hreset hinbox]
  · rw [exec_frameBoundary, onLink_of_running hp, endFrame_of_response hsend hf, hafter]
    rfl
  · rw [frameBoundary_resets hp hsend hf hafter]
    cases m <;> rfl

end Sys2Proof.Machine
end

