-- ==== Sys2Proof/Proofs/Arbiter.lean ====
section
/-! SUPPORT. The transmitter arbiter: what an IDLE transmitter starts, and the commands that find a ready report on the line before them
(spec/07_the_host_link.md, sections 7.4 and 7.5). -/

namespace Sys2Proof.Machine

/-! ### The candidates (R123, R125) -/

section
variable {s : State}

theorem State.canReply_iff (s : State) : s.canReply = true ↔
    s.tx.sending = none ∧ (s.tx.respSlot.isSome = true ∨ s.handler.pendingReset = none ∧ s.tx.overflow.isSome = true) := by
  simp [State.canReply]

theorem State.reportReady_iff (s : State) : s.reportReady = true ↔ s.delivery.link = .active ∧
    (∃ e ∈ s.queue.entries, e.sent = false) ∧ (s.queue.entries.countP fun e => e.sent) < s.delivery.window := by
  rw [← ReportQueue.sentCount]
  simp [State.reportReady, ReportQueue.hasUnsent, and_assoc]

theorem State.canReport_iff (s : State) : s.canReport = true ↔ s.tx.sending = none ∧ s.handler.pendingReset = none ∧
    s.delivery.link = .active ∧ (∃ e ∈ s.queue.entries, e.sent = false) ∧
      (s.queue.entries.countP fun e => e.sent) < s.delivery.window := by
  rw [State.canReport, Bool.and_eq_true, s.reportReady_iff]
  simp [and_assoc]

theorem State.canStart_of_sending (h : s.tx.sending.isSome = true) : s.canStart = false := by
  simp [State.canStart, State.canReply, State.canReport, ← Option.not_isSome, h]

theorem State.canStart_of_canReply (h : s.canReply = true) : s.canStart = true := by simp [State.canStart, h]

/-- With no reply waiting, the arbiter starts a report or nothing. -/
theorem State.canStart_of_noReply (hslot : s.tx.respSlot = none) (hover : s.tx.overflow = none) : s.canStart = s.canReport := by
  simp [State.canStart, State.canReply, hslot, hover]

theorem State.canStart_of_pendingReset (hslot : s.tx.respSlot = none) (h : s.handler.pendingReset.isSome = true) : s.canStart = false := by
  simp [State.canStart, State.canReply, State.canReport, hslot, ← Option.not_isSome, h]

theorem startFrame_overflow {r : Response} (hslot : s.tx.respSlot = none) (h : s.tx.overflow = some r) :
    startFrame s = { s with tx := { s.tx with sending := some { frame := .response r, rate := s.linkCfg.rate }, overflow := none } } := by
  rw [startFrame, hslot, h]
  rfl

theorem startFrame_noReply (hslot : s.tx.respSlot = none) (hover : s.tx.overflow = none) : startFrame s = startOldest s := by
  rw [startFrame, hslot, hover]

end

/-! ### The oldest UNSENT report (R109, R125) -/

section
variable {older newer : List ReportEntry} {e : ReportEntry}

theorem ReportQueue.oldestUnsent_of_append {q : ReportQueue} (h : q.entries = older ++ e :: newer) (holder : ∀ x ∈ older, x.sent = true)
    (he : e.sent = false) : q.oldestUnsent = some e := by
  have hnone : older.find? (fun x => !x.sent) = none := by simpa using holder
  rw [ReportQueue.oldestUnsent, h, List.find?_append, hnone, Option.none_or, List.find?_cons_of_pos (by simp [he])]

theorem markOldest_append (holder : ∀ x ∈ older, x.sent = true) (he : e.sent = false) :
    markOldest (older ++ e :: newer) = older ++ { e with sent := true } :: newer := by
  induction older with
  | nil => simp [markOldest, he]
  | cons x xs ih =>
    obtain ⟨hx, hxs⟩ := List.forall_mem_cons.1 holder
    rw [List.cons_append, markOldest, if_pos hx, ih hxs, List.cons_append]

/-- The oldest UNSENT report started: it is SENT, on the line, and the ack timer runs. -/
theorem startOldest_of_append {s : State} (h : s.queue.entries = older ++ e :: newer) (holder : ∀ x ∈ older, x.sent = true)
    (he : e.sent = false) :
    startOldest s = { s with
      queue := { s.queue with entries := older ++ { e with sent := true } :: newer }
      tx := { s.tx with sending := some { frame := .report { e with sent := true }, rate := s.linkCfg.rate } }
      delivery := { s.delivery with
        ackTimer := s.delivery.ackTimer.or (some { start := s.uptime, span := s.linkCfg.settings.ackTimeout }) } } := by
  have hmarked : s.queue.markSent = { s.queue with entries := older ++ { e with sent := true } :: newer } := by
    rw [ReportQueue.markSent, h, markOldest_append holder he]
  have hold : startOldest s = startReport { e with sent := true } s := by
    rw [startOldest, ReportQueue.oldestUnsent_of_append h holder he]
  rw [hold, startReport, hmarked, State.withQueue_of_nextSeq (by rfl)]
  rfl

end

/-! ### What a frame started leaves, and does not look at -/

section
variable (s : State)

/-- A frame started does not look at the receiver and the error counters. -/
theorem startFrame_setReceiver (x : Receiver) (c : Counters) :
    startFrame { s with rx := x, counters := c } = { startFrame s with rx := x, counters := c } := by
  unfold startFrame startOldest
  dsimp only
  repeat' split
  all_goals rfl

theorem startFrame_searchAgain : startFrame (searchAgain s) = searchAgain (startFrame s) := by
  unfold startFrame startOldest
  dsimp only [searchAgain]
  repeat' split
  all_goals rfl

/-- Nor at the pins. -/
theorem startFrame_setPins (p : Pins) : startFrame { s with pins := p } = { startFrame s with pins := p } := by
  unfold startFrame startOldest
  dsimp only
  repeat' split
  all_goals rfl

end

/-! ### A report ready before a command (log entry 26) -/

/-- What a report started leaves of a part that runs at rest. -/
structure State.Started (s t : State) : Prop where
  phase : t.phase = .running
  rested : t.rested = true
  sending : t.tx.sending.isSome = true
  pins : t.pins = s.pins
  rx : t.rx = s.rx
  counters : t.counters = s.counters
  pending : t.pending = s.pending
  noReset : t.handler.pendingReset = none
  power : powerUp t = powerUp s
  low : lineReset t = lineReset s

/-- What an event does to the receiver and the error counters alone, seen from any part that has those of `s`. -/
def State.Receives (s : State) (f : State → State) : Prop :=
  ∃ (x : Receiver) (c : Counters), ∀ u : State, u.rx = s.rx → u.counters = s.counters → f u = { u with rx := x, counters := c }

section
variable {s : State} (hp : s.phase = .running) (h : s.rested = true) (hs : s.canStart = true)
include hp h hs

theorem startFrame_started : s.Started (startFrame s) := by
  have hrested : (startFrame s).rested = true := startIfFree_of_canStart hs ▸ startIfFree_rested h
  obtain ⟨e, -, -, -, -, hreset, hstart⟩ := startFrame_of_rested h hs
  rw [hstart] at hrested ⊢
  have hrun : (startReport { e with sent := true } s).phase = .running := hp
  refine ⟨hrun, hrested, rfl, rfl, rfl, rfl, rfl, hreset, rfl, ?_⟩
  rw [lineReset_of_not_held (by rw [hrun]; nofun), lineReset_of_not_held (by rw [hp]; nofun)]
  rfl

theorem startIfFree_startFrame : startIfFree (startFrame s) = startFrame s :=
  startIfFree_of_settled (State.canStart_of_sending (startFrame_started hp h hs).sending)

/-- A command given to the part finds the report on the line before it. -/
theorem onPart_started (f : State → State) : onPart f s = onPart f (startFrame s) := by
  rw [onPart, onPart, startIfFree_of_canStart hs, startIfFree_startFrame hp h hs, if_pos hp, if_pos (startFrame_started hp h hs).phase]

theorem onPins_started (p : Pins) (f : State → State) : onPins p f s = onPins p f (startFrame s) := by
  obtain ⟨hp', -, hsend, -⟩ := startFrame_started hp h hs
  have hstart : startIfFree { s with pins := p } = { startFrame s with pins := p } :=
    (startIfFree_of_canStart (s := { s with pins := p }) hs).trans (startFrame_setPins s p)
  have hidle : startIfFree { startFrame s with pins := p } = { startFrame s with pins := p } :=
    startIfFree_of_settled (State.canStart_of_sending (s := { startFrame s with pins := p }) hsend)
  rw [onPins, onPins, onPart, onPart, if_pos hp, if_pos hp', hstart, hidle]

/-- A change of the receiver and the error counters alone may come before the report or after it. -/
theorem onLink_received {f : State → State} (hf : s.Receives f) : onLink f s = onLink f (startFrame s) := by
  obtain ⟨x, c, hf⟩ := hf
  obtain ⟨hp', h', hsend, -, hrx, hcounters, -⟩ := startFrame_started hp h hs
  have hbefore : finish { s with rx := x, counters := c } = { s with rx := x, counters := c } := finish_of_rested h
  have hafter : finish { startFrame s with rx := x, counters := c } = { startFrame s with rx := x, counters := c } := finish_of_rested h'
  have hstart : startIfFree { s with rx := x, counters := c } = { startFrame s with rx := x, counters := c } :=
    (startIfFree_of_canStart (s := { s with rx := x, counters := c }) hs).trans (startFrame_setReceiver s x c)
  have hidle : startIfFree { startFrame s with rx := x, counters := c } = { startFrame s with rx := x, counters := c } :=
    startIfFree_of_settled (State.canStart_of_sending (s := { startFrame s with rx := x, counters := c }) hsend)
  rw [onLink_of_running hp, onLink_of_running hp', hf s rfl rfl, hf _ hrx hcounters, hbefore, hafter, hstart, hidle]

/-- A REQUEST frame has the report on the line before it is taken. -/
theorem passRequest_started (r : Request) : passRequest r (searchAgain s) = passRequest r (searchAgain (startFrame s)) := by
  obtain ⟨-, -, -, -, -, hreset, -⟩ := startFrame_of_rested h hs
  obtain ⟨-, -, hsend, -, -, -, -, hreset', -⟩ := startFrame_started hp h hs
  have hstart : startIfFree (searchAgain s) = searchAgain (startFrame s) :=
    (startIfFree_of_canStart (s := searchAgain s) hs).trans (startFrame_searchAgain s)
  have hidle : startIfFree (searchAgain (startFrame s)) = searchAgain (startFrame s) :=
    startIfFree_of_settled (State.canStart_of_sending (s := searchAgain (startFrame s)) hsend)
  have hpassed (u : State) (hu : u.handler.pendingReset = none) : passRequest r (searchAgain u) = takeRequestFrame r (startIfFree (searchAgain u)) :=
    if_neg (by simp [searchAgain, hu])
  rw [hpassed s hreset, hpassed _ hreset', hstart, hidle]

theorem idleStep_started (hover : s.enteringOver = false) : idleStep s = idleStep (startFrame s) := by
  obtain ⟨hp', -, hsend, -⟩ := startFrame_started hp h hs
  have hover' : (startFrame s).enteringOver = false := by simp [State.enteringOver, ← Option.not_isSome, hsend]
  simp only [idleStep, hp, hp', hover, hover', startIfFree_of_canStart hs, startIfFree_startFrame hp h hs,
    Bool.false_eq_true, if_false]

end

section
variable {s : State}

/-! ### Frames and bytes -/

theorem takeByte_receives (b : Byte) (h : s.rx.state ≠ .crc) : s.Receives (takeByte b) := by
  cases hstate : s.rx.state with
  | disabled => exact ⟨s.rx, s.counters, fun u hu hc => by rw [takeByte_disabled b (by rw [hu, hstate]), ← hu, ← hc]⟩
  | searching =>
    by_cases hb : b = 0x5A#8
    · subst hb
      exact ⟨{ state := .length, len := 0, bytes := [] }, s.counters, fun u hu hc => by rw [takeByte_start (by rw [hu, hstate]), ← hc]⟩
    · exact ⟨s.rx, s.counters.addNoise, fun u hu hc => by rw [takeByte_noise b (by rw [hu, hstate]) hb, State.count, ← hu, ← hc]⟩
  | length =>
    by_cases hb : 3 ≤ b.toNat ∧ b.toNat ≤ 250
    · exact ⟨{ state := .body, len := b.toNat, bytes := [] }, s.counters, fun u hu hc => by
        rw [takeByte_length b (by rw [hu, hstate]) hb.1 hb.2, ← hc]⟩
    · exact ⟨.searching, s.counters.addLength, fun u hu hc => by
        rw [takeByte_badLength b (by rw [hu, hstate]) (by omega), State.count, searchAgain, ← hc]⟩
  | body =>
    refine ⟨(takeByte b s).rx, s.counters, fun u hu hc => ?_⟩
    simp only [takeByte, hu, hstate]
    rw [← hc]
  | crc => exact absurd hstate h

/-- A body of a class other than REQUEST and FLOW, or a REQUEST without a tag and a code, is counted (R120). -/
theorem passBody_other {body : List Byte} (hrequest : ∀ tag code payload, body ≠ 0x01 :: tag :: code :: payload)
    (hflow : body.head? ≠ some 0x04) : passBody body s = s.count Counters.addClass := by
  unfold passBody
  split
  case h_1 tag code payload => exact absurd rfl (hrequest tag code payload)
  case h_2 => exact absurd rfl hflow
  case h_3 => rfl

/-- A frame whose CRC matches and that is a flow frame by its class and its length is that flow frame. -/
theorem receiveFrame_flow {flags a0 a1 w : Byte} {crc : Word} (h : bodyCrc [0x04, flags, a0, a1, w] = crc) :
    receiveFrame [0x04, flags, a0, a1, w] crc = receiveFlow flags (BitVec.ofNat 16 (a0.toNat + 256 * a1.toNat)) w :=
  congrArg receiving (funext fun _ => if_pos h)

theorem exec_strayByte_started (hp : s.phase = .running) (h : s.rested = true) (hs : s.canStart = true) (b : Byte)
    (hcrc : s.rx.state ≠ .crc) : exec (.strayByte b) s = exec (.strayByte b) (startFrame s) := by
  rw [exec_strayByte, exec_strayByte, onLink_received hp h hs (takeByte_receives b hcrc)]

/-- A frame that is no flow frame: it is not taken, or it is counted, or it is a REQUEST frame. -/
theorem exec_frameDiscard_started (hp : s.phase = .running) (h : s.rested = true) (hs : s.canStart = true) {body : List Byte} (crc : Word)
    (hflow : body.head? ≠ some 0x04) : exec (.frameDiscard body crc) s = exec (.frameDiscard body crc) (startFrame s) := by
  rw [exec_frameDiscard, exec_frameDiscard]
  by_cases hrx : s.rx.state = .disabled
  · exact onLink_received hp h hs ⟨s.rx, s.counters, fun u hu hc => by
      rw [receiveFrame, receiving, if_pos (by rw [hu, hrx]), ← hu, ← hc]⟩
  have counted (f : Counters → Counters) (hcount : ∀ u : State, checkFrame body crc u = u.count f) :
      onLink (receiveFrame body crc) s = onLink (receiveFrame body crc) (startFrame s) :=
    onLink_received hp h hs ⟨.searching, f s.counters, fun u hu hc => by
      rw [receiveFrame_enabled (by rwa [hu]), hcount, ← hc]
      rfl⟩
  by_cases hcrc : bodyCrc body = crc
  · have hpass (u : State) : checkFrame body crc u = passBody body u := if_pos hcrc
    by_cases hrequest : ∃ tag code payload, body = 0x01 :: tag :: code :: payload
    · obtain ⟨tag, code, payload, rfl⟩ := hrequest
      obtain ⟨hp', -, -, -, hrx', -⟩ := startFrame_started hp h hs
      have hpassed : receiveFrame (0x01 :: tag :: code :: payload) crc s =
          receiveFrame (0x01 :: tag :: code :: payload) crc (startFrame s) := by
        rw [receiveFrame_enabled hrx, receiveFrame_enabled (by rwa [hrx']), hpass, hpass]
        exact passRequest_started hp h hs _
      rw [onLink_of_running hp, onLink_of_running hp', hpassed]
    · exact counted Counters.addClass fun u => (hpass u).trans
        (passBody_other (fun tag code payload hb => hrequest ⟨tag, code, payload, hb⟩) hflow)
  · exact counted Counters.addCrc fun u => if_neg hcrc

/-! ### The other commands -/

/-- A command that neither offers a report nor runs out the ack timer finds the ready report on the line, and so does a reset. -/
theorem exec_started (hp : s.phase = .running) (h : s.rested = true) (hs : s.canStart = true) (c : Instr) (hboot : c ≠ .boot)
    (hboundary : c ≠ .frameBoundary) (hflow : ∀ flags ack window, c ≠ .flowFrame flags ack window)
    (hframe : ∀ body crc, c ≠ .frameDiscard body crc) (hbyte : ∀ b, c ≠ .strayByte b) (hack : c ≠ .ackTimerExpiry)
    (hdischarge : c ≠ .dischargeEnd) (htransfer : ∀ trip, c ≠ .transferEnd trip) (hperiod : c ≠ .periodTimerExpiry)
    (hwake : c ≠ .wakeComplete) (hverify : ∀ ok, c ≠ .verifyingEnd ok) (hcommit : ∀ ok, c ≠ .committingEnd ok) :
    exec c s = exec c (startFrame s) := by
  have part := onPart_started hp h hs
  have edge := onPins_started hp h hs
  obtain ⟨-, -, -, hpins, -, -, -, -, hpower, hlow⟩ := startFrame_started hp h hs
  cases c
  case boot => exact absurd rfl hboot
  case frameBoundary => exact absurd rfl hboundary
  case flowFrame flags ack window => exact absurd rfl (hflow flags ack window)
  case frameDiscard body crc => exact absurd rfl (hframe body crc)
  case strayByte b => exact absurd rfl (hbyte b)
  case ackTimerExpiry => exact absurd rfl hack
  case dischargeEnd => exact absurd rfl hdischarge
  case transferEnd trip => exact absurd rfl (htransfer trip)
  case periodTimerExpiry => exact absurd rfl hperiod
  case wakeComplete => exact absurd rfl hwake
  case verifyingEnd ok => exact absurd rfl (hverify ok)
  case committingEnd ok => exact absurd rfl (hcommit ok)
  case hwakeFall => rw [exec_hwakeFall, exec_hwakeFall, hpins, part, edge]
  case hwakeRise => rw [exec_hwakeRise, exec_hwakeRise, hpins, part, edge]
  case bselEdge => rw [exec_bselEdge, exec_bselEdge, hpins, edge]
  case powerOn => rw [exec_powerOn, exec_powerOn, hpower]
  case resetLow => rw [exec_resetLow, exec_resetLow, hlow]
  case erasingEnd => rw [exec_erasingEnd, exec_erasingEnd, part]
  case programmingEnd => rw [exec_programmingEnd, exec_programmingEnd, part]
  case attnPulseEnd => rw [exec_attnPulseEnd, exec_attnPulseEnd, part]
  all_goals exact part _

end

/-- Settles O37: what an IDLE transmitter starts and when, and the commands that a ready report comes before, or goes after. -/
theorem arbiterStartsFrame : Obligations.ArbiterStartsFrame := by
  intro s reported
  have hreported {older newer : List ReportEntry} {e : ReportEntry} (hq : s.queue.entries = older ++ e :: newer)
      (holder : ∀ x ∈ older, x.sent = true) (he : e.sent = false) : startOldest s = reported older e newer := by
    rw [startOldest_of_append hq holder he]
    cases ht : s.delivery.ackTimer <;> simp only [reported, ht] <;> rfl
  refine ⟨State.canStart_of_sending, fun hsend => ⟨fun r hslot => ⟨?_, startFrame_response hslot⟩, State.canStart_of_pendingReset,
    fun hslot hreset r hover => ⟨?_, startFrame_overflow hslot hover⟩, fun hslot hreset hover => ⟨?_, fun older e newer hq holder he => ?_⟩⟩,
    rfl, s.canReport_iff, reportFirst_false s, fun hnone => ?_, fun hreport hreply older e newer hq holder he => ?_, fun hp h hs => ?_⟩
  · exact State.canStart_of_canReply (s.canReply_iff.2 ⟨hsend, .inl (by rw [hslot]; rfl)⟩)
  · exact State.canStart_of_canReply (s.canReply_iff.2 ⟨hsend, .inr ⟨hreset, by rw [hover]; rfl⟩⟩)
  · rw [State.canStart_of_noReply hslot hover, s.canReport_iff]
    simp [hsend, hreset]
  · rw [startFrame_noReply hslot hover, hreported hq holder he]
  · rcases hnone with hreport | ⟨hslot, hover⟩
    · simp [reportFirst, hreport]
    · exact reportFirst_of_noReply (by simp [State.canReply, hslot, hover]) true
  · obtain ⟨hsend, hreset, -⟩ := s.canReport_iff.1 hreport
    have hready : s.canReply = true := s.canReply_iff.2 ⟨hsend, hreply.imp id fun h => ⟨hreset, h⟩⟩
    rw [reportFirst, hready, hreport, hreported hq holder he]
    rfl
  · obtain ⟨e, -, hsend, -, -, hreset, -⟩ := startFrame_of_rested h hs
    refine ⟨?_, fun flags ack window hflags hrx => exec_flowFrame_taken flags ack window s hp h hrx hreset hflags,
      fun flags a0 a1 window crc hcrc => ?_, fun body crc => exec_frameDiscard_started hp h hs crc,
      fun b => exec_strayByte_started hp h hs b, exec_started hp h hs, fun hpending hover => ?_⟩
    · rw [frameBoundary_nothing hp h hsend, startIfFree_of_canStart hs]
    · rw [exec_frameDiscard, exec_flowFrame, receiveFrame_flow hcrc]
    · obtain ⟨-, -, -, -, -, -, hkept, -⟩ := startFrame_started hp h hs
      rw [step, step, hkept, hpending, idleStep_started hp h hs hover]

end Sys2Proof.Machine
end
